-- ==== Sys2Proof/Word.lean ====
section
/-! DEFINITION. Word.lean: the two word types of the engine. A byte is what one exchange of the wire carries, a word is the
32-bit width of the operand latches, of the command argument and of a buffer address (spec 10_state.md R22, R23). Bit 0 is the
least significant bit and every quantity is unsigned (00_scope.md R9). -/

namespace Sys2Proof

/-- One byte on the wire, in buffer memory, or of the host operation word. -/
abbrev Byte := BitVec 8

/-- A 32-bit operand, argument or buffer address. -/
abbrev Word := BitVec 32

end Sys2Proof
end

