-- ==== Sys2Proof/Config.lean ====
section
/-! DEFINITION. Config.lean: the constants 00_scope.md R7 fixes, and the one free value of the model: what the card (or the
released bus) answers to an exchange that no script gives (10_state.md R20, R37; 40_bus_transport.md R130). -/

namespace Sys2Proof.Config

/-- BLOCK_LEN: bytes in a data block, the sector size, and the factor between sector number and byte address. -/
def blockLen : Nat := 512

/-- CSD_LEN: bytes in the CSD register. -/
def csdLen : Nat := 16

/-- R1_ATTEMPTS: the most exchanges one R1 poll makes. -/
def r1Attempts : BitVec 4 := 10

/-- T_NEG_MS: the negotiation window. -/
def tNegMs : BitVec 16 := 1000

/-- T_TOK_MS: the wait for a data start token. -/
def tTokMs : BitVec 16 := 200

/-- T_RDY_MS: the card readiness wait. -/
def tRdyMs : BitVec 16 := 500

/-- The least value of N_INIT_DUMMY (00_scope.md R8). -/
def minInitDummy : Nat := 74

/-- FILLER: sent when the engine only wants to receive. -/
def filler : Byte := 0xFF

/-- TOK_START: the start token of every received block and of a single-block write. -/
def tokStart : Byte := 0xFE

/-- TOK_MULTI: the start token of every block of a multi-block write. -/
def tokMulti : Byte := 0xFC

/-- TOK_STOP: the stop token of a multi-block write. -/
def tokStop : Byte := 0xFD

/-- ARG_CMD8: the argument of CMD8. -/
def argCmd8 : Word := 0x000001AA

/-- ARG_HCS: the argument of ACMD41 on the v2 path, `1 << 30`. -/
def argHcs : Word := 0x40000000

/-- FREE VALUE. The byte the oracle CARD answers to the `n`-th exchange that no script answers: "`rx` is the answer of the oracle
CARD and is not constrained by this spec" (R130). Nothing is known of it, so a claim holds for every card. Log entry 6. -/
opaque cardByte : Nat → Byte

end Sys2Proof.Config
end

