-- ==== Sys2Proof/Syntax.lean ====
section
/-! DEFINITION. Syntax.lean: the instructions of the engine, one constructor for each row of spec/opcode_table.json. "Instruction"
is read as 00_scope.md R12 fixes it: a host operation, an event, an SD command frame, a token, a response pattern or a result
code. A constructor carries the operands the row's format carries; a don't-care field is carried too, so that no bit of an
encoding is dropped. -/

namespace Sys2Proof

/-- The formats of the opcode table (30_encoding.md R90): where a word of the table travels. A word has a meaning only together
with its format, since an 8-bit value may be an event, a token, a response or a result code. -/
inductive Format where
  | hostop | event | cmdframe | token | r1 | dataresp | result
  deriving DecidableEq, Repr

/-- The instructions, in the table's order. -/
inductive Instr where
  -- HOSTOP: the word {SEL, OP} and the operand latches the operation uses (R91)
  | initCard (sel : Byte)
  | status (sel : Byte)
  | read (sel : Byte) (buf sector count : Word)
  | write (sel : Byte) (buf sector count : Word)
  | startReadDma (sel : Byte) (buf sector count : Word)
  | startWriteDma (sel : Byte) (buf sector count : Word)
  | pollStatus (sel : Byte)
  | ioctlGetSectorCount
  | ioctlGetSectorSize
  | ioctlGetEraseBlockSize
  | ioctlMalformed0
  | ioctlMalformed4to7 (sel : Byte)
  | ioctlMalformedBit3 (sel : Byte)
  | ioctlMalformedBit4 (sel : Byte)
  | ioctlMalformedBit5 (sel : Byte)
  | ioctlMalformedBit6 (sel : Byte)
  | ioctlMalformedBit7 (sel : Byte)
  | reservedOpBit3 (sel op : Byte)
  | reservedOpBit4 (sel op : Byte)
  | reservedOpBit5 (sel op : Byte)
  | reservedOpBit6 (sel op : Byte)
  | reservedOpBit7 (sel op : Byte)
  -- EVENT (R105)
  | tick
  | dmaDone (ok : Bool)
  -- CMDFRAME (R92, R93)
  | cmd0
  | cmd1
  | cmd8
  | cmd9
  | cmd12
  | cmd16
  | cmd17 (addr : Word)
  | cmd18 (addr : Word)
  | acmd23 (count : Word)
  | cmd24 (addr : Word)
  | cmd25 (addr : Word)
  | acmd41 (hcs : Bool)
  | cmd55
  | cmd58
  -- TOKEN (R103)
  | tokStart
  | tokMulti
  | tokStop
  | filler
  -- R1 (R98)
  | r1Response (r : Byte)
  | r1NotResponse (x : Byte)
  -- DATARESP (R102)
  | dataAccepted (d : Byte)
  -- RESULT (R97)
  | resultOk
  | resultError
  | resultWriteProtected
  | resultNotReady
  | resultInvalidParameter
  deriving DecidableEq, Repr

/-- Why bytes on a port name no instruction of the table. -/
inductive DecodeError where
  /-- fewer bytes than the format and the operation need -/
  | tooShort
  /-- an EVENT byte with no strobe, or with a bit set that R105 does not define -/
  | noEvent
  /-- an EVENT byte with both strobes: "Both strobes in the same instant are two events in either order" (R105), two words -/
  | bothStrobes
  /-- a frame byte 0 that is none of the fourteen commands (R93, R104 (c)) -/
  | unknownCommand
  /-- a frame whose argument is not the one the command is only ever sent with (R96) -/
  | badArgument
  /-- a frame whose sixth byte is not the one R95 selects -/
  | badCrc
  /-- a byte that is no token (R103) -/
  | notToken
  /-- a data-response byte that is not the accepted pattern (R102) -/
  | dataRejected
  /-- a result code that is never produced, 5 to 7, or a byte wider than the code (R104 (b)) -/
  | reservedResult
  deriving DecidableEq, Repr

/-- The format of an instruction's row. -/
def Instr.format : Instr → Format
  | .initCard _ | .status _ | .read _ _ _ _ | .write _ _ _ _ | .startReadDma _ _ _ _ | .startWriteDma _ _ _ _
  | .pollStatus _ | .ioctlGetSectorCount | .ioctlGetSectorSize | .ioctlGetEraseBlockSize | .ioctlMalformed0
  | .ioctlMalformed4to7 _ | .ioctlMalformedBit3 _ | .ioctlMalformedBit4 _ | .ioctlMalformedBit5 _
  | .ioctlMalformedBit6 _ | .ioctlMalformedBit7 _ | .reservedOpBit3 _ _ | .reservedOpBit4 _ _
  | .reservedOpBit5 _ _ | .reservedOpBit6 _ _ | .reservedOpBit7 _ _ => .hostop
  | .tick | .dmaDone _ => .event
  | .cmd0 | .cmd1 | .cmd8 | .cmd9 | .cmd12 | .cmd16 | .cmd17 _ | .cmd18 _ | .acmd23 _ | .cmd24 _ | .cmd25 _
  | .acmd41 _ | .cmd55 | .cmd58 => .cmdframe
  | .tokStart | .tokMulti | .tokStop | .filler => .token
  | .r1Response _ | .r1NotResponse _ => .r1
  | .dataAccepted _ => .dataresp
  | .resultOk | .resultError | .resultWriteProtected | .resultNotReady | .resultInvalidParameter => .result

end Sys2Proof
end

