-- ==== Sys2Proof/WellFormed.lean ====
section
/-! DEFINITION. WellFormed.lean: which terms of Instr stand for words of their row. An operand byte that the row fixes in part
(a malformed selector, a reserved operation code, a response, an accepted data response) must lie in the row's range
(30_encoding.md R91, R98, R102, R104); every other operand may have any value of its width. -/

namespace Sys2Proof

/-- The byte's bits under the mask are the pattern's. -/
def matchesPattern (b mask pattern : Byte) : Bool := (b &&& mask) == pattern

/-- The well-formedness check, one line for each row whose operand is limited. -/
def Instr.wellFormed : Instr → Bool
  | .ioctlMalformed4to7 sel => matchesPattern sel 0xFC 0x04
  | .ioctlMalformedBit3 sel => matchesPattern sel 0xF8 0x08
  | .ioctlMalformedBit4 sel => matchesPattern sel 0xF0 0x10
  | .ioctlMalformedBit5 sel => matchesPattern sel 0xE0 0x20
  | .ioctlMalformedBit6 sel => matchesPattern sel 0xC0 0x40
  | .ioctlMalformedBit7 sel => matchesPattern sel 0x80 0x80
  | .reservedOpBit3 _ op => matchesPattern op 0xF8 0x08
  | .reservedOpBit4 _ op => matchesPattern op 0xF0 0x10
  | .reservedOpBit5 _ op => matchesPattern op 0xE0 0x20
  | .reservedOpBit6 _ op => matchesPattern op 0xC0 0x40
  | .reservedOpBit7 _ op => matchesPattern op 0x80 0x80
  | .r1Response r => matchesPattern r 0x80 0x00
  | .r1NotResponse x => matchesPattern x 0x80 0x80
  | .dataAccepted d => matchesPattern d 0x1F 0x05
  | .initCard _ | .status _ | .read _ _ _ _ | .write _ _ _ _ | .startReadDma _ _ _ _ | .startWriteDma _ _ _ _
  | .pollStatus _ | .ioctlGetSectorCount | .ioctlGetSectorSize | .ioctlGetEraseBlockSize | .ioctlMalformed0
  | .tick | .dmaDone _
  | .cmd0 | .cmd1 | .cmd8 | .cmd9 | .cmd12 | .cmd16 | .cmd17 _ | .cmd18 _ | .acmd23 _ | .cmd24 _ | .cmd25 _
  | .acmd41 _ | .cmd55 | .cmd58
  | .tokStart | .tokMulti | .tokStop | .filler
  | .resultOk | .resultError | .resultWriteProtected | .resultNotReady | .resultInvalidParameter => true

end Sys2Proof
end

