-- ==== Sys2Proof/Decode.lean ====
section
/-! DEFINITION. Decode.lean: from the bytes on a port to an instruction of the table, total and rejecting by name, and after it
the encoder written from the same tables (30_encoding.md R91 to R105). The port image of an instruction is its bytes in the order
they are presented: for HOSTOP the byte OP, the byte SEL, then the operand latches BUF, SECTOR, COUNT of an operation that uses
them, each least significant byte first (log entry 10); for a command frame its six bytes in wire order; one byte otherwise. -/

namespace Sys2Proof

/-! ### Byte order -/

/-- The four argument bytes of a frame, most significant byte first (20_memory.md R60). -/
def argBytes (a : Word) : List Byte :=
  [a.extractLsb' 24 8, a.extractLsb' 16 8, a.extractLsb' 8 8, a.extractLsb' 0 8]

/-- An operand latch on the host port, least significant byte first (log entry 10). -/
def latchBytes (w : Word) : List Byte :=
  [w.extractLsb' 0 8, w.extractLsb' 8 8, w.extractLsb' 16 8, w.extractLsb' 24 8]

/-- Four bytes as one word, the first one the most significant. -/
def wordOfBytes (b3 b2 b1 b0 : Byte) : Word := b3 ++ b2 ++ b1 ++ b0

/-- `n` bytes of a number, the least significant first. -/
def bytesOfNat : Nat → Nat → List Byte
  | 0, _ => []
  | n + 1, w => BitVec.ofNat 8 w :: bytesOfNat n (w / 256)

/-! ### Command codes (30_encoding.md R93, R95, R96) -/

/-- R95: the sixth byte depends on the command index alone. -/
def crcByte (cmd : Byte) : Byte :=
  if cmd &&& 0x3F = 0x00 then 0x95 else if cmd &&& 0x3F = 0x08 then 0x87 else 0x01

/-- R92: the six bytes of the frame of a command code, byte 0 first. -/
def frameBytes (cmd : Byte) (arg : Word) : List Byte :=
  (0x40 ||| (cmd &&& 0x3F)) :: argBytes arg ++ [crcByte cmd]

/-! ### Decoding -/

/-- The selector of an IOCTL word (R91, R104 (a)). -/
def decodeSelector (sel : Byte) : Instr :=
  if sel = 0x00 then .ioctlMalformed0
  else if sel = 0x01 then .ioctlGetSectorCount
  else if sel = 0x02 then .ioctlGetSectorSize
  else if sel = 0x03 then .ioctlGetEraseBlockSize
  else if matchesPattern sel 0xFC 0x04 then .ioctlMalformed4to7 sel
  else if matchesPattern sel 0xF8 0x08 then .ioctlMalformedBit3 sel
  else if matchesPattern sel 0xF0 0x10 then .ioctlMalformedBit4 sel
  else if matchesPattern sel 0xE0 0x20 then .ioctlMalformedBit5 sel
  else if matchesPattern sel 0xC0 0x40 then .ioctlMalformedBit6 sel
  else .ioctlMalformedBit7 sel

/-- An operation code from 0x08 to 0xFF (R104 (a)). -/
def decodeReserved (sel op : Byte) : Instr :=
  if matchesPattern op 0xF8 0x08 then .reservedOpBit3 sel op
  else if matchesPattern op 0xF0 0x10 then .reservedOpBit4 sel op
  else if matchesPattern op 0xE0 0x20 then .reservedOpBit5 sel op
  else if matchesPattern op 0xC0 0x40 then .reservedOpBit6 sel op
  else .reservedOpBit7 sel op

/-- The three operand latches BUF, SECTOR, COUNT that follow the word of a block operation. -/
def decodeLatches (mk : Word → Word → Word → Instr) : List Byte → Except DecodeError (Instr × List Byte)
  | b0 :: b1 :: b2 :: b3 :: s0 :: s1 :: s2 :: s3 :: c0 :: c1 :: c2 :: c3 :: rest =>
    .ok (mk (wordOfBytes b3 b2 b1 b0) (wordOfBytes s3 s2 s1 s0) (wordOfBytes c3 c2 c1 c0), rest)
  | _ => .error .tooShort

/-- HOSTOP (R91): every one of the 65536 words names a row. -/
def decodeHostop : List Byte → Except DecodeError (Instr × List Byte)
  | op :: sel :: rest =>
    if op = 0x00 then .ok (.initCard sel, rest)
    else if op = 0x01 then .ok (.status sel, rest)
    else if op = 0x02 then decodeLatches (.read sel) rest
    else if op = 0x03 then decodeLatches (.write sel) rest
    else if op = 0x04 then decodeLatches (.startReadDma sel) rest
    else if op = 0x05 then decodeLatches (.startWriteDma sel) rest
    else if op = 0x06 then .ok (.pollStatus sel, rest)
    else if op = 0x07 then .ok (decodeSelector sel, rest)
    else .ok (decodeReserved sel op, rest)
  | _ => .error .tooShort

/-- EVENT (R105): the code in bits 1:0, the bit `ok` of DMA_DONE in bit 2 (log entry 10). -/
def decodeEvent : List Byte → Except DecodeError (Instr × List Byte)
  | b :: rest =>
    if b = 0b001 then .ok (.tick, rest)
    else if b = 0b010 then .ok (.dmaDone false, rest)
    else if b = 0b110 then .ok (.dmaDone true, rest)
    else if b &&& 0b11 = 0b11 then .error .bothStrobes
    else .error .noEvent
  | [] => .error .tooShort

/-- The command of a frame's byte 0 with its argument (R93, R96): the constant arguments are tested, the sector address and the
block count are taken as they stand. -/
def decodeCommand (b0 : Byte) (arg : Word) : Except DecodeError Instr :=
  let fixed (want : Word) (i : Instr) : Except DecodeError Instr := if arg = want then .ok i else .error .badArgument
  if b0 = 0x40 then fixed 0 .cmd0
  else if b0 = 0x41 then fixed 0 .cmd1
  else if b0 = 0x48 then fixed Config.argCmd8 .cmd8
  else if b0 = 0x49 then fixed 0 .cmd9
  else if b0 = 0x4C then fixed 0 .cmd12
  else if b0 = 0x50 then fixed 512 .cmd16
  else if b0 = 0x51 then .ok (.cmd17 arg)
  else if b0 = 0x52 then .ok (.cmd18 arg)
  else if b0 = 0x57 then .ok (.acmd23 arg)
  else if b0 = 0x58 then .ok (.cmd24 arg)
  else if b0 = 0x59 then .ok (.cmd25 arg)
  else if b0 = 0x69 then
    if arg = Config.argHcs then .ok (.acmd41 true) else fixed 0 (.acmd41 false)
  else if b0 = 0x77 then fixed 0 .cmd55
  else if b0 = 0x7A then fixed 0 .cmd58
  else .error .unknownCommand

/-- CMDFRAME (R92): six bytes, byte 0 first; the sixth must be the one R95 selects. -/
def decodeFrame : List Byte → Except DecodeError (Instr × List Byte)
  | b0 :: a3 :: a2 :: a1 :: a0 :: crc :: rest =>
    match decodeCommand b0 (wordOfBytes a3 a2 a1 a0) with
    | .ok i => if crc = crcByte b0 then .ok (i, rest) else .error .badCrc
    | .error e => .error e
  | _ => .error .tooShort

/-- TOKEN (R103). -/
def decodeToken : List Byte → Except DecodeError (Instr × List Byte)
  | b :: rest =>
    if b = Config.tokStart then .ok (.tokStart, rest)
    else if b = Config.tokMulti then .ok (.tokMulti, rest)
    else if b = Config.tokStop then .ok (.tokStop, rest)
    else if b = Config.filler then .ok (.filler, rest)
    else .error .notToken
  | [] => .error .tooShort

/-- R1 (R98): bit 7 alone separates a response from what is not one. -/
def decodeR1 : List Byte → Except DecodeError (Instr × List Byte)
  | b :: rest => if matchesPattern b 0x80 0x00 then .ok (.r1Response b, rest) else .ok (.r1NotResponse b, rest)
  | [] => .error .tooShort

/-- DATARESP (R102): the low five bits decide. -/
def decodeDataResponse : List Byte → Except DecodeError (Instr × List Byte)
  | b :: rest => if matchesPattern b 0x1F 0x05 then .ok (.dataAccepted b, rest) else .error .dataRejected
  | [] => .error .tooShort

/-- RESULT (R97): codes 0 to 4; 5, 6 and 7 are never produced. -/
def decodeResult : List Byte → Except DecodeError (Instr × List Byte)
  | b :: rest =>
    if b = 0 then .ok (.resultOk, rest)
    else if b = 1 then .ok (.resultError, rest)
    else if b = 2 then .ok (.resultWriteProtected, rest)
    else if b = 3 then .ok (.resultNotReady, rest)
    else if b = 4 then .ok (.resultInvalidParameter, rest)
    else .error .reservedResult
  | [] => .error .tooShort

/-- The decoder: total on any bytes of any port. -/
def decode : Format → List Byte → Except DecodeError (Instr × List Byte)
  | .hostop, bs => decodeHostop bs
  | .event, bs => decodeEvent bs
  | .cmdframe, bs => decodeFrame bs
  | .token, bs => decodeToken bs
  | .r1, bs => decodeR1 bs
  | .dataresp, bs => decodeDataResponse bs
  | .result, bs => decodeResult bs

/-! ### Encoding -/

/-- The word {SEL, OP} as its two bytes, OP at the lower place. -/
def hostWord (op sel : Byte) : List Byte := [op, sel]

/-- The word of a block operation and its three latches. -/
def blockWord (op sel : Byte) (buf sector count : Word) : List Byte :=
  hostWord op sel ++ latchBytes buf ++ latchBytes sector ++ latchBytes count

/-- The encoder: the port image of an instruction. -/
def encode : Instr → List Byte
  | .initCard sel => hostWord 0x00 sel
  | .status sel => hostWord 0x01 sel
  | .read sel buf sector count => blockWord 0x02 sel buf sector count
  | .write sel buf sector count => blockWord 0x03 sel buf sector count
  | .startReadDma sel buf sector count => blockWord 0x04 sel buf sector count
  | .startWriteDma sel buf sector count => blockWord 0x05 sel buf sector count
  | .pollStatus sel => hostWord 0x06 sel
  | .ioctlGetSectorCount => hostWord 0x07 0x01
  | .ioctlGetSectorSize => hostWord 0x07 0x02
  | .ioctlGetEraseBlockSize => hostWord 0x07 0x03
  | .ioctlMalformed0 => hostWord 0x07 0x00
  | .ioctlMalformed4to7 sel => hostWord 0x07 sel
  | .ioctlMalformedBit3 sel => hostWord 0x07 sel
  | .ioctlMalformedBit4 sel => hostWord 0x07 sel
  | .ioctlMalformedBit5 sel => hostWord 0x07 sel
  | .ioctlMalformedBit6 sel => hostWord 0x07 sel
  | .ioctlMalformedBit7 sel => hostWord 0x07 sel
  | .reservedOpBit3 sel op => hostWord op sel
  | .reservedOpBit4 sel op => hostWord op sel
  | .reservedOpBit5 sel op => hostWord op sel
  | .reservedOpBit6 sel op => hostWord op sel
  | .reservedOpBit7 sel op => hostWord op sel
  | .tick => [0b001]
  | .dmaDone ok => [if ok then 0b110 else 0b010]
  | .cmd0 => frameBytes 0x00 0
  | .cmd1 => frameBytes 0x01 0
  | .cmd8 => frameBytes 0x08 Config.argCmd8
  | .cmd9 => frameBytes 0x09 0
  | .cmd12 => frameBytes 0x0C 0
  | .cmd16 => frameBytes 0x10 512
  | .cmd17 addr => frameBytes 0x11 addr
  | .cmd18 addr => frameBytes 0x12 addr
  | .acmd23 count => frameBytes 0x97 count
  | .cmd24 addr => frameBytes 0x18 addr
  | .cmd25 addr => frameBytes 0x19 addr
  | .acmd41 hcs => frameBytes 0xA9 (if hcs then Config.argHcs else 0)
  | .cmd55 => frameBytes 0x37 0
  | .cmd58 => frameBytes 0x3A 0
  | .tokStart => [Config.tokStart]
  | .tokMulti => [Config.tokMulti]
  | .tokStop => [Config.tokStop]
  | .filler => [Config.filler]
  | .r1Response r => [r]
  | .r1NotResponse x => [x]
  | .dataAccepted d => [d]
  | .resultOk => [0]
  | .resultError => [1]
  | .resultWriteProtected => [2]
  | .resultNotReady => [3]
  | .resultInvalidParameter => [4]

/-! ### The opcode table's numbering -/

/-- The instruction the decoder gives, if it gives one. -/
def decodedInstr (f : Format) (bs : List Byte) : Option Instr :=
  match decode f bs with
  | .ok (i, _) => some i
  | .error _ => none

/-- The instruction of a word numbered as spec/opcode_table.json numbers it. The table's number of a command frame has byte 0 in
bits 47:40 (R92); the same frame with byte 0 in bits 7:0 is read too, since no word is a frame both ways. An 8-bit word does not
say its format: the formats are tried in the order EVENT, RESULT, TOKEN, DATARESP, R1 (log entry 11). -/
def decodeTableWord (nbits w : Nat) : Option Instr :=
  match nbits with
  | 2 => decodedInstr .event (bytesOfNat 1 w)
  | 3 => decodedInstr .result (bytesOfNat 1 w)
  | 8 =>
    (decodedInstr .event (bytesOfNat 1 w)).orElse fun _ =>
    (decodedInstr .result (bytesOfNat 1 w)).orElse fun _ =>
    (decodedInstr .token (bytesOfNat 1 w)).orElse fun _ =>
    (decodedInstr .dataresp (bytesOfNat 1 w)).orElse fun _ =>
    decodedInstr .r1 (bytesOfNat 1 w)
  | 16 => decodedInstr .hostop (bytesOfNat 14 w)
  | 48 =>
    (decodedInstr .cmdframe (bytesOfNat 6 w).reverse).orElse fun _ =>
    decodedInstr .cmdframe (bytesOfNat 6 w)
  | _ => none

end Sys2Proof
end

