-- ==== Sys2Proof/Machine/State.lean ====
section
/-! DEFINITION. Machine/State.lean: everything the spec gives the machine, as plain data, and its value after reset. The fields are
grouped as 10_state.md groups them: operand latches (R22), working registers (R23), result registers (R24), the phase register
(R26, R27), control and status registers (R28 to R33), the hidden state of the DMA engine (R36), host buffer memory (R35), and
what R37 calls parameters of the step relation (the card script, the schedule, the sense inputs, N_INIT_DUMMY), held as data. -/

namespace Sys2Proof.Machine

/-! ### Enumerations of 10_state.md and 30_encoding.md -/

/-- SPEED (R33). -/
inductive Speed where
  | low | high
  deriving DecidableEq, Repr

/-- The three timeout counters (R32): T_NEG, T_TOK, T_RDY. -/
inductive Timer where
  | neg | tok | rdy
  deriving DecidableEq, Repr

/-- CardType (R29). The five values that occur; 93_implementation_defined.md U19: "a model's types should not admit" others. -/
inductive CardType where
  /-- 0x0, "no card" -/
  | noCard
  /-- 0x1 -/
  | mmc
  /-- 0x2, SD-v1 -/
  | sd1
  /-- 0x4, SD-v2, byte addressed -/
  | sd2
  /-- 0xC, SD-v2, block addressed -/
  | sd2Block
  deriving DecidableEq, Repr

/-- DmaStatus (R30), codes 0 to 3 in this order. -/
inductive DmaStatus where
  | idle | busy | success | error
  deriving DecidableEq, Repr

/-- The direction of a DMA transfer (R31): read is card to buffer. -/
inductive DmaDir where
  | read | write
  deriving DecidableEq, Repr

/-- TransferResult (30_encoding.md R97), codes 0 to 4 in this order. -/
inductive TransferResult where
  | ok | error | writeProtected | notReady | invalidParameter
  deriving DecidableEq, Repr

/-- DriveStatus (R28): bit 0 NOINIT, bit 1 NODISK, bit 2 PROTECT. -/
structure DriveStatus where
  noInit : Bool
  noDisk : Bool
  protect : Bool
  deriving DecidableEq, Repr

/-- AsyncTransferContext (R31). -/
structure Context where
  live : Bool
  dir : DmaDir
  multi : Bool
  deriving DecidableEq, Repr

/-- TMR[0..2] (R32), milliseconds left; zero means expired. -/
structure Timers where
  neg : BitVec 16
  tok : BitVec 16
  rdy : BitVec 16
  deriving DecidableEq, Repr

/-! ### Register groups -/

/-- The operand latches (R22). -/
structure Latches where
  op : Byte
  sel : Byte
  sector : Word
  count : Word
  buf : Word
  deriving DecidableEq, Repr

/-- The working registers (R23), local to one operation. The last three are the pseudocode's local names (log entry 21): the byte
`b` of R232 and R233, the truth value a micro-operation returned, and `s` of R265. -/
structure Work where
  cmd : Byte
  arg : Word
  addr : Word
  r1 : Byte
  trail : Vector Byte 4
  csdr : Vector Byte 16
  tok : Byte
  dresp : Byte
  rdy : Byte
  ntry : BitVec 4
  idx : BitVec 10
  ty : CardType
  icmd : Byte
  okf : Bool
  dat : Byte
  flag : Bool
  pst : DmaStatus
  deriving DecidableEq, Repr

/-- The result registers (R24), and for each whether the last operation wrote it: one it did not write "holds no value" (R25). -/
structure Results where
  res : TransferResult
  sval : DriveStatus
  val : Word
  resValid : Bool
  svalValid : Bool
  valValid : Bool
  deriving DecidableEq, Repr

/-! ### The phase register

PHASE (R26) is "the position in that pseudocode together with the stack of callers". It is held in two parts: `pos`, the place in
the host operation's own pseudocode, and `todo`, the primitive actions and tests still to come of the micro-operation that runs
there. A primitive action is one step of ENGINE; a test or an assignment to a working register "belongs to the step of the primitive
before it" (70_reset_and_hazards.md R360), so a machine at rest never stands at one. -/

/-- Where a received data byte goes (44_polling_block_io.md R231): `mem(BUF)` or the register file CSDR. -/
inductive Dest where
  | buffer | csd
  deriving DecidableEq, Repr

/-- The exchanges of the micro-operations, each named by what is done with the received byte. -/
inductive Exchange where
  /-- the byte is sent, the received one discarded -/
  | send (tx : Byte)
  /-- `RDY <- XCHG(0xFF)` of wait_ready (40_bus_transport.md R139) -/
  | ready
  /-- `TOK <- XCHG(0xFF)` of wait_token (44_polling_block_io.md R238) -/
  | token
  /-- `r <- XCHG(0xFF)` of the R1 poll (42_command_framing.md R175) -/
  | poll
  /-- `TRAIL[i] <- XCHG(0xFF)` of read_trailer (R190) -/
  | trail (i : Fin 4)
  /-- `b <- XCHG(0xFF)` of rcvr_datablock (R232) -/
  | data (d : Dest)
  /-- `XCHG(token)` of xmit_datablock (R233) and of START_WRITE_DMA (R262) -/
  | sendToken (tok : Byte)
  /-- `XCHG(b)` of xmit_datablock -/
  | sendData
  /-- `DRESP <- XCHG(0xFF)` of xmit_datablock -/
  | response
  deriving DecidableEq, Repr

/-- The primitive actions of the micro-operations that are no exchange. -/
inductive Local where
  /-- `CS <- v`; true is 1, released (R131) -/
  | setCs (v : Bool)
  /-- `SET_SPEED(v)` (R132) -/
  | setSpeed (v : Speed)
  /-- `ARM(t, ms)` (41_timeout_service.md R152) -/
  | arm (t : Timer) (ms : BitVec 16)
  /-- `EXPIRED(2)` of wait_ready -/
  | readyExpired
  /-- `EXPIRED(1)` of wait_token -/
  | tokenExpired
  /-- `MemWrite(a + IDX, 1, b)` of rcvr_datablock into the buffer; the other destination, `CSDR[IDX] <- b`, is an assignment to a
  working register and no action of its own (70_reset_and_hazards.md R360) -/
  | store
  /-- `b <- MemRead(src + IDX, 1)` of xmit_datablock -/
  | load
  deriving DecidableEq, Repr

/-- The tests and assignments between the primitive actions of the micro-operations. -/
inductive Join where
  /-- `if not select(): return 0xFF`, else the frame (R172) -/
  | selected (cmd : Byte) (arg : Word)
  /-- `return 0xFF` after the failed select's deselect (R172) -/
  | noResponse
  /-- `if r > 1: return r` after the nested CMD55, else the command itself (R171) -/
  | prefixed (cmd : Byte) (arg : Word)
  /-- `NTRY <- 10` (R175) -/
  | startPoll
  /-- `if not wait_token(): return false`, else the data loop (R232) -/
  | tokenSeen (d : Dest)
  /-- `if not wait_ready(500): return false`, else the token (R233) -/
  | cardReady (tok : Byte)
  /-- `return true` -/
  | returnTrue
  deriving DecidableEq, Repr

/-- One entry of the running micro-operation. -/
inductive Micro where
  | exchange (x : Exchange)
  | act (l : Local)
  | join (j : Join)
  /-- the call `send_command(cmd, arg)` (R170), at its first primitive action -/
  | command (cmd : Byte) (arg : Word)
  deriving DecidableEq, Repr

/-- The four block operations, which share the gate and the address computation. -/
inductive BlockOp where
  | read | write | startRead | startWrite
  deriving DecidableEq, Repr

/-- The places of a host operation at which ENGINE's next step is a primitive action on a register of the block. -/
inductive Act where
  /-- `return <Result>` (00_scope.md R10) -/
  | ret (r : TransferResult)
  /-- `SVAL <- DSTAT; return` -/
  | retStatus
  -- INITIALIZE (43_negotiation.md R200, R201, R207)
  | senseMedium | senseProtect | testMedium | absentInit | absentType
  /-- `EXPIRED(0)` of a ready loop: the v2 loop or the legacy one -/
  | windowExpired (v2 : Bool)
  | setType | setReady | setFailed
  -- the gate and the head of a block operation (44_polling_block_io.md R230, 45_dma_completion.md R263, 20_memory.md R68)
  | gateInit (o : BlockOp) | gateProtect (o : BlockOp) | guardDma (o : BlockOp) | guardContext (o : BlockOp)
  /-- `ATC.live <- 1`, then `ATC.dir <- …`, then `ATC.multi <- …`, each one write (00_scope.md R10) -/
  | newContext (o : BlockOp) | newDir (o : BlockOp) | newMulti (o : BlockOp)
  | scale (o : BlockOp)
  /-- `(CTYPE & 0x6) != 0`, before ACMD23, on the polling or the DMA path -/
  | testSdc (dma : Bool)
  -- DMA operations
  /-- the braces of R261 and R262 -/
  | dmaGo (d : DmaDir)
  /-- `ATC.multi` after an accepted command whose handshake failed -/
  | testMulti (d : DmaDir)
  /-- `ATC.live <- 0; return Error` of a failed start -/
  | dropContext
  -- POLL_STATUS (R265)
  | readStatus | readMulti | readDir | clearContext | statusIdle
  -- IOCTL (46_query_ioctl.md R290)
  | ioctlGate
  deriving DecidableEq, Repr

/-- The places at which a micro-operation has ended and its caller tests the outcome (R208's third column for INITIALIZE). -/
inductive Test where
  -- INITIALIZE
  | poweredUp | cmd0 | cmd8 | trailer | v2Loop | ocrCmd | ocr | probe | legacyLoop | blockLen | closed | fast
  -- READ
  | readOne | readOneData | readMany | readManyData | readStop
  -- WRITE
  | writeOne | writeOneData | writeHint | writeMany | writeManyData | writeStop
  -- the end of READ and WRITE
  | blockClosed
  -- START_READ_DMA and START_WRITE_DMA
  | dmaReadCmd | dmaReadToken | dmaWriteHint | dmaWriteCmd | dmaWriteReady | dmaWriteToken | dmaStopped | dmaClosed
  -- POLL_STATUS
  | pollStopToken | pollStopCmd | pollClosed
  -- IOCTL
  | csdCmd | csdData | csdClosed
  deriving DecidableEq, Repr

/-- The place in the host operation. -/
inductive Pos where
  | idle
  | act (a : Act)
  | test (t : Test)
  deriving DecidableEq, Repr

/-! ### Memory, the wire, the outside -/

/-- Host buffer memory (R35 (a)): bytes listed at rising addresses, none equal to what an unlisted address reads as. -/
abbrev Memory := List Host.Cell

/-- What the engine does at its bus boundary, in order (70_reset_and_hazards.md R365: "the list of `CS` changes and `tx/rx` pairs");
the calls that put nothing on the wire are kept in the same list. -/
inductive WireItem where
  | cs (v : Bool)
  | xchg (tx rx : Byte)
  | speed (v : Speed)
  | flush
  | dmaStart (d : DmaDir) (buf n : Word)
  | dmaStop
  /-- an exchange DMAENG made while it owned the bus (45_dma_completion.md R266 (b)) -/
  | dmaXchg (tx rx : Byte)
  deriving DecidableEq, Repr

/-- What `DMA_START` handed to DMAENG (R266 (a)), and the bytes DMAENG has read from the buffer and not sent yet, oldest first (log
entry 14): hidden state of the DMA engine (R36), kept until the cleanup of POLL_STATUS because the buffer range stays the transfer's
until then (R358). -/
structure DmaJob where
  dir : DmaDir
  buf : Word
  n : Word
  fetched : List Byte
  deriving DecidableEq, Repr

/-- The OPEN parameters of 00_scope.md R8 that are constant over a run, and the card script with the count of answers drawn beyond
its end (log entries 6 and 7). -/
structure Outside where
  senseNoMedium : Bool
  senseWrProt : Bool
  /-- N_INIT_DUMMY is 74 plus this, so that N_INIT_DUMMY >= 74 -/
  extraDummies : Nat
  /-- the premise BUS_RESPONSIVE: an exchange beyond the script is answered -/
  responsive : Bool
  /-- the bytes the card answers next -/
  card : List Byte
  /-- how many answers were drawn from Config.cardByte -/
  drawn : Nat
  deriving DecidableEq, Repr

/-- A step of DMAENG while a transfer is in flight (R266 (b)). -/
inductive DmaAct where
  /-- exchange a byte that is no buffer byte: filler, a token, a CRC byte (R266 (f)) -/
  | xchg (tx : Byte)
  /-- exchange the oldest byte read from the buffer and not sent yet -/
  | send
  /-- store a byte at this offset of the buffer range -/
  | store (off : Nat) (b : Byte)
  /-- read the byte at this offset of the buffer range -/
  | load (off : Nat)
  deriving DecidableEq, Repr

/-- A step of HOST other than the issue of an operation: the taking of a result (R360), or an access to its buffer (R358). -/
inductive HostAct where
  | takeRes | takeSval | takeVal
  | store (a : Word) (b : Byte)
  | load (a : Word)
  deriving DecidableEq, Repr

/-- What HOST took. -/
inductive Taken where
  | res (r : TransferResult)
  | sval (d : DriveStatus)
  | val (v : Word)
  | byte (b : Byte)
  deriving DecidableEq, Repr

/-- One entry of the schedule: whose step comes next (60_exceptions.md R313). A `port` entry presents the bytes of one instruction,
and step decodes them. -/
inductive Turn where
  | engine
  | tick
  | dmaDone (ok : Bool)
  | dma (a : DmaAct)
  | host (a : HostAct)
  | port (f : Format) (bytes : List Byte)
  deriving DecidableEq, Repr

/-! ### State -/

/-- The whole machine. -/
structure State where
  /-- operand latches -/
  lat : Latches
  /-- working registers -/
  wk : Work
  /-- result registers -/
  out : Results
  /-- PHASE: the place in the host operation -/
  pos : Pos
  /-- PHASE: what is left of the running micro-operation -/
  todo : List Micro
  /-- DSTAT -/
  dstat : DriveStatus
  /-- CTYPE -/
  ctype : CardType
  /-- DMAST -/
  dmast : DmaStatus
  /-- ATC -/
  atc : Context
  /-- TMR[0..2] -/
  tmr : Timers
  /-- CS: true is 1, released -/
  cs : Bool
  /-- SPEED -/
  speed : Speed
  /-- what DMAENG was handed -/
  job : Option DmaJob
  /-- host buffer memory -/
  mem : Memory
  /-- the bus boundary, oldest item first -/
  trace : List WireItem
  /-- the results HOST took, oldest first -/
  taken : List Taken
  /-- sense inputs, N_INIT_DUMMY, BUS_RESPONSIVE, the card script -/
  env : Outside
  /-- the schedule: whose steps come next -/
  sched : List Turn
  deriving DecidableEq, Repr

/-- Why the machine stops with a fault. -/
inductive Fault where
  /-- A register that holds no value is read: "A model gives such a read no meaning (it faults)" (R25); "reading it is a fault of the
  model, not zero" (92_eei_decisions.md D7); 93_implementation_defined.md U13 `fault`. Raised by HOST taking a result register the last
  operation did not write, and by POLL_STATUS reading ATC.multi or ATC.dir while no context is live (R31; log entry 18). Safe: the machine
  stops where the spec gives no value. -/
  | noValue
  deriving DecidableEq, Repr

/-- Why the machine gives an input no meaning. -/
inductive Refusal where
  /-- an instruction of the table that has no meaning yet -/
  | notModelled (mnemonic : String)
  /-- INITIALIZE, READ, WRITE or IOCTL issued while DMAST is not Idle (R355, U2 "refuse"). Raised by the issue.
  Safe. -/
  | busOwnedByDma
  /-- IOCTL GET_ERASE_BLOCK_SIZE with NOINIT clear (R295, U12 "refuse"). Raised by its issue and by the IOCTL dispatch. Safe. -/
  | eraseBlockSizeUnspecified
  /-- a host operation issued while one runs: "HOST is the only agent that starts an operation, and it starts one only when
  PHASE == IDLE" (R21). Raised by the issue. Safe. -/
  | operationRunning
  /-- DMA_DONE while DMAST is not Busy: "Enabled only when DMAST == Busy" (R264). Raised by DMA_DONE. Safe. -/
  | dmaDoneDisabled
  /-- a step of DMAENG outside its contract (R266): no transfer in flight, or a byte outside the range or against the direction. Safe. -/
  | outsideDmaContract
  /-- a HOST access to the buffer range a DMA transfer owns: a store in either direction, a load in the read direction (R358, U16
  "refuse"). Raised by HOST's own steps. Safe. -/
  | bufferRace
  /-- a frame, token, response or result word while PHASE is not at the action that sends, receives or returns it: ENGINE has no such
  step there (R27, 70_reset_and_hazards.md R360). Raised by the CMDFRAME, TOKEN, R1, DATARESP and RESULT rows. Safe. -/
  | wrongPhase
  /-- bytes on a port that name no row and to which the spec gives no effect either, with the decoder's reason: a frame the engine
  never frames, a result code that is never produced (30_encoding.md R104 (b), (c)), an event byte without a strobe (R105), an image
  cut short. Raised by the fetch from a port. Safe. -/
  | undecodable (e : DecodeError)
  /-- bytes left over on a port behind an instruction. Safe. -/
  | trailingBytes
  deriving DecidableEq, Repr

/-! ### Reset (R38, 70_reset_and_hazards.md R350) -/

/-- The operand latches after reset: the spec gives "no value (unspecified)"; zero is the model's (log entry 1). -/
def Latches.reset : Latches := { op := 0, sel := 0, sector := 0, count := 0, buf := 0 }

/-- The working registers after reset: the spec gives "no value"; zero is the model's (log entry 2). -/
def Work.reset : Work :=
  { cmd := 0, arg := 0, addr := 0, r1 := 0, trail := Vector.replicate 4 0, csdr := Vector.replicate 16 0, tok := 0, dresp := 0,
    rdy := 0, ntry := 0, idx := 0, ty := .noCard, icmd := 0, okf := false, dat := 0, flag := false, pst := .idle }

/-- The result registers after reset: the spec gives "no value"; code 0 and "not written" are the model's (log entry 3). -/
def Results.reset : Results :=
  { res := .ok, sval := { noInit := false, noDisk := false, protect := false }, val := 0,
    resValid := false, svalValid := false, valValid := false }

/-- The outside at reset: both sense inputs at their default false (R8), 74 dummy bytes, a responsive bus, an empty script. -/
def Outside.default : Outside :=
  { senseNoMedium := false, senseWrProt := false, extraDummies := 0, responsive := true, card := [], drawn := 0 }

/-- The machine after reset with given outside parameters (R38). -/
def State.resetWith (env : Outside) : State :=
  { lat := Latches.reset, wk := Work.reset, out := Results.reset, pos := .idle, todo := [],
    dstat := { noInit := true, noDisk := env.senseNoMedium, protect := env.senseWrProt },
    ctype := .noCard, dmast := .idle,
    -- `live = 0`; `dir` and `multi` "hold no value": log entry 4
    atc := { live := false, dir := .read, multi := false },
    tmr := { neg := 0, tok := 0, rdy := 0 }, cs := true, speed := .low, job := none, mem := [], trace := [], taken := [],
    env := env, sched := [] }

/-- The machine after reset, the OPEN parameters at their defaults. -/
def State.reset : State := State.resetWith Outside.default

end Sys2Proof.Machine
end

