-- ==== Sys2Proof/Machine/Ops.lean ====
section
/-! DEFINITION. Machine/Ops.lean: the named operations over memory and registers, the primitives of the Bus Transport
(40_bus_transport.md R130 to R135) and of the Timeout Service (41_timeout_service.md R152 to R154), DMA_DONE's transition, and the
one operation that ends a host operation with a result (60_exceptions.md R317, R319: what stands in the place of taking an
exception and of returning from one). -/

namespace Sys2Proof.Machine

/-- The outcome of one step of this machine. -/
abbrev Answer := Host.Outcome State Fault Refusal

/-- Go on from the next state; a fault or a refusal stands. -/
def andThen (o : Answer) (f : State → Answer) : Answer :=
  match o with
  | .next s => f s
  | .fault r => .fault r
  | .refused r => .refused r

/-- The next state, if there is one. -/
def nextOf (o : Answer) : Option State :=
  match o with
  | .next s => some s
  | .fault _ => none
  | .refused _ => none

/-! ### One update for each field of State -/

def State.withLat (s : State) (v : Latches) : State := { s with lat := v }
def State.withWk (s : State) (v : Work) : State := { s with wk := v }
def State.withOut (s : State) (v : Results) : State := { s with out := v }
def State.withPos (s : State) (v : Pos) : State := { s with pos := v }
def State.withTodo (s : State) (v : List Micro) : State := { s with todo := v }
def State.withDstat (s : State) (v : DriveStatus) : State := { s with dstat := v }
def State.withCtype (s : State) (v : CardType) : State := { s with ctype := v }
def State.withDmast (s : State) (v : DmaStatus) : State := { s with dmast := v }
def State.withAtc (s : State) (v : Context) : State := { s with atc := v }
def State.withTmr (s : State) (v : Timers) : State := { s with tmr := v }
def State.withCs (s : State) (v : Bool) : State := { s with cs := v }
def State.withSpeed (s : State) (v : Speed) : State := { s with speed := v }
def State.withJob (s : State) (v : Option DmaJob) : State := { s with job := v }
def State.withMem (s : State) (v : Memory) : State := { s with mem := v }
def State.withTrace (s : State) (v : List WireItem) : State := { s with trace := v }
def State.withTaken (s : State) (v : List Taken) : State := { s with taken := v }
def State.withEnv (s : State) (v : Outside) : State := { s with env := v }
def State.withSched (s : State) (v : List Turn) : State := { s with sched := v }

/-- PHASE == IDLE (R27): no operation runs and no micro-operation. -/
def State.isIdle (s : State) : Bool := decide (s.pos = .idle) && s.todo.isEmpty

/-- One more item at the bus boundary. -/
def State.log (s : State) (i : WireItem) : State := s.withTrace (s.trace ++ [i])

/-- The micro-operation's entries go before what is left to do. -/
def State.push (s : State) (ms : List Micro) : State := s.withTodo (ms ++ s.todo)

/-- Run a micro-operation and come back to this place of the host operation. -/
def State.call (s : State) (ms : List Micro) (back : Test) : State := (s.push ms).withPos (.test back)

/-- Go to a primitive action of the host operation. -/
def State.goAct (s : State) (a : Act) : State := s.withPos (.act a)

/-! ### Host buffer memory (20_memory.md R62, R63, R67) -/

/-- What a byte of memory that nothing has written reads as (log entry 5). -/
def unlistedByte : Byte := 0

/-- `MemRead(a, 1)`. "Which buffer addresses exist is left to the platform" (R67): in the model every 32-bit address exists and can be
read and written by ENGINE, HOST and DMAENG: DESIGN CHOICE, log entry 5. -/
def memRead : Memory → Nat → Byte
  | [], _ => unlistedByte
  | (b, v) :: m, a => if a = b then v else memRead m a

/-- `MemWrite(a, 1, v)`, keeping the canonical form. -/
def memWrite : Memory → Nat → Byte → Memory
  | [], a, v => if v = unlistedByte then [] else [(a, v)]
  | (b, w) :: m, a, v =>
    if a < b then (if v = unlistedByte then (b, w) :: m else (a, v) :: (b, w) :: m)
    else if a = b then (if v = unlistedByte then m else (a, v) :: m)
    else (b, w) :: memWrite m a v

/-- The canonical form from an address on: rising addresses below 2^32, no entry an unlisted address would read as. -/
def Memory.wfFrom : Nat → Memory → Bool
  | _, [] => true
  | lo, (b, v) :: m => decide (lo ≤ b) && decide (b < 2 ^ 32) && decide (v ≠ unlistedByte) && Memory.wfFrom (b + 1) m

/-- The canonical form of memory. -/
def Memory.wf (m : Memory) : Bool := Memory.wfFrom 0 m

/-- Buffer addresses are computed modulo 2^32 (R63 (b)). -/
def bufferAddr (base : Word) (off : Nat) : Nat := (base + BitVec.ofNat 32 off).toNat

/-- The byte at a buffer address. -/
def State.readByte (s : State) (a : Nat) : Byte := memRead s.mem a

/-- A byte stored at a buffer address. -/
def State.writeByte (s : State) (a : Nat) (v : Byte) : State := s.withMem (memWrite s.mem a v)

/-! ### Bus Transport primitives -/

/-- The answer to the next exchange: the script's byte, else a free value if the bus is responsive, else none, which is the exchange
that never ends (R136; log entry 6). -/
def State.nextCard (s : State) : Option (Byte × State) :=
  match s.env.card with
  | b :: bs => some (b, s.withEnv { s.env with card := bs })
  | [] =>
    if s.env.responsive then some (Config.cardByte s.env.drawn, s.withEnv { s.env with drawn := s.env.drawn + 1 }) else none

/-- `CS <- v` (R131). -/
def State.writeCs (s : State) (v : Bool) : State := (s.withCs v).log (.cs v)

/-- `SET_SPEED(v)` (R132). -/
def State.writeSpeed (s : State) (v : Speed) : State := (s.withSpeed v).log (.speed v)

/-- `FLUSH()` (R133): nothing on the wire, no register. -/
def State.flush (s : State) : State := s.log .flush

/-- `{ DMAST <- Busy; DMA_START(dir, BUF, COUNT) }`, one step (45_dma_completion.md R261; R134, R266 (a)). -/
def State.dmaStart (s : State) (d : DmaDir) : State :=
  ((s.withDmast .busy).withJob (some { dir := d, buf := s.lat.buf, n := s.lat.count, fetched := [] })).log (.dmaStart d s.lat.buf s.lat.count)

/-- `DMA_STOP()` (R135). -/
def State.dmaStop (s : State) : State := s.log .dmaStop

/-! ### Timeout Service -/

/-- The counter of an index. -/
def Timers.get (t : Timers) : Timer → BitVec 16
  | .neg => t.neg
  | .tok => t.tok
  | .rdy => t.rdy

/-- The counter of an index replaced. -/
def Timers.set (t : Timers) (i : Timer) (v : BitVec 16) : Timers :=
  match i with
  | .neg => { t with neg := v }
  | .tok => { t with tok := v }
  | .rdy => { t with rdy := v }

/-- `ARM(i, ms)` (R152). -/
def State.armTimer (s : State) (i : Timer) (ms : BitVec 16) : State := s.withTmr (s.tmr.set i ms)

/-- `EXPIRED(i)` (R154). -/
def State.expired (s : State) (i : Timer) : Bool := s.tmr.get i == 0

/-- One counter's part of TICK: a decrement to a floor of zero (R153). -/
def countDown (t : BitVec 16) : BitVec 16 := if t = 0 then 0 else t - 1

/-- TICK (R153): the three counters in one step. -/
def State.tickDown (s : State) : State :=
  s.withTmr { neg := countDown s.tmr.neg, tok := countDown s.tmr.tok, rdy := countDown s.tmr.rdy }

/-! ### DMA completion -/

/-- DMA_DONE(ok) (45_dma_completion.md R264): enabled only when DMAST is Busy; `DMA_STOP(); FLUSH(); DMAST <- Success or Error`. -/
def dmaComplete (ok : Bool) (s : State) : Answer :=
  if s.dmast = .busy then .next ((s.dmaStop.flush).withDmast (if ok then .success else .error)) else .refused .dmaDoneDisabled

/-! ### The end of a host operation (R10, R317, R319) -/

/-- A failure or a success: ENGINE goes to its `return` with this code, and does nothing else (R317 (a)). -/
def State.endWith (s : State) (r : TransferResult) : State := s.goAct (.ret r)

/-- `return <Result>`: RES takes the code and PHASE goes back to IDLE; "a `return` itself does nothing else" (R10). -/
def State.returnWith (s : State) (r : TransferResult) : State :=
  (s.withOut { s.out with res := r, resValid := true }).withPos .idle

/-- `SVAL <- DSTAT; return`, the end of INITIALIZE and STATUS, which write no RES (R24). -/
def State.returnStatus (s : State) : State :=
  (s.withOut { s.out with sval := s.dstat, svalValid := true }).withPos .idle

/-- A value for HOST beside the result: `VAL <- v` (R24), in the step of the action before it: DESIGN CHOICE, log entry 26. -/
def State.writeVal (s : State) (v : Word) : State := s.withOut { s.out with val := v, valValid := true }

/-- At the issue of an operation no result register holds a value (R25). -/
def State.clearResults (s : State) : State :=
  s.withOut { s.out with resValid := false, svalValid := false, valValid := false }

end Sys2Proof.Machine
end

