-- ==== Sys2Proof/Machine/Flags.lean ====
section
/-! DEFINITION. Machine/Flags.lean: every flag and code the spec computes: the bits of DSTAT and CTYPE and their updates, the codes of
TransferResult and DmaStatus, the classes of an R1 byte, of a trailer, of an OCR byte, of a token and of a data response. -/

namespace Sys2Proof.Machine

/-! ### Codes (10_state.md R28 to R31, 30_encoding.md R97) -/

/-- DSTAT as three bits: NOINIT 0, NODISK 1, PROTECT 2. -/
def DriveStatus.bits (d : DriveStatus) : BitVec 3 :=
  BitVec.ofBool d.protect ++ BitVec.ofBool d.noDisk ++ BitVec.ofBool d.noInit

/-- CTYPE as four bits: MMC 0, SD1 1, SD2 2, BLOCK 3. -/
def CardType.bits : CardType → BitVec 4
  | .noCard => 0x0
  | .mmc => 0x1
  | .sd1 => 0x2
  | .sd2 => 0x4
  | .sd2Block => 0xC

/-- DMAST as two bits. -/
def DmaStatus.code : DmaStatus → BitVec 2
  | .idle => 0
  | .busy => 1
  | .success => 2
  | .error => 3

/-- ATC.dir as a bit: 0 read, 1 write. -/
def DmaDir.code : DmaDir → BitVec 1
  | .read => 0
  | .write => 1

/-- RES as three bits. -/
def TransferResult.code : TransferResult → BitVec 3
  | .ok => 0
  | .error => 1
  | .writeProtected => 2
  | .notReady => 3
  | .invalidParameter => 4

/-! ### Tests on CTYPE -/

/-- `CTYPE[3] == 1`. -/
def CardType.isBlock (c : CardType) : Bool := c.bits.getLsbD 3

/-- `(CTYPE & 0x6) != 0`: an SDC card (00_scope.md R11). -/
def CardType.isSdc (c : CardType) : Bool := c.bits &&& 0x6 != 0

/-! ### Updates of DSTAT, one bit each -/

/-- `DSTAT[0] <- v`. -/
def State.setNoInit (s : State) (v : Bool) : State := s.withDstat { s.dstat with noInit := v }

/-- `DSTAT[1] <- v`. -/
def State.setNoDisk (s : State) (v : Bool) : State := s.withDstat { s.dstat with noDisk := v }

/-- `DSTAT[2] <- v`. -/
def State.setProtect (s : State) (v : Bool) : State := s.withDstat { s.dstat with protect := v }

/-! ### Classes of received bytes -/

/-- An R1 byte has bit 7 clear (30_encoding.md R98). -/
def isResponse (r : Byte) : Bool := r &&& 0x80 == 0

/-- `r == 0x00`, ready. -/
def r1Ready (r : Byte) : Bool := r == 0x00

/-- `r == 0x01`, idle. -/
def r1Idle (r : Byte) : Bool := r == 0x01

/-- `r <= 1`, accepted. -/
def r1Accepted (r : Byte) : Bool := decide (r ≤ 1)

/-- The R7 trailer of an accepted CMD8 matches (R99). -/
def trailerMatches (t : Vector Byte 4) : Bool := t[2] == 0x01 && t[3] == 0xAA

/-- The CCS bit of the OCR: bit 6 of its first byte (R99). -/
def ocrBlock (t : Vector Byte 4) : Bool := t[0].getLsbD 6

/-- A data response is accepted (R102). -/
def responseAccepted (d : Byte) : Bool := d &&& 0x1F == 0x05

/-- The card is ready: the received byte is 0xFF (40_bus_transport.md R139). -/
def cardIsReady (b : Byte) : Bool := b == Config.filler

end Sys2Proof.Machine
end

