-- ==== Sys2Proof/Machine/Operands.lean ====
section
/-! DEFINITION. Machine/Operands.lean: the operand forms: the latches a host operation writes (10_state.md R22), the address of a
sector (20_memory.md R68), the command code and argument of each SD command (30_encoding.md R93, R96), and the destination of a
received data byte (44_polling_block_io.md R231). -/

namespace Sys2Proof.Machine

/-! ### Latches -/

/-- The word {SEL, OP} as issued. -/
def State.latchWord (s : State) (op sel : Byte) : State := s.withLat { s.lat with op := op, sel := sel }

/-- BUF, SECTOR, COUNT as issued. -/
def State.latchBlock (s : State) (buf sector count : Word) : State :=
  s.withLat { s.lat with buf := buf, sector := sector, count := count }

/-- ENGINE's progress in a multi-block transfer: `BUF <- (BUF + 512) mod 2^32; COUNT <- COUNT - 1` (R234, R235), in the step of the
exchange before it: DESIGN CHOICE, log entry 26. -/
def State.blockDone (s : State) : State := s.withLat { s.lat with buf := s.lat.buf + 512, count := s.lat.count - 1 }

/-- `COUNT <- n`, in the step of the action before it (log entry 26). -/
def State.setCount (s : State) (n : Word) : State := s.withLat { s.lat with count := n }

/-! ### Addresses and arguments -/

/-- R68: a sector number, or the byte address `sector * 512` modulo 2^32. -/
def scaledAddr (c : CardType) (sector : Word) : Word := if c.isBlock then sector else sector * 512

/-- The command code of a block operation for one block or several (R93: "Single-block transfers use CMD17/CMD24; multi-block
transfers use CMD18/CMD25"). -/
def blockCommand (d : DmaDir) (count : Word) : Byte :=
  match d with
  | .read => if count = 1 then 0x11 else 0x12
  | .write => if count = 1 then 0x18 else 0x19

/-- The token of a block write (R101). -/
def blockToken (count : Word) : Byte := if count = 1 then Config.tokStart else Config.tokMulti

/-- `cmd[7] == 1`: an application-specific command (R93). -/
def isApp (cmd : Byte) : Bool := cmd &&& 0x80 != 0

/-- The fixed command codes the engine frames. -/
def cmdGoIdle : Byte := 0x00
def cmdInitMmc : Byte := 0x01
def cmdIfCond : Byte := 0x08
def cmdSendCsd : Byte := 0x09
def cmdStop : Byte := 0x0C
def cmdBlockLen : Byte := 0x10
def acmdErase : Byte := 0x97
def acmdInitSd : Byte := 0xA9
def cmdApp : Byte := 0x37
def cmdReadOcr : Byte := 0x3A

/-! ### Destinations of received data -/

/-- How many bytes a destination takes (R64, R231). -/
def Dest.len : Dest → Nat
  | .buffer => Config.blockLen
  | .csd => Config.csdLen

/-- `store(dest, IDX, b)` (R231), the buffer destination starting at BUF. -/
def State.storeAt (s : State) (d : Dest) (i : Nat) (b : Byte) : State :=
  match d with
  | .buffer => s.writeByte (bufferAddr s.lat.buf i) b
  | .csd => s.withWk { s.wk with csdr := s.wk.csdr.setIfInBounds i b }

end Sys2Proof.Machine
end

