-- ==== Sys2Proof/Machine/Transport.lean ====
section
/-! DEFINITION. Machine/Transport.lean: the compound micro-operations of the Bus Transport (40_bus_transport.md R137 to R140) as the
primitive actions they are made of, in order, and what the readiness wait does with a received byte and with its counter. -/

namespace Sys2Proof.Machine

/-- `deselect()` (R137): `CS <- 1`, then one filler exchange. -/
def deselect : List Micro := [.act (.setCs true), .exchange (.send Config.filler)]

/-- `wait_ready(ms)` (R139): the counter is armed, then the loop's first exchange; the loop goes on by itself. -/
def waitReady (ms : BitVec 16) : List Micro := [.act (.arm .rdy ms), .exchange .ready]

/-- `select()` (R138) up to the outcome of its wait; the caller's join tests it, and deselects when the card stayed busy. -/
def select : List Micro := .act (.setCs false) :: waitReady Config.tRdyMs

/-- N_INIT_DUMMY (00_scope.md R8). -/
def Outside.initDummies (e : Outside) : Nat := Config.minInitDummy + e.extraDummies

/-- `power_up_clocks()` (R140). -/
def powerUpClocks (n : Nat) : List Micro :=
  .act (.setSpeed .low) :: .act (.setCs true) :: List.replicate n (.exchange (.send Config.filler))

/-- The truth value a micro-operation returns to its caller. -/
def State.returnFlag (s : State) (v : Bool) : State := s.withWk { s.wk with flag := v }

/-- R139: the byte is compared first; a ready card ends the wait with true, else the counter is asked. -/
def readyByte (rx : Byte) (s : State) : State :=
  let s := s.withWk { s.wk with rdy := rx }
  if cardIsReady rx then s.returnFlag true else s.push [.act .readyExpired]

/-- R139: `EXPIRED(2)`; the wait ends with false, or goes on with another exchange. -/
def readyTimer (s : State) : State :=
  if s.expired .rdy then s.returnFlag false else s.push [.exchange .ready]

end Sys2Proof.Machine
end

