-- ==== Sys2Proof/Machine/Command.lean ====
section
/-! DEFINITION. Machine/Command.lean: `send_command` (42_command_framing.md R170 to R175) and `read_trailer` (R190) as the primitive
actions they are made of and the tests between them. -/

namespace Sys2Proof.Machine

/-- R173, R174: the six frame bytes, the stuff byte of CMD12, then the poll. -/
def frame (cmd : Byte) (arg : Word) : List Micro :=
  (frameBytes cmd arg).map (fun b => .exchange (.send b))
    ++ (if cmd = cmdStop then [.exchange (.send Config.filler)] else [])
    ++ [.join .startPoll]

/-- R172: every command but CMD12 reselects the card first. -/
def plainCommand (cmd : Byte) (arg : Word) : List Micro :=
  if cmd = cmdStop then frame cmd arg else deselect ++ select ++ [.join (.selected cmd arg)]

/-- The command being framed is noted in CMD and ARG (10_state.md R23). -/
def State.noteCommand (s : State) (cmd : Byte) (arg : Word) : State := s.withWk { s.wk with cmd := cmd, arg := arg }

/-- `send_command(cmd, arg)` (R170), unfolded to its first primitive action: an application command runs CMD55 first (R171). -/
def sendCommand (cmd : Byte) (arg : Word) (s : State) : State :=
  if isApp cmd then
    (s.noteCommand cmdApp 0).push (plainCommand cmdApp 0 ++ [.join (.prefixed (cmd &&& 0x7F) arg)])
  else
    (s.noteCommand cmd arg).push (plainCommand cmd arg)

/-- R172: after `select()`. A card that stayed busy is deselected and 0xFF returned. -/
def afterSelect (cmd : Byte) (arg : Word) (s : State) : State :=
  if s.wk.flag then s.push (frame cmd arg) else s.push (deselect ++ [.join .noResponse])

/-- R172: "returns `0xFF` at once". -/
def noResponse (s : State) : State := s.withWk { s.wk with r1 := 0xFF }

/-- R171: after the nested CMD55; a response greater than 1 is the command's response. -/
def afterPrefix (cmd : Byte) (arg : Word) (s : State) : State :=
  if r1Accepted s.wk.r1 then s.push [.command cmd arg] else s

/-- R175: `NTRY <- 10`. -/
def startPoll (s : State) : State :=
  (s.withWk { s.wk with ntry := Config.r1Attempts }).push [.exchange .poll]

/-- R175: one pass of the poll. The byte is the response if bit 7 is clear; the tenth byte is returned whatever it is. -/
def pollByte (rx : Byte) (s : State) : State :=
  let left := s.wk.ntry - 1
  let s := s.withWk { s.wk with r1 := rx, ntry := left }
  if isResponse rx || left == 0 then s else s.push [.exchange .poll]

/-- `read_trailer()` (R190). -/
def readTrailer : List Micro :=
  [.exchange (.trail 0), .exchange (.trail 1), .exchange (.trail 2), .exchange (.trail 3)]

/-- `TRAIL[i] <- XCHG(0xFF)`. -/
def trailByte (i : Fin 4) (rx : Byte) (s : State) : State := s.withWk { s.wk with trail := s.wk.trail.set i rx }

end Sys2Proof.Machine
end

