-- ==== Sys2Proof/Machine/Packet.lean ====
section
/-! DEFINITION. Machine/Packet.lean: the data packets (44_polling_block_io.md R231 to R233, R238): the wait for a start token, the
reception of a block into the buffer or into CSDR, the transmission of a block or of a stop token. -/

namespace Sys2Proof.Machine

/-- `wait_token()` (R238): the counter is armed, then the loop's first exchange; the loop goes on by itself. -/
def waitToken : List Micro := [.act (.arm .tok Config.tTokMs), .exchange .token]

/-- R238: a byte that is not filler ends the wait, and it succeeds only with the start token; after filler the counter is asked. -/
def tokenByte (rx : Byte) (s : State) : State :=
  let s := s.withWk { s.wk with tok := rx }
  if rx = Config.filler then s.push [.act .tokenExpired] else s.returnFlag (rx == Config.tokStart)

/-- R238: `EXPIRED(1)`; the last byte was filler, so the wait fails, or goes on with another exchange. -/
def tokenTimer (s : State) : State :=
  if s.expired .tok then s.returnFlag false else s.push [.exchange .token]

/-- `rcvr_datablock(dest, len)` (R232). -/
def receiveBlock (d : Dest) : List Micro := waitToken ++ [.join (.tokenSeen d)]

/-- R232: without the token nothing is stored and no more is read; with it the data loop begins. -/
def afterToken (d : Dest) (s : State) : State :=
  if s.wk.flag then (s.withWk { s.wk with idx := 0 }).push [.exchange (.data d)] else s

/-- R232: `store(dest, IDX, b)`; after the last byte the two CRC bytes are read and discarded. -/
def storeData (d : Dest) (s : State) : State :=
  let i := s.wk.idx.toNat
  let s := s.storeAt d i s.wk.dat
  if i + 1 = d.len then
    s.push [.exchange (.send Config.filler), .exchange (.send Config.filler), .join .returnTrue]
  else (s.withWk { s.wk with idx := s.wk.idx + 1 }).push [.exchange (.data d)]

/-- R232: `b <- XCHG(0xFF)`. The store into the buffer is the next primitive action; `CSDR[IDX] <- b` belongs to the step of this
exchange (70_reset_and_hazards.md R360). -/
def dataByte (d : Dest) (rx : Byte) (s : State) : State :=
  let s := s.withWk { s.wk with dat := rx }
  match d with
  | .buffer => s.push [.act .store]
  | .csd => storeData .csd s

/-- `xmit_datablock(BUF, token)` (R233). -/
def transmitBlock (token : Byte) : List Micro := waitReady Config.tRdyMs ++ [.join (.cardReady token)]

/-- R233: a card that is not ready gets nothing; else the token goes out, and behind it the data unless it is the stop token. -/
def afterReady (token : Byte) (s : State) : State :=
  if s.wk.flag then
    if token = Config.tokStop then s.push [.exchange (.sendToken token), .join .returnTrue]
    else (s.withWk { s.wk with idx := 0 }).push [.exchange (.sendToken token), .act .load]
  else s

/-- R233: `b <- MemRead(src + IDX, 1)`. -/
def loadData (s : State) : State :=
  (s.withWk { s.wk with dat := s.readByte (bufferAddr s.lat.buf s.wk.idx.toNat) }).push [.exchange .sendData]

/-- R233: after `XCHG(b)`; behind the last byte two dummy CRC bytes and the data response. -/
def dataSent (s : State) : State :=
  if s.wk.idx.toNat + 1 = Config.blockLen then
    s.push [.exchange (.send Config.filler), .exchange (.send Config.filler), .exchange .response]
  else (s.withWk { s.wk with idx := s.wk.idx + 1 }).push [.act .load]

/-- R233: `DRESP <- XCHG(0xFF)`, accepted or not. -/
def responseByte (rx : Byte) (s : State) : State :=
  (s.withWk { s.wk with dresp := rx }).returnFlag (responseAccepted rx)

/-! ### Every micro-operation's entries in one place -/

/-- The byte an exchange sends. -/
def Exchange.tx (x : Exchange) (s : State) : Byte :=
  match x with
  | .send tx => tx
  | .ready => Config.filler
  | .token => Config.filler
  | .poll => Config.filler
  | .trail _ => Config.filler
  | .data _ => Config.filler
  | .sendToken tok => tok
  | .sendData => s.wk.dat
  | .response => Config.filler

/-- What is done with the byte an exchange receives. -/
def received (x : Exchange) (rx : Byte) (s : State) : State :=
  match x with
  | .send _ => s
  | .ready => readyByte rx s
  | .token => tokenByte rx s
  | .poll => pollByte rx s
  | .trail i => trailByte i rx s
  | .data d => dataByte d rx s
  | .sendToken _ => s
  | .sendData => dataSent s
  | .response => responseByte rx s

/-- The primitive actions that are no exchange. -/
def doLocal (l : Local) (s : State) : State :=
  match l with
  | .setCs v => s.writeCs v
  | .setSpeed v => s.writeSpeed v
  | .arm t ms => s.armTimer t ms
  | .readyExpired => readyTimer s
  | .tokenExpired => tokenTimer s
  | .store => storeData .buffer s
  | .load => loadData s

/-- The tests and assignments between primitive actions. -/
def doJoin (j : Join) (s : State) : State :=
  match j with
  | .selected cmd arg => afterSelect cmd arg s
  | .noResponse => noResponse s
  | .prefixed cmd arg => afterPrefix cmd arg s
  | .startPoll => startPoll s
  | .tokenSeen d => afterToken d s
  | .cardReady tok => afterReady tok s
  | .returnTrue => s.returnFlag true

end Sys2Proof.Machine
end

