-- ==== Sys2Proof/Machine/Negotiation.lean ====
section
/-! DEFINITION. Machine/Negotiation.lean: INITIALIZE, the negotiation state machine (43_negotiation.md R200 to R208). Each function is
one place of its pseudocode: a primitive action on DSTAT, CTYPE or T_NEG, or the test made when a command has returned (the third
column of R208). -/

namespace Sys2Proof.Machine

/-- `TY <- c`. -/
def State.setTy (s : State) (c : CardType) : State := s.withWk { s.wk with ty := c }

/-- Step 5 begins (R207): `CTYPE <- TY` is next. -/
def negoFinish (s : State) : State := s.goAct .setType

/-- A failed negotiation goes to step 5 with `TY == 0`. -/
def negoFail (s : State) : State := negoFinish (s.setTy .noCard)

/-- R201: `DSTAT[1] <- SENSE_NOMEDIUM`. -/
def negoSenseMedium (s : State) : State := (s.setNoDisk s.env.senseNoMedium).goAct .senseProtect

/-- R201: `DSTAT[2] <- SENSE_WRPROT`. -/
def negoSenseProtect (s : State) : State := (s.setProtect s.env.senseWrProt).goAct .testMedium

/-- R201, R202: without a medium the operation ends at once; else the power-up clocks. -/
def negoTestMedium (s : State) : State :=
  if s.dstat.noDisk then s.goAct .absentInit else s.call (powerUpClocks s.env.initDummies) .poweredUp

/-- R201: `DSTAT[0] <- 1`. -/
def negoAbsentInit (s : State) : State := (s.setNoInit true).goAct .absentType

/-- R201: `CTYPE <- 0`. -/
def negoAbsentType (s : State) : State := (s.withCtype .noCard).goAct .retStatus

/-- R203: `TY <- 0`, CMD0. -/
def negoPoweredUp (s : State) : State := (s.setTy .noCard).call [.command cmdGoIdle 0] .cmd0

/-- R203, R204: CMD0 must answer 0x01; then the window is armed and CMD8 sent. -/
def negoCmd0 (s : State) : State :=
  if r1Idle s.wk.r1 then s.call [.act (.arm .neg Config.tNegMs), .command cmdIfCond Config.argCmd8] .cmd8 else negoFinish s

/-- R204, R206: an accepted CMD8 has its trailer read; any other response takes the legacy path, whose probe is ACMD41. -/
def negoCmd8 (s : State) : State :=
  if r1Idle s.wk.r1 then s.call readTrailer .trailer else s.call [.command acmdInitSd 0] .probe

/-- R204, R205: a matching trailer begins the v2 ready loop. -/
def negoTrailer (s : State) : State :=
  if trailerMatches s.wk.trail then s.call [.command acmdInitSd Config.argHcs] .v2Loop else negoFinish s

/-- R205: ready leads to CMD58; else the window is asked. -/
def negoV2Loop (s : State) : State :=
  if r1Ready s.wk.r1 then s.call [.command cmdReadOcr 0] .ocrCmd else s.goAct (.windowExpired true)

/-- R205, R206: `EXPIRED(0)`; the ready loop fails, or sends its command again. -/
def negoWindow (v2 : Bool) (s : State) : State :=
  if s.expired .neg then negoFail s
  else if v2 then s.call [.command acmdInitSd Config.argHcs] .v2Loop
  else s.call [.command s.wk.icmd 0] .legacyLoop

/-- R205: the OCR is read only after 0x00. -/
def negoOcrCmd (s : State) : State := if r1Ready s.wk.r1 then s.call readTrailer .ocr else negoFinish s

/-- R205: CCS gives `SD-v2 | Block-Addressed`, else `SD-v2`. -/
def negoOcr (s : State) : State := negoFinish (s.setTy (if ocrBlock s.wk.trail then .sd2Block else .sd2))

/-- R206: the probe classifies, and chooses the retry command. -/
def negoProbe (s : State) : State :=
  let s :=
    if r1Accepted s.wk.r1 then s.withWk { s.wk with ty := .sd1, icmd := acmdInitSd }
    else s.withWk { s.wk with ty := .mmc, icmd := cmdInitMmc }
  s.call [.command s.wk.icmd 0] .legacyLoop

/-- R206: ready leads to CMD16; else the window is asked. -/
def negoLegacyLoop (s : State) : State :=
  if r1Ready s.wk.r1 then s.call [.command cmdBlockLen 512] .blockLen else s.goAct (.windowExpired false)

/-- R206: CMD16 must answer 0x00. -/
def negoBlockLen (s : State) : State := if r1Ready s.wk.r1 then negoFinish s else negoFail s

/-- R207: `CTYPE <- TY`, then `deselect()`. -/
def negoSetType (s : State) : State := (s.withCtype s.wk.ty).call deselect .closed

/-- R207: success is `TY != 0`. -/
def negoClosed (s : State) : State := if s.wk.ty = .noCard then s.goAct .setFailed else s.goAct .setReady

/-- R207: `DSTAT[0] <- 0; SET_SPEED(High)`. -/
def negoSetReady (s : State) : State := (s.setNoInit false).call [.act (.setSpeed .high)] .fast

/-- R207: `SVAL <- DSTAT; return` is next. -/
def negoFast (s : State) : State := s.goAct .retStatus

/-- R207: `DSTAT[0] <- 1`. -/
def negoSetFailed (s : State) : State := (s.setNoInit true).goAct .retStatus

end Sys2Proof.Machine
end

