-- ==== Sys2Proof/Machine/BlockIo.lean ====
section
/-! DEFINITION. Machine/BlockIo.lean: the precondition gate and the polling operations READ and WRITE (44_polling_block_io.md R230,
R234, R235). Each function is one place of their pseudocode. -/

namespace Sys2Proof.Machine

/-- `w` of `gate(w)`: the two write operations test PROTECT. -/
def BlockOp.isWrite : BlockOp → Bool
  | .read => false
  | .write => true
  | .startRead => false
  | .startWrite => true

/-- The two start operations, which have the guard of R263 behind the gate. -/
def BlockOp.isDma : BlockOp → Bool
  | .read => false
  | .write => false
  | .startRead => true
  | .startWrite => true

/-- The direction of a block operation. -/
def BlockOp.dir (o : BlockOp) : DmaDir := if o.isWrite then .write else .read

/-! ### The gate (R230) -/

/-- The first test, made on the latched COUNT as the operation is issued: a zero count is InvalidParameter. -/
def gateCount (o : BlockOp) (s : State) : State :=
  if s.lat.count = 0 then s.endWith .invalidParameter else s.goAct (.gateInit o)

/-- Behind the gate: the guard of a start operation, or the address. -/
def gatePassed (o : BlockOp) (s : State) : State := if o.isDma then s.goAct (.guardDma o) else s.goAct (.scale o)

/-- `DSTAT[0] == 1` is NotReady. -/
def gateInit (o : BlockOp) (s : State) : State :=
  if s.dstat.noInit then s.endWith .notReady
  else if o.isWrite then s.goAct (.gateProtect o)
  else gatePassed o s

/-- `DSTAT[2] == 1` is WriteProtected for a write. -/
def gateProtect (o : BlockOp) (s : State) : State :=
  if s.dstat.protect then s.endWith .writeProtected else gatePassed o s

/-- `ADDR <- …`, the scaled sector number, which reads `CTYPE[3]` (20_memory.md R68). -/
def State.noteAddr (s : State) : State := s.withWk { s.wk with addr := scaledAddr s.ctype s.lat.sector }

/-! ### READ (R234) -/

/-- READ with its address: CMD17 or CMD18. -/
def readBegin (s : State) : State :=
  if s.lat.count = 1 then s.call [.command (blockCommand .read s.lat.count) s.wk.addr] .readOne
  else s.call [.command (blockCommand .read s.lat.count) s.wk.addr] .readMany

/-- The end of READ and WRITE: `deselect()`, then the result. -/
def blockClose (s : State) : State := s.call deselect .blockClosed

/-- After CMD17. -/
def readOne (s : State) : State :=
  if r1Ready s.wk.r1 then s.call (receiveBlock .buffer) .readOneData else blockClose s

/-- After the one block. -/
def readOneData (s : State) : State := blockClose (if s.wk.flag then s.setCount 0 else s)

/-- After CMD18; without acceptance CMD12 is not sent. -/
def readMany (s : State) : State :=
  if r1Ready s.wk.r1 then s.call (receiveBlock .buffer) .readManyData else blockClose s

/-- CMD12, its response ignored. -/
def readStopNow (s : State) : State := s.call [.command cmdStop 0] .readStop

/-- After a block: a block not received leaves the loop; the last one ends it. -/
def readManyData (s : State) : State :=
  if s.wk.flag then
    let s := s.blockDone
    if s.lat.count = 0 then readStopNow s else s.call (receiveBlock .buffer) .readManyData
  else readStopNow s

/-- After CMD12. -/
def readStop (s : State) : State := blockClose s

/-- `if COUNT == 0: return Ok else: return Error`. -/
def blockClosed (s : State) : State := s.endWith (if s.lat.count = 0 then .ok else .error)

/-! ### WRITE (R235) -/

/-- WRITE with its address: CMD24, or the test for the pre-erase hint. -/
def writeBegin (s : State) : State :=
  if s.lat.count = 1 then s.call [.command (blockCommand .write s.lat.count) s.wk.addr] .writeOne
  else s.goAct (.testSdc false)

/-- CMD25. -/
def writeManyNow (s : State) : State := s.call [.command (blockCommand .write s.lat.count) s.wk.addr] .writeMany

/-- `(CTYPE & 0x6) != 0` sends ACMD23 with the count as issued. -/
def writeTestSdc (s : State) : State :=
  if s.ctype.isSdc then s.call [.command acmdErase s.lat.count] .writeHint else writeManyNow s

/-- After ACMD23, whose response is ignored. -/
def writeHint (s : State) : State := writeManyNow s

/-- After CMD24. -/
def writeOne (s : State) : State :=
  if r1Ready s.wk.r1 then s.call (transmitBlock Config.tokStart) .writeOneData else blockClose s

/-- After the one block. -/
def writeOneData (s : State) : State := blockClose (if s.wk.flag then s.setCount 0 else s)

/-- After CMD25; without acceptance no packet and no stop token is sent. -/
def writeMany (s : State) : State :=
  if r1Ready s.wk.r1 then s.call (transmitBlock Config.tokMulti) .writeManyData else blockClose s

/-- The stop token, sent whether or not every block was accepted. -/
def writeStopNow (s : State) : State := s.call (transmitBlock Config.tokStop) .writeStop

/-- After a block: a block not accepted leaves the loop without advancing; the last one ends it. -/
def writeManyData (s : State) : State :=
  if s.wk.flag then
    let s := s.blockDone
    if s.lat.count = 0 then writeStopNow s else s.call (transmitBlock Config.tokMulti) .writeManyData
  else writeStopNow s

/-- After the stop token: one that could not go out forces Error (`COUNT <- 1`). -/
def writeStop (s : State) : State := blockClose (if s.wk.flag then s else s.setCount 1)

end Sys2Proof.Machine
end

