-- ==== Sys2Proof/Machine/DmaIo.lean ====
section
/-! DEFINITION. Machine/DmaIo.lean: START_READ_DMA, START_WRITE_DMA and POLL_STATUS (45_dma_completion.md R261 to R265), and the
steps of the DMA engine inside its contract (R266). -/

namespace Sys2Proof.Machine

/-! ### The start operations -/

/-- R263: a transfer in flight, or one not cleaned up, rejects the start. -/
def guardDma (o : BlockOp) (s : State) : State :=
  if s.dmast = .idle then s.goAct (.guardContext o) else s.endWith .notReady

/-- R263: so does a live context. -/
def guardContext (o : BlockOp) (s : State) : State :=
  if s.atc.live then s.endWith .notReady else s.goAct (.newContext o)

/-- `ATC.live <- 1`. -/
def newContext (o : BlockOp) (s : State) : State := (s.withAtc { s.atc with live := true }).goAct (.newDir o)

/-- `ATC.dir <- 0` or `ATC.dir <- 1`. -/
def newDir (o : BlockOp) (s : State) : State := (s.withAtc { s.atc with dir := o.dir }).goAct (.newMulti o)

/-- `ATC.multi <- (COUNT > 1)`. -/
def newMulti (o : BlockOp) (s : State) : State :=
  (s.withAtc { s.atc with multi := decide (s.lat.count > 1) }).goAct (.scale o)

/-- START_READ_DMA with its address: CMD17 or CMD18. -/
def dmaReadBegin (s : State) : State := s.call [.command (blockCommand .read s.lat.count) s.wk.addr] .dmaReadCmd

/-- The failure path of a start operation: `deselect()`, then the context is cleared. -/
def dmaFail (s : State) : State := s.call deselect .dmaClosed

/-- After the read command: the start token is awaited in task context. -/
def dmaReadCmd (s : State) : State := if r1Ready s.wk.r1 then s.call waitToken .dmaReadToken else dmaFail s

/-- After the token wait: the transfer starts, or a multi-block command is closed. -/
def dmaReadToken (s : State) : State := if s.wk.flag then s.goAct (.dmaGo .read) else s.goAct (.testMulti .read)

/-- `{ DMAST <- Busy; DMA_START(dir, BUF, COUNT) }; return Ok`. -/
def dmaGo (d : DmaDir) (s : State) : State := (s.dmaStart d).endWith .ok

/-- `if ATC.multi == 1` after a failed handshake: CMD12 for a read, the stop token for a write, the outcome ignored. -/
def dmaTestMulti (d : DmaDir) (s : State) : State :=
  if s.atc.multi then
    match d with
    | .read => s.call [.command cmdStop 0] .dmaStopped
    | .write => s.call (transmitBlock Config.tokStop) .dmaStopped
  else dmaFail s

/-- After the closing CMD12 or stop token. -/
def dmaStopped (s : State) : State := dmaFail s

/-- After the deselect. -/
def dmaClosed (s : State) : State := s.goAct .dropContext

/-- `ATC.live <- 0; return Error`. ATC.dir and ATC.multi "then hold no value" (R267); the model keeps their old bits, which no step
reads before a start operation writes them again: DESIGN CHOICE, log entry 4. -/
def dropContext (s : State) : State := (s.withAtc { s.atc with live := false }).endWith .error

/-- START_WRITE_DMA with its address: CMD24, or the test for the pre-erase hint. -/
def dmaWriteBegin (s : State) : State :=
  if s.lat.count = 1 then s.call [.command (blockCommand .write s.lat.count) s.wk.addr] .dmaWriteCmd
  else s.goAct (.testSdc true)

/-- CMD25. -/
def dmaWriteManyNow (s : State) : State := s.call [.command (blockCommand .write s.lat.count) s.wk.addr] .dmaWriteCmd

/-- `(CTYPE & 0x6) != 0` sends ACMD23 with the count. -/
def dmaWriteTestSdc (s : State) : State :=
  if s.ctype.isSdc then s.call [.command acmdErase s.lat.count] .dmaWriteHint else dmaWriteManyNow s

/-- After ACMD23, whose response is ignored. -/
def dmaWriteHint (s : State) : State := dmaWriteManyNow s

/-- After the write command: `TOK <- 0xFE` or `0xFC`, then the readiness wait. -/
def dmaWriteCmd (s : State) : State :=
  let s := s.withWk { s.wk with tok := blockToken s.lat.count }
  if r1Ready s.wk.r1 then s.call (waitReady Config.tRdyMs) .dmaWriteReady else dmaFail s

/-- After the readiness wait: the block token goes out, or a multi-block command is closed. -/
def dmaWriteReady (s : State) : State :=
  if s.wk.flag then s.call [.exchange (.sendToken s.wk.tok)] .dmaWriteToken else s.goAct (.testMulti .write)

/-- After the token the buffer is handed to the DMA engine. -/
def dmaWriteToken (s : State) : State := s.goAct (.dmaGo .write)

/-! ### POLL_STATUS (R265) -/

/-- `s <- DMAST`, one atomic read, and what it decides. -/
def pollRead (s : State) : State :=
  let s := s.withWk { s.wk with pst := s.dmast }
  match s.wk.pst with
  | .idle => s.endWith .ok
  | .busy => s.endWith .notReady
  | .success => (s.withWk { s.wk with okf := true }).goAct .readMulti
  | .error => (s.withWk { s.wk with okf := true }).goAct .readMulti

/-- The end of the follow-up: `deselect()`. -/
def pollClose (s : State) : State := s.call deselect .pollClosed

/-- `ATC.multi == 1`. A context that is not live holds no value in this bit (10_state.md R31), so its read is a fault (R25, U13); it
does not occur while the invariant of R260 holds (log entry 18). -/
def pollMulti (s : State) : Answer :=
  if s.atc.live then .next (if s.atc.multi then s.goAct .readDir else pollClose s) else .fault .noValue

/-- `ATC.dir == 1`, behind it: the stop token of a write, CMD12 of a read. -/
def pollDir (s : State) : Answer :=
  if s.atc.live then
    .next (match s.atc.dir with
      | .write => s.call (transmitBlock Config.tokStop) .pollStopToken
      | .read => s.call [.command cmdStop 0] .pollStopCmd)
  else .fault .noValue

/-- After the stop token: `OKF <- 0` when it could not go out. -/
def pollStopToken (s : State) : State := pollClose (if s.wk.flag then s else s.withWk { s.wk with okf := false })

/-- After CMD12, whose response is ignored. -/
def pollStopCmd (s : State) : State := pollClose s

/-- After the deselect. -/
def pollClosed (s : State) : State := s.goAct .clearContext

/-- `ATC.live <- 0`; the other two bits keep what they held (log entry 4). -/
def clearContext (s : State) : State := (s.withAtc { s.atc with live := false }).goAct .statusIdle

/-- `DMAST <- Idle`, and the result. The buffer range is HOST's again (70_reset_and_hazards.md R358). -/
def statusIdle (s : State) : State :=
  ((s.withDmast .idle).withJob none).endWith (if s.wk.pst = .success && s.wk.okf then .ok else .error)

/-! ### DMAENG (R266) -/

/-- The bytes of a transfer's buffer range (R266 (a)). -/
def DmaJob.size (j : DmaJob) : Nat := Config.blockLen * j.n.toNat

/-- One exchange of DMAENG, and what it holds of the transfer behind it. If the bus never answers, R136 fixes the wait of ENGINE's exchange
only; here DMAENG's turn passes with nothing changed, so that a byte it meant to send stays the oldest in `fetched` and is the one its next
`send` takes: DESIGN CHOICE, log entry 14. -/
def dmaExchange (tx : Byte) (held : DmaJob) (s : State) : State :=
  match s.nextCard with
  | some (rx, t) => (t.withJob (some held)).log (.dmaXchg tx rx)
  | none => s

/-- A step of DMAENG with what it was handed: an exchange with CS unchanged, a store into the range of a read, a load from the range of
a write; it touches no register of the block (R266 (b)). A byte read from the buffer is as ENGINE and HOST left it before `DMA_START`
(20_memory.md R72 (a)), and waits in DMAENG until an exchange that is answered sends it (log entry 14). -/
def dmaAction (a : DmaAct) (j : DmaJob) (s : State) : Answer :=
  match a with
  | .xchg tx => .next (dmaExchange tx j s)
  | .send =>
    match j.fetched with
    | b :: bs => .next (dmaExchange b { j with fetched := bs } s)
    | [] => .refused .outsideDmaContract
  | .store off b =>
    if j.dir = .read ∧ off < j.size then .next (s.writeByte (bufferAddr j.buf off) b) else .refused .outsideDmaContract
  | .load off =>
    if j.dir = .write ∧ off < j.size then
      .next (s.withJob (some { j with fetched := j.fetched ++ [s.readByte (bufferAddr j.buf off)] }))
    else .refused .outsideDmaContract

/-- A step of DMAENG: it owns the bus and the buffer range only while a transfer is in flight. -/
def dmaStep (a : DmaAct) (s : State) : Answer :=
  match s.dmast, s.job with
  | .busy, some j => dmaAction a j s
  | _, _ => .refused .outsideDmaContract

end Sys2Proof.Machine
end

