-- ==== Sys2Proof/Machine/Query.lean ====
section
/-! DEFINITION. Machine/Query.lean: IOCTL (46_query_ioctl.md R290 to R295): the dispatch, the sector size, the sector count from the
CSD register, the refused erase-block size. The positions of the CSD fields are the spec's, which marks them "[from general
knowledge, not in source]" (R293, R294, G7). -/

namespace Sys2Proof.Machine

/-- A CSD byte as a 32-bit number. -/
def csdByte (c : Vector Byte 16) (i : Fin 16) : Word := (c.get i).setWidth 32

/-- R293: `csize` of structure version 1. -/
def csdSizeV2 (c : Vector Byte 16) : Word :=
  csdByte c 9 + (csdByte c 8 <<< 8) + ((csdByte c 7 &&& 0x3F) <<< 16) + 1

/-- R294: `n`, the exponent of structure version 0. -/
def csdExponent (c : Vector Byte 16) : Nat :=
  (csdByte c 5 &&& 0x0F).toNat + ((csdByte c 10 &&& 0x80) >>> 7).toNat + ((csdByte c 9 &&& 0x03) <<< 1).toNat + 2

/-- R294: `csize` of structure version 0. -/
def csdSizeV1 (c : Vector Byte 16) : Word :=
  (csdByte c 8 >>> 6) + (csdByte c 7 <<< 2) + ((csdByte c 6 &&& 0x03) <<< 10) + 1

/-- `decode_csd_v1()` (R294): the sector count, or none where the decode refuses. -/
def decodeCsdV1 (c : Vector Byte 16) : Option Word :=
  if csdExponent c < 9 then none else some (csdSizeV1 c <<< (csdExponent c - 9))

/-- `decode_csd()` (R293): the branch on the structure version. -/
def decodeCsd (c : Vector Byte 16) : Option Word :=
  if csdByte c 0 >>> 6 = 1 then some (csdSizeV2 c <<< 10)
  else if csdByte c 0 >>> 6 = 0 then decodeCsdV1 c
  else none

/-- `OKF <- v`. -/
def State.setOkf (s : State) (v : Bool) : State := s.withWk { s.wk with okf := v }

/-- GET_SECTOR_SIZE (R291): `VAL <- 512; return Ok`; VAL is written in the step of the DSTAT read before it (log entry 26). -/
def getSectorSize (s : State) : State := (s.writeVal 512).endWith .ok

/-- GET_SECTOR_COUNT (R292): CMD9. -/
def getSectorCount (s : State) : State := (s.setOkf false).call [.command cmdSendCsd 0] .csdCmd

/-- IOCTL's dispatch (R290): NOINIT first, then the selector. -/
def ioctlGate (s : State) : Answer :=
  if s.dstat.noInit then .next (s.endWith .notReady)
  else if s.lat.sel = 0x02 then .next (getSectorSize s)
  else if s.lat.sel = 0x01 then .next (getSectorCount s)
  else if s.lat.sel = 0x03 then .refused .eraseBlockSizeUnspecified
  else .next (s.endWith .invalidParameter)

/-- The end of GET_SECTOR_COUNT: `deselect()`. -/
def csdClose (s : State) : State := s.call deselect .csdClosed

/-- After CMD9. -/
def csdCmd (s : State) : State := if r1Ready s.wk.r1 then s.call (receiveBlock .csd) .csdData else csdClose s

/-- After the CSD packet: `OKF <- decode_csd()`, which writes VAL, in the step of the packet's last exchange (log entry 26). -/
def csdData (s : State) : State :=
  if s.wk.flag then
    match decodeCsd s.wk.csdr with
    | some v => csdClose ((s.setOkf true).writeVal v)
    | none => csdClose s
  else csdClose s

/-- `if OKF == 1: return Ok else: return Error`. -/
def csdClosed (s : State) : State := s.endWith (if s.wk.okf then .ok else .error)

end Sys2Proof.Machine
end

