-- ==== Sys2Proof/Machine/Engine.lean ====
section
/-! DEFINITION. Machine/Engine.lean: one step of the agent ENGINE (70_reset_and_hazards.md R360), which is one primitive action with
the tests and assignments that belong to it, and a run of steps as the schedule gives them (60_exceptions.md R313). -/

namespace Sys2Proof.Machine

/-- A primitive action of a host operation. -/
def doAct (a : Act) (s : State) : Answer :=
  match a with
  | .ret r => .next (s.returnWith r)
  | .retStatus => .next s.returnStatus
  | .senseMedium => .next (negoSenseMedium s)
  | .senseProtect => .next (negoSenseProtect s)
  | .testMedium => .next (negoTestMedium s)
  | .absentInit => .next (negoAbsentInit s)
  | .absentType => .next (negoAbsentType s)
  | .windowExpired v2 => .next (negoWindow v2 s)
  | .setType => .next (negoSetType s)
  | .setReady => .next (negoSetReady s)
  | .setFailed => .next (negoSetFailed s)
  | .gateInit o => .next (gateInit o s)
  | .gateProtect o => .next (gateProtect o s)
  | .guardDma o => .next (guardDma o s)
  | .guardContext o => .next (guardContext o s)
  | .newContext o => .next (newContext o s)
  | .newDir o => .next (newDir o s)
  | .newMulti o => .next (newMulti o s)
  | .scale .read => .next (readBegin s.noteAddr)
  | .scale .write => .next (writeBegin s.noteAddr)
  | .scale .startRead => .next (dmaReadBegin s.noteAddr)
  | .scale .startWrite => .next (dmaWriteBegin s.noteAddr)
  | .testSdc false => .next (writeTestSdc s)
  | .testSdc true => .next (dmaWriteTestSdc s)
  | .dmaGo d => .next (dmaGo d s)
  | .testMulti d => .next (dmaTestMulti d s)
  | .dropContext => .next (dropContext s)
  | .readStatus => .next (pollRead s)
  | .readMulti => pollMulti s
  | .readDir => pollDir s
  | .clearContext => .next (clearContext s)
  | .statusIdle => .next (statusIdle s)
  | .ioctlGate => ioctlGate s

/-- The test a caller makes when the micro-operation it ran has ended. -/
def doTest (t : Test) (s : State) : State :=
  match t with
  | .poweredUp => negoPoweredUp s
  | .cmd0 => negoCmd0 s
  | .cmd8 => negoCmd8 s
  | .trailer => negoTrailer s
  | .v2Loop => negoV2Loop s
  | .ocrCmd => negoOcrCmd s
  | .ocr => negoOcr s
  | .probe => negoProbe s
  | .legacyLoop => negoLegacyLoop s
  | .blockLen => negoBlockLen s
  | .closed => negoClosed s
  | .fast => negoFast s
  | .readOne => readOne s
  | .readOneData => readOneData s
  | .readMany => readMany s
  | .readManyData => readManyData s
  | .readStop => readStop s
  | .writeOne => writeOne s
  | .writeOneData => writeOneData s
  | .writeHint => writeHint s
  | .writeMany => writeMany s
  | .writeManyData => writeManyData s
  | .writeStop => writeStop s
  | .blockClosed => blockClosed s
  | .dmaReadCmd => dmaReadCmd s
  | .dmaReadToken => dmaReadToken s
  | .dmaWriteHint => dmaWriteHint s
  | .dmaWriteCmd => dmaWriteCmd s
  | .dmaWriteReady => dmaWriteReady s
  | .dmaWriteToken => dmaWriteToken s
  | .dmaStopped => dmaStopped s
  | .dmaClosed => dmaClosed s
  | .pollStopToken => pollStopToken s
  | .pollStopCmd => pollStopCmd s
  | .pollClosed => pollClosed s
  | .csdCmd => csdCmd s
  | .csdData => csdData s
  | .csdClosed => csdClosed s

/-- The tests and assignments behind a primitive action, up to the next primitive action (R360). The bound is larger than the longest
chain of them; were it met, the rest would be done at ENGINE's next step. -/
def settleWithin : Nat → State → State
  | 0, s => s
  | n + 1, s =>
    match s.todo with
    | .join j :: k => settleWithin n (doJoin j (s.withTodo k))
    | .exchange _ :: _ => s
    | .act _ :: _ => s
    | .command _ _ :: _ => s
    | [] =>
      match s.pos with
      | .test t => settleWithin n (doTest t s)
      | .act _ => s
      | .idle => s

/-- The tests behind a primitive action. -/
def settle (s : State) : State := settleWithin 8 s

/-- One exchange whose received byte is given: the wire item, what is done with the byte, the tests behind it. -/
def exchanged (x : Exchange) (k : List Micro) (rx : Byte) (s : State) : State :=
  settle (received x rx ((s.withTodo k).log (.xchg (x.tx s) rx)))

/-- One exchange of ENGINE. If the bus never answers, ENGINE stays in it (40_bus_transport.md R136). -/
def doExchange (x : Exchange) (k : List Micro) (s : State) : State :=
  match s.nextCard with
  | some (rx, t) => exchanged x k rx t
  | none => s

/-- One primitive action of a micro-operation that is no exchange. -/
def doAction (l : Local) (k : List Micro) (s : State) : State := settle (doLocal l (s.withTodo k))

/-- The first primitive action of `send_command`. -/
def doCommand (cmd : Byte) (arg : Word) (k : List Micro) (s : State) : State :=
  let t := sendCommand cmd arg (s.withTodo k)
  match t.todo with
  | .exchange x :: k' => doExchange x k' t
  | .act l :: k' => doAction l k' t
  | .join _ :: _ => t
  | .command _ _ :: _ => t
  | [] => t

/-- One step of ENGINE. With PHASE == IDLE it takes none. -/
def engineStep (s : State) : Answer :=
  match s.todo with
  | .exchange x :: k => .next (doExchange x k s)
  | .act l :: k => .next (doAction l k s)
  | .command cmd arg :: k => .next (doCommand cmd arg k s)
  | .join _ :: _ => .next (settle s)
  | [] =>
    match s.pos with
    | .idle => .next s
    | .act a => andThen (doAct a s) fun t => .next (settle t)
    | .test _ => .next (settle s)

/-- The steps the schedule gives while PHASE is not IDLE: ENGINE's, TICK, DMA_DONE and DMAENG's between them. It ends with the operation,
with the schedule, or at an entry that waits for PHASE == IDLE (10_state.md R21). -/
def runTurns : List Turn → State → Answer
  | [], s => .next (s.withSched [])
  | t :: ts, s =>
    if s.isIdle then .next (s.withSched (t :: ts))
    else
      match t with
      | .engine => andThen (engineStep s) (runTurns ts)
      | .tick => runTurns ts s.tickDown
      | .dmaDone ok => andThen (dmaComplete ok s) (runTurns ts)
      | .dma a => andThen (dmaStep a s) (runTurns ts)
      | .host _ => .next (s.withSched (t :: ts))
      | .port _ _ => .next (s.withSched (t :: ts))

/-- Let the machine run on under the schedule it holds. -/
def resume (s : State) : Answer := runTurns s.sched s

end Sys2Proof.Machine
end

