-- ==== Sys2Proof/Machine/HostOps.lean ====
section
/-! DEFINITION. Machine/HostOps.lean: the meanings of the HOSTOP rows (30_encoding.md R91, R104). HOST's issue of an operation writes
the latches and moves PHASE from IDLE to the operation's first action (10_state.md R27); ENGINE then runs as far as the schedule held
in the state gives it steps, to the operation's `return` if it gives enough. -/

namespace Sys2Proof.Machine

/-- HOST issues an operation: only at PHASE == IDLE (R21); the latches are written and no result register holds a value (R25). -/
def issue (op sel : Byte) (start : State → State) (s : State) : Answer :=
  if s.isIdle then resume (start (s.clearResults.latchWord op sel)) else .refused .operationRunning

/-- An operation HOST may issue only while DMAST is Idle (70_reset_and_hazards.md R355). -/
def issueOnBus (op sel : Byte) (start : State → State) (s : State) : Answer :=
  if s.dmast = .idle then issue op sel start s else .refused .busOwnedByDma

/-- The issue of a block operation: BUF, SECTOR and COUNT are latched and the first test of the gate made (R230). -/
def blockStart (o : BlockOp) (buf sector count : Word) (s : State) : State := gateCount o (s.latchBlock buf sector count)

/-- INITIALIZE (43_negotiation.md R200). -/
def execInitialize (sel : Byte) (s : State) : Answer := issueOnBus 0x00 sel (fun t => t.goAct .senseMedium) s

/-- STATUS (R211), in any state of DMAST. -/
def execStatus (sel : Byte) (s : State) : Answer := issue 0x01 sel (fun t => t.goAct .retStatus) s

/-- READ (44_polling_block_io.md R234). -/
def execRead (sel : Byte) (buf sector count : Word) (s : State) : Answer :=
  issueOnBus 0x02 sel (blockStart .read buf sector count) s

/-- WRITE (R235). -/
def execWrite (sel : Byte) (buf sector count : Word) (s : State) : Answer :=
  issueOnBus 0x03 sel (blockStart .write buf sector count) s

/-- START_READ_DMA (45_dma_completion.md R261); the guard of R263 answers in place of a refusal. -/
def execStartReadDma (sel : Byte) (buf sector count : Word) (s : State) : Answer :=
  issue 0x04 sel (blockStart .startRead buf sector count) s

/-- START_WRITE_DMA (R262). -/
def execStartWriteDma (sel : Byte) (buf sector count : Word) (s : State) : Answer :=
  issue 0x05 sel (blockStart .startWrite buf sector count) s

/-- POLL_STATUS (R265), in any state of DMAST. -/
def execPollStatus (sel : Byte) (s : State) : Answer := issue 0x06 sel (fun t => t.goAct .readStatus) s

/-- IOCTL with a selector (46_query_ioctl.md R290). -/
def issueIoctl (sel : Byte) (s : State) : Answer := issueOnBus 0x07 sel (fun t => t.goAct .ioctlGate) s

/-- IOCTL GET_SECTOR_COUNT (R292). -/
def execIoctlGetSectorCount (s : State) : Answer := issueIoctl 0x01 s

/-- IOCTL GET_SECTOR_SIZE (R291). -/
def execIoctlGetSectorSize (s : State) : Answer := issueIoctl 0x02 s

/-- IOCTL GET_ERASE_BLOCK_SIZE (R295): NotReady with NOINIT set; else "A model does not step on `IOCTL 0x03` issued with
`NOINIT == 0`". -/
def execIoctlGetEraseBlockSize (s : State) : Answer :=
  if s.isIdle && decide (s.dmast = .idle) && !s.dstat.noInit then .refused .eraseBlockSizeUnspecified else issueIoctl 0x03 s

/-- IOCTL with the malformed selector 0x00 (R290, R104 (a)). -/
def execIoctlMalformed0 (s : State) : Answer := issueIoctl 0x00 s

/-- IOCTL with a malformed selector 0x04 to 0x07. -/
def execIoctlMalformed4to7 (sel : Byte) (s : State) : Answer := issueIoctl sel s

/-- IOCTL with a malformed selector whose highest set bit is bit 3. -/
def execIoctlMalformedBit3 (sel : Byte) (s : State) : Answer := issueIoctl sel s

/-- IOCTL with a malformed selector whose highest set bit is bit 4. -/
def execIoctlMalformedBit4 (sel : Byte) (s : State) : Answer := issueIoctl sel s

/-- IOCTL with a malformed selector whose highest set bit is bit 5. -/
def execIoctlMalformedBit5 (sel : Byte) (s : State) : Answer := issueIoctl sel s

/-- IOCTL with a malformed selector whose highest set bit is bit 6. -/
def execIoctlMalformedBit6 (sel : Byte) (s : State) : Answer := issueIoctl sel s

/-- IOCTL with a malformed selector whose highest set bit is bit 7. -/
def execIoctlMalformedBit7 (sel : Byte) (s : State) : Answer := issueIoctl sel s

/-- An operation code that names no operation (R104 (a)): InvalidParameter, "and changes no state and does nothing on the bus". -/
def issueReserved (op sel : Byte) (s : State) : Answer := issue op sel (fun t => t.endWith .invalidParameter) s

/-- A reserved operation code 0x08 to 0x0F. -/
def execReservedOpBit3 (sel op : Byte) (s : State) : Answer := issueReserved op sel s

/-- A reserved operation code 0x10 to 0x1F. -/
def execReservedOpBit4 (sel op : Byte) (s : State) : Answer := issueReserved op sel s

/-- A reserved operation code 0x20 to 0x3F. -/
def execReservedOpBit5 (sel op : Byte) (s : State) : Answer := issueReserved op sel s

/-- A reserved operation code 0x40 to 0x7F. -/
def execReservedOpBit6 (sel op : Byte) (s : State) : Answer := issueReserved op sel s

/-- A reserved operation code 0x80 to 0xFF. -/
def execReservedOpBit7 (sel op : Byte) (s : State) : Answer := issueReserved op sel s

end Sys2Proof.Machine
end

