-- ==== Sys2Proof/Machine/Events.lean ====
section
/-! DEFINITION. Machine/Events.lean: the meanings of the two EVENT rows (30_encoding.md R105): TICK and DMA_DONE, each one atomic step
of its own agent. -/

namespace Sys2Proof.Machine

/-- TICK (41_timeout_service.md R153), enabled at all times. -/
def execTick (s : State) : Answer := .next s.tickDown

/-- DMA_DONE(ok) (45_dma_completion.md R264). -/
def execDmaDone (ok : Bool) (s : State) : Answer := dmaComplete ok s

/-- "Both strobes in the same instant are two events in either order" (30_encoding.md R105); the order does not show
(60_exceptions.md R316). -/
def bothEvents (ok : Bool) (s : State) : Answer := andThen (execTick s) (execDmaDone ok)

end Sys2Proof.Machine
end

