-- ==== Sys2Proof/Machine/Frames.lean ====
section
/-! DEFINITION. Machine/Frames.lean: the meanings of the CMDFRAME rows (42_command_framing.md R176 to R189). A command is an action of
ENGINE: its meaning is `send_command(code, argument)` where PHASE stands at that call. "The wire sequence of every one is
`send_command` of rule R170". An ACMD row is the whole prefixed form, CMD55 first (R94). -/

namespace Sys2Proof.Machine

/-- ENGINE takes the first primitive action of `send_command(cmd, arg)`, where PHASE stands at it, and runs on as far as the schedule
gives it steps. -/
def execCommand (cmd : Byte) (arg : Word) (s : State) : Answer :=
  match s.todo with
  | .command c a :: _ => if c = cmd ∧ a = arg then andThen (engineStep s) resume else .refused .wrongPhase
  | .exchange _ :: _ => .refused .wrongPhase
  | .act _ :: _ => .refused .wrongPhase
  | .join _ :: _ => .refused .wrongPhase
  | [] => .refused .wrongPhase

/-- CMD0, GO_IDLE_STATE (R176). -/
def execCmd0 (s : State) : Answer := execCommand cmdGoIdle 0 s

/-- CMD1 (R177). -/
def execCmd1 (s : State) : Answer := execCommand cmdInitMmc 0 s

/-- CMD8, SEND_IF_COND (R178). -/
def execCmd8 (s : State) : Answer := execCommand cmdIfCond Config.argCmd8 s

/-- CMD9, SEND_CSD (R179). -/
def execCmd9 (s : State) : Answer := execCommand cmdSendCsd 0 s

/-- CMD12, the stop-transmission command (R180). -/
def execCmd12 (s : State) : Answer := execCommand cmdStop 0 s

/-- CMD16, SET_BLOCKLEN (R181). -/
def execCmd16 (s : State) : Answer := execCommand cmdBlockLen 512 s

/-- CMD17, single-block read (R182). -/
def execCmd17 (addr : Word) (s : State) : Answer := execCommand 0x11 addr s

/-- CMD18, multi-block read (R183). -/
def execCmd18 (addr : Word) (s : State) : Answer := execCommand 0x12 addr s

/-- ACMD23, pre-erase hint (R184). -/
def execAcmd23 (count : Word) (s : State) : Answer := execCommand acmdErase count s

/-- CMD24, single-block write (R185). -/
def execCmd24 (addr : Word) (s : State) : Answer := execCommand 0x18 addr s

/-- CMD25, multi-block write (R186). -/
def execCmd25 (addr : Word) (s : State) : Answer := execCommand 0x19 addr s

/-- The argument of ACMD41 (R187): HCS on the v2 path, 0 on the legacy path. -/
def acmd41Arg (hcs : Bool) : Word := if hcs then Config.argHcs else 0

/-- ACMD41 (R187). -/
def execAcmd41 (hcs : Bool) (s : State) : Answer := execCommand acmdInitSd (acmd41Arg hcs) s

/-- CMD55, APP_CMD (R188). -/
def execCmd55 (s : State) : Answer := execCommand cmdApp 0 s

/-- CMD58, READ_OCR (R189). -/
def execCmd58 (s : State) : Answer := execCommand cmdReadOcr 0 s

end Sys2Proof.Machine
end

