-- ==== Sys2Proof/Machine/Wire.lean ====
section
/-! DEFINITION. Machine/Wire.lean: the meanings of the TOKEN, R1, DATARESP and RESULT rows (30_encoding.md R97, R98, R102, R103). Such a
byte has a meaning only at the action that sends or receives it: a row is the step ENGINE takes there with that byte on the wire, or
with that code returned. -/

namespace Sys2Proof.Machine

/-- ENGINE's exchange at the head of PHASE, if it is of this kind, answered with this byte by the card. -/
def answeredAt (kind : Exchange) (rx : Byte) (s : State) : Answer :=
  match s.todo with
  | .exchange x :: k => if x = kind then .next (exchanged x k rx s) else .refused .wrongPhase
  | .act _ :: _ => .refused .wrongPhase
  | .join _ :: _ => .refused .wrongPhase
  | .command _ _ :: _ => .refused .wrongPhase
  | [] => .refused .wrongPhase

/-- ENGINE's exchange at the head of PHASE, if it is of this kind, which sends this row's byte; the card answers what it answers. -/
def sentAt (kind : Exchange) (s : State) : Answer :=
  match s.todo with
  | .exchange x :: k => if x = kind then .next (doExchange x k s) else .refused .wrongPhase
  | .act _ :: _ => .refused .wrongPhase
  | .join _ :: _ => .refused .wrongPhase
  | .command _ _ :: _ => .refused .wrongPhase
  | [] => .refused .wrongPhase

/-- Whether PHASE stands at an exchange of this kind. -/
def State.atExchange (s : State) (kind : Exchange) : Bool := s.todo.head? == some (.exchange kind)

/-- ENGINE waits for a token, or for the card to be ready. -/
def State.waits (s : State) : Bool := s.atExchange .token || s.atExchange .ready

/-- A byte that comes where ENGINE waits: for readiness it is compared with filler (40_bus_transport.md R139); for a token, "a received byte
where a token is expected that is neither 0xFF nor 0xFE ends the wait with failure" (30_encoding.md R104 (d), 44_polling_block_io.md
R238). -/
def heard (b : Byte) (s : State) : Answer := if s.atExchange .ready then answeredAt .ready b s else answeredAt .token b s

/-- TOK_START: received where ENGINE waits, or sent before the block of a single-block write. -/
def execTokStart (s : State) : Answer := if s.waits then heard Config.tokStart s else sentAt (.sendToken Config.tokStart) s

/-- TOK_MULTI: received where ENGINE waits, or sent before every block of a multi-block write. -/
def execTokMulti (s : State) : Answer := if s.waits then heard Config.tokMulti s else sentAt (.sendToken Config.tokMulti) s

/-- TOK_STOP: received where ENGINE waits, or sent once, after the last block of a multi-block write. -/
def execTokStop (s : State) : Answer := if s.waits then heard Config.tokStop s else sentAt (.sendToken Config.tokStop) s

/-- ENGINE sends filler at this exchange because it "only wants to receive" (00_scope.md R7): a trailer byte, a data byte, the data
response, or a byte that is discarded. -/
def Exchange.onlyReceives (x : Exchange) : Bool :=
  match x with
  | .send tx => tx == Config.filler
  | .trail _ => true
  | .data _ => true
  | .response => true
  | .ready => false
  | .token => false
  | .poll => false
  | .sendToken _ => false
  | .sendData => false

/-- ENGINE's exchange at the head of PHASE, if filler is sent there only to receive; the card answers what it answers. -/
def fillerSent (s : State) : Answer :=
  match s.todo with
  | .exchange x :: k => if x.onlyReceives then .next (doExchange x k s) else .refused .wrongPhase
  | .act _ :: _ => .refused .wrongPhase
  | .join _ :: _ => .refused .wrongPhase
  | .command _ _ :: _ => .refused .wrongPhase
  | [] => .refused .wrongPhase

/-- FILLER: "not yet" in the token wait, "ready" in the readiness wait, discarded in the R1 poll (42_command_framing.md R175); sent where
the engine only wants to receive. -/
def execFiller (s : State) : Answer :=
  if s.waits then heard Config.filler s
  else if s.atExchange .poll then answeredAt .poll Config.filler s
  else fillerSent s

/-- A byte that names no token, received where ENGINE waits for one or for readiness. -/
def otherToken (b : Byte) (s : State) : Answer := heard b s

/-- R1, a response: it ends the poll (R175). -/
def execR1Response (r : Byte) (s : State) : Answer := answeredAt .poll r s

/-- R1, not a response: it is discarded and the poll goes on, at most ten exchanges in all (R175). -/
def execR1NotResponse (x : Byte) (s : State) : Answer := answeredAt .poll x s

/-- DATARESP, accepted: `xmit_datablock` returns true (44_polling_block_io.md R233). -/
def execDataAccepted (d : Byte) (s : State) : Answer := answeredAt .response d s

/-- A data response that is not accepted, which has no row: `xmit_datablock` returns false (30_encoding.md R102, 44_polling_block_io.md
R233). -/
def rejectedData (d : Byte) (s : State) : Answer := answeredAt .response d s

/-- `return <Result>`, where PHASE stands at it (00_scope.md R10). -/
def returnAt (r : TransferResult) (s : State) : Answer :=
  if s.todo = [] ∧ s.pos = .act (.ret r) then .next (s.returnWith r) else .refused .wrongPhase

/-- RESULT Ok. -/
def execResultOk (s : State) : Answer := returnAt .ok s

/-- RESULT Error. -/
def execResultError (s : State) : Answer := returnAt .error s

/-- RESULT WriteProtected. -/
def execResultWriteProtected (s : State) : Answer := returnAt .writeProtected s

/-- RESULT NotReady. -/
def execResultNotReady (s : State) : Answer := returnAt .notReady s

/-- RESULT InvalidParameter. -/
def execResultInvalidParameter (s : State) : Answer := returnAt .invalidParameter s

end Sys2Proof.Machine
end

