-- ==== Sys2Proof/Machine/Dispatch.lean ====
section
/-! DEFINITION. Machine/Dispatch.lean: the meaning of every instruction, one arm per constructor of Instr. -/

namespace Sys2Proof.Machine

def exec (i : Instr) (s : State) : Host.Outcome State Fault Refusal :=
  match i with
  -- HOSTOP
  | .initCard sel => Sys2Proof.Machine.execInitialize sel s
  | .status sel => Sys2Proof.Machine.execStatus sel s
  | .read sel buf sector count => Sys2Proof.Machine.execRead sel buf sector count s
  | .write sel buf sector count => Sys2Proof.Machine.execWrite sel buf sector count s
  | .startReadDma sel buf sector count => Sys2Proof.Machine.execStartReadDma sel buf sector count s
  | .startWriteDma sel buf sector count => Sys2Proof.Machine.execStartWriteDma sel buf sector count s
  | .pollStatus sel => Sys2Proof.Machine.execPollStatus sel s
  | .ioctlGetSectorCount => Sys2Proof.Machine.execIoctlGetSectorCount s
  | .ioctlGetSectorSize => Sys2Proof.Machine.execIoctlGetSectorSize s
  | .ioctlGetEraseBlockSize => Sys2Proof.Machine.execIoctlGetEraseBlockSize s
  | .ioctlMalformed0 => Sys2Proof.Machine.execIoctlMalformed0 s
  | .ioctlMalformed4to7 sel => Sys2Proof.Machine.execIoctlMalformed4to7 sel s
  | .ioctlMalformedBit3 sel => Sys2Proof.Machine.execIoctlMalformedBit3 sel s
  | .ioctlMalformedBit4 sel => Sys2Proof.Machine.execIoctlMalformedBit4 sel s
  | .ioctlMalformedBit5 sel => Sys2Proof.Machine.execIoctlMalformedBit5 sel s
  | .ioctlMalformedBit6 sel => Sys2Proof.Machine.execIoctlMalformedBit6 sel s
  | .ioctlMalformedBit7 sel => Sys2Proof.Machine.execIoctlMalformedBit7 sel s
  | .reservedOpBit3 sel op => Sys2Proof.Machine.execReservedOpBit3 sel op s
  | .reservedOpBit4 sel op => Sys2Proof.Machine.execReservedOpBit4 sel op s
  | .reservedOpBit5 sel op => Sys2Proof.Machine.execReservedOpBit5 sel op s
  | .reservedOpBit6 sel op => Sys2Proof.Machine.execReservedOpBit6 sel op s
  | .reservedOpBit7 sel op => Sys2Proof.Machine.execReservedOpBit7 sel op s
  -- EVENT
  | .tick => Sys2Proof.Machine.execTick s
  | .dmaDone ok => Sys2Proof.Machine.execDmaDone ok s
  -- CMDFRAME
  | .cmd0 => Sys2Proof.Machine.execCmd0 s
  | .cmd1 => Sys2Proof.Machine.execCmd1 s
  | .cmd8 => Sys2Proof.Machine.execCmd8 s
  | .cmd9 => Sys2Proof.Machine.execCmd9 s
  | .cmd12 => Sys2Proof.Machine.execCmd12 s
  | .cmd16 => Sys2Proof.Machine.execCmd16 s
  | .cmd17 addr => Sys2Proof.Machine.execCmd17 addr s
  | .cmd18 addr => Sys2Proof.Machine.execCmd18 addr s
  | .acmd23 count => Sys2Proof.Machine.execAcmd23 count s
  | .cmd24 addr => Sys2Proof.Machine.execCmd24 addr s
  | .cmd25 addr => Sys2Proof.Machine.execCmd25 addr s
  | .acmd41 hcs => Sys2Proof.Machine.execAcmd41 hcs s
  | .cmd55 => Sys2Proof.Machine.execCmd55 s
  | .cmd58 => Sys2Proof.Machine.execCmd58 s
  -- TOKEN
  | .tokStart => Sys2Proof.Machine.execTokStart s
  | .tokMulti => Sys2Proof.Machine.execTokMulti s
  | .tokStop => Sys2Proof.Machine.execTokStop s
  | .filler => Sys2Proof.Machine.execFiller s
  -- R1
  | .r1Response r => Sys2Proof.Machine.execR1Response r s
  | .r1NotResponse x => Sys2Proof.Machine.execR1NotResponse x s
  -- DATARESP
  | .dataAccepted d => Sys2Proof.Machine.execDataAccepted d s
  -- RESULT
  | .resultOk => Sys2Proof.Machine.execResultOk s
  | .resultError => Sys2Proof.Machine.execResultError s
  | .resultWriteProtected => Sys2Proof.Machine.execResultWriteProtected s
  | .resultNotReady => Sys2Proof.Machine.execResultNotReady s
  | .resultInvalidParameter => Sys2Proof.Machine.execResultInvalidParameter s

end Sys2Proof.Machine
end

