-- ==== Sys2Proof/Machine/Schedule.lean ====
section
/-! DEFINITION. Machine/Schedule.lean: the agents in one schedule (10_state.md R20, R21; 60_exceptions.md R313): HOST's own steps, the
fetch of the next instruction from a port, the turn the schedule gives, and the placing of a word of the opcode table where the next
step fetches it. -/

namespace Sys2Proof.Machine

/-- Whether a transfer owns this byte of the buffer (70_reset_and_hazards.md R358): from the start operation to the cleanup. -/
def State.ownedByDma (s : State) (a : Word) : Bool :=
  match s.job with
  | some j => s.dmast != .idle && decide ((a - j.buf).toNat < j.size)
  | none => false

/-- Whether the transfer fills the buffer. -/
def State.dmaReads (s : State) : Bool :=
  match s.job with
  | some j => j.dir == .read
  | none => false

/-- HOST takes one more thing. -/
def State.take (s : State) (x : Taken) : State := s.withTaken (s.taken ++ [x])

/-- A step of HOST at PHASE == IDLE: it takes a result register, which is a fault if the last operation wrote none there (R25, U13); or
it accesses a byte of its buffer. While a transfer owns the byte "HOST must not write it (either direction) and must not read it (read
direction)" (R358, U16). -/
def hostStep (a : HostAct) (s : State) : Answer :=
  match a with
  | .takeRes => if s.out.resValid then .next (s.take (.res s.out.res)) else .fault .noValue
  | .takeSval => if s.out.svalValid then .next (s.take (.sval s.out.sval)) else .fault .noValue
  | .takeVal => if s.out.valValid then .next (s.take (.val s.out.val)) else .fault .noValue
  | .store a b => if s.ownedByDma a then .refused .bufferRace else .next (s.writeByte a.toNat b)
  | .load a =>
    if s.ownedByDma a && s.dmaReads then .refused .bufferRace else .next (s.take (.byte (s.readByte a.toNat)))

/-- Bytes that name no row of the table. The spec gives three of them an effect: both strobes (30_encoding.md R105), a byte that names no
token where ENGINE waits for one or for readiness (R104 (d), 40_bus_transport.md R139), a data response that is not accepted (R102). -/
def runOther (f : Format) (bytes : List Byte) (e : DecodeError) (s : State) : Answer :=
  match f, bytes with
  | .event, [b] => if b = 0b011 then bothEvents false s else if b = 0b111 then bothEvents true s else .refused (.undecodable e)
  | .token, [b] => otherToken b s
  | .dataresp, [b] => rejectedData b s
  | _, _ => .refused (.undecodable e)

/-- The bytes on a port are decoded, and the instruction run. -/
def runPort (f : Format) (bytes : List Byte) (s : State) : Answer :=
  match decode f bytes with
  | .ok (i, []) => exec i s
  | .ok (_, _ :: _) => .refused .trailingBytes
  | .error e => runOther f bytes e s

/-- One entry of the schedule. HOST's entries wait for PHASE == IDLE: until then ENGINE goes on (R21). -/
def takeTurn (t : Turn) (rest : List Turn) (s : State) : Answer :=
  match t with
  | .engine => engineStep (s.withSched rest)
  | .tick => execTick (s.withSched rest)
  | .dmaDone ok => execDmaDone ok (s.withSched rest)
  | .dma a => dmaStep a (s.withSched rest)
  | .host a => if s.isIdle then hostStep a (s.withSched rest) else engineStep s
  | .port f bytes => if f = .hostop ∧ s.isIdle = false then engineStep s else runPort f bytes (s.withSched rest)

/-- One step of the machine: the next entry of the schedule, and ENGINE's step when it gives none. At PHASE == IDLE with nothing
scheduled the engine "waits in `PHASE == IDLE` for the first host operation" (R38). -/
def stepSchedule (s : State) : Answer :=
  match s.sched with
  | [] => engineStep s
  | t :: rest => takeTurn t rest s

/-! ### Placing a word of the opcode table -/

/-- PHASE put where the instruction is fetched and run: IDLE for a host operation, at the call, the exchange or the `return` for a row
of the sequencer; a transfer in flight for DMA_DONE, which is "Enabled only when DMAST == Busy" (log entry 12). -/
def State.placed (s : State) (i : Instr) : State :=
  let at_ (ms : List Micro) : State := (s.withPos .idle).withTodo ms
  let returning (r : TransferResult) : State := (s.withTodo []).withPos (.act (.ret r))
  match i with
  | .initCard _ | .status _ | .read _ _ _ _ | .write _ _ _ _ | .startReadDma _ _ _ _ | .startWriteDma _ _ _ _
  | .pollStatus _ | .ioctlGetSectorCount | .ioctlGetSectorSize | .ioctlGetEraseBlockSize | .ioctlMalformed0
  | .ioctlMalformed4to7 _ | .ioctlMalformedBit3 _ | .ioctlMalformedBit4 _ | .ioctlMalformedBit5 _
  | .ioctlMalformedBit6 _ | .ioctlMalformedBit7 _ | .reservedOpBit3 _ _ | .reservedOpBit4 _ _
  | .reservedOpBit5 _ _ | .reservedOpBit6 _ _ | .reservedOpBit7 _ _ => at_ []
  | .tick => s
  | .dmaDone _ => if s.dmast = .busy then s else (s.withDmast .busy).withJob (some { dir := .read, buf := 0, n := 1, fetched := [] })
  | .cmd0 => at_ [.command cmdGoIdle 0]
  | .cmd1 => at_ [.command cmdInitMmc 0]
  | .cmd8 => at_ [.command cmdIfCond Config.argCmd8]
  | .cmd9 => at_ [.command cmdSendCsd 0]
  | .cmd12 => at_ [.command cmdStop 0]
  | .cmd16 => at_ [.command cmdBlockLen 512]
  | .cmd17 a => at_ [.command 0x11 a]
  | .cmd18 a => at_ [.command 0x12 a]
  | .acmd23 n => at_ [.command acmdErase n]
  | .cmd24 a => at_ [.command 0x18 a]
  | .cmd25 a => at_ [.command 0x19 a]
  | .acmd41 hcs => at_ [.command acmdInitSd (acmd41Arg hcs)]
  | .cmd55 => at_ [.command cmdApp 0]
  | .cmd58 => at_ [.command cmdReadOcr 0]
  | .tokStart => at_ [.exchange .token]
  | .tokMulti => at_ [.exchange (.sendToken Config.tokMulti)]
  | .tokStop => at_ [.exchange (.sendToken Config.tokStop)]
  | .filler => at_ [.exchange .token]
  | .r1Response _ => (at_ [.exchange .poll]).withWk { s.wk with ntry := Config.r1Attempts }
  | .r1NotResponse _ => (at_ [.exchange .poll]).withWk { s.wk with ntry := Config.r1Attempts }
  | .dataAccepted _ => at_ [.exchange .response]
  | .resultOk => returning .ok
  | .resultError => returning .error
  | .resultWriteProtected => returning .writeProtected
  | .resultNotReady => returning .notReady
  | .resultInvalidParameter => returning .invalidParameter

/-- A word of the table stored where the next step fetches: its port image is the schedule's next entry. A word the decoder refuses is
presented on the host port as it is. -/
def placeWord (s : State) (nbits w : Nat) : State :=
  match decodeTableWord nbits w with
  | some i => (s.placed i).withSched (.port i.format (encode i) :: s.sched)
  | none => (s.placed .ioctlMalformed0).withSched (.port .hostop (bytesOfNat ((nbits + 7) / 8) w) :: s.sched)

end Sys2Proof.Machine
end

