-- ==== Sys2Proof/Safety.lean ====
section
/-! DEFINITION. Safety.lean: the notions the statements are written in: the invariant of the machine (10_state.md R28, R29, R33;
45_dma_completion.md R260), a stretch of the schedule, the card's side of the wire (30_encoding.md section 3), the results as a host
operation leaves them, and the groups of instructions one statement covers. -/

namespace Sys2Proof.Machine

/-! ### Register facts between operations -/

/-- Outside INITIALIZE: `NODISK == 1` implies `NOINIT == 1` (R28), and an engine with NOINIT clear has a classified card and the fast
bus speed (R207). -/
def State.statusOk (s : State) : Prop :=
  (s.dstat.noDisk = true → s.dstat.noInit = true) ∧ (s.dstat.noInit = false → s.ctype ≠ .noCard ∧ s.speed = .high)

/-- Between operations (R260, R33): a context is live exactly when DMAST is not Idle, and CS is released exactly when it is Idle. -/
def State.quiet (s : State) : Prop :=
  s.statusOk ∧ (s.atc.live = true ↔ s.dmast ≠ .idle) ∧ (s.cs = true ↔ s.dmast = .idle)

/-- DMAST holds a terminal value. -/
def State.terminal (s : State) : Prop := s.dmast = .success ∨ s.dmast = .error

/-! ### What is left of a micro-operation -/

/-- The entry leaves SPEED alone, and so does everything it unfolds to. -/
def Micro.keepsSpeed : Micro → Bool
  | .act (.setSpeed _) => false
  | .act (.setCs _) => true
  | .act (.arm _ _) => true
  | .act .readyExpired => true
  | .act .tokenExpired => true
  | .act .store => true
  | .act .load => true
  | .exchange _ => true
  | .join _ => true
  | .command _ _ => true

/-- The entry leaves CS alone, and so does everything it unfolds to. -/
def Micro.keepsCs : Micro → Bool
  | .act (.setCs _) => false
  | .act (.setSpeed _) => true
  | .act (.arm _ _) => true
  | .act .readyExpired => true
  | .act .tokenExpired => true
  | .act .store => true
  | .act .load => true
  | .exchange _ => true
  | .join (.selected _ _) => false
  | .join (.prefixed _ _) => false
  | .join .noResponse => true
  | .join .startPoll => true
  | .join (.tokenSeen _) => true
  | .join (.cardReady _) => true
  | .join .returnTrue => true
  | .command _ _ => false

/-- The closing `deselect()` of an operation, before it, inside it, or behind it. -/
def State.closing (s : State) : Prop :=
  s.todo = deselect ∨ (s.cs = true ∧ (s.todo = [.exchange (.send Config.filler)] ∨ s.todo = []))

/-- What is left of the one `send_command` of a start operation ends with the card selected if its response is 0x00: "On return
`CS == 0` … except when `select` failed" (42_command_framing.md R170). -/
def handshake : List Micro → Bool → Byte → Prop
  | [], cs, r1 => r1 = 0 → cs = false
  | .act l :: k, cs, r1 =>
    match l with
    | .setCs v => handshake k v r1
    | .arm _ _ => handshake k cs r1
    | .readyExpired => handshake k cs r1
    | .setSpeed _ => False
    | .tokenExpired => False
    | .store => False
    | .load => False
  | .exchange x :: k, cs, r1 =>
    match x with
    | .send _ => handshake k cs r1
    | .ready => handshake k cs r1
    | .poll => cs = false ∧ k = []
    | .token => False
    | .trail _ => False
    | .data _ => False
    | .sendToken _ => False
    | .sendData => False
    | .response => False
  | .join j :: k, cs, _ =>
    match j with
    | .selected _ _ => cs = false ∧ k = []
    | .startPoll => cs = false ∧ k = []
    | .noResponse => k = []
    | .prefixed _ _ => False
    | .tokenSeen _ => False
    | .cardReady _ => False
    | .returnTrue => False
  | .command cmd _ :: k, _, _ => cmd ≠ cmdStop ∧ isApp cmd = false ∧ k = []

/-! ### The invariant at each place of the host operations -/

/-- Inside INITIALIZE, past the sensing. -/
def State.negotiating (s : State) : Prop := s.dmast = .idle ∧ s.atc.live = false ∧ s.dstat.noDisk = false

/-- Inside a block operation or an IOCTL, past the gate; `live` tells a start operation's context. -/
def State.transferring (s : State) (live : Bool) : Prop :=
  s.statusOk ∧ s.dmast = .idle ∧ s.atc.live = live ∧ s.todo.all Micro.keepsSpeed = true

/-- Inside the follow-up of POLL_STATUS. -/
def State.followingUp (s : State) : Prop :=
  s.statusOk ∧ s.terminal ∧ s.atc.live = true ∧ s.todo.all Micro.keepsSpeed = true

/-- What holds when ENGINE's next step is this action. -/
def actInv (a : Act) (s : State) : Prop :=
  match a with
  | .ret _ => s.quiet
  | .retStatus => s.quiet
  | .senseMedium => s.quiet ∧ s.dmast = .idle
  | .senseProtect => s.dmast = .idle ∧ s.atc.live = false ∧ s.cs = true
  | .testMedium => s.dmast = .idle ∧ s.atc.live = false ∧ s.cs = true
  | .absentInit => s.dmast = .idle ∧ s.atc.live = false ∧ s.cs = true
  | .absentType => s.dmast = .idle ∧ s.atc.live = false ∧ s.cs = true ∧ s.dstat.noInit = true
  | .windowExpired _ => s.negotiating
  | .setType => s.negotiating
  | .setReady => s.negotiating ∧ s.cs = true ∧ s.ctype ≠ .noCard
  | .setFailed => s.negotiating ∧ s.cs = true
  | .gateInit o => s.quiet ∧ (o.isDma = false → s.dmast = .idle)
  | .gateProtect o => s.quiet ∧ (o.isDma = false → s.dmast = .idle)
  | .guardDma o => s.quiet ∧ o.isDma = true
  | .guardContext o => s.quiet ∧ s.dmast = .idle ∧ o.isDma = true
  | .newContext o => s.quiet ∧ s.dmast = .idle ∧ o.isDma = true
  | .newDir o => s.transferring true ∧ o.isDma = true
  | .newMulti o => s.transferring true ∧ o.isDma = true
  | .scale o => s.transferring o.isDma
  | .testSdc dma => s.transferring dma
  | .dmaGo _ => s.transferring true ∧ s.cs = false
  | .testMulti _ => s.transferring true
  | .dropContext => s.transferring true ∧ s.cs = true
  | .readStatus => s.quiet
  | .readMulti => s.statusOk ∧ s.terminal ∧ s.atc.live = true
  | .readDir => s.statusOk ∧ s.terminal ∧ s.atc.live = true
  | .clearContext => s.statusOk ∧ s.terminal ∧ s.cs = true
  | .statusIdle => s.statusOk ∧ s.terminal ∧ s.cs = true ∧ s.atc.live = false
  | .ioctlGate => s.quiet ∧ s.dmast = .idle

/-- What holds while a micro-operation runs whose outcome this test asks. -/
def testInv (t : Test) (s : State) : Prop :=
  match t with
  | .poweredUp => s.negotiating
  | .cmd0 => s.negotiating
  | .cmd8 => s.negotiating
  | .trailer => s.negotiating
  | .v2Loop => s.negotiating
  | .ocrCmd => s.negotiating
  | .ocr => s.negotiating
  | .probe => s.negotiating
  | .legacyLoop => s.negotiating
  | .blockLen => s.negotiating
  | .closed => s.negotiating ∧ s.closing ∧ s.ctype = s.wk.ty
  | .fast => s.negotiating ∧ s.cs = true ∧ s.ctype ≠ .noCard ∧
      (s.todo = [.act (.setSpeed .high)] ∨ s.todo = [] ∧ s.speed = .high)
  | .readOne => s.transferring false
  | .readOneData => s.transferring false
  | .readMany => s.transferring false
  | .readManyData => s.transferring false
  | .readStop => s.transferring false
  | .writeOne => s.transferring false
  | .writeOneData => s.transferring false
  | .writeHint => s.transferring false
  | .writeMany => s.transferring false
  | .writeManyData => s.transferring false
  | .writeStop => s.transferring false
  | .blockClosed => s.transferring false ∧ s.closing
  | .dmaReadCmd => s.transferring true ∧ handshake s.todo s.cs s.wk.r1
  | .dmaReadToken => s.transferring true ∧ s.cs = false ∧ s.todo.all Micro.keepsCs = true
  | .dmaWriteHint => s.transferring true
  | .dmaWriteCmd => s.transferring true ∧ handshake s.todo s.cs s.wk.r1
  | .dmaWriteReady => s.transferring true ∧ s.cs = false ∧ s.todo.all Micro.keepsCs = true
  | .dmaWriteToken => s.transferring true ∧ s.cs = false ∧ s.todo.all Micro.keepsCs = true
  | .dmaStopped => s.transferring true
  | .dmaClosed => s.transferring true ∧ s.closing
  | .pollStopToken => s.followingUp
  | .pollStopCmd => s.followingUp
  | .pollClosed => s.followingUp ∧ s.closing
  | .csdCmd => s.transferring false
  | .csdData => s.transferring false
  | .csdClosed => s.transferring false ∧ s.closing

/-- What holds at the place PHASE stands at. -/
def State.phaseInv (s : State) : Prop :=
  match s.pos with
  | .idle => s.todo = [] ∧ s.quiet
  | .act a => s.todo = [] ∧ actInv a s
  | .test t => testInv t s

/-- The invariant of the machine: memory is in canonical form, DMAENG holds a transfer's buffer range exactly when DMAST is not Idle,
and the registers are as the place in the operation wants them. -/
structure State.Inv (s : State) : Prop where
  memory : Memory.wf s.mem = true
  owned : s.job.isSome = true ↔ s.dmast ≠ .idle
  phase : s.phaseInv

/-! ### Runs -/

/-- A stretch of the schedule in which ENGINE takes `n` steps. -/
def engineTurns (n : Nat) : List Turn := List.replicate n .engine

/-- A stretch of the schedule in which ENGINE takes steps and TICK takes `k`, between them. -/
def Timed (k : Nat) (turns : List Turn) : Prop := (∀ t ∈ turns, t = .engine ∨ t = .tick) ∧ turns.count .tick = k

/-- The counters after `k` TICK events (41_timeout_service.md R153, R155). -/
def Timers.after (t : Timers) (k : Nat) : Timers :=
  { neg := BitVec.ofNat 16 (t.neg.toNat - k), tok := BitVec.ofNat 16 (t.tok.toNat - k), rdy := BitVec.ofNat 16 (t.rdy.toNat - k) }

/-- TICK taken `k` times (41_timeout_service.md R155). -/
def execTicks : Nat → State → Answer
  | 0, s => .next s
  | k + 1, s => andThen (exec .tick s) (execTicks k)

/-- `n` steps of the machine. -/
def runSteps : Nat → State → Answer
  | 0, s => .next s
  | n + 1, s => andThen (step s) (runSteps n)

/-! ### Executions without end, and the premises about them (70_reset_and_hazards.md R366)

An execution is told by whose turn it is at each moment and by the state at each moment. -/

/-- One step of the machine at every moment, the turn of that moment being all there is on the schedule. -/
def IsExecution (turn : Nat → Turn) (state : Nat → State) : Prop :=
  ∀ n, step ((state n).withSched [turn n]) = .next (state (n + 1))

/-- The premise BUS_RESPONSIVE: every exchange is answered (70_reset_and_hazards.md R359). -/
def BusResponsive (state : Nat → State) : Prop := ∀ n, (state n).env.responsive = true

/-- Whether ENGINE steps in a turn: its own, and one that waits for it because an operation runs (10_state.md R21; log entry 24). -/
def Turn.steps (t : Turn) (s : State) : Bool :=
  match t with
  | .engine => true
  | .host _ => !s.isIdle
  | .port f _ => f == .hostop && !s.isIdle
  | .tick => false
  | .dmaDone _ => false
  | .dma _ => false

/-- Whether TICK takes a step in a turn: its own, and a port's that shows its strobe, alone or with DMA_DONE's (30_encoding.md R105). -/
def Turn.ticks (t : Turn) : Bool :=
  match t with
  | .tick => true
  | .port f bytes => f == .event && (bytes == [0b01] || bytes == [0b011] || bytes == [0b111])
  | .engine => false
  | .host _ => false
  | .dmaDone _ => false
  | .dma _ => false

/-- Whether DMA_DONE comes in a turn: its own, and a port's that shows its strobe, alone or with TICK's (30_encoding.md R105). -/
def Turn.completes (t : Turn) : Bool :=
  match t with
  | .dmaDone _ => true
  | .port f bytes => f == .event && (bytes == [0b010] || bytes == [0b110] || bytes == [0b011] || bytes == [0b111])
  | .engine => false
  | .tick => false
  | .host _ => false
  | .dma _ => false

/-- ENGINE steps infinitely often. -/
def EngineFair (turn : Nat → Turn) (state : Nat → State) : Prop := ∀ n, ∃ m, n ≤ m ∧ (turn m).steps (state m) = true

/-- ENGINE takes infinitely many steps inside operations. -/
def EngineLive (turn : Nat → Turn) (state : Nat → State) : Prop :=
  ∀ n, ∃ m, n ≤ m ∧ (turn m).steps (state m) = true ∧ (state m).isIdle = false

/-- TICK takes infinitely many steps. -/
def TickLive (turn : Nat → Turn) : Prop := ∀ n, ∃ m, n ≤ m ∧ (turn m).ticks = true

/-- The premise TICK_FAIR: if ENGINE takes infinitely many steps, so does TICK. -/
def TickFair (turn : Nat → Turn) (state : Nat → State) : Prop := EngineLive turn state → TickLive turn

/-- The premise DMA_COMPLETES: a transfer in flight is followed by DMA_DONE. -/
def DmaCompletes (turn : Nat → Turn) (state : Nat → State) : Prop :=
  ∀ n, (state n).dmast = .busy → ∃ m, n ≤ m ∧ (turn m).completes = true

/-- The ports present host operations and events, no frame, token, response or result (log entry 13). -/
def HostPortsOnly (turn : Nat → Turn) : Prop := ∀ n f bytes, turn n = .port f bytes → f = .hostop ∨ f = .event

/-! ### The card's side of the wire (30_encoding.md section 3)

What the card answers to one command that ENGINE frames while the card lets it: the byte of the deselect, busy bytes and the ready byte of
the readiness wait, the six bytes under the frame, at most nine bytes that are no response, the response. A poll that runs out returns its
tenth byte whatever it is (42_command_framing.md R175). -/

/-- The bytes of one answer. -/
structure Reply where
  dummy : Byte
  busy : List Byte
  junk : List Byte
  wait : List Byte
  r1 : Byte
  deriving DecidableEq, Repr

/-- The bytes are what their names say. -/
def Reply.ok (p : Reply) : Prop :=
  (∀ b ∈ p.busy, cardIsReady b = false) ∧ p.junk.length = 6 ∧ p.wait.length < 10 ∧ (∀ b ∈ p.wait, isResponse b = false) ∧
    (isResponse p.r1 = true ∨ p.wait.length = 9)

/-- The poll's part of an answer: what comes behind the frame. -/
def Reply.tail (p : Reply) : List Byte := p.wait ++ [p.r1]

/-- An answer in the order of its bytes. -/
def Reply.bytes (p : Reply) : List Byte := p.dummy :: (p.busy ++ Config.filler :: (p.junk ++ p.tail))

/-- The exchanges of filler bytes with these answers. -/
def fillers (rx : List Byte) : List WireItem := rx.map (WireItem.xchg Config.filler)

/-- The exchanges of a frame's six bytes. -/
def frameItems (cmd : Byte) (arg : Word) (rx : List Byte) : List WireItem :=
  List.zipWith WireItem.xchg (frameBytes cmd arg) rx

/-- What one command other than CMD12 puts on the wire (42_command_framing.md R172, R173, R175): deselect, select with its readiness wait,
the frame, the poll. -/
def Reply.trace (p : Reply) (cmd : Byte) (arg : Word) : List WireItem :=
  [.cs true, .xchg Config.filler p.dummy, .cs false] ++ fillers (p.busy ++ [Config.filler]) ++ frameItems cmd arg p.junk
    ++ fillers p.tail

/-- The bytes of the card's answer to CMD12, which is sent without deselect and select and has a stuff byte (R172, R174); its poll may run
out as well. -/
structure StopReply where
  junk : List Byte
  stuff : Byte
  wait : List Byte
  r1 : Byte
  deriving DecidableEq, Repr

/-- The bytes are what their names say. -/
def StopReply.ok (p : StopReply) : Prop :=
  p.junk.length = 6 ∧ p.wait.length < 10 ∧ (∀ b ∈ p.wait, isResponse b = false) ∧ (isResponse p.r1 = true ∨ p.wait.length = 9)

/-- The answer to CMD12 in the order of its bytes. -/
def StopReply.bytes (p : StopReply) : List Byte := p.junk ++ p.stuff :: (p.wait ++ [p.r1])

/-- What CMD12 puts on the wire. -/
def StopReply.trace (p : StopReply) : List WireItem :=
  frameItems cmdStop 0 p.junk ++ fillers (p.stuff :: (p.wait ++ [p.r1]))

/-- A received data packet (30_encoding.md R100): filler while the card is not ready to send, the start token, the data, two CRC bytes. -/
structure Packet where
  fill : Nat
  data : List Byte
  crc0 : Byte
  crc1 : Byte
  deriving DecidableEq, Repr

/-- The packet in the order of its bytes. -/
def Packet.bytes (p : Packet) : List Byte :=
  List.replicate p.fill Config.filler ++ Config.tokStart :: (p.data ++ [p.crc0, p.crc1])

/-- The card's side of a transmitted data packet (R101): the bytes of the readiness wait, under the token, under the data, under the two
CRC bytes, and the data response. -/
structure Receipt where
  busy : List Byte
  token : Byte
  junk : List Byte
  crc0 : Byte
  crc1 : Byte
  response : Byte
  deriving DecidableEq, Repr

/-- The bytes are what their names say. -/
def Receipt.ok (p : Receipt) : Prop := (∀ b ∈ p.busy, cardIsReady b = false) ∧ p.junk.length = Config.blockLen

/-- The receipt in the order of its bytes. -/
def Receipt.bytes (p : Receipt) : List Byte :=
  p.busy ++ Config.filler :: p.token :: (p.junk ++ [p.crc0, p.crc1, p.response])

/-- What one transmitted block puts on the wire: the readiness wait, the token, the data, two dummy CRC bytes, the data response. -/
def Receipt.trace (p : Receipt) (tok : Byte) (data : List Byte) : List WireItem :=
  fillers (p.busy ++ [Config.filler]) ++ .xchg tok p.token :: (List.zipWith WireItem.xchg data p.junk
    ++ fillers [p.crc0, p.crc1, p.response])

/-- Bytes stored in the buffer from an offset on (44_polling_block_io.md R231). -/
def storeBytes (base : Word) : Nat → List Byte → Memory → Memory
  | _, [], m => m
  | i, b :: bs, m => storeBytes base (i + 1) bs (memWrite m (bufferAddr base i) b)

/-- Bytes stored in CSDR from an index on. -/
def fillCsd : Nat → List Byte → Vector Byte 16 → Vector Byte 16
  | _, [], c => c
  | i, b :: bs, c => fillCsd (i + 1) bs (c.setIfInBounds i b)

/-- Buffer memory after a packet for this destination. -/
def Dest.memAfter (d : Dest) (base : Word) (i : Nat) (data : List Byte) (m : Memory) : Memory :=
  match d with
  | .buffer => storeBytes base i data m
  | .csd => m

/-- CSDR after a packet for this destination. -/
def Dest.csdAfter (d : Dest) (i : Nat) (data : List Byte) (c : Vector Byte 16) : Vector Byte 16 :=
  match d with
  | .buffer => c
  | .csd => fillCsd i data c

/-- `n` buffer bytes from an offset on, as ENGINE sends them (20_memory.md R62). -/
def bufferBytes (s : State) (base : Word) : Nat → Nat → List Byte
  | _, 0 => []
  | i, n + 1 => s.readByte (bufferAddr base i) :: bufferBytes s base (i + 1) n

/-- The bytes of several packets, one behind the other. -/
def packetBytes : List Packet → List Byte
  | [] => []
  | p :: ps => p.bytes ++ packetBytes ps

/-- Every packet carries a whole block. -/
def wholeBlocks (ps : List Packet) : Prop := ∀ p ∈ ps, p.data.length = Config.blockLen

/-- Buffer memory after several blocks were received, the first at this address (20_memory.md R62). -/
def storePackets : Memory → Word → List Packet → Memory
  | m, _, [] => m
  | m, base, p :: ps => storePackets (storeBytes base 0 p.data m) (base + 512) ps

/-- The bytes of several receipts, one behind the other. -/
def receiptBytes : List Receipt → List Byte
  | [] => []
  | p :: ps => p.bytes ++ receiptBytes ps

/-- What several transmitted blocks put on the wire, the first read from this address (20_memory.md R62). -/
def receiptTrace (s : State) (tok : Byte) : Word → List Receipt → List WireItem
  | _, [] => []
  | base, p :: ps => p.trace tok (bufferBytes s base 0 Config.blockLen) ++ receiptTrace s tok (base + 512) ps

/-- The card's side of a stop token (44_polling_block_io.md R233): the bytes of the readiness wait, and under the token. -/
structure StopToken where
  busy : List Byte
  under : Byte
  deriving DecidableEq, Repr

/-- The busy bytes are such. -/
def StopToken.ok (p : StopToken) : Prop := ∀ b ∈ p.busy, cardIsReady b = false

/-- The bytes in their order. -/
def StopToken.bytes (p : StopToken) : List Byte := p.busy ++ [Config.filler, p.under]

/-- What a stop token puts on the wire. -/
def StopToken.trace (p : StopToken) : List WireItem := fillers (p.busy ++ [Config.filler]) ++ [.xchg Config.tokStop p.under]

/-- A token wait that fails (44_polling_block_io.md R238, decision D20). -/
inductive BadToken where
  /-- filler, then a byte that is neither filler nor the start token -/
  | wrong (fill : Nat) (byte : Byte)
  /-- one exchange of filler more than this, and then the wait's 200 TICK events, before the counter is asked again -/
  | silent (fill : Nat)
  deriving DecidableEq, Repr

/-- The byte is no token and no filler. -/
def BadToken.ok : BadToken → Prop
  | .wrong _ b => b ≠ Config.filler ∧ b ≠ Config.tokStart
  | .silent _ => True

/-- The bytes in their order. -/
def BadToken.bytes : BadToken → List Byte
  | .wrong n b => List.replicate n Config.filler ++ [b]
  | .silent n => List.replicate (n + 1) Config.filler

/-- The TICK events that end the wait. -/
def BadToken.ticks : BadToken → Nat
  | .wrong _ _ => 0
  | .silent _ => 200

/-- A card that stays busy through a readiness wait (40_bus_transport.md R139): at least one byte is received, and none is 0xFF. -/
def staysBusy (busy : List Byte) : Prop := busy ≠ [] ∧ ∀ b ∈ busy, cardIsReady b = false

/-- The card's answer to a command whose `select()` fails (42_command_framing.md R172): the byte of the deselect, the busy bytes of the
readiness wait, the byte of the deselect behind it. -/
structure BusyReply where
  dummy : Byte
  busy : List Byte
  last : Byte
  deriving DecidableEq, Repr

/-- The bytes are what their names say. -/
def BusyReply.ok (p : BusyReply) : Prop := staysBusy p.busy

/-- The bytes in their order. -/
def BusyReply.bytes (p : BusyReply) : List Byte := p.dummy :: (p.busy ++ [p.last])

/-- What such a command puts on the wire: no frame. -/
def BusyReply.trace (p : BusyReply) : List WireItem :=
  [.cs true, .xchg Config.filler p.dummy, .cs false] ++ fillers p.busy ++ [.cs true, .xchg Config.filler p.last]

/-! ### Commands, with the TICK events that they take -/

/-- What becomes of a command other than CMD12 (42_command_framing.md R170, R172): the card answers, or `select()` fails after the 500 TICK
events of its readiness wait and no frame goes out. -/
inductive Attempt where
  | answered (p : Reply)
  | unselected (p : BusyReply)
  deriving DecidableEq, Repr

/-- The bytes are what their names say. -/
def Attempt.ok : Attempt → Prop
  | .answered p => p.ok
  | .unselected p => p.ok

/-- The bytes in their order. -/
def Attempt.bytes : Attempt → List Byte
  | .answered p => p.bytes
  | .unselected p => p.bytes

/-- What the command puts on the wire. -/
def Attempt.trace (cmd : Byte) (arg : Word) : Attempt → List WireItem
  | .answered p => p.trace cmd arg
  | .unselected p => p.trace

/-- The response the caller gets: 0xFF where `select()` failed. -/
def Attempt.r1 : Attempt → Byte
  | .answered p => p.r1
  | .unselected _ => 0xFF

/-- The TICK events that end its readiness wait. -/
def Attempt.ticks : Attempt → Nat
  | .answered _ => 0
  | .unselected _ => 500

/-- The counters behind the command: T_RDY was armed in front of it. -/
def Attempt.timers (p : Attempt) (t : Timers) : Timers := ({ t with rdy := 500 } : Timers).after p.ticks

/-- What becomes of an application command (30_encoding.md R94): of CMD55, and of the command itself if CMD55 is accepted. -/
structure AppReply where
  app : Attempt
  cmd : Attempt
  deriving DecidableEq, Repr

/-- Both are what their names say. -/
def AppReply.ok (p : AppReply) : Prop := p.app.ok ∧ p.cmd.ok

/-- The bytes in their order: nothing behind a CMD55 that is not accepted. -/
def AppReply.bytes (p : AppReply) : List Byte := p.app.bytes ++ (if r1Accepted p.app.r1 then p.cmd.bytes else [])

/-- What the application command with this index puts on the wire. -/
def AppReply.trace (p : AppReply) (cmd : Byte) (arg : Word) : List WireItem :=
  p.app.trace cmdApp 0 ++ (if r1Accepted p.app.r1 then p.cmd.trace cmd arg else [])

/-- The part of it that ran last. -/
def AppReply.last (p : AppReply) : Attempt := if r1Accepted p.app.r1 then p.cmd else p.app

/-- The response the caller gets (42_command_framing.md R171). -/
def AppReply.r1 (p : AppReply) : Byte := p.last.r1

/-- The TICK events that end a readiness wait of it: a CMD55 whose `select()` fails is the last. -/
def AppReply.ticks (p : AppReply) : Nat := p.last.ticks

/-- The counters behind it. -/
def AppReply.timers (p : AppReply) (t : Timers) : Timers := p.last.timers t

/-- The rounds of a command sent again and again (43_negotiation.md R205, R206): every one is in order and says "not yet". -/
def notYet (ps : List AppReply) : Prop := ∀ p ∈ ps, p.ok ∧ p.r1 ≠ 0x00

/-- Their bytes. -/
def appBytes : List AppReply → List Byte
  | [] => []
  | p :: ps => p.bytes ++ appBytes ps

/-- What the rounds of an application command put on the wire. -/
def appTrace (cmd : Byte) (arg : Word) : List AppReply → List WireItem
  | [] => []
  | p :: ps => p.trace cmd arg ++ appTrace cmd arg ps

/-- The TICK events they take. -/
def appTicks : List AppReply → Nat
  | [] => 0
  | p :: ps => p.ticks + appTicks ps

/-- The same for a command without prefix. -/
def notYetPlain (ps : List Attempt) : Prop := ∀ p ∈ ps, p.ok ∧ p.r1 ≠ 0x00

/-- Their bytes. -/
def attemptBytes : List Attempt → List Byte
  | [] => []
  | p :: ps => p.bytes ++ attemptBytes ps

/-- What the rounds of a command without prefix put on the wire. -/
def attemptTrace (cmd : Byte) (arg : Word) : List Attempt → List WireItem
  | [] => []
  | p :: ps => p.trace cmd arg ++ attemptTrace cmd arg ps

/-- The TICK events they take. -/
def attemptTicks : List Attempt → Nat
  | [] => 0
  | p :: ps => p.ticks + attemptTicks ps

/-- The window of the negotiation is open behind so many rounds that took so many of its 1000 TICK events; it is not asked before the first
(43_negotiation.md R205, R206). -/
def windowOpen (rounds ticks : Nat) : Prop := rounds ≠ 0 → ticks < 1000

/-- The counters in a negotiation: T_NEG was armed once CMD0 was answered 0x01, T_RDY by the last command, so many TICK events later, and so
many came since (41_timeout_service.md R155; 43_negotiation.md R204). -/
def Timers.negotiated (t : Timers) (before since : Nat) : Timers :=
  ({ ({ t with neg := 1000 } : Timers).after before with rdy := 500 } : Timers).after since

/-- Whether a block write sends the pre-erase hint ACMD23 (44_polling_block_io.md R235, 45_dma_completion.md R262). -/
def sendsHint (c : CardType) (count : Word) : Bool := count != 1 && c.isSdc

/-- The bytes the card answers to the hint, where it is sent. -/
def hintBytes (c : CardType) (count : Word) (h : AppReply) : List Byte := if sendsHint c count then h.bytes else []

/-- What the hint puts on the wire, where it is sent. -/
def hintTrace (c : CardType) (count : Word) (h : AppReply) : List WireItem := if sendsHint c count then h.trace 0x17 count else []

/-- The TICK events the hint takes, where it is sent. -/
def hintTicks (c : CardType) (count : Word) (h : AppReply) : Nat := if sendsHint c count then h.ticks else 0

/-! ### What can go wrong, with the TICK events that it takes -/

/-- A block that is not accepted (44_polling_block_io.md R233): the data response says so, or the card stays busy through the 500 TICK
events of the readiness wait and nothing is sent. -/
inductive BadBlock where
  | rejected (q : Receipt)
  | busy (bs : List Byte)
  deriving DecidableEq, Repr

/-- The bytes are what their names say. -/
def BadBlock.ok : BadBlock → Prop
  | .rejected q => q.ok ∧ q.response &&& 0x1F ≠ 0x05
  | .busy bs => staysBusy bs

/-- The bytes in their order. -/
def BadBlock.bytes : BadBlock → List Byte
  | .rejected q => q.bytes
  | .busy bs => bs

/-- What the block puts on the wire. -/
def BadBlock.trace (tok : Byte) (data : List Byte) : BadBlock → List WireItem
  | .rejected q => q.trace tok data
  | .busy bs => fillers bs

/-- The TICK events that end its readiness wait. -/
def BadBlock.ticks : BadBlock → Nat
  | .rejected _ => 0
  | .busy _ => 500

/-- The card's side of a stop token that ENGINE means to send (44_polling_block_io.md R233): it goes out, or the card stays busy through the
500 TICK events of the readiness wait. -/
inductive StopAttempt where
  | sent (p : StopToken)
  | busy (bs : List Byte)
  deriving DecidableEq, Repr

/-- The token goes out. -/
def StopAttempt.goesOut : StopAttempt → Bool
  | .sent _ => true
  | .busy _ => false

/-- The bytes are what their names say. -/
def StopAttempt.ok : StopAttempt → Prop
  | .sent p => p.ok
  | .busy bs => staysBusy bs

/-- The bytes in their order. -/
def StopAttempt.bytes : StopAttempt → List Byte
  | .sent p => p.bytes
  | .busy bs => bs

/-- What the attempt puts on the wire. -/
def StopAttempt.trace : StopAttempt → List WireItem
  | .sent p => p.trace
  | .busy bs => fillers bs

/-- The TICK events that end its readiness wait. -/
def StopAttempt.ticks : StopAttempt → Nat
  | .sent _ => 0
  | .busy _ => 500

/-- The counters behind such an attempt: T_RDY was armed in front of it. -/
def StopAttempt.timers (p : StopAttempt) (t : Timers) : Timers := ({ t with rdy := 500 } : Timers).after p.ticks

/-- A negotiation that fails behind the power-up clocks (43_negotiation.md R203 to R206, R209), by the place it fails at. Of a ready loop
the rounds while the window is open are told, and the late one behind which it is closed. -/
inductive FailedInit where
  /-- CMD0 is not answered 0x01 -/
  | cmd0 (q : Attempt)
  /-- CMD8 is answered 0x01 and its trailer does not match -/
  | trailer (p0 p8 : Reply) (t0 t1 t2 t3 : Byte)
  /-- the v2 loop: the window closes -/
  | v2Window (p0 p8 : Reply) (t0 t1 : Byte) (rounds : List AppReply) (late : AppReply)
  /-- CMD58 is not answered 0x00 -/
  | ocr (p0 p8 : Reply) (t0 t1 : Byte) (rounds : List AppReply) (ready : AppReply) (q : Attempt)
  /-- the legacy loop of an SD-v1 card: the window closes -/
  | sd1Window (p0 : Reply) (p8 : Attempt) (probe : AppReply) (rounds : List AppReply) (late : AppReply)
  /-- the legacy loop of an MMC card: the window closes -/
  | mmcWindow (p0 : Reply) (p8 : Attempt) (probe : AppReply) (rounds : List Attempt) (late : Attempt)
  /-- CMD16 is not answered 0x00 by an SD-v1 card -/
  | sd1Length (p0 : Reply) (p8 : Attempt) (probe : AppReply) (rounds : List AppReply) (ready : AppReply) (q : Attempt)
  /-- CMD16 is not answered 0x00 by an MMC card -/
  | mmcLength (p0 : Reply) (p8 : Attempt) (probe : AppReply) (rounds : List Attempt) (ready q : Attempt)
  deriving DecidableEq, Repr

/-- CMD0 answered 0x01, and CMD8 too: the v2 path. -/
def onV2Path (p0 p8 : Reply) : Prop := p0.ok ∧ p0.r1 = 0x01 ∧ p8.ok ∧ p8.r1 = 0x01

/-- CMD0 answered 0x01, and CMD8 not, be it that `select()` failed: the legacy path, its probe accepted or not (R204, R206). -/
def onLegacyPath (p0 : Reply) (p8 : Attempt) (probe : AppReply) : Prop := p0.ok ∧ p0.r1 = 0x01 ∧ p8.ok ∧ p8.r1 ≠ 0x01 ∧ probe.ok

/-- The v2 loop comes to an end with the card ready. -/
def v2Ready (rounds : List AppReply) (ready : AppReply) : Prop :=
  notYet rounds ∧ windowOpen rounds.length (appTicks rounds) ∧ ready.ok ∧ ready.r1 = 0x00

/-- So does the legacy loop of an SD-v1 card, behind CMD8 and the probe. -/
def sd1Ready (p8 : Attempt) (probe : AppReply) (rounds : List AppReply) (ready : AppReply) : Prop :=
  notYet rounds ∧ windowOpen rounds.length (p8.ticks + probe.ticks + appTicks rounds) ∧ ready.ok ∧ ready.r1 = 0x00

/-- So does that of an MMC card. -/
def mmcReady (p8 : Attempt) (probe : AppReply) (rounds : List Attempt) (ready : Attempt) : Prop :=
  notYetPlain rounds ∧ windowOpen rounds.length (p8.ticks + probe.ticks + attemptTicks rounds) ∧ ready.ok ∧ ready.r1 = 0x00

/-- The bytes are what their names say. -/
def FailedInit.ok : FailedInit → Prop
  | .cmd0 q => q.ok ∧ q.r1 ≠ 0x01
  | .trailer p0 p8 _ _ t2 t3 => onV2Path p0 p8 ∧ (t2, t3) ≠ ((0x01 : Byte), (0xAA : Byte))
  | .v2Window p0 p8 _ _ rounds late =>
    onV2Path p0 p8 ∧ notYet rounds ∧ windowOpen rounds.length (appTicks rounds) ∧ late.ok ∧ late.r1 ≠ 0x00
  | .ocr p0 p8 _ _ rounds ready q => onV2Path p0 p8 ∧ v2Ready rounds ready ∧ q.ok ∧ q.r1 ≠ 0x00
  | .sd1Window p0 p8 probe rounds late =>
    onLegacyPath p0 p8 probe ∧ probe.r1 ≤ 1 ∧ notYet rounds ∧ windowOpen rounds.length (p8.ticks + probe.ticks + appTicks rounds) ∧
      late.ok ∧ late.r1 ≠ 0x00
  | .mmcWindow p0 p8 probe rounds late =>
    onLegacyPath p0 p8 probe ∧ 1 < probe.r1 ∧ notYetPlain rounds ∧
      windowOpen rounds.length (p8.ticks + probe.ticks + attemptTicks rounds) ∧ late.ok ∧ late.r1 ≠ 0x00
  | .sd1Length p0 p8 probe rounds ready q =>
    onLegacyPath p0 p8 probe ∧ probe.r1 ≤ 1 ∧ sd1Ready p8 probe rounds ready ∧ q.ok ∧ q.r1 ≠ 0x00
  | .mmcLength p0 p8 probe rounds ready q =>
    onLegacyPath p0 p8 probe ∧ 1 < probe.r1 ∧ mmcReady p8 probe rounds ready ∧ q.ok ∧ q.r1 ≠ 0x00

/-- The bytes in their order. -/
def FailedInit.bytes : FailedInit → List Byte
  | .cmd0 q => q.bytes
  | .trailer p0 p8 t0 t1 t2 t3 => p0.bytes ++ p8.bytes ++ [t0, t1, t2, t3]
  | .v2Window p0 p8 t0 t1 rounds late => p0.bytes ++ p8.bytes ++ [t0, t1, 0x01, 0xAA] ++ appBytes rounds ++ late.bytes
  | .ocr p0 p8 t0 t1 rounds ready q => p0.bytes ++ p8.bytes ++ [t0, t1, 0x01, 0xAA] ++ appBytes rounds ++ ready.bytes ++ q.bytes
  | .sd1Window p0 p8 probe rounds late => p0.bytes ++ p8.bytes ++ probe.bytes ++ appBytes rounds ++ late.bytes
  | .mmcWindow p0 p8 probe rounds late => p0.bytes ++ p8.bytes ++ probe.bytes ++ attemptBytes rounds ++ late.bytes
  | .sd1Length p0 p8 probe rounds ready q => p0.bytes ++ p8.bytes ++ probe.bytes ++ appBytes rounds ++ ready.bytes ++ q.bytes
  | .mmcLength p0 p8 probe rounds ready q => p0.bytes ++ p8.bytes ++ probe.bytes ++ attemptBytes rounds ++ ready.bytes ++ q.bytes

/-- What the negotiation puts on the wire behind the power-up clocks. -/
def FailedInit.trace : FailedInit → List WireItem
  | .cmd0 q => q.trace 0x00 0
  | .trailer p0 p8 t0 t1 t2 t3 => p0.trace 0x00 0 ++ p8.trace 0x08 0x1AA ++ fillers [t0, t1, t2, t3]
  | .v2Window p0 p8 t0 t1 rounds late =>
    p0.trace 0x00 0 ++ p8.trace 0x08 0x1AA ++ fillers [t0, t1, 0x01, 0xAA] ++ appTrace 0x29 0x40000000 rounds
      ++ late.trace 0x29 0x40000000
  | .ocr p0 p8 t0 t1 rounds ready q =>
    p0.trace 0x00 0 ++ p8.trace 0x08 0x1AA ++ fillers [t0, t1, 0x01, 0xAA] ++ appTrace 0x29 0x40000000 rounds
      ++ ready.trace 0x29 0x40000000 ++ q.trace 0x3A 0
  | .sd1Window p0 p8 probe rounds late =>
    p0.trace 0x00 0 ++ p8.trace 0x08 0x1AA ++ probe.trace 0x29 0 ++ appTrace 0x29 0 rounds ++ late.trace 0x29 0
  | .mmcWindow p0 p8 probe rounds late =>
    p0.trace 0x00 0 ++ p8.trace 0x08 0x1AA ++ probe.trace 0x29 0 ++ attemptTrace 0x01 0 rounds ++ late.trace 0x01 0
  | .sd1Length p0 p8 probe rounds ready q =>
    p0.trace 0x00 0 ++ p8.trace 0x08 0x1AA ++ probe.trace 0x29 0 ++ appTrace 0x29 0 rounds ++ ready.trace 0x29 0 ++ q.trace 0x10 512
  | .mmcLength p0 p8 probe rounds ready q =>
    p0.trace 0x00 0 ++ p8.trace 0x08 0x1AA ++ probe.trace 0x29 0 ++ attemptTrace 0x01 0 rounds ++ ready.trace 0x01 0 ++ q.trace 0x10 512

/-- The TICK events before its last command: those of readiness waits that ran out. -/
def FailedInit.before : FailedInit → Nat
  | .cmd0 _ => 0
  | .trailer _ _ _ _ _ _ => 0
  | .v2Window _ _ _ _ rounds _ => appTicks rounds
  | .ocr _ _ _ _ rounds _ _ => appTicks rounds
  | .sd1Window _ p8 probe rounds _ => p8.ticks + probe.ticks + appTicks rounds
  | .mmcWindow _ p8 probe rounds _ => p8.ticks + probe.ticks + attemptTicks rounds
  | .sd1Length _ p8 probe rounds _ _ => p8.ticks + probe.ticks + appTicks rounds
  | .mmcLength _ p8 probe rounds _ _ => p8.ticks + probe.ticks + attemptTicks rounds

/-- The TICK events from its last command on: those of a readiness wait that runs out, and what closes the window of 1000. -/
def FailedInit.since : FailedInit → Nat
  | .cmd0 q => q.ticks
  | .trailer _ _ _ _ _ _ => 0
  | .v2Window _ _ _ _ rounds late => late.ticks + (1000 - (appTicks rounds + late.ticks))
  | .ocr _ _ _ _ _ _ q => q.ticks
  | .sd1Window _ p8 probe rounds late => late.ticks + (1000 - (p8.ticks + probe.ticks + appTicks rounds + late.ticks))
  | .mmcWindow _ p8 probe rounds late => late.ticks + (1000 - (p8.ticks + probe.ticks + attemptTicks rounds + late.ticks))
  | .sd1Length _ _ _ _ _ q => q.ticks
  | .mmcLength _ _ _ _ _ q => q.ticks

/-- The TICK events of the whole. -/
def FailedInit.ticks (f : FailedInit) : Nat := f.before + f.since

/-- The counters behind it. -/
def FailedInit.timers (f : FailedInit) (t : Timers) : Timers :=
  match f with
  | .cmd0 q => q.timers t
  | .trailer _ _ _ _ _ _ => t.negotiated f.before f.since
  | .v2Window _ _ _ _ _ _ => t.negotiated f.before f.since
  | .ocr _ _ _ _ _ _ _ => t.negotiated f.before f.since
  | .sd1Window _ _ _ _ _ => t.negotiated f.before f.since
  | .mmcWindow _ _ _ _ _ => t.negotiated f.before f.since
  | .sd1Length _ _ _ _ _ _ => t.negotiated f.before f.since
  | .mmcLength _ _ _ _ _ _ => t.negotiated f.before f.since

/-! ### Results as a host operation leaves them -/

/-- Only RES was written. -/
def Results.onlyRes (o : Results) (r : TransferResult) : Results :=
  { o with res := r, resValid := true, svalValid := false, valValid := false }

/-- Only SVAL was written. -/
def Results.onlySval (o : Results) (d : DriveStatus) : Results :=
  { o with sval := d, resValid := false, svalValid := true, valValid := false }

/-- RES is Ok and VAL was written. -/
def Results.okWithVal (o : Results) (v : Word) : Results :=
  { o with res := .ok, val := v, resValid := true, svalValid := false, valValid := true }

/-! ### Groups of instructions -/

/-- The operation code of a block operation (30_encoding.md R91). -/
def BlockOp.code : BlockOp → Byte
  | .read => 0x02
  | .write => 0x03
  | .startRead => 0x04
  | .startWrite => 0x05

/-- The instruction of a block operation. -/
def BlockOp.instr (o : BlockOp) (sel : Byte) (buf sector count : Word) : Instr :=
  match o with
  | .read => .read sel buf sector count
  | .write => .write sel buf sector count
  | .startRead => .startReadDma sel buf sector count
  | .startWrite => .startWriteDma sel buf sector count

/-- The SD commands without a prefix, other than CMD12, with their codes and arguments (30_encoding.md R93). -/
def plainRows : List (Instr × Byte × Word) :=
  [(.cmd0, 0x00, 0), (.cmd1, 0x01, 0), (.cmd8, 0x08, 0x000001AA), (.cmd9, 0x09, 0), (.cmd16, 0x10, 512), (.cmd55, 0x37, 0),
   (.cmd58, 0x3A, 0)]

/-- The block commands with their codes (30_encoding.md R93). -/
def blockRows (addr : Word) : List (Instr × Byte × Word) :=
  [(.cmd17 addr, 0x11, addr), (.cmd18 addr, 0x12, addr), (.cmd24 addr, 0x18, addr), (.cmd25 addr, 0x19, addr)]

/-- The application commands with their indexes and arguments (30_encoding.md R93). -/
def appRows (count : Word) : List (Instr × Byte × Word) :=
  [(.acmd23 count, 0x17, count), (.acmd41 true, 0x29, 0x40000000), (.acmd41 false, 0x29, 0)]

/-- The IOCTL rows with a malformed selector (30_encoding.md R104), for each selector the row it lies in. -/
def malformedRows (sel : Byte) : List Instr :=
  [.ioctlMalformed4to7 sel, .ioctlMalformedBit3 sel, .ioctlMalformedBit4 sel, .ioctlMalformedBit5 sel, .ioctlMalformedBit6 sel,
   .ioctlMalformedBit7 sel] ++ (if sel = 0 then [.ioctlMalformed0] else [])

/-- The reserved operation rows (30_encoding.md R104), for each code the row it lies in. -/
def reservedRows (sel op : Byte) : List Instr :=
  [.reservedOpBit3 sel op, .reservedOpBit4 sel op, .reservedOpBit5 sel op, .reservedOpBit6 sel op, .reservedOpBit7 sel op]

/-- The IOCTL rows with a legal selector, and their selectors (30_encoding.md R91). -/
def queryRows : List (Instr × Byte) := [(.ioctlGetSectorCount, 0x01), (.ioctlGetSectorSize, 0x02), (.ioctlGetEraseBlockSize, 0x03)]

/-- The result rows and their codes (30_encoding.md R97). -/
def resultRows : List (Instr × TransferResult) :=
  [(.resultOk, .ok), (.resultError, .error), (.resultWriteProtected, .writeProtected), (.resultNotReady, .notReady),
   (.resultInvalidParameter, .invalidParameter)]

end Sys2Proof.Machine
end

