-- ==== Sys2Proof/Certificates/Slice0/Obligations.lean ====
section
/-! DEFINITION. Certificates/Slice0/Obligations.lean: the statements for the provers, one for each entry of OBLIGATIONS.json. Where a
statement runs a host operation, the schedule gives ENGINE its turns and then whatever `rest` holds; the conclusion names the next state
in full, so that every register, flag and byte of memory that it does not name is as before. Working registers are "local to one
operation" (10_state.md R23): after a whole operation they are left open. -/

open Sys2Proof Sys2Proof.Machine

/-! ### Encoding -/

/-- Decoding what was encoded gives the instruction back, with every operand, whatever follows it on the port (30_encoding.md R91, R92,
R93, R95, R96, R97, R98, R102, R103, R105; 20_memory.md R60). The port image of the latches is log entry 10's. -/
def Obligations.DecodeOfEncode : Prop :=
  ∀ (i : Instr) (rest : List Byte), i.wellFormed = true → decode i.format (encode i ++ rest) = .ok (i, rest)

/-- Bytes that decode are the encoding of what they decode to, and what is left; so a word has one meaning in its format, and no reserved
word falls to a neighbour (30_encoding.md R104). -/
def Obligations.EncodeOfDecode : Prop :=
  ∀ (f : Format) (bytes rest : List Byte) (i : Instr), decode f bytes = .ok (i, rest) →
    i.format = f ∧ i.wellFormed = true ∧ bytes = encode i ++ rest

/-- The HOSTOP rows cover all 65536 words, and each word names its row: codes 0x00, 0x01 and 0x06 INITIALIZE, STATUS and POLL_STATUS;
0x02 to 0x05 READ, WRITE, START_READ_DMA and START_WRITE_DMA with their latches; 0x07 the query of its selector, or a malformed selector;
from 0x08 on a reserved operation (30_encoding.md R91, R104, R107). That the byte OP comes first on the port, SEL second, and twelve latch
bytes behind a block operation (BUF, SECTOR, COUNT, each least significant byte first) is the model's choice (log entry 10). -/
def Obligations.EveryHostWordDecodes : Prop :=
  ∀ (op sel : Byte) (b0 b1 b2 b3 s0 s1 s2 s3 c0 c1 c2 c3 : Byte),
    ∃ i rest, decode .hostop [op, sel, b0, b1, b2, b3, s0, s1, s2, s3, c0, c1, c2, c3] = .ok (i, rest) ∧ i.wellFormed = true ∧
      i.format = .hostop ∧
      (0x08 ≤ op → i ∈ reservedRows sel op) ∧
      (op = 0x07 → (sel = 0x00 ∨ 0x04 ≤ sel) → i ∈ malformedRows sel) ∧
      (op = 0x07 → sel ≠ 0x00 → sel < 0x04 → (i, sel) ∈ queryRows) ∧
      (op = 0x00 → i = .initCard sel) ∧ (op = 0x01 → i = .status sel) ∧ (op = 0x06 → i = .pollStatus sel) ∧
      (op = 0x02 → i = .read sel (b3 ++ b2 ++ b1 ++ b0) (s3 ++ s2 ++ s1 ++ s0) (c3 ++ c2 ++ c1 ++ c0) ∧ rest = []) ∧
      (op = 0x03 → i = .write sel (b3 ++ b2 ++ b1 ++ b0) (s3 ++ s2 ++ s1 ++ s0) (c3 ++ c2 ++ c1 ++ c0) ∧ rest = []) ∧
      (op = 0x04 → i = .startReadDma sel (b3 ++ b2 ++ b1 ++ b0) (s3 ++ s2 ++ s1 ++ s0) (c3 ++ c2 ++ c1 ++ c0) ∧ rest = []) ∧
      (op = 0x05 → i = .startWriteDma sel (b3 ++ b2 ++ b1 ++ b0) (s3 ++ s2 ++ s1 ++ s0) (c3 ++ c2 ++ c1 ++ c0) ∧ rest = [])

/-- Words written out from the encodings: the worked frames of 42_command_framing.md R176 to R189, an operation, an event, a token, a
response, a data response and a result. The places of the latches behind READ's word (BUF, SECTOR, COUNT, each least significant byte
first) and of OP and SEL in front of them are the model's choice (log entry 10). -/
def Obligations.WrittenWords : Prop :=
  decode .cmdframe [0x40, 0, 0, 0, 0, 0x95] = .ok (.cmd0, []) ∧
  decode .cmdframe [0x48, 0, 0, 0x01, 0xAA, 0x87] = .ok (.cmd8, []) ∧
  decode .cmdframe [0x4C, 0, 0, 0, 0, 0x01] = .ok (.cmd12, []) ∧
  decode .cmdframe [0x50, 0, 0, 0x02, 0, 0x01] = .ok (.cmd16, []) ∧
  decode .cmdframe [0x51, 0, 0, 0x0A, 0, 0x01] = .ok (.cmd17 0xA00, []) ∧
  decode .cmdframe [0x52, 0, 0x01, 0x23, 0x45, 0x01] = .ok (.cmd18 0x12345, []) ∧
  decode .cmdframe [0x57, 0, 0, 0, 0x02, 0x01] = .ok (.acmd23 2, []) ∧
  decode .cmdframe [0x69, 0x40, 0, 0, 0, 0x01] = .ok (.acmd41 true, []) ∧
  decode .hostop [0x02, 0, 0x00, 0x10, 0, 0x20, 5, 0, 0, 0, 1, 0, 0, 0] = .ok (.read 0 0x20001000 5 1, []) ∧
  decode .hostop [0x07, 0x02] = .ok (.ioctlGetSectorSize, []) ∧
  decode .hostop [0x10, 0x55] = .ok (.reservedOpBit4 0x55 0x10, []) ∧
  decode .event [0b01] = .ok (.tick, []) ∧
  decode .token [0xFC] = .ok (.tokMulti, []) ∧
  decode .r1 [0x05] = .ok (.r1Response 0x05, []) ∧
  decode .dataresp [0xE5] = .ok (.dataAccepted 0xE5, []) ∧
  decode .result [3] = .ok (.resultNotReady, [])

/-! ### Reset and the invariant -/

/-- What reset leaves, for each setting of the outside (10_state.md R38; the spec's values; the values R38 calls "no value" are not
stated). -/
def Obligations.ResetValues : Prop :=
  ∀ env : Outside,
    (State.resetWith env).dstat = { noInit := true, noDisk := env.senseNoMedium, protect := env.senseWrProt } ∧
    (State.resetWith env).ctype.bits = 0x0 ∧ (State.resetWith env).dmast.code = 0 ∧ (State.resetWith env).atc.live = false ∧
    (State.resetWith env).tmr = { neg := 0, tok := 0, rdy := 0 } ∧ (State.resetWith env).cs = true ∧
    (State.resetWith env).speed = .low ∧ (State.resetWith env).isIdle = true ∧ State.reset = State.resetWith Outside.default ∧
    State.reset.dstat.bits = 0b001

/-- The machine after reset meets the invariant, whatever the outside. -/
def Obligations.ResetMeetsInvariant : Prop := ∀ env : Outside, (State.resetWith env).Inv

/-- Every step of the machine keeps the invariant, from every state that meets it and under every schedule: at every place of every
operation the status, context, chip-select and speed registers are as that place wants them (10_state.md R28, R30, R31, R33;
45_dma_completion.md R260). Two clauses of the invariant are the model's: that memory stays in canonical form (DESIGN CHOICE, log entry 5),
and that a transfer's buffer range is held exactly while DMAST is not Idle (DEDUCED from 70_reset_and_hazards.md R358, log entry 15). -/
def Obligations.StepKeepsInvariant : Prop := ∀ s t : State, s.Inv → step s = .next t → t.Inv

/-- Between operations, after any number of steps from reset under any schedule: NODISK implies NOINIT (10_state.md R28); CS is released
exactly when DMAST is Idle (R33, 45_dma_completion.md R260); a context is live exactly when DMAST is not Idle (R260); an engine with
NOINIT clear has a classified card and the fast speed (43_negotiation.md R207). -/
def Obligations.BetweenOperations : Prop :=
  ∀ (env : Outside) (sched : List Turn) (n : Nat) (s : State),
    runSteps n ((State.resetWith env).withSched sched) = .next s → s.isIdle = true →
    (s.dstat.noDisk = true → s.dstat.noInit = true) ∧ (s.cs = true ↔ s.dmast = .idle) ∧ (s.atc.live = true ↔ s.dmast ≠ .idle) ∧
    (s.dstat.noInit = false → s.ctype ≠ .noCard ∧ s.speed = .high)

/-- DMAST changes only along Idle, Busy, {Success, Error}, Idle, and each agent takes only its own transitions (10_state.md R30;
90_conflicts.md C2): ENGINE to Busy from Idle and to Idle from a terminal value, DMA_DONE to a terminal value from Busy, TICK and
DMAENG none. -/
def Obligations.DmaStatusTransitions : Prop :=
  (∀ s t : State, s.Inv → engineStep s = .next t →
    t.dmast = s.dmast ∨ (s.dmast = .idle ∧ t.dmast = .busy) ∨ ((s.dmast = .success ∨ s.dmast = .error) ∧ t.dmast = .idle)) ∧
  (∀ (s t : State) (ok : Bool), exec (.dmaDone ok) s = .next t → s.dmast = .busy ∧ t.dmast = if ok then .success else .error) ∧
  (∀ s t : State, exec .tick s = .next t → t.dmast = s.dmast) ∧
  (∀ (s t : State) (a : DmaAct), dmaStep a s = .next t → t.dmast = s.dmast)

/-! ### One step -/

/-- A step takes the schedule's next entry: bytes on a port are decoded and their instruction is run; a host operation and a step of HOST
wait while PHASE is not IDLE, and ENGINE goes on (10_state.md R21); TICK, DMA_DONE and DMAENG take their steps in any state; both strobes in
one instant are two events (30_encoding.md R105); with nothing scheduled ENGINE steps, and waits at IDLE (R38). The schedule in State, and
the port images on it, are the model's (log entries 8, 10, 12 and 24). -/
def Obligations.StepRunsDecoded : Prop :=
  ∀ (s : State) (rest : List Turn),
    (∀ f bytes i, s.sched = .port f bytes :: rest → (f = .hostop → s.isIdle = true) → decode f bytes = .ok (i, []) →
      step s = exec i (s.withSched rest)) ∧
    (∀ i, s.sched = .port i.format (encode i) :: rest → (i.format = .hostop → s.isIdle = true) → i.wellFormed = true →
      step s = exec i (s.withSched rest)) ∧
    (∀ bytes, s.sched = .port .hostop bytes :: rest → s.isIdle = false → step s = engineStep s) ∧
    (∀ a, s.sched = .host a :: rest → s.isIdle = true → step s = hostStep a (s.withSched rest)) ∧
    (∀ a, s.sched = .host a :: rest → s.isIdle = false → step s = engineStep s) ∧
    (s.sched = .tick :: rest → step s = exec .tick (s.withSched rest)) ∧
    (∀ ok, s.sched = .dmaDone ok :: rest → step s = exec (.dmaDone ok) (s.withSched rest)) ∧
    (∀ a, s.sched = .dma a :: rest → step s = dmaStep a (s.withSched rest)) ∧
    (∀ ok, s.sched = .port .event [if ok then 0b111 else 0b011] :: rest →
      step s = andThen (exec .tick (s.withSched rest)) (exec (.dmaDone ok))) ∧
    (s.sched = .engine :: rest → step s = engineStep (s.withSched rest)) ∧
    (s.sched = [] → step s = engineStep s) ∧ (s.sched = [] → s.isIdle = true → step s = .next s)

/-- When an issue is refused: a host operation while one runs, every row with DMAST Idle, and STATUS, POLL_STATUS, the start operations and the
reserved codes in any state of DMAST (10_state.md R21); and INITIALIZE, READ, WRITE or IOCTL while DMAST is not Idle, whether an operation runs
or not (70_reset_and_hazards.md R355). That the malformed selectors are among the latter, that where both apply the refusal has this name, and
that the treatment is a refusal, is the model's (DEDUCED, log entry 16; 93_implementation_defined.md U2). -/
def Obligations.IssueRefused : Prop :=
  (∀ (i : Instr) (s : State), i.format = .hostop → s.isIdle = false → s.dmast = .idle → exec i s = .refused .operationRunning) ∧
  (∀ (i : Instr) (s : State) (sel op : Byte) (buf sector count : Word), s.isIdle = false →
    i ∈ [Instr.status sel, .pollStatus sel, .startReadDma sel buf sector count, .startWriteDma sel buf sector count] ++ reservedRows sel op →
    exec i s = .refused .operationRunning) ∧
  (∀ (i : Instr) (s : State) (sel : Byte) (buf sector count : Word), s.dmast ≠ .idle →
    i ∈ [Instr.initCard sel, .read sel buf sector count, .write sel buf sector count] ++ queryRows.map (·.1) ++ malformedRows sel →
    exec i s = .refused .busOwnedByDma)

/-- On a bus that never answers ENGINE stays in its exchange for ever, whatever the timeout counters say; TICK goes on
(40_bus_transport.md R136; 70_reset_and_hazards.md R359). -/
def Obligations.UnansweredExchange : Prop :=
  ∀ (s : State) (x : Exchange) (k : List Micro) (turns rest : List Turn),
    s.todo = .exchange x :: k → s.env.card = [] → s.env.responsive = false → (∀ t ∈ turns, t = .engine ∨ t = .tick) →
    ∃ tmr, runSteps turns.length (s.withSched (turns ++ rest)) = .next { s with tmr := tmr, sched := rest }

/-! ### Events -/

/-- TICK: each counter that is not zero goes down by one, in one step; nothing else is written; it is enabled in every state
(41_timeout_service.md R153). -/
def Obligations.TickDecrements : Prop :=
  ∀ s : State, exec .tick s = .next { s with tmr :=
    { neg := if s.tmr.neg ≠ 0 then s.tmr.neg - 1 else s.tmr.neg, tok := if s.tmr.tok ≠ 0 then s.tmr.tok - 1 else s.tmr.tok,
      rdy := if s.tmr.rdy ≠ 0 then s.tmr.rdy - 1 else s.tmr.rdy } }

/-- After ARM(i, n) and k TICK events the counter is max(n - k, 0), EXPIRED(i) is true exactly when k ≥ n, the other counters went down by
k to a floor of zero, and no other register changed (41_timeout_service.md R155, R150). -/
def Obligations.ArmThenTicks : Prop :=
  ∀ (s : State) (i : Timer) (n : BitVec 16) (k : Nat), ∃ t, execTicks k (s.armTimer i n) = .next t ∧
    (t.tmr.get i).toNat = n.toNat - k ∧ (t.expired i = true ↔ n.toNat ≤ k) ∧
    (∀ j, j ≠ i → (t.tmr.get j).toNat = (s.tmr.get j).toNat - k) ∧ t = { s with tmr := t.tmr }

/-- DMA_DONE(ok) is enabled only when DMAST is Busy; it stops the DMA, flushes the receiver, and writes Success or Error into DMAST and
nothing else of the block; it takes place once for a transfer (45_dma_completion.md R264). Its order with a TICK does not show
(60_exceptions.md R316). -/
def Obligations.DmaDone : Prop :=
  ∀ (s : State) (ok : Bool),
    (s.dmast = .busy → exec (.dmaDone ok) s = .next { s with
      dmast := if ok then .success else .error,
      trace := s.trace ++ [.dmaStop, .flush] }) ∧
    (s.dmast ≠ .busy → exec (.dmaDone ok) s = .refused .dmaDoneDisabled) ∧
    (∀ t again, exec (.dmaDone ok) s = .next t → exec (.dmaDone again) t = .refused .dmaDoneDisabled) ∧
    andThen (exec .tick s) (exec (.dmaDone ok)) = andThen (exec (.dmaDone ok) s) (exec .tick)

/-! ### Operations that touch no wire -/

/-- STATUS copies DSTAT to SVAL, in any state of DMAST, and does nothing else; the latches OP and SEL are HOST's issue. Repeating it gives
the same value, and right after reset it returns the reset value of DSTAT (43_negotiation.md R211). -/
def Obligations.StatusCopies : Prop :=
  (∀ (s : State) (sel : Byte) (rest : List Turn), s.isIdle = true →
    exec (.status sel) (s.withSched (engineTurns 1 ++ rest)) = .next { s with
      lat := { s.lat with op := 0x01, sel := sel },
      out := s.out.onlySval s.dstat, sched := rest }) ∧
  (∀ (s t u : State) (sel sel' : Byte) (rest : List Turn), s.isIdle = true →
    exec (.status sel) (s.withSched (engineTurns 1 ++ (engineTurns 1 ++ rest))) = .next t → exec (.status sel') t = .next u →
    u.out.sval = t.out.sval ∧ u.out.svalValid = true ∧ u.dstat = s.dstat) ∧
  (∀ (env : Outside) (sel : Byte), ∃ t, exec (.status sel) ((State.resetWith env).withSched (engineTurns 1)) = .next t ∧
    t.out.sval = (State.resetWith env).dstat ∧ t.out.sval.noInit = true)

/-- The gate of the four block operations: a zero COUNT, then NOINIT, then for a write PROTECT, in this order; the first that fires ends the
operation, and only RES is written besides the latches HOST issued; if none fires ENGINE goes on to the operation, whatever SECTOR, BUF and
NODISK are (44_polling_block_io.md R230). The premise on DMAST is 70_reset_and_hazards.md R355's. -/
def Obligations.GateOrder : Prop :=
  ∀ (o : BlockOp) (s : State) (sel : Byte) (buf sector count : Word) (rest : List Turn),
    s.isIdle = true → (o.isDma = false → s.dmast = .idle) →
    (count = 0 → exec (o.instr sel buf sector count) (s.withSched (engineTurns 1 ++ rest)) = .next { s with
      lat := { op := o.code, sel := sel, sector := sector, count := count, buf := buf },
      out := s.out.onlyRes .invalidParameter, sched := rest }) ∧
    (count ≠ 0 → s.dstat.noInit = true → exec (o.instr sel buf sector count) (s.withSched (engineTurns 2 ++ rest)) = .next { s with
      lat := { op := o.code, sel := sel, sector := sector, count := count, buf := buf },
      out := s.out.onlyRes .notReady, sched := rest }) ∧
    (count ≠ 0 → s.dstat.noInit = false → o.isWrite = true → s.dstat.protect = true →
      exec (o.instr sel buf sector count) (s.withSched (engineTurns 3 ++ rest)) = .next { s with
        lat := { op := o.code, sel := sel, sector := sector, count := count, buf := buf },
        out := s.out.onlyRes .writeProtected, sched := rest }) ∧
    (count ≠ 0 → s.dstat.noInit = false → (o.isWrite = true → s.dstat.protect = false) →
      exec (o.instr sel buf sector count) (s.withSched (engineTurns (if o.isWrite then 2 else 1))) = .next { s with
        lat := { op := o.code, sel := sel, sector := sector, count := count, buf := buf },
        out := { s.out with resValid := false, svalValid := false, valValid := false },
        pos := .act (if o.isDma then .guardDma o else .scale o), sched := [] })

/-- A start operation that passes the gate while DMAST is not Idle, or while a context is live, returns NotReady and changes nothing: no
context, no bus activity, the running transfer undisturbed (45_dma_completion.md R263). The gate is tested first. -/
def Obligations.StartGuard : Prop :=
  ∀ (o : BlockOp) (s : State) (sel : Byte) (buf sector count : Word),
    o.isDma = true → s.isIdle = true → count ≠ 0 → s.dstat.noInit = false → (o.isWrite = true → s.dstat.protect = false) →
    (s.dmast ≠ .idle ∨ s.atc.live = true) →
    ∃ n, ∀ rest, exec (o.instr sel buf sector count) (s.withSched (engineTurns n ++ rest)) = .next { s with
      lat := { op := o.code, sel := sel, sector := sector, count := count, buf := buf },
      out := s.out.onlyRes .notReady, sched := rest }

/-- IOCTL: NOINIT is tested first and holds for every selector; then a malformed selector is InvalidParameter (46_query_ioctl.md R290,
30_encoding.md R104). Nothing but RES is written, besides the latches HOST issued. -/
def Obligations.IoctlGate : Prop :=
  ∀ (s : State) (sel : Byte) (i : Instr) (rest : List Turn), s.isIdle = true → s.dmast = .idle →
    (s.dstat.noInit = true → (i, sel) ∈ queryRows ∨ i ∈ malformedRows sel →
      exec i (s.withSched (engineTurns 2 ++ rest)) = .next { s with
        lat := { s.lat with op := 0x07, sel := sel },
        out := s.out.onlyRes .notReady, sched := rest }) ∧
    (s.dstat.noInit = false → i ∈ malformedRows sel → i.wellFormed = true →
      exec i (s.withSched (engineTurns 2 ++ rest)) = .next { s with
        lat := { s.lat with op := 0x07, sel := sel },
        out := s.out.onlyRes .invalidParameter, sched := rest })

/-- IOCTL GET_SECTOR_SIZE on an initialised engine: Ok and 512, no bus activity, no timer, CS untouched (46_query_ioctl.md R291). -/
def Obligations.SectorSize : Prop :=
  ∀ (s : State) (rest : List Turn), s.isIdle = true → s.dmast = .idle → s.dstat.noInit = false →
    exec .ioctlGetSectorSize (s.withSched (engineTurns 2 ++ rest)) = .next { s with
      lat := { s.lat with op := 0x07, sel := 0x02 },
      out := s.out.okWithVal 512, sched := rest }

/-- IOCTL GET_ERASE_BLOCK_SIZE: no step with NOINIT clear, since its effect is not specified; NotReady with NOINIT set
(46_query_ioctl.md R295). -/
def Obligations.EraseBlockSize : Prop :=
  ∀ (s : State) (rest : List Turn), s.isIdle = true → s.dmast = .idle →
    (s.dstat.noInit = false → exec .ioctlGetEraseBlockSize s = .refused .eraseBlockSizeUnspecified) ∧
    (s.dstat.noInit = true → exec .ioctlGetEraseBlockSize (s.withSched (engineTurns 2 ++ rest)) = .next { s with
      lat := { s.lat with op := 0x07, sel := 0x03 }, out := s.out.onlyRes .notReady, sched := rest })

/-- A reserved operation code 0x08 to 0xFF: InvalidParameter; besides the latches HOST issued and RES no state is changed, and nothing goes
on the bus (30_encoding.md R104). That HOST may issue it in any state of DMAST is the model's (DEDUCED, log entry 16). -/
def Obligations.ReservedOperation : Prop :=
  ∀ (s : State) (sel op : Byte) (i : Instr) (rest : List Turn), s.isIdle = true → i ∈ reservedRows sel op →
    exec i (s.withSched (engineTurns 1 ++ rest)) = .next { s with
      lat := { s.lat with op := op, sel := sel },
      out := s.out.onlyRes .invalidParameter, sched := rest }

/-! ### GET_SECTOR_COUNT -/

/-- IOCTL GET_SECTOR_COUNT on an initialised engine: CMD9, the CSD packet if CMD9 is answered 0x00, the closing deselect on every path. Ok
with the decoded count in VAL; Error where CMD9 is not answered 0x00 (its R1 poll runs out or its `select()` fails among that), where the
start token of the packet does not come, and where the decode refuses (46_query_ioctl.md R292; 44_polling_block_io.md R232, R238). Buffer
memory and the status registers are untouched. -/
def Obligations.SectorCount : Prop :=
  ∀ (s : State) (d : Byte) (more : List Byte), s.isIdle = true → s.dmast = .idle → s.dstat.noInit = false →
    (∀ (p : Reply) (q : Packet) (csd : Vector Byte 16), p.ok → p.r1 = 0x00 → q.data = csd.toList →
      s.env.card = p.bytes ++ (q.bytes ++ d :: more) →
      ∃ n w, ∀ rest, exec .ioctlGetSectorCount (s.withSched (engineTurns n ++ rest)) = .next { s with
        lat := { s.lat with op := 0x07, sel := 0x01 }, wk := w,
        out := (match decodeCsd csd with | some v => s.out.okWithVal v | none => s.out.onlyRes .error),
        cs := true, tmr := { s.tmr with tok := 200, rdy := 500 },
        trace := s.trace ++ p.trace 0x09 0 ++ fillers q.bytes ++ [.cs true, .xchg 0xFF d],
        env := { s.env with card := more }, sched := rest }) ∧
    (∀ (p : Reply) (b : BadToken), p.ok → p.r1 = 0x00 → b.ok → s.env.card = p.bytes ++ (b.bytes ++ d :: more) →
      ∃ turns w, Timed b.ticks turns ∧ ∀ rest, exec .ioctlGetSectorCount (s.withSched (turns ++ rest)) = .next { s with
        lat := { s.lat with op := 0x07, sel := 0x01 }, wk := w, out := s.out.onlyRes .error,
        cs := true, tmr := ({ s.tmr with tok := 200, rdy := 500 } : Timers).after b.ticks,
        trace := s.trace ++ p.trace 0x09 0 ++ fillers b.bytes ++ [.cs true, .xchg 0xFF d],
        env := { s.env with card := more }, sched := rest }) ∧
    (∀ p : Attempt, p.ok → p.r1 ≠ 0x00 → s.env.card = p.bytes ++ d :: more →
      ∃ turns w, Timed p.ticks turns ∧ ∀ rest, exec .ioctlGetSectorCount (s.withSched (turns ++ rest)) = .next { s with
        lat := { s.lat with op := 0x07, sel := 0x01 }, wk := w, out := s.out.onlyRes .error,
        cs := true, tmr := p.timers s.tmr,
        trace := s.trace ++ p.trace 0x09 0 ++ [.cs true, .xchg 0xFF d], env := { s.env with card := more }, sched := rest })

/-- The arithmetic of the CSD decode in numbers, byte 0 the first received: version 1 gives (C_SIZE + 1) * 1024 modulo 2^32, version 0 the
exact (C_SIZE + 1) * 2^(n - 9) where n ≥ 9, every other case refuses (46_query_ioctl.md R293, R294). The positions of the fields are the
spec's general knowledge (G7, log entry 17). -/
def Obligations.CsdArithmetic : Prop :=
  ∀ v : Vector Byte 16,
    (v[0].toNat / 64 = 1 → ∃ n, decodeCsd v = some n ∧
      n.toNat = ((v[7].toNat % 64 * 65536 + v[8].toNat * 256 + v[9].toNat + 1) * 1024) % 2 ^ 32) ∧
    (v[0].toNat / 64 = 0 → v[5].toNat % 16 + v[10].toNat / 128 + v[9].toNat % 4 * 2 + 2 < 9 → decodeCsd v = none) ∧
    (v[0].toNat / 64 = 0 → 9 ≤ v[5].toNat % 16 + v[10].toNat / 128 + v[9].toNat % 4 * 2 + 2 → ∃ n, decodeCsd v = some n ∧
      n.toNat = (v[6].toNat % 4 * 1024 + v[7].toNat * 4 + v[8].toNat / 64 + 1) *
        2 ^ (v[5].toNat % 16 + v[10].toNat / 128 + v[9].toNat % 4 * 2 + 2 - 9)) ∧
    (2 ≤ v[0].toNat / 64 → decodeCsd v = none)

/-! ### POLL_STATUS -/

/-- POLL_STATUS with DMAST Idle returns Ok, with DMAST Busy NotReady, and does nothing else: no exchange, no timer; working registers, the
pseudocode's local `s` among them, are left open (45_dma_completion.md R265). -/
def Obligations.PollIdleOrBusy : Prop :=
  ∀ (s : State) (sel : Byte), s.isIdle = true → s.dmast = .idle ∨ s.dmast = .busy →
    ∃ w, ∀ rest, exec (.pollStatus sel) (s.withSched (engineTurns 2 ++ rest)) = .next { s with
      lat := { s.lat with op := 0x06, sel := sel },
      wk := w, out := s.out.onlyRes (if s.dmast = .idle then .ok else .notReady), sched := rest }

/-- POLL_STATUS after a single-block transfer has ended: deselect, the context cleared, DMAST Idle; Ok after Success, Error after Error; the
buffer range is HOST's again (45_dma_completion.md R265, 70_reset_and_hazards.md R358). -/
def Obligations.PollSingle : Prop :=
  ∀ (s : State) (sel d : Byte) (more : List Byte), s.isIdle = true → s.dmast = .success ∨ s.dmast = .error → s.atc.live = true →
    s.atc.multi = false → s.env.card = d :: more →
    ∃ n w a, a.live = false ∧ ∀ rest, exec (.pollStatus sel) (s.withSched (engineTurns n ++ rest)) = .next { s with
      lat := { s.lat with op := 0x06, sel := sel }, wk := w, out := s.out.onlyRes (if s.dmast = .success then .ok else .error),
      dmast := .idle, atc := a, job := none, cs := true, trace := s.trace ++ [.cs true, .xchg 0xFF d],
      env := { s.env with card := more }, sched := rest }

/-- POLL_STATUS after a multi-block read: CMD12 first, its response ignored, be it that none came; then the same cleanup
(45_dma_completion.md R265). -/
def Obligations.PollManyRead : Prop :=
  ∀ (s : State) (sel d : Byte) (more : List Byte) (p : StopReply), s.isIdle = true → s.dmast = .success ∨ s.dmast = .error →
    s.atc.live = true → s.atc.multi = true → s.atc.dir = .read → p.ok → s.env.card = p.bytes ++ d :: more →
    ∃ n w a, a.live = false ∧ ∀ rest, exec (.pollStatus sel) (s.withSched (engineTurns n ++ rest)) = .next { s with
      lat := { s.lat with op := 0x06, sel := sel }, wk := w, out := s.out.onlyRes (if s.dmast = .success then .ok else .error),
      dmast := .idle, atc := a, job := none, cs := true, trace := s.trace ++ p.trace ++ [.cs true, .xchg 0xFF d],
      env := { s.env with card := more }, sched := rest }

/-- POLL_STATUS after a multi-block write: the readiness wait and the stop token 0xFD first, with no data behind it; then the same cleanup.
A stop token that cannot go out makes the result Error even after Success (45_dma_completion.md R265, 44_polling_block_io.md R233,
decision D28). -/
def Obligations.PollManyWrite : Prop :=
  ∀ (s : State) (sel d : Byte) (more : List Byte) (p : StopAttempt), s.isIdle = true → s.dmast = .success ∨ s.dmast = .error →
    s.atc.live = true → s.atc.multi = true → s.atc.dir = .write → p.ok → s.env.card = p.bytes ++ d :: more →
    ∃ turns w a, Timed p.ticks turns ∧ a.live = false ∧ ∀ rest, exec (.pollStatus sel) (s.withSched (turns ++ rest)) = .next { s with
      lat := { s.lat with op := 0x06, sel := sel }, wk := w,
      out := s.out.onlyRes (if s.dmast = .success ∧ p.goesOut = true then .ok else .error),
      dmast := .idle, atc := a, job := none, cs := true, tmr := p.timers s.tmr,
      trace := s.trace ++ p.trace ++ [.cs true, .xchg 0xFF d], env := { s.env with card := more }, sched := rest }

/-! ### The start operations -/

/-- START_READ_DMA with a card that accepts the command and sends the start token: Ok, the context recorded, the transfer handed to DMAENG,
DMAST Busy, the card still selected, no data byte read (45_dma_completion.md R261). -/
def Obligations.StartReadDma : Prop :=
  ∀ (s : State) (sel : Byte) (buf sector count : Word) (p : Reply) (fill : Nat) (more : List Byte),
    s.isIdle = true → s.dmast = .idle → s.atc.live = false → s.dstat.noInit = false → count ≠ 0 → p.ok → p.r1 = 0x00 →
    s.env.card = p.bytes ++ (List.replicate fill 0xFF ++ 0xFE :: more) →
    ∃ n w, ∀ rest, exec (.startReadDma sel buf sector count) (s.withSched (engineTurns n ++ rest)) = .next { s with
      lat := { op := 0x04, sel := sel, sector := sector, count := count, buf := buf }, wk := w, out := s.out.onlyRes .ok,
      dmast := .busy, atc := { live := true, dir := .read, multi := decide (count > 1) },
      job := some { dir := .read, buf := buf, n := count, fetched := [] }, cs := false, tmr := { s.tmr with tok := 200, rdy := 500 },
      trace := s.trace ++ p.trace (if count = 1 then 0x11 else 0x12) (scaledAddr s.ctype sector)
        ++ fillers (List.replicate fill 0xFF ++ [0xFE]) ++ [.dmaStart .read buf count],
      env := { s.env with card := more }, sched := rest }

/-- START_READ_DMA whose start token does not come, whether another byte comes or the wait's time runs out: CMD12 if CMD18 was accepted,
deselect, the context cleared, Error; the state is as before (45_dma_completion.md R261; 44_polling_block_io.md R238; decision D25). -/
def Obligations.StartReadBadToken : Prop :=
  ∀ (s : State) (sel : Byte) (buf sector count : Word) (p : Reply) (q : BadToken) (st : StopReply) (d : Byte) (more : List Byte),
    s.isIdle = true → s.dmast = .idle → s.atc.live = false → s.dstat.noInit = false → count ≠ 0 → p.ok → p.r1 = 0x00 → q.ok → st.ok →
    s.env.card = p.bytes ++ (q.bytes ++ ((if count = 1 then [] else st.bytes) ++ d :: more)) →
    ∃ turns w a, Timed q.ticks turns ∧ a.live = false ∧
      ∀ rest, exec (.startReadDma sel buf sector count) (s.withSched (turns ++ rest)) = .next { s with
      lat := { op := 0x04, sel := sel, sector := sector, count := count, buf := buf }, wk := w, out := s.out.onlyRes .error,
      atc := a, cs := true, tmr := ({ s.tmr with tok := 200, rdy := 500 } : Timers).after q.ticks,
      trace := s.trace ++ p.trace (if count = 1 then 0x11 else 0x12) (scaledAddr s.ctype sector) ++ fillers q.bytes
        ++ (if count = 1 then [] else st.trace) ++ [.cs true, .xchg 0xFF d],
      env := { s.env with card := more }, sched := rest }

/-- START_WRITE_DMA with a card that accepts the command: the hint ACMD23 for several blocks on an SDC card, whatever becomes of it, CMD24
or CMD25, the readiness wait. If the card becomes ready: the block token 0xFE or 0xFC, and the buffer is handed to DMAENG. If it stays busy
through the wait: for several blocks the stop token is attempted and its outcome ignored, deselect, the context cleared, Error
(45_dma_completion.md R262; 40_bus_transport.md R139; decision D25). -/
def Obligations.StartWriteDma : Prop :=
  ∀ (s : State) (sel : Byte) (buf sector count : Word) (h : AppReply) (p : Reply) (busy more : List Byte),
    s.isIdle = true → s.dmast = .idle → s.atc.live = false → s.dstat.noInit = false → s.dstat.protect = false → count ≠ 0 → h.ok →
    p.ok → p.r1 = 0x00 →
    (∀ under, (∀ b ∈ busy, cardIsReady b = false) →
      s.env.card = hintBytes s.ctype count h ++ (p.bytes ++ (busy ++ 0xFF :: under :: more)) →
      ∃ turns w, Timed (hintTicks s.ctype count h) turns ∧
        ∀ rest, exec (.startWriteDma sel buf sector count) (s.withSched (turns ++ rest)) = .next { s with
        lat := { op := 0x05, sel := sel, sector := sector, count := count, buf := buf }, wk := w, out := s.out.onlyRes .ok,
        dmast := .busy, atc := { live := true, dir := .write, multi := decide (count > 1) },
        job := some { dir := .write, buf := buf, n := count, fetched := [] }, cs := false,
        tmr := { s.tmr.after (hintTicks s.ctype count h) with rdy := 500 },
        trace := s.trace ++ hintTrace s.ctype count h ++ p.trace (if count = 1 then 0x18 else 0x19) (scaledAddr s.ctype sector)
          ++ fillers (busy ++ [0xFF]) ++ [.xchg (if count = 1 then 0xFE else 0xFC) under, .dmaStart .write buf count],
        env := { s.env with card := more }, sched := rest }) ∧
    (∀ d, count = 1 → staysBusy busy → s.env.card = p.bytes ++ (busy ++ d :: more) →
      ∃ turns w a, Timed 500 turns ∧ a.live = false ∧
        ∀ rest, exec (.startWriteDma sel buf sector count) (s.withSched (turns ++ rest)) = .next { s with
        lat := { op := 0x05, sel := sel, sector := sector, count := count, buf := buf }, wk := w, out := s.out.onlyRes .error,
        atc := a, cs := true, tmr := ({ s.tmr with rdy := 500 } : Timers).after 500,
        trace := s.trace ++ p.trace 0x18 (scaledAddr s.ctype sector) ++ fillers busy ++ [.cs true, .xchg 0xFF d],
        env := { s.env with card := more }, sched := rest }) ∧
    (∀ (st : StopAttempt) (d : Byte), count ≠ 1 → staysBusy busy → st.ok →
      s.env.card = hintBytes s.ctype count h ++ (p.bytes ++ (busy ++ (st.bytes ++ d :: more))) →
      ∃ turns w a, Timed (hintTicks s.ctype count h + 500 + st.ticks) turns ∧ a.live = false ∧
        ∀ rest, exec (.startWriteDma sel buf sector count) (s.withSched (turns ++ rest)) = .next { s with
        lat := { op := 0x05, sel := sel, sector := sector, count := count, buf := buf }, wk := w, out := s.out.onlyRes .error,
        atc := a, cs := true, tmr := st.timers (({ s.tmr.after (hintTicks s.ctype count h) with rdy := 500 } : Timers).after 500),
        trace := s.trace ++ hintTrace s.ctype count h ++ p.trace 0x19 (scaledAddr s.ctype sector) ++ fillers busy ++ st.trace
          ++ [.cs true, .xchg 0xFF d],
        env := { s.env with card := more }, sched := rest })

/-- A start operation whose block command is not answered 0x00, its R1 poll runs out, or its `select()` fails: deselect, the context
cleared, Error; no token is awaited or sent, and no transfer starts (45_dma_completion.md R261, R262; 42_command_framing.md R172; decision
D25). -/
def Obligations.StartRejected : Prop :=
  ∀ (o : BlockOp) (s : State) (sel : Byte) (buf sector count : Word) (h : AppReply) (p : Attempt) (d : Byte) (more : List Byte),
    o.isDma = true → s.isIdle = true → s.dmast = .idle → s.atc.live = false → s.dstat.noInit = false →
    (o.isWrite = true → s.dstat.protect = false) → count ≠ 0 → h.ok → p.ok → p.r1 ≠ 0x00 →
    s.env.card = (if o.isWrite then hintBytes s.ctype count h else []) ++ (p.bytes ++ d :: more) →
    ∃ turns w a, Timed ((if o.isWrite then hintTicks s.ctype count h else 0) + p.ticks) turns ∧ a.live = false ∧
      ∀ rest, exec (o.instr sel buf sector count) (s.withSched (turns ++ rest)) = .next { s with
      lat := { op := o.code, sel := sel, sector := sector, count := count, buf := buf }, wk := w, out := s.out.onlyRes .error,
      atc := a, cs := true, tmr := p.timers (s.tmr.after (if o.isWrite then hintTicks s.ctype count h else 0)),
      trace := s.trace ++ (if o.isWrite then hintTrace s.ctype count h else []) ++ p.trace (blockCommand o.dir count)
        (scaledAddr s.ctype sector) ++ [.cs true, .xchg 0xFF d],
      env := { s.env with card := more }, sched := rest }

/-! ### READ -/

/-- READ of one block: CMD17 with the scaled sector, the data packet, deselect; Ok, and the 512 bytes are in the buffer; BUF is not advanced
(44_polling_block_io.md R234, R236). -/
def Obligations.ReadOne : Prop :=
  ∀ (s : State) (sel : Byte) (buf sector : Word) (p : Reply) (q : Packet) (d : Byte) (more : List Byte),
    s.isIdle = true → s.dmast = .idle → s.dstat.noInit = false → p.ok → p.r1 = 0x00 → q.data.length = 512 →
    s.env.card = p.bytes ++ (q.bytes ++ d :: more) →
    ∃ n w, ∀ rest, exec (.read sel buf sector 1) (s.withSched (engineTurns n ++ rest)) = .next { s with
      lat := { op := 0x02, sel := sel, sector := sector, count := 0, buf := buf }, wk := w, out := s.out.onlyRes .ok,
      cs := true, tmr := { s.tmr with tok := 200, rdy := 500 }, mem := storeBytes buf 0 q.data s.mem,
      trace := s.trace ++ p.trace 0x11 (scaledAddr s.ctype sector) ++ fillers q.bytes ++ [.cs true, .xchg 0xFF d],
      env := { s.env with card := more }, sched := rest }

/-- READ of several blocks, all received: CMD18, one packet for each block, each at its own 512 bytes of the buffer, CMD12, deselect; Ok, COUNT
is 0 and BUF is advanced by 512 for each block modulo 2^32 (44_polling_block_io.md R234, R236; 20_memory.md R62). -/
def Obligations.ReadMany : Prop :=
  ∀ (s : State) (sel : Byte) (buf sector : Word) (p : Reply) (qs : List Packet) (st : StopReply) (d : Byte) (more : List Byte),
    s.isIdle = true → s.dmast = .idle → s.dstat.noInit = false → p.ok → p.r1 = 0x00 → wholeBlocks qs → st.ok →
    2 ≤ qs.length → qs.length < 2 ^ 32 → s.env.card = p.bytes ++ (packetBytes qs ++ (st.bytes ++ d :: more)) →
    ∃ n w, ∀ rest, exec (.read sel buf sector (BitVec.ofNat 32 qs.length)) (s.withSched (engineTurns n ++ rest)) = .next { s with
      lat := { op := 0x02, sel := sel, sector := sector, count := 0, buf := buf + BitVec.ofNat 32 (512 * qs.length) }, wk := w,
      out := s.out.onlyRes .ok, cs := true, tmr := { s.tmr with tok := 200, rdy := 500 }, mem := storePackets s.mem buf qs,
      trace := s.trace ++ p.trace 0x12 (scaledAddr s.ctype sector) ++ fillers (packetBytes qs) ++ st.trace ++ [.cs true, .xchg 0xFF d],
      env := { s.env with card := more }, sched := rest }

/-- READ, of one block or of several, in which a start token does not come, whether another byte comes or the wait's time runs out: the blocks
before it are in the buffer, nothing else is stored; CMD12 is sent for several blocks and not for one; deselect, Error
(44_polling_block_io.md R234, R238; 20_memory.md R65). -/
def Obligations.ReadBroken : Prop :=
  ∀ (s : State) (sel : Byte) (buf sector count : Word) (p : Reply) (qs : List Packet) (b : BadToken) (st : StopReply) (d : Byte)
    (more : List Byte),
    s.isIdle = true → s.dmast = .idle → s.dstat.noInit = false → p.ok → p.r1 = 0x00 → wholeBlocks qs → b.ok → st.ok →
    qs.length < count.toNat →
    s.env.card = p.bytes ++ (packetBytes qs ++ (b.bytes ++ ((if count = 1 then [] else st.bytes) ++ d :: more))) →
    ∃ turns w, Timed b.ticks turns ∧ ∀ rest, exec (.read sel buf sector count) (s.withSched (turns ++ rest)) = .next { s with
      lat := { op := 0x02, sel := sel, sector := sector, count := count - BitVec.ofNat 32 qs.length,
               buf := buf + BitVec.ofNat 32 (512 * qs.length) }, wk := w,
      out := s.out.onlyRes .error, cs := true, tmr := ({ s.tmr with tok := 200, rdy := 500 } : Timers).after b.ticks,
      mem := storePackets s.mem buf qs,
      trace := s.trace ++ p.trace (if count = 1 then 0x11 else 0x12) (scaledAddr s.ctype sector) ++ fillers (packetBytes qs ++ b.bytes)
        ++ (if count = 1 then [] else st.trace) ++ [.cs true, .xchg 0xFF d],
      env := { s.env with card := more }, sched := rest }

/-- READ or WRITE whose block command is not answered 0x00, its R1 poll runs out, or its `select()` fails: no packet, no CMD12 and no stop
token; deselect, Error; buffer memory, COUNT and BUF untouched (44_polling_block_io.md R234, R235; 42_command_framing.md R172, R183, R186).
-/
def Obligations.BlockRejected : Prop :=
  ∀ (o : BlockOp) (s : State) (sel : Byte) (buf sector count : Word) (h : AppReply) (p : Attempt) (d : Byte) (more : List Byte),
    o.isDma = false → s.isIdle = true → s.dmast = .idle → s.dstat.noInit = false → (o.isWrite = true → s.dstat.protect = false) →
    count ≠ 0 → h.ok → p.ok → p.r1 ≠ 0x00 →
    s.env.card = (if o.isWrite then hintBytes s.ctype count h else []) ++ (p.bytes ++ d :: more) →
    ∃ turns w, Timed ((if o.isWrite then hintTicks s.ctype count h else 0) + p.ticks) turns ∧
      ∀ rest, exec (o.instr sel buf sector count) (s.withSched (turns ++ rest)) = .next { s with
      lat := { op := o.code, sel := sel, sector := sector, count := count, buf := buf }, wk := w, out := s.out.onlyRes .error,
      cs := true, tmr := p.timers (s.tmr.after (if o.isWrite then hintTicks s.ctype count h else 0)),
      trace := s.trace ++ (if o.isWrite then hintTrace s.ctype count h else []) ++ p.trace (blockCommand o.dir count)
        (scaledAddr s.ctype sector) ++ [.cs true, .xchg 0xFF d],
      env := { s.env with card := more }, sched := rest }

/-! ### WRITE -/

/-- WRITE of one block: CMD24 with the scaled sector, the readiness wait, the token 0xFE, the 512 bytes of the buffer, two dummy CRC bytes,
the data response; Ok exactly when its low five bits are 00101, else Error. If the card stays busy through the wait, no packet and Error.
Buffer memory is only read (44_polling_block_io.md R233, R235; 40_bus_transport.md R139). -/
def Obligations.WriteOne : Prop :=
  ∀ (s : State) (sel : Byte) (buf sector : Word) (p : Reply) (d : Byte) (more : List Byte),
    s.isIdle = true → s.dmast = .idle → s.dstat.noInit = false → s.dstat.protect = false → p.ok → p.r1 = 0x00 →
    (∀ q : Receipt, q.ok → q.response &&& 0x1F = 0x05 → s.env.card = p.bytes ++ (q.bytes ++ d :: more) →
      ∃ n w, ∀ rest, exec (.write sel buf sector 1) (s.withSched (engineTurns n ++ rest)) = .next { s with
        lat := { op := 0x03, sel := sel, sector := sector, count := 0, buf := buf }, wk := w, out := s.out.onlyRes .ok,
        cs := true, tmr := { s.tmr with rdy := 500 },
        trace := s.trace ++ p.trace 0x18 (scaledAddr s.ctype sector) ++ q.trace 0xFE (bufferBytes s buf 0 512)
          ++ [.cs true, .xchg 0xFF d],
        env := { s.env with card := more }, sched := rest }) ∧
    (∀ q : BadBlock, q.ok → s.env.card = p.bytes ++ (q.bytes ++ d :: more) →
      ∃ turns w, Timed q.ticks turns ∧ ∀ rest, exec (.write sel buf sector 1) (s.withSched (turns ++ rest)) = .next { s with
        lat := { op := 0x03, sel := sel, sector := sector, count := 1, buf := buf }, wk := w, out := s.out.onlyRes .error,
        cs := true, tmr := ({ s.tmr with rdy := 500 } : Timers).after q.ticks,
        trace := s.trace ++ p.trace 0x18 (scaledAddr s.ctype sector) ++ q.trace 0xFE (bufferBytes s buf 0 512)
          ++ [.cs true, .xchg 0xFF d],
        env := { s.env with card := more }, sched := rest })

/-- WRITE of several blocks, all accepted: the hint ACMD23 on an SDC card, whatever becomes of it, CMD25, one packet with the token 0xFC for
each block from its own 512 bytes of the buffer, the stop token 0xFD, deselect; Ok. A stop token that cannot go out makes it Error, by
`COUNT <- 1` (44_polling_block_io.md R235, R236; 20_memory.md R62). -/
def Obligations.WriteMany : Prop :=
  ∀ (s : State) (sel : Byte) (buf sector : Word) (h : AppReply) (p : Reply) (qs : List Receipt) (st : StopAttempt) (d : Byte)
    (more : List Byte),
    s.isIdle = true → s.dmast = .idle → s.dstat.noInit = false → s.dstat.protect = false → h.ok → p.ok → p.r1 = 0x00 →
    (∀ q ∈ qs, q.ok ∧ q.response &&& 0x1F = 0x05) → st.ok → 2 ≤ qs.length → qs.length < 2 ^ 32 →
    s.env.card = hintBytes s.ctype (BitVec.ofNat 32 qs.length) h ++ (p.bytes ++ (receiptBytes qs ++ (st.bytes ++ d :: more))) →
    ∃ turns w, Timed (hintTicks s.ctype (BitVec.ofNat 32 qs.length) h + st.ticks) turns ∧
      ∀ rest, exec (.write sel buf sector (BitVec.ofNat 32 qs.length)) (s.withSched (turns ++ rest)) = .next { s with
      lat := { op := 0x03, sel := sel, sector := sector, count := if st.goesOut then 0 else 1,
               buf := buf + BitVec.ofNat 32 (512 * qs.length) }, wk := w,
      out := s.out.onlyRes (if st.goesOut then .ok else .error), cs := true,
      tmr := st.timers (s.tmr.after (hintTicks s.ctype (BitVec.ofNat 32 qs.length) h)),
      trace := s.trace ++ hintTrace s.ctype (BitVec.ofNat 32 qs.length) h ++ p.trace 0x19 (scaledAddr s.ctype sector)
        ++ receiptTrace s 0xFC buf qs ++ st.trace ++ [.cs true, .xchg 0xFF d],
      env := { s.env with card := more }, sched := rest }

/-- WRITE of several blocks in which a block is rejected, or the readiness wait before it times out, whatever became of the hint: BUF and
COUNT are not advanced past it, no further block is sent, the stop token is attempted all the same (one that cannot go out leaves 1 in
COUNT), deselect, Error (44_polling_block_io.md R233, R235). -/
def Obligations.WriteBroken : Prop :=
  ∀ (s : State) (sel : Byte) (buf sector count : Word) (h : AppReply) (p : Reply) (qs : List Receipt) (q : BadBlock) (st : StopAttempt)
    (d : Byte) (more : List Byte),
    s.isIdle = true → s.dmast = .idle → s.dstat.noInit = false → s.dstat.protect = false → h.ok → p.ok → p.r1 = 0x00 →
    (∀ r ∈ qs, r.ok ∧ r.response &&& 0x1F = 0x05) → q.ok → st.ok → 1 < count → qs.length < count.toNat →
    s.env.card = hintBytes s.ctype count h ++ (p.bytes ++ (receiptBytes qs ++ (q.bytes ++ (st.bytes ++ d :: more)))) →
    ∃ turns w, Timed (hintTicks s.ctype count h + q.ticks + st.ticks) turns ∧
      ∀ rest, exec (.write sel buf sector count) (s.withSched (turns ++ rest)) = .next { s with
      lat := { op := 0x03, sel := sel, sector := sector, count := if st.goesOut then count - BitVec.ofNat 32 qs.length else 1,
               buf := buf + BitVec.ofNat 32 (512 * qs.length) }, wk := w,
      out := s.out.onlyRes .error, cs := true,
      tmr := st.timers (({ s.tmr.after (hintTicks s.ctype count h) with rdy := 500 } : Timers).after q.ticks),
      trace := s.trace ++ hintTrace s.ctype count h ++ p.trace 0x19 (scaledAddr s.ctype sector) ++ receiptTrace s 0xFC buf qs
        ++ q.trace 0xFC (bufferBytes s (buf + BitVec.ofNat 32 (512 * qs.length)) 0 512) ++ st.trace ++ [.cs true, .xchg 0xFF d],
      env := { s.env with card := more }, sched := rest }

/-! ### Addresses and memory -/

/-- The sector address: the sector number on a block-addressed card, else the byte address modulo 2^32 (20_memory.md R68); for one block, and
for every read, it becomes the argument of the block command at once (30_encoding.md R93; 44_polling_block_io.md R234); a write of several
blocks first asks whether the card is SDC (44_polling_block_io.md R235; 45_dma_completion.md R262). -/
def Obligations.SectorAddress : Prop :=
  ∀ (o : BlockOp) (s : State), s.todo = [] → s.pos = .act (.scale o) →
    ∃ t, engineStep s = .next t ∧
      t.wk.addr = (if s.ctype = .sd2Block then s.lat.sector else BitVec.ofNat 32 (s.lat.sector.toNat * 512)) ∧
      (o.isWrite = false ∨ s.lat.count = 1 → t.todo = [.command (match o.isWrite, decide (s.lat.count = 1) with
        | false, true => 0x11 | false, false => 0x12 | true, true => 0x18 | true, false => 0x19) t.wk.addr]) ∧
      (o.isWrite = true → s.lat.count ≠ 1 → t.todo = [] ∧ t.pos = .act (.testSdc o.isDma)) ∧
      t = { s with wk := { s.wk with addr := t.wk.addr }, todo := t.todo, pos := t.pos }

/-- Where received bytes lie: byte k of block j at `BUF0 + 512*j + k` modulo 2^32, every other byte of memory as before, and memory stays in
canonical form (20_memory.md R62, R63). -/
def Obligations.ReceivedBlocksInBuffer : Prop :=
  ∀ (m : Memory) (base : Word) (qs : List Packet), Memory.wf m = true → wholeBlocks qs → 512 * qs.length ≤ 2 ^ 32 →
    Memory.wf (storePackets m base qs) = true ∧
    (∀ (j k : Nat) (q : Packet) (b : Byte), qs[j]? = some q → q.data[k]? = some b →
      memRead (storePackets m base qs) ((base.toNat + 512 * j + k) % 2 ^ 32) = b) ∧
    (∀ a, (∀ k, k < 512 * qs.length → a ≠ (base.toNat + k) % 2 ^ 32) → memRead (storePackets m base qs) a = memRead m a)

/-! ### INITIALIZE -/

/-- INITIALIZE without a medium: NOINIT and NODISK set, CTYPE cleared, the status returned; nothing goes on the bus, speed and chip-select are
not touched (43_negotiation.md R201). -/
def Obligations.InitializeNoMedium : Prop :=
  ∀ (s : State) (sel : Byte) (rest : List Turn), s.isIdle = true → s.dmast = .idle → s.env.senseNoMedium = true →
    exec (.initCard sel) (s.withSched (engineTurns 6 ++ rest)) = .next { s with
      lat := { s.lat with op := 0x00, sel := sel },
      out := s.out.onlySval { noInit := true, noDisk := true, protect := s.env.senseWrProt },
      dstat := { noInit := true, noDisk := true, protect := s.env.senseWrProt }, ctype := .noCard, sched := rest }

/-- INITIALIZE of an SD-v2 card: power-up clocks, CMD0, CMD8 with the trailer ?? ?? 01 AA, ACMD41 with HCS until ready, CMD58; the CCS bit
of the OCR decides between block and byte addressing; NOINIT cleared, fast speed, card deselected. A round that fails in any way, its
`select()` among them, is "not yet" while the window is open (43_negotiation.md R202 to R205, R207, R210). -/
def Obligations.InitializeV2 : Prop :=
  ∀ (s : State) (sel : Byte) (clocks : List Byte) (p0 p8 : Reply) (t0 t1 : Byte) (rounds : List AppReply) (ready : AppReply) (p58 : Reply)
    (o0 o1 o2 o3 d : Byte) (more : List Byte),
    s.isIdle = true → s.dmast = .idle → s.env.senseNoMedium = false → clocks.length = 74 + s.env.extraDummies →
    onV2Path p0 p8 → v2Ready rounds ready → p58.ok → p58.r1 = 0x00 →
    s.env.card = clocks ++ (p0.bytes ++ (p8.bytes ++ (t0 :: t1 :: 0x01 :: 0xAA :: (appBytes rounds ++ (ready.bytes ++ (p58.bytes ++
      (o0 :: o1 :: o2 :: o3 :: d :: more))))))) →
    ∃ turns w, Timed (appTicks rounds) turns ∧ ∀ rest, exec (.initCard sel) (s.withSched (turns ++ rest)) = .next { s with
      lat := { s.lat with op := 0x00, sel := sel }, wk := w,
      out := s.out.onlySval { noInit := false, noDisk := false, protect := s.env.senseWrProt },
      dstat := { noInit := false, noDisk := false, protect := s.env.senseWrProt },
      ctype := if o0.getLsbD 6 then .sd2Block else .sd2, tmr := s.tmr.negotiated (appTicks rounds) 0, cs := true, speed := .high,
      trace := s.trace ++ [.speed .low, .cs true] ++ fillers clocks ++ p0.trace 0x00 0 ++ p8.trace 0x08 0x1AA
        ++ fillers [t0, t1, 0x01, 0xAA] ++ appTrace 0x29 0x40000000 rounds ++ ready.trace 0x29 0x40000000 ++ p58.trace 0x3A 0
        ++ fillers [o0, o1, o2, o3] ++ [.cs true, .xchg 0xFF d, .speed .high],
      env := { s.env with card := more }, sched := rest }

/-- INITIALIZE of an SD-v1 card: CMD8 is not answered 0x01, be it that its R1 poll runs out or its `select()` fails; the probe ACMD41 is
accepted, ACMD41 with argument 0 is sent again until ready, at least once, then CMD16 (43_negotiation.md R202 to R204, R206, R207). -/
def Obligations.InitializeSd1 : Prop :=
  ∀ (s : State) (sel : Byte) (clocks : List Byte) (p0 : Reply) (p8 : Attempt) (probe : AppReply) (rounds : List AppReply) (ready : AppReply)
    (p16 : Reply) (d : Byte) (more : List Byte),
    s.isIdle = true → s.dmast = .idle → s.env.senseNoMedium = false → clocks.length = 74 + s.env.extraDummies →
    onLegacyPath p0 p8 probe → probe.r1 ≤ 1 → sd1Ready p8 probe rounds ready → p16.ok → p16.r1 = 0x00 →
    s.env.card = clocks ++ (p0.bytes ++ (p8.bytes ++ (probe.bytes ++ (appBytes rounds ++ (ready.bytes ++ (p16.bytes ++ d :: more)))))) →
    ∃ turns w, Timed (p8.ticks + probe.ticks + appTicks rounds) turns ∧
      ∀ rest, exec (.initCard sel) (s.withSched (turns ++ rest)) = .next { s with
      lat := { s.lat with op := 0x00, sel := sel }, wk := w,
      out := s.out.onlySval { noInit := false, noDisk := false, protect := s.env.senseWrProt },
      dstat := { noInit := false, noDisk := false, protect := s.env.senseWrProt },
      ctype := .sd1, tmr := s.tmr.negotiated (p8.ticks + probe.ticks + appTicks rounds) 0, cs := true, speed := .high,
      trace := s.trace ++ [.speed .low, .cs true] ++ fillers clocks ++ p0.trace 0x00 0 ++ p8.trace 0x08 0x1AA ++ probe.trace 0x29 0
        ++ appTrace 0x29 0 rounds ++ ready.trace 0x29 0 ++ p16.trace 0x10 512 ++ [.cs true, .xchg 0xFF d, .speed .high],
      env := { s.env with card := more }, sched := rest }

/-- INITIALIZE of an MMC card: CMD8 is not answered 0x01, the probe ACMD41 is rejected, CMD1 is sent until ready, then CMD16; a poll that runs
out and a `select()` that fails are such answers too (43_negotiation.md R202 to R204, R206, R207). -/
def Obligations.InitializeMmc : Prop :=
  ∀ (s : State) (sel : Byte) (clocks : List Byte) (p0 : Reply) (p8 : Attempt) (probe : AppReply) (rounds : List Attempt) (ready : Attempt)
    (p16 : Reply) (d : Byte) (more : List Byte),
    s.isIdle = true → s.dmast = .idle → s.env.senseNoMedium = false → clocks.length = 74 + s.env.extraDummies →
    onLegacyPath p0 p8 probe → 1 < probe.r1 → mmcReady p8 probe rounds ready → p16.ok → p16.r1 = 0x00 →
    s.env.card = clocks ++ (p0.bytes ++ (p8.bytes ++ (probe.bytes ++ (attemptBytes rounds ++ (ready.bytes ++ (p16.bytes ++ d :: more)))))) →
    ∃ turns w, Timed (p8.ticks + probe.ticks + attemptTicks rounds) turns ∧
      ∀ rest, exec (.initCard sel) (s.withSched (turns ++ rest)) = .next { s with
      lat := { s.lat with op := 0x00, sel := sel }, wk := w,
      out := s.out.onlySval { noInit := false, noDisk := false, protect := s.env.senseWrProt },
      dstat := { noInit := false, noDisk := false, protect := s.env.senseWrProt },
      ctype := .mmc, tmr := s.tmr.negotiated (p8.ticks + probe.ticks + attemptTicks rounds) 0, cs := true, speed := .high,
      trace := s.trace ++ [.speed .low, .cs true] ++ fillers clocks ++ p0.trace 0x00 0 ++ p8.trace 0x08 0x1AA ++ probe.trace 0x29 0
        ++ attemptTrace 0x01 0 rounds ++ ready.trace 0x01 0 ++ p16.trace 0x10 512 ++ [.cs true, .xchg 0xFF d, .speed .high],
      env := { s.env with card := more }, sched := rest }

/-- INITIALIZE whose negotiation fails: CMD0 is not answered 0x01 (no further command, T_NEG not armed); CMD8 is answered 0x01 and its
trailer does not match; a ready loop is ended by its window; CMD58 or CMD16 is not answered 0x00. A poll that runs out and a `select()` that
fails are answers of that kind too. Every time: classification "no card", NOINIT set, the speed low, the card deselected (43_negotiation.md
R203 to R207, R209; 60_exceptions.md R317; decisions D15, D16). -/
def Obligations.InitializeNoCard : Prop :=
  ∀ (s : State) (sel : Byte) (clocks : List Byte) (f : FailedInit) (d : Byte) (more : List Byte),
    s.isIdle = true → s.dmast = .idle → s.env.senseNoMedium = false → clocks.length = 74 + s.env.extraDummies → f.ok →
    s.env.card = clocks ++ (f.bytes ++ d :: more) →
    ∃ turns w, Timed f.ticks turns ∧ ∀ rest, exec (.initCard sel) (s.withSched (turns ++ rest)) = .next { s with
      lat := { s.lat with op := 0x00, sel := sel }, wk := w,
      out := s.out.onlySval { noInit := true, noDisk := false, protect := s.env.senseWrProt },
      dstat := { noInit := true, noDisk := false, protect := s.env.senseWrProt }, ctype := .noCard,
      tmr := f.timers s.tmr, cs := true, speed := .low,
      trace := s.trace ++ [.speed .low, .cs true] ++ fillers clocks ++ f.trace ++ [.cs true, .xchg 0xFF d],
      env := { s.env with card := more }, sched := rest }

/-! ### Commands -/

/-- Every SD command without a prefix, other than CMD12, where ENGINE calls it. The card lets it out: deselect, select with its readiness
wait, the six frame bytes, the R1 poll; the response, or the tenth byte of a poll that runs out, is in R1, the card stays selected. The card
stays busy through the wait: no frame, the card is deselected again, and R1 is 0xFF. ENGINE goes on behind the call (42_command_framing.md
R170, R172, R173, R175 and the command's own rule). That a row stands for this call is the model's (DEDUCED, log entry 13), and so is what
CMD, ARG, RDY, NTRY and the outcome of the wait hold (log entries 21 and 22); CMD55 by itself is called only by a placed word (log entry
12). (In the second clause the `return 0xFF` is one of the at most eight tests that `settle` makes behind an action, so seven are left.) -/
def Obligations.PlainCommands : Prop :=
  ∀ (addr : Word) (i : Instr) (cmd : Byte) (arg : Word) (s : State) (k : List Micro) (more : List Byte),
    (i, cmd, arg) ∈ plainRows ++ blockRows addr → s.todo = .command cmd arg :: k →
    (∀ p : Reply, p.ok → s.env.card = p.bytes ++ more →
      ∃ n b, exec i (s.withSched (engineTurns n)) = .next (settle { s with
        todo := k,
        wk := { s.wk with cmd := cmd, arg := arg, rdy := 0xFF, flag := true, r1 := p.r1, ntry := b },
        cs := false, tmr := { s.tmr with rdy := 500 }, trace := s.trace ++ p.trace cmd arg, env := { s.env with card := more },
        sched := [] })) ∧
    (∀ p : BusyReply, p.ok → s.env.card = p.bytes ++ more →
      ∃ turns b, Timed 500 turns ∧ exec i (s.withSched turns) = .next (settleWithin 7 { s with
        todo := k,
        wk := { s.wk with cmd := cmd, arg := arg, rdy := b, flag := false, r1 := 0xFF },
        cs := true, tmr := ({ s.tmr with rdy := 500 } : Timers).after 500, trace := s.trace ++ p.trace, env := { s.env with card := more },
        sched := [] }))

/-- ACMD23 and ACMD41 where ENGINE calls them: CMD55 first; the command itself only if CMD55 is answered 0x00 or 0x01, else CMD55's response is
the command's. Where the card stays busy through the readiness wait of CMD55, or of the command behind an accepted CMD55, no further frame goes
out, the card is deselected again, and R1 is 0xFF (42_command_framing.md R171, R172, R184, R187, R188; 30_encoding.md R94). That a row stands
for this call is the model's (DEDUCED, log entry 13), and so is what CMD, ARG, RDY, NTRY and the outcome of the wait hold (log entries 21
and 22). -/
def Obligations.ApplicationCommands : Prop :=
  ∀ (count : Word) (i : Instr) (idx : Byte) (arg : Word) (s : State) (more : List Byte),
    (i, idx, arg) ∈ appRows count → s.todo = [.command (0x80 ||| idx) arg] →
    (∀ (p : AppReply) (q : Reply), p.ok → p.last = .answered q → s.env.card = p.bytes ++ more →
      ∃ n b, exec i (s.withSched (engineTurns n)) = .next (settle { s with
        todo := [],
        wk := { s.wk with cmd := if p.app.r1 ≤ 1 then idx else 0x37, arg := if p.app.r1 ≤ 1 then arg else 0, rdy := 0xFF, flag := true,
                          r1 := q.r1, ntry := b },
        cs := false, tmr := { s.tmr with rdy := 500 }, trace := s.trace ++ p.trace idx arg, env := { s.env with card := more },
        sched := [] })) ∧
    (∀ p : BusyReply, p.ok → s.env.card = p.bytes ++ more →
      ∃ turns b, Timed 500 turns ∧ exec i (s.withSched turns) = .next (settle { s with
        todo := [],
        wk := { s.wk with cmd := 0x37, arg := 0, rdy := b, flag := false, r1 := 0xFF },
        cs := true, tmr := ({ s.tmr with rdy := 500 } : Timers).after 500, trace := s.trace ++ p.trace, env := { s.env with card := more },
        sched := [] })) ∧
    (∀ (p : Reply) (q : BusyReply), p.ok → p.r1 ≤ 1 → q.ok → s.env.card = p.bytes ++ (q.bytes ++ more) →
      ∃ turns b n, Timed 500 turns ∧ exec i (s.withSched turns) = .next (settle { s with
        todo := [],
        wk := { s.wk with cmd := idx, arg := arg, rdy := b, flag := false, r1 := 0xFF, ntry := n },
        cs := true, tmr := ({ s.tmr with rdy := 500 } : Timers).after 500, trace := s.trace ++ p.trace 0x37 0 ++ q.trace,
        env := { s.env with card := more }, sched := [] }))

/-- CMD12 where ENGINE calls it: no deselect and no select, the frame, one stuff byte, the R1 poll, which may run out; CS and the counters
are untouched (42_command_framing.md R172, R174, R180). That the row stands for this call is the model's (DEDUCED, log entry 13), and so is
what CMD, ARG and NTRY hold (log entry 22). -/
def Obligations.StopCommand : Prop :=
  ∀ (s : State) (k : List Micro) (p : StopReply) (more : List Byte),
    s.todo = .command 0x0C 0 :: k → p.ok → s.env.card = p.bytes ++ more →
    ∃ n b, exec .cmd12 (s.withSched (engineTurns n)) = .next (settle { s with
      todo := k,
      wk := { s.wk with cmd := 0x0C, arg := 0, r1 := p.r1, ntry := b }, trace := s.trace ++ p.trace,
      env := { s.env with card := more }, sched := [] })

/-- The R1 poll's budget: ten bytes with bit 7 set, not only 0xFF, end it; the tenth is returned, and an eleventh exchange is not made
(42_command_framing.md R175). -/
def Obligations.PollBudget : Prop :=
  ∀ (s : State) (k : List Micro) (xs : List Byte) (x : Byte) (more : List Byte),
    s.todo = .exchange .poll :: k → s.wk.ntry = 10 → xs.length = 9 → (∀ b ∈ xs, b.getLsbD 7 = true) → x.getLsbD 7 = true →
    s.env.card = xs ++ x :: more →
    runTurns (engineTurns 10) s = .next (settle { s with
      todo := k, wk := { s.wk with r1 := x, ntry := 0 },
      trace := s.trace ++ fillers (xs ++ [x]), env := { s.env with card := more }, sched := [] })

/-- The readiness wait ends: with every exchange answered, and as many TICK events as its counter holds among any number of ENGINE's steps, it
has ended by then, true exactly when the last byte was 0xFF (40_bus_transport.md R139; 70_reset_and_hazards.md R366: the premises
BUS_RESPONSIVE and TICK_FAIR). -/
def Obligations.ReadyWaitEnds : Prop :=
  ∀ (s : State) (k : List Micro) (turns : List Turn), s.todo = .exchange .ready :: k → s.env.responsive = true →
    (∀ t ∈ turns, t = .engine ∨ t = .tick) → s.tmr.rdy.toNat ≤ turns.count .tick →
    ∃ m t rx, runTurns ((turns ++ engineTurns 2).take m) s = .next (settle t) ∧ rx ≠ [] ∧ t.wk.rdy = rx.getLastD 0 ∧
      (t.wk.flag = true ↔ t.wk.rdy = 0xFF) ∧
      t = { s with
        todo := k, wk := { s.wk with rdy := t.wk.rdy, flag := t.wk.flag }, tmr := t.tmr, trace := s.trace ++ fillers rx,
        env := t.env, sched := [] }

/-! ### Bytes on the wire and results -/

/-- The token bytes where ENGINE stands at their exchange. Received in the token wait: 0xFE ends it with success, 0xFF is "not yet" and the
counter is asked next, any other byte ends it with failure. Received in the readiness wait: 0xFF is "ready", any other byte is not and the
counter is asked next. In the R1 poll 0xFF is discarded while the budget lasts and returned when it is used up. Sent: a block token or the stop
token goes out, and 0xFF wherever ENGINE only wants to receive or to clock the card: a trailer byte, a data byte, the data response, a
discarded byte; the answer is what the card sends (30_encoding.md R103, R104; 44_polling_block_io.md R233, R238; 40_bus_transport.md R139;
42_command_framing.md R175; 00_scope.md R7). That such a row is ENGINE's step at that exchange is the model's (DEDUCED, log entry 13), and so is
what TOK, RDY, R1, NTRY and the outcome hold (log entries 21 and 22). -/
def Obligations.TokenRows : Prop :=
  ∀ (s : State) (k : List Micro),
    (s.todo = .exchange .token :: k → exec .tokStart s = .next (settle { s with
      todo := k, wk := { s.wk with tok := 0xFE, flag := true }, trace := s.trace ++ [.xchg 0xFF 0xFE] })) ∧
    (s.todo = .exchange .token :: k → exec .filler s = .next { s with
      todo := .act .tokenExpired :: k, wk := { s.wk with tok := 0xFF }, trace := s.trace ++ [.xchg 0xFF 0xFF] }) ∧
    (∀ (b : Byte) (rest : List Turn), s.todo = .exchange .token :: k → s.sched = .port .token [b] :: rest → b ≠ 0xFE → b ≠ 0xFF →
      step s = .next (settle { s with
        todo := k, wk := { s.wk with tok := b, flag := false }, trace := s.trace ++ [.xchg 0xFF b], sched := rest })) ∧
    (s.todo = .exchange .ready :: k → exec .filler s = .next (settle { s with
      todo := k, wk := { s.wk with rdy := 0xFF, flag := true }, trace := s.trace ++ [.xchg 0xFF 0xFF] })) ∧
    (∀ (b : Byte) (rest : List Turn), s.todo = .exchange .ready :: k → s.sched = .port .token [b] :: rest → b ≠ 0xFF →
      step s = .next { s with
        todo := .act .readyExpired :: k, wk := { s.wk with rdy := b }, trace := s.trace ++ [.xchg 0xFF b], sched := rest }) ∧
    (s.todo = .exchange .poll :: k → s.wk.ntry ≠ 1 → exec .filler s = .next { s with
      todo := .exchange .poll :: k, wk := { s.wk with r1 := 0xFF, ntry := s.wk.ntry - 1 }, trace := s.trace ++ [.xchg 0xFF 0xFF] }) ∧
    (s.todo = .exchange .poll :: k → s.wk.ntry = 1 → exec .filler s = .next (settle { s with
      todo := k, wk := { s.wk with r1 := 0xFF, ntry := 0 }, trace := s.trace ++ [.xchg 0xFF 0xFF] })) ∧
    (∀ (i : Instr) (tok rx : Byte) (u : State),
      (i, tok) ∈ [(Instr.tokStart, (0xFE : Byte)), (.tokMulti, 0xFC), (.tokStop, 0xFD)] →
      s.todo = .exchange (.sendToken tok) :: k → s.nextCard = some (rx, u) →
      exec i s = .next (settle { u with todo := k, trace := s.trace ++ [.xchg tok rx] })) ∧
    (∀ (rx : Byte) (u : State), s.todo = .exchange (.send 0xFF) :: k → s.nextCard = some (rx, u) →
      exec .filler s = .next (settle { u with todo := k, trace := s.trace ++ [.xchg 0xFF rx] })) ∧
    (∀ (x : Exchange) (rx : Byte) (u : State), (∃ i, x = .trail i) ∨ (∃ d, x = .data d) ∨ x = .response →
      s.todo = .exchange x :: k → s.nextCard = some (rx, u) →
      exec .filler s = engineStep s ∧ ∃ t, engineStep s = .next t ∧ t.trace = s.trace ++ [.xchg 0xFF rx])

/-- The R1 and DATARESP bytes: a byte with bit 7 clear ends the R1 poll and is the response; one with bit 7 set is discarded while the budget
lasts and returned when it is used up; an accepted data response makes the transmission succeed, any other makes it fail (30_encoding.md R98,
R102; 42_command_framing.md R175; 44_polling_block_io.md R233). That such a row is ENGINE's step at that exchange, and that a data response
without a row is too, is the model's (DEDUCED, log entry 13); so is what R1, NTRY, DRESP and the outcome hold (log entries 21 and 22). -/
def Obligations.ResponseRows : Prop :=
  ∀ (s : State) (k : List Micro) (b : Byte),
    (s.todo = .exchange .poll :: k → b.getLsbD 7 = false → exec (.r1Response b) s = .next (settle { s with
      todo := k,
      wk := { s.wk with r1 := b, ntry := s.wk.ntry - 1 }, trace := s.trace ++ [.xchg 0xFF b] })) ∧
    (s.todo = .exchange .poll :: k → b.getLsbD 7 = true → s.wk.ntry ≠ 1 → exec (.r1NotResponse b) s = .next { s with
      todo := .exchange .poll :: k, wk := { s.wk with r1 := b, ntry := s.wk.ntry - 1 }, trace := s.trace ++ [.xchg 0xFF b] }) ∧
    (s.todo = .exchange .poll :: k → b.getLsbD 7 = true → s.wk.ntry = 1 → exec (.r1NotResponse b) s = .next (settle { s with
      todo := k, wk := { s.wk with r1 := b, ntry := 0 }, trace := s.trace ++ [.xchg 0xFF b] })) ∧
    (s.todo = .exchange .response :: k → b &&& 0x1F = 0x05 → exec (.dataAccepted b) s = .next (settle { s with
      todo := k,
      wk := { s.wk with dresp := b, flag := true }, trace := s.trace ++ [.xchg 0xFF b] })) ∧
    (∀ rest, s.todo = .exchange .response :: k → s.sched = .port .dataresp [b] :: rest → b &&& 0x1F ≠ 0x05 →
      step s = .next (settle { s with
        todo := k, wk := { s.wk with dresp := b, flag := false }, trace := s.trace ++ [.xchg 0xFF b], sched := rest }))

/-- The result rows where ENGINE stands at the `return`: RES takes the code and PHASE goes to IDLE, nothing else; elsewhere the row is refused
(00_scope.md R10; 30_encoding.md R97). -/
def Obligations.ResultRows : Prop :=
  ∀ (i : Instr) (r : TransferResult) (s : State), (i, r) ∈ resultRows →
    (s.todo = [] → s.pos = .act (.ret r) → exec i s = .next { s with pos := .idle, out := { s.out with res := r, resValid := true } }) ∧
    (s.todo ≠ [] ∨ s.pos ≠ .act (.ret r) → exec i s = .refused .wrongPhase)

/-! ### Whole-machine rules -/

/-- No host operation other than INITIALIZE, and no event, writes DSTAT, CTYPE or SPEED, under any schedule (10_state.md R28, R29, R33). -/
def Obligations.OnlyInitializeWritesStatus : Prop :=
  ∀ (i : Instr) (s t : State), i.format = .hostop ∨ i.format = .event → (∀ sel, i ≠ .initCard sel) → exec i s = .next t →
    t.dstat = s.dstat ∧ t.ctype = s.ctype ∧ t.speed = s.speed

/-- Of the host operations and events only READ stores to the buffer, under any schedule in which DMAENG takes no step: every byte of memory
reads as before (20_memory.md R62; 44_polling_block_io.md R235; 45_dma_completion.md R261; 60_exceptions.md R314). -/
def Obligations.OnlyReadStores : Prop :=
  ∀ (i : Instr) (s t : State), i.format = .hostop ∨ i.format = .event → (∀ sel buf sector count, i ≠ .read sel buf sector count) →
    (∀ a, Turn.dma a ∉ s.sched) → exec i s = .next t → ∀ a, t.readByte a = s.readByte a

/-- READ stores into its own buffer range and nowhere else, under any schedule, whatever the card answers and whether it ends or not
(10_state.md R35; 44_polling_block_io.md R234). -/
def Obligations.ReadStoresInRange : Prop :=
  ∀ (s t : State) (sel : Byte) (buf sector count : Word), Memory.wf s.mem = true → exec (.read sel buf sector count) s = .next t →
    ∀ a, (∀ k, k < 512 * count.toNat → a ≠ (buf.toNat + k) % 2 ^ 32) → t.readByte a = s.readByte a

/-- Every operation ends. In an execution without end in which the bus is responsive, ENGINE steps again and again, and TICK is fair to it,
PHASE is IDLE again and again: no operation waits for ever, whatever the card answers and whatever HOST, TICK, DMA_DONE and DMAENG do
meanwhile. With DMA_COMPLETES a transfer in flight comes to a terminal status (70_reset_and_hazards.md R366: the premises BUS_RESPONSIVE,
TICK_FAIR and DMA_COMPLETES; R359; 41_timeout_service.md R155). The schedule puts no row of the sequencer on a port (log entry 13). -/
def Obligations.FairExecutions : Prop :=
  ∀ (turn : Nat → Turn) (state : Nat → State), IsExecution turn state →
    (BusResponsive state → EngineFair turn state → TickFair turn state → HostPortsOnly turn →
      ∀ n, ∃ m, n ≤ m ∧ (state m).isIdle = true) ∧
    (DmaCompletes turn state → ∀ n, (state n).dmast = .busy → ∃ m, n < m ∧ (state m).terminal)

/-- What DMAENG and HOST may do with the buffer while a transfer is in flight. A step of DMAENG leaves every register of the block as it is,
stores only inside the transfer's range and only for a read, and loads from it for a write: the byte is the one in memory, and it is what
goes out later; an exchange that is answered puts one item on the wire and takes one answer of the card (45_dma_completion.md R266;
20_memory.md R72). Until the cleanup of POLL_STATUS HOST's store into that range is refused, and in a read its load from it too; every other
store changes that byte alone, and every other load takes the byte (70_reset_and_hazards.md R358). The forms of DMAENG's step, the bytes it
holds between load and exchange, and that its turn passes with nothing changed where the bus does not answer are the model's (DESIGN CHOICE,
log entry 14); so is that the range lasts until the cleanup (DEDUCED, log entry 15); the refusal is 93_implementation_defined.md U16's. -/
def Obligations.BufferOwnership : Prop :=
  (∀ (s t : State) (a : DmaAct) (rest : List Turn), s.sched = .dma a :: rest → step s = .next t →
    s.dmast = .busy ∧ ∃ j f, s.job = some j ∧
      t = { s with mem := t.mem, job := some { j with fetched := f }, trace := t.trace, env := t.env, sched := rest } ∧
      (j.dir = .write → t.mem = s.mem) ∧
      (Memory.wf s.mem = true → ∀ x, (∀ k, k < 512 * j.n.toNat → x ≠ (j.buf.toNat + k) % 2 ^ 32) → t.readByte x = s.readByte x)) ∧
  (∀ (s : State) (off : Nat) (j : DmaJob) (rest : List Turn), s.dmast = .busy → s.job = some j → off < 512 * j.n.toNat →
    (s.sched = .dma (.load off) :: rest → j.dir = .write → step s = .next { s with
      job := some { j with fetched := j.fetched ++ [s.readByte ((j.buf.toNat + off) % 2 ^ 32)] }, sched := rest }) ∧
    (∀ b, s.sched = .dma (.store off b) :: rest → j.dir = .read → Memory.wf s.mem = true → ∃ t, step s = .next t ∧
      (∀ x, t.readByte x = if x = (j.buf.toNat + off) % 2 ^ 32 then b else s.readByte x) ∧ t = { s with mem := t.mem, sched := rest })) ∧
  (∀ (s u : State) (j : DmaJob) (b rx : Byte) (bs : List Byte) (rest : List Turn), s.sched = .dma .send :: rest → s.dmast = .busy →
    s.job = some j → j.fetched = b :: bs → s.nextCard = some (rx, u) → step s = .next { u with
      job := some { j with fetched := bs }, trace := s.trace ++ [.dmaXchg b rx], sched := rest }) ∧
  (∀ (s u : State) (j : DmaJob) (tx rx : Byte) (rest : List Turn), s.sched = .dma (.xchg tx) :: rest → s.dmast = .busy →
    s.job = some j → s.nextCard = some (rx, u) → step s = .next { u with trace := s.trace ++ [.dmaXchg tx rx], sched := rest }) ∧
  (∀ (s : State) (j : DmaJob) (a : DmaAct) (rest : List Turn), s.sched = .dma a :: rest → s.dmast = .busy → s.job = some j →
    (∃ tx, a = .xchg tx) ∨ (a = .send ∧ j.fetched ≠ []) → s.nextCard = none → step s = .next { s with sched := rest }) ∧
  (∀ (s : State) (a : Word) (b : Byte) (j : DmaJob) (rest : List Turn), s.sched = .host (.store a b) :: rest → s.isIdle = true →
    s.job = some j → s.dmast ≠ .idle →
    (∀ k, k < 512 * j.n.toNat → a.toNat = (j.buf.toNat + k) % 2 ^ 32 → step s = .refused .bufferRace) ∧
    ((∀ k, k < 512 * j.n.toNat → a.toNat ≠ (j.buf.toNat + k) % 2 ^ 32) → Memory.wf s.mem = true →
      ∃ t, step s = .next t ∧ (∀ x, t.readByte x = if x = a.toNat then b else s.readByte x) ∧ t = { s with mem := t.mem, sched := rest })) ∧
  (∀ (s : State) (a : Word) (j : DmaJob) (rest : List Turn), s.sched = .host (.load a) :: rest → s.isIdle = true → s.job = some j →
    s.dmast ≠ .idle →
    (∀ k, k < 512 * j.n.toNat → a.toNat = (j.buf.toNat + k) % 2 ^ 32 → j.dir = .read → step s = .refused .bufferRace) ∧
    ((∀ k, k < 512 * j.n.toNat → a.toNat ≠ (j.buf.toNat + k) % 2 ^ 32) ∨ j.dir = .write →
      step s = .next { s with taken := s.taken ++ [.byte (s.readByte a.toNat)], sched := rest }))

/-- What HOST takes between operations: a result register the last operation wrote gives its value and stays; one it did not write holds no
value, and its read is a fault (10_state.md R24, R25; 93_implementation_defined.md U13). STATUS writes SVAL and no other; an operation that
HOST issues leaves no value of the one before it. A byte of the buffer, where no transfer is in flight, reads as it was written (10_state.md
R35). HOST's steps as turns of the schedule are the model's (DEDUCED, log entry 23). -/
def Obligations.HostTakes : Prop :=
  (∀ (s : State) (rest : List Turn), s.isIdle = true →
    (s.sched = .host .takeRes :: rest →
      (s.out.resValid = true → step s = .next { s with taken := s.taken ++ [.res s.out.res], sched := rest }) ∧
      (s.out.resValid = false → step s = .fault .noValue)) ∧
    (s.sched = .host .takeSval :: rest →
      (s.out.svalValid = true → step s = .next { s with taken := s.taken ++ [.sval s.out.sval], sched := rest }) ∧
      (s.out.svalValid = false → step s = .fault .noValue)) ∧
    (s.sched = .host .takeVal :: rest →
      (s.out.valValid = true → step s = .next { s with taken := s.taken ++ [.val s.out.val], sched := rest }) ∧
      (s.out.valValid = false → step s = .fault .noValue)) ∧
    (∀ a b, s.sched = .host (.store a b) :: .host (.load a) :: rest → s.job = none → Memory.wf s.mem = true →
      ∃ t, step s = .next t ∧ step t = .next { t with taken := s.taken ++ [.byte b], sched := rest })) ∧
  (∀ (s t : State) (sel : Byte) (take : HostAct) (rest : List Turn), s.isIdle = true →
    exec (.status sel) (s.withSched (engineTurns 1 ++ .host take :: rest)) = .next t →
    (take = .takeSval → step t = .next { t with taken := s.taken ++ [.sval s.dstat], sched := rest }) ∧
    (take = .takeRes ∨ take = .takeVal → step t = .fault .noValue))
end

