-- ==== Sys2Proof/Laws/State.lean ====
section
/-! SUPPORT. Laws/State.lean: one lemma for each field under each update of State, true by unfolding, and the facts of the derived
updates that later proofs use instead of unfolding them. -/

namespace Sys2Proof.Machine

/-! ### A field under an update -/

/-! The update of `lat`. -/
@[simp] theorem State.withLat_lat (s : State) (v : Latches) : (s.withLat v).lat = v := rfl
@[simp] theorem State.withLat_wk (s : State) (v : Latches) : (s.withLat v).wk = s.wk := rfl
@[simp] theorem State.withLat_out (s : State) (v : Latches) : (s.withLat v).out = s.out := rfl
@[simp] theorem State.withLat_pos (s : State) (v : Latches) : (s.withLat v).pos = s.pos := rfl
@[simp] theorem State.withLat_todo (s : State) (v : Latches) : (s.withLat v).todo = s.todo := rfl
@[simp] theorem State.withLat_dstat (s : State) (v : Latches) : (s.withLat v).dstat = s.dstat := rfl
@[simp] theorem State.withLat_ctype (s : State) (v : Latches) : (s.withLat v).ctype = s.ctype := rfl
@[simp] theorem State.withLat_dmast (s : State) (v : Latches) : (s.withLat v).dmast = s.dmast := rfl
@[simp] theorem State.withLat_atc (s : State) (v : Latches) : (s.withLat v).atc = s.atc := rfl
@[simp] theorem State.withLat_tmr (s : State) (v : Latches) : (s.withLat v).tmr = s.tmr := rfl
@[simp] theorem State.withLat_cs (s : State) (v : Latches) : (s.withLat v).cs = s.cs := rfl
@[simp] theorem State.withLat_speed (s : State) (v : Latches) : (s.withLat v).speed = s.speed := rfl
@[simp] theorem State.withLat_job (s : State) (v : Latches) : (s.withLat v).job = s.job := rfl
@[simp] theorem State.withLat_mem (s : State) (v : Latches) : (s.withLat v).mem = s.mem := rfl
@[simp] theorem State.withLat_trace (s : State) (v : Latches) : (s.withLat v).trace = s.trace := rfl
@[simp] theorem State.withLat_taken (s : State) (v : Latches) : (s.withLat v).taken = s.taken := rfl
@[simp] theorem State.withLat_env (s : State) (v : Latches) : (s.withLat v).env = s.env := rfl
@[simp] theorem State.withLat_sched (s : State) (v : Latches) : (s.withLat v).sched = s.sched := rfl

/-! The update of `wk`. -/
@[simp] theorem State.withWk_lat (s : State) (v : Work) : (s.withWk v).lat = s.lat := rfl
@[simp] theorem State.withWk_wk (s : State) (v : Work) : (s.withWk v).wk = v := rfl
@[simp] theorem State.withWk_out (s : State) (v : Work) : (s.withWk v).out = s.out := rfl
@[simp] theorem State.withWk_pos (s : State) (v : Work) : (s.withWk v).pos = s.pos := rfl
@[simp] theorem State.withWk_todo (s : State) (v : Work) : (s.withWk v).todo = s.todo := rfl
@[simp] theorem State.withWk_dstat (s : State) (v : Work) : (s.withWk v).dstat = s.dstat := rfl
@[simp] theorem State.withWk_ctype (s : State) (v : Work) : (s.withWk v).ctype = s.ctype := rfl
@[simp] theorem State.withWk_dmast (s : State) (v : Work) : (s.withWk v).dmast = s.dmast := rfl
@[simp] theorem State.withWk_atc (s : State) (v : Work) : (s.withWk v).atc = s.atc := rfl
@[simp] theorem State.withWk_tmr (s : State) (v : Work) : (s.withWk v).tmr = s.tmr := rfl
@[simp] theorem State.withWk_cs (s : State) (v : Work) : (s.withWk v).cs = s.cs := rfl
@[simp] theorem State.withWk_speed (s : State) (v : Work) : (s.withWk v).speed = s.speed := rfl
@[simp] theorem State.withWk_job (s : State) (v : Work) : (s.withWk v).job = s.job := rfl
@[simp] theorem State.withWk_mem (s : State) (v : Work) : (s.withWk v).mem = s.mem := rfl
@[simp] theorem State.withWk_trace (s : State) (v : Work) : (s.withWk v).trace = s.trace := rfl
@[simp] theorem State.withWk_taken (s : State) (v : Work) : (s.withWk v).taken = s.taken := rfl
@[simp] theorem State.withWk_env (s : State) (v : Work) : (s.withWk v).env = s.env := rfl
@[simp] theorem State.withWk_sched (s : State) (v : Work) : (s.withWk v).sched = s.sched := rfl

/-! The update of `out`. -/
@[simp] theorem State.withOut_lat (s : State) (v : Results) : (s.withOut v).lat = s.lat := rfl
@[simp] theorem State.withOut_wk (s : State) (v : Results) : (s.withOut v).wk = s.wk := rfl
@[simp] theorem State.withOut_out (s : State) (v : Results) : (s.withOut v).out = v := rfl
@[simp] theorem State.withOut_pos (s : State) (v : Results) : (s.withOut v).pos = s.pos := rfl
@[simp] theorem State.withOut_todo (s : State) (v : Results) : (s.withOut v).todo = s.todo := rfl
@[simp] theorem State.withOut_dstat (s : State) (v : Results) : (s.withOut v).dstat = s.dstat := rfl
@[simp] theorem State.withOut_ctype (s : State) (v : Results) : (s.withOut v).ctype = s.ctype := rfl
@[simp] theorem State.withOut_dmast (s : State) (v : Results) : (s.withOut v).dmast = s.dmast := rfl
@[simp] theorem State.withOut_atc (s : State) (v : Results) : (s.withOut v).atc = s.atc := rfl
@[simp] theorem State.withOut_tmr (s : State) (v : Results) : (s.withOut v).tmr = s.tmr := rfl
@[simp] theorem State.withOut_cs (s : State) (v : Results) : (s.withOut v).cs = s.cs := rfl
@[simp] theorem State.withOut_speed (s : State) (v : Results) : (s.withOut v).speed = s.speed := rfl
@[simp] theorem State.withOut_job (s : State) (v : Results) : (s.withOut v).job = s.job := rfl
@[simp] theorem State.withOut_mem (s : State) (v : Results) : (s.withOut v).mem = s.mem := rfl
@[simp] theorem State.withOut_trace (s : State) (v : Results) : (s.withOut v).trace = s.trace := rfl
@[simp] theorem State.withOut_taken (s : State) (v : Results) : (s.withOut v).taken = s.taken := rfl
@[simp] theorem State.withOut_env (s : State) (v : Results) : (s.withOut v).env = s.env := rfl
@[simp] theorem State.withOut_sched (s : State) (v : Results) : (s.withOut v).sched = s.sched := rfl

/-! The update of `pos`. -/
@[simp] theorem State.withPos_lat (s : State) (v : Pos) : (s.withPos v).lat = s.lat := rfl
@[simp] theorem State.withPos_wk (s : State) (v : Pos) : (s.withPos v).wk = s.wk := rfl
@[simp] theorem State.withPos_out (s : State) (v : Pos) : (s.withPos v).out = s.out := rfl
@[simp] theorem State.withPos_pos (s : State) (v : Pos) : (s.withPos v).pos = v := rfl
@[simp] theorem State.withPos_todo (s : State) (v : Pos) : (s.withPos v).todo = s.todo := rfl
@[simp] theorem State.withPos_dstat (s : State) (v : Pos) : (s.withPos v).dstat = s.dstat := rfl
@[simp] theorem State.withPos_ctype (s : State) (v : Pos) : (s.withPos v).ctype = s.ctype := rfl
@[simp] theorem State.withPos_dmast (s : State) (v : Pos) : (s.withPos v).dmast = s.dmast := rfl
@[simp] theorem State.withPos_atc (s : State) (v : Pos) : (s.withPos v).atc = s.atc := rfl
@[simp] theorem State.withPos_tmr (s : State) (v : Pos) : (s.withPos v).tmr = s.tmr := rfl
@[simp] theorem State.withPos_cs (s : State) (v : Pos) : (s.withPos v).cs = s.cs := rfl
@[simp] theorem State.withPos_speed (s : State) (v : Pos) : (s.withPos v).speed = s.speed := rfl
@[simp] theorem State.withPos_job (s : State) (v : Pos) : (s.withPos v).job = s.job := rfl
@[simp] theorem State.withPos_mem (s : State) (v : Pos) : (s.withPos v).mem = s.mem := rfl
@[simp] theorem State.withPos_trace (s : State) (v : Pos) : (s.withPos v).trace = s.trace := rfl
@[simp] theorem State.withPos_taken (s : State) (v : Pos) : (s.withPos v).taken = s.taken := rfl
@[simp] theorem State.withPos_env (s : State) (v : Pos) : (s.withPos v).env = s.env := rfl
@[simp] theorem State.withPos_sched (s : State) (v : Pos) : (s.withPos v).sched = s.sched := rfl

/-! The update of `todo`. -/
@[simp] theorem State.withTodo_lat (s : State) (v : List Micro) : (s.withTodo v).lat = s.lat := rfl
@[simp] theorem State.withTodo_wk (s : State) (v : List Micro) : (s.withTodo v).wk = s.wk := rfl
@[simp] theorem State.withTodo_out (s : State) (v : List Micro) : (s.withTodo v).out = s.out := rfl
@[simp] theorem State.withTodo_pos (s : State) (v : List Micro) : (s.withTodo v).pos = s.pos := rfl
@[simp] theorem State.withTodo_todo (s : State) (v : List Micro) : (s.withTodo v).todo = v := rfl
@[simp] theorem State.withTodo_dstat (s : State) (v : List Micro) : (s.withTodo v).dstat = s.dstat := rfl
@[simp] theorem State.withTodo_ctype (s : State) (v : List Micro) : (s.withTodo v).ctype = s.ctype := rfl
@[simp] theorem State.withTodo_dmast (s : State) (v : List Micro) : (s.withTodo v).dmast = s.dmast := rfl
@[simp] theorem State.withTodo_atc (s : State) (v : List Micro) : (s.withTodo v).atc = s.atc := rfl
@[simp] theorem State.withTodo_tmr (s : State) (v : List Micro) : (s.withTodo v).tmr = s.tmr := rfl
@[simp] theorem State.withTodo_cs (s : State) (v : List Micro) : (s.withTodo v).cs = s.cs := rfl
@[simp] theorem State.withTodo_speed (s : State) (v : List Micro) : (s.withTodo v).speed = s.speed := rfl
@[simp] theorem State.withTodo_job (s : State) (v : List Micro) : (s.withTodo v).job = s.job := rfl
@[simp] theorem State.withTodo_mem (s : State) (v : List Micro) : (s.withTodo v).mem = s.mem := rfl
@[simp] theorem State.withTodo_trace (s : State) (v : List Micro) : (s.withTodo v).trace = s.trace := rfl
@[simp] theorem State.withTodo_taken (s : State) (v : List Micro) : (s.withTodo v).taken = s.taken := rfl
@[simp] theorem State.withTodo_env (s : State) (v : List Micro) : (s.withTodo v).env = s.env := rfl
@[simp] theorem State.withTodo_sched (s : State) (v : List Micro) : (s.withTodo v).sched = s.sched := rfl

/-! The update of `dstat`. -/
@[simp] theorem State.withDstat_lat (s : State) (v : DriveStatus) : (s.withDstat v).lat = s.lat := rfl
@[simp] theorem State.withDstat_wk (s : State) (v : DriveStatus) : (s.withDstat v).wk = s.wk := rfl
@[simp] theorem State.withDstat_out (s : State) (v : DriveStatus) : (s.withDstat v).out = s.out := rfl
@[simp] theorem State.withDstat_pos (s : State) (v : DriveStatus) : (s.withDstat v).pos = s.pos := rfl
@[simp] theorem State.withDstat_todo (s : State) (v : DriveStatus) : (s.withDstat v).todo = s.todo := rfl
@[simp] theorem State.withDstat_dstat (s : State) (v : DriveStatus) : (s.withDstat v).dstat = v := rfl
@[simp] theorem State.withDstat_ctype (s : State) (v : DriveStatus) : (s.withDstat v).ctype = s.ctype := rfl
@[simp] theorem State.withDstat_dmast (s : State) (v : DriveStatus) : (s.withDstat v).dmast = s.dmast := rfl
@[simp] theorem State.withDstat_atc (s : State) (v : DriveStatus) : (s.withDstat v).atc = s.atc := rfl
@[simp] theorem State.withDstat_tmr (s : State) (v : DriveStatus) : (s.withDstat v).tmr = s.tmr := rfl
@[simp] theorem State.withDstat_cs (s : State) (v : DriveStatus) : (s.withDstat v).cs = s.cs := rfl
@[simp] theorem State.withDstat_speed (s : State) (v : DriveStatus) : (s.withDstat v).speed = s.speed := rfl
@[simp] theorem State.withDstat_job (s : State) (v : DriveStatus) : (s.withDstat v).job = s.job := rfl
@[simp] theorem State.withDstat_mem (s : State) (v : DriveStatus) : (s.withDstat v).mem = s.mem := rfl
@[simp] theorem State.withDstat_trace (s : State) (v : DriveStatus) : (s.withDstat v).trace = s.trace := rfl
@[simp] theorem State.withDstat_taken (s : State) (v : DriveStatus) : (s.withDstat v).taken = s.taken := rfl
@[simp] theorem State.withDstat_env (s : State) (v : DriveStatus) : (s.withDstat v).env = s.env := rfl
@[simp] theorem State.withDstat_sched (s : State) (v : DriveStatus) : (s.withDstat v).sched = s.sched := rfl

/-! The update of `ctype`. -/
@[simp] theorem State.withCtype_lat (s : State) (v : CardType) : (s.withCtype v).lat = s.lat := rfl
@[simp] theorem State.withCtype_wk (s : State) (v : CardType) : (s.withCtype v).wk = s.wk := rfl
@[simp] theorem State.withCtype_out (s : State) (v : CardType) : (s.withCtype v).out = s.out := rfl
@[simp] theorem State.withCtype_pos (s : State) (v : CardType) : (s.withCtype v).pos = s.pos := rfl
@[simp] theorem State.withCtype_todo (s : State) (v : CardType) : (s.withCtype v).todo = s.todo := rfl
@[simp] theorem State.withCtype_dstat (s : State) (v : CardType) : (s.withCtype v).dstat = s.dstat := rfl
@[simp] theorem State.withCtype_ctype (s : State) (v : CardType) : (s.withCtype v).ctype = v := rfl
@[simp] theorem State.withCtype_dmast (s : State) (v : CardType) : (s.withCtype v).dmast = s.dmast := rfl
@[simp] theorem State.withCtype_atc (s : State) (v : CardType) : (s.withCtype v).atc = s.atc := rfl
@[simp] theorem State.withCtype_tmr (s : State) (v : CardType) : (s.withCtype v).tmr = s.tmr := rfl
@[simp] theorem State.withCtype_cs (s : State) (v : CardType) : (s.withCtype v).cs = s.cs := rfl
@[simp] theorem State.withCtype_speed (s : State) (v : CardType) : (s.withCtype v).speed = s.speed := rfl
@[simp] theorem State.withCtype_job (s : State) (v : CardType) : (s.withCtype v).job = s.job := rfl
@[simp] theorem State.withCtype_mem (s : State) (v : CardType) : (s.withCtype v).mem = s.mem := rfl
@[simp] theorem State.withCtype_trace (s : State) (v : CardType) : (s.withCtype v).trace = s.trace := rfl
@[simp] theorem State.withCtype_taken (s : State) (v : CardType) : (s.withCtype v).taken = s.taken := rfl
@[simp] theorem State.withCtype_env (s : State) (v : CardType) : (s.withCtype v).env = s.env := rfl
@[simp] theorem State.withCtype_sched (s : State) (v : CardType) : (s.withCtype v).sched = s.sched := rfl

/-! The update of `dmast`. -/
@[simp] theorem State.withDmast_lat (s : State) (v : DmaStatus) : (s.withDmast v).lat = s.lat := rfl
@[simp] theorem State.withDmast_wk (s : State) (v : DmaStatus) : (s.withDmast v).wk = s.wk := rfl
@[simp] theorem State.withDmast_out (s : State) (v : DmaStatus) : (s.withDmast v).out = s.out := rfl
@[simp] theorem State.withDmast_pos (s : State) (v : DmaStatus) : (s.withDmast v).pos = s.pos := rfl
@[simp] theorem State.withDmast_todo (s : State) (v : DmaStatus) : (s.withDmast v).todo = s.todo := rfl
@[simp] theorem State.withDmast_dstat (s : State) (v : DmaStatus) : (s.withDmast v).dstat = s.dstat := rfl
@[simp] theorem State.withDmast_ctype (s : State) (v : DmaStatus) : (s.withDmast v).ctype = s.ctype := rfl
@[simp] theorem State.withDmast_dmast (s : State) (v : DmaStatus) : (s.withDmast v).dmast = v := rfl
@[simp] theorem State.withDmast_atc (s : State) (v : DmaStatus) : (s.withDmast v).atc = s.atc := rfl
@[simp] theorem State.withDmast_tmr (s : State) (v : DmaStatus) : (s.withDmast v).tmr = s.tmr := rfl
@[simp] theorem State.withDmast_cs (s : State) (v : DmaStatus) : (s.withDmast v).cs = s.cs := rfl
@[simp] theorem State.withDmast_speed (s : State) (v : DmaStatus) : (s.withDmast v).speed = s.speed := rfl
@[simp] theorem State.withDmast_job (s : State) (v : DmaStatus) : (s.withDmast v).job = s.job := rfl
@[simp] theorem State.withDmast_mem (s : State) (v : DmaStatus) : (s.withDmast v).mem = s.mem := rfl
@[simp] theorem State.withDmast_trace (s : State) (v : DmaStatus) : (s.withDmast v).trace = s.trace := rfl
@[simp] theorem State.withDmast_taken (s : State) (v : DmaStatus) : (s.withDmast v).taken = s.taken := rfl
@[simp] theorem State.withDmast_env (s : State) (v : DmaStatus) : (s.withDmast v).env = s.env := rfl
@[simp] theorem State.withDmast_sched (s : State) (v : DmaStatus) : (s.withDmast v).sched = s.sched := rfl

/-! The update of `atc`. -/
@[simp] theorem State.withAtc_lat (s : State) (v : Context) : (s.withAtc v).lat = s.lat := rfl
@[simp] theorem State.withAtc_wk (s : State) (v : Context) : (s.withAtc v).wk = s.wk := rfl
@[simp] theorem State.withAtc_out (s : State) (v : Context) : (s.withAtc v).out = s.out := rfl
@[simp] theorem State.withAtc_pos (s : State) (v : Context) : (s.withAtc v).pos = s.pos := rfl
@[simp] theorem State.withAtc_todo (s : State) (v : Context) : (s.withAtc v).todo = s.todo := rfl
@[simp] theorem State.withAtc_dstat (s : State) (v : Context) : (s.withAtc v).dstat = s.dstat := rfl
@[simp] theorem State.withAtc_ctype (s : State) (v : Context) : (s.withAtc v).ctype = s.ctype := rfl
@[simp] theorem State.withAtc_dmast (s : State) (v : Context) : (s.withAtc v).dmast = s.dmast := rfl
@[simp] theorem State.withAtc_atc (s : State) (v : Context) : (s.withAtc v).atc = v := rfl
@[simp] theorem State.withAtc_tmr (s : State) (v : Context) : (s.withAtc v).tmr = s.tmr := rfl
@[simp] theorem State.withAtc_cs (s : State) (v : Context) : (s.withAtc v).cs = s.cs := rfl
@[simp] theorem State.withAtc_speed (s : State) (v : Context) : (s.withAtc v).speed = s.speed := rfl
@[simp] theorem State.withAtc_job (s : State) (v : Context) : (s.withAtc v).job = s.job := rfl
@[simp] theorem State.withAtc_mem (s : State) (v : Context) : (s.withAtc v).mem = s.mem := rfl
@[simp] theorem State.withAtc_trace (s : State) (v : Context) : (s.withAtc v).trace = s.trace := rfl
@[simp] theorem State.withAtc_taken (s : State) (v : Context) : (s.withAtc v).taken = s.taken := rfl
@[simp] theorem State.withAtc_env (s : State) (v : Context) : (s.withAtc v).env = s.env := rfl
@[simp] theorem State.withAtc_sched (s : State) (v : Context) : (s.withAtc v).sched = s.sched := rfl

/-! The update of `tmr`. -/
@[simp] theorem State.withTmr_lat (s : State) (v : Timers) : (s.withTmr v).lat = s.lat := rfl
@[simp] theorem State.withTmr_wk (s : State) (v : Timers) : (s.withTmr v).wk = s.wk := rfl
@[simp] theorem State.withTmr_out (s : State) (v : Timers) : (s.withTmr v).out = s.out := rfl
@[simp] theorem State.withTmr_pos (s : State) (v : Timers) : (s.withTmr v).pos = s.pos := rfl
@[simp] theorem State.withTmr_todo (s : State) (v : Timers) : (s.withTmr v).todo = s.todo := rfl
@[simp] theorem State.withTmr_dstat (s : State) (v : Timers) : (s.withTmr v).dstat = s.dstat := rfl
@[simp] theorem State.withTmr_ctype (s : State) (v : Timers) : (s.withTmr v).ctype = s.ctype := rfl
@[simp] theorem State.withTmr_dmast (s : State) (v : Timers) : (s.withTmr v).dmast = s.dmast := rfl
@[simp] theorem State.withTmr_atc (s : State) (v : Timers) : (s.withTmr v).atc = s.atc := rfl
@[simp] theorem State.withTmr_tmr (s : State) (v : Timers) : (s.withTmr v).tmr = v := rfl
@[simp] theorem State.withTmr_cs (s : State) (v : Timers) : (s.withTmr v).cs = s.cs := rfl
@[simp] theorem State.withTmr_speed (s : State) (v : Timers) : (s.withTmr v).speed = s.speed := rfl
@[simp] theorem State.withTmr_job (s : State) (v : Timers) : (s.withTmr v).job = s.job := rfl
@[simp] theorem State.withTmr_mem (s : State) (v : Timers) : (s.withTmr v).mem = s.mem := rfl
@[simp] theorem State.withTmr_trace (s : State) (v : Timers) : (s.withTmr v).trace = s.trace := rfl
@[simp] theorem State.withTmr_taken (s : State) (v : Timers) : (s.withTmr v).taken = s.taken := rfl
@[simp] theorem State.withTmr_env (s : State) (v : Timers) : (s.withTmr v).env = s.env := rfl
@[simp] theorem State.withTmr_sched (s : State) (v : Timers) : (s.withTmr v).sched = s.sched := rfl

/-! The update of `cs`. -/
@[simp] theorem State.withCs_lat (s : State) (v : Bool) : (s.withCs v).lat = s.lat := rfl
@[simp] theorem State.withCs_wk (s : State) (v : Bool) : (s.withCs v).wk = s.wk := rfl
@[simp] theorem State.withCs_out (s : State) (v : Bool) : (s.withCs v).out = s.out := rfl
@[simp] theorem State.withCs_pos (s : State) (v : Bool) : (s.withCs v).pos = s.pos := rfl
@[simp] theorem State.withCs_todo (s : State) (v : Bool) : (s.withCs v).todo = s.todo := rfl
@[simp] theorem State.withCs_dstat (s : State) (v : Bool) : (s.withCs v).dstat = s.dstat := rfl
@[simp] theorem State.withCs_ctype (s : State) (v : Bool) : (s.withCs v).ctype = s.ctype := rfl
@[simp] theorem State.withCs_dmast (s : State) (v : Bool) : (s.withCs v).dmast = s.dmast := rfl
@[simp] theorem State.withCs_atc (s : State) (v : Bool) : (s.withCs v).atc = s.atc := rfl
@[simp] theorem State.withCs_tmr (s : State) (v : Bool) : (s.withCs v).tmr = s.tmr := rfl
@[simp] theorem State.withCs_cs (s : State) (v : Bool) : (s.withCs v).cs = v := rfl
@[simp] theorem State.withCs_speed (s : State) (v : Bool) : (s.withCs v).speed = s.speed := rfl
@[simp] theorem State.withCs_job (s : State) (v : Bool) : (s.withCs v).job = s.job := rfl
@[simp] theorem State.withCs_mem (s : State) (v : Bool) : (s.withCs v).mem = s.mem := rfl
@[simp] theorem State.withCs_trace (s : State) (v : Bool) : (s.withCs v).trace = s.trace := rfl
@[simp] theorem State.withCs_taken (s : State) (v : Bool) : (s.withCs v).taken = s.taken := rfl
@[simp] theorem State.withCs_env (s : State) (v : Bool) : (s.withCs v).env = s.env := rfl
@[simp] theorem State.withCs_sched (s : State) (v : Bool) : (s.withCs v).sched = s.sched := rfl

/-! The update of `speed`. -/
@[simp] theorem State.withSpeed_lat (s : State) (v : Speed) : (s.withSpeed v).lat = s.lat := rfl
@[simp] theorem State.withSpeed_wk (s : State) (v : Speed) : (s.withSpeed v).wk = s.wk := rfl
@[simp] theorem State.withSpeed_out (s : State) (v : Speed) : (s.withSpeed v).out = s.out := rfl
@[simp] theorem State.withSpeed_pos (s : State) (v : Speed) : (s.withSpeed v).pos = s.pos := rfl
@[simp] theorem State.withSpeed_todo (s : State) (v : Speed) : (s.withSpeed v).todo = s.todo := rfl
@[simp] theorem State.withSpeed_dstat (s : State) (v : Speed) : (s.withSpeed v).dstat = s.dstat := rfl
@[simp] theorem State.withSpeed_ctype (s : State) (v : Speed) : (s.withSpeed v).ctype = s.ctype := rfl
@[simp] theorem State.withSpeed_dmast (s : State) (v : Speed) : (s.withSpeed v).dmast = s.dmast := rfl
@[simp] theorem State.withSpeed_atc (s : State) (v : Speed) : (s.withSpeed v).atc = s.atc := rfl
@[simp] theorem State.withSpeed_tmr (s : State) (v : Speed) : (s.withSpeed v).tmr = s.tmr := rfl
@[simp] theorem State.withSpeed_cs (s : State) (v : Speed) : (s.withSpeed v).cs = s.cs := rfl
@[simp] theorem State.withSpeed_speed (s : State) (v : Speed) : (s.withSpeed v).speed = v := rfl
@[simp] theorem State.withSpeed_job (s : State) (v : Speed) : (s.withSpeed v).job = s.job := rfl
@[simp] theorem State.withSpeed_mem (s : State) (v : Speed) : (s.withSpeed v).mem = s.mem := rfl
@[simp] theorem State.withSpeed_trace (s : State) (v : Speed) : (s.withSpeed v).trace = s.trace := rfl
@[simp] theorem State.withSpeed_taken (s : State) (v : Speed) : (s.withSpeed v).taken = s.taken := rfl
@[simp] theorem State.withSpeed_env (s : State) (v : Speed) : (s.withSpeed v).env = s.env := rfl
@[simp] theorem State.withSpeed_sched (s : State) (v : Speed) : (s.withSpeed v).sched = s.sched := rfl

/-! The update of `job`. -/
@[simp] theorem State.withJob_lat (s : State) (v : Option DmaJob) : (s.withJob v).lat = s.lat := rfl
@[simp] theorem State.withJob_wk (s : State) (v : Option DmaJob) : (s.withJob v).wk = s.wk := rfl
@[simp] theorem State.withJob_out (s : State) (v : Option DmaJob) : (s.withJob v).out = s.out := rfl
@[simp] theorem State.withJob_pos (s : State) (v : Option DmaJob) : (s.withJob v).pos = s.pos := rfl
@[simp] theorem State.withJob_todo (s : State) (v : Option DmaJob) : (s.withJob v).todo = s.todo := rfl
@[simp] theorem State.withJob_dstat (s : State) (v : Option DmaJob) : (s.withJob v).dstat = s.dstat := rfl
@[simp] theorem State.withJob_ctype (s : State) (v : Option DmaJob) : (s.withJob v).ctype = s.ctype := rfl
@[simp] theorem State.withJob_dmast (s : State) (v : Option DmaJob) : (s.withJob v).dmast = s.dmast := rfl
@[simp] theorem State.withJob_atc (s : State) (v : Option DmaJob) : (s.withJob v).atc = s.atc := rfl
@[simp] theorem State.withJob_tmr (s : State) (v : Option DmaJob) : (s.withJob v).tmr = s.tmr := rfl
@[simp] theorem State.withJob_cs (s : State) (v : Option DmaJob) : (s.withJob v).cs = s.cs := rfl
@[simp] theorem State.withJob_speed (s : State) (v : Option DmaJob) : (s.withJob v).speed = s.speed := rfl
@[simp] theorem State.withJob_job (s : State) (v : Option DmaJob) : (s.withJob v).job = v := rfl
@[simp] theorem State.withJob_mem (s : State) (v : Option DmaJob) : (s.withJob v).mem = s.mem := rfl
@[simp] theorem State.withJob_trace (s : State) (v : Option DmaJob) : (s.withJob v).trace = s.trace := rfl
@[simp] theorem State.withJob_taken (s : State) (v : Option DmaJob) : (s.withJob v).taken = s.taken := rfl
@[simp] theorem State.withJob_env (s : State) (v : Option DmaJob) : (s.withJob v).env = s.env := rfl
@[simp] theorem State.withJob_sched (s : State) (v : Option DmaJob) : (s.withJob v).sched = s.sched := rfl

/-! The update of `mem`. -/
@[simp] theorem State.withMem_lat (s : State) (v : Memory) : (s.withMem v).lat = s.lat := rfl
@[simp] theorem State.withMem_wk (s : State) (v : Memory) : (s.withMem v).wk = s.wk := rfl
@[simp] theorem State.withMem_out (s : State) (v : Memory) : (s.withMem v).out = s.out := rfl
@[simp] theorem State.withMem_pos (s : State) (v : Memory) : (s.withMem v).pos = s.pos := rfl
@[simp] theorem State.withMem_todo (s : State) (v : Memory) : (s.withMem v).todo = s.todo := rfl
@[simp] theorem State.withMem_dstat (s : State) (v : Memory) : (s.withMem v).dstat = s.dstat := rfl
@[simp] theorem State.withMem_ctype (s : State) (v : Memory) : (s.withMem v).ctype = s.ctype := rfl
@[simp] theorem State.withMem_dmast (s : State) (v : Memory) : (s.withMem v).dmast = s.dmast := rfl
@[simp] theorem State.withMem_atc (s : State) (v : Memory) : (s.withMem v).atc = s.atc := rfl
@[simp] theorem State.withMem_tmr (s : State) (v : Memory) : (s.withMem v).tmr = s.tmr := rfl
@[simp] theorem State.withMem_cs (s : State) (v : Memory) : (s.withMem v).cs = s.cs := rfl
@[simp] theorem State.withMem_speed (s : State) (v : Memory) : (s.withMem v).speed = s.speed := rfl
@[simp] theorem State.withMem_job (s : State) (v : Memory) : (s.withMem v).job = s.job := rfl
@[simp] theorem State.withMem_mem (s : State) (v : Memory) : (s.withMem v).mem = v := rfl
@[simp] theorem State.withMem_trace (s : State) (v : Memory) : (s.withMem v).trace = s.trace := rfl
@[simp] theorem State.withMem_taken (s : State) (v : Memory) : (s.withMem v).taken = s.taken := rfl
@[simp] theorem State.withMem_env (s : State) (v : Memory) : (s.withMem v).env = s.env := rfl
@[simp] theorem State.withMem_sched (s : State) (v : Memory) : (s.withMem v).sched = s.sched := rfl

/-! The update of `trace`. -/
@[simp] theorem State.withTrace_lat (s : State) (v : List WireItem) : (s.withTrace v).lat = s.lat := rfl
@[simp] theorem State.withTrace_wk (s : State) (v : List WireItem) : (s.withTrace v).wk = s.wk := rfl
@[simp] theorem State.withTrace_out (s : State) (v : List WireItem) : (s.withTrace v).out = s.out := rfl
@[simp] theorem State.withTrace_pos (s : State) (v : List WireItem) : (s.withTrace v).pos = s.pos := rfl
@[simp] theorem State.withTrace_todo (s : State) (v : List WireItem) : (s.withTrace v).todo = s.todo := rfl
@[simp] theorem State.withTrace_dstat (s : State) (v : List WireItem) : (s.withTrace v).dstat = s.dstat := rfl
@[simp] theorem State.withTrace_ctype (s : State) (v : List WireItem) : (s.withTrace v).ctype = s.ctype := rfl
@[simp] theorem State.withTrace_dmast (s : State) (v : List WireItem) : (s.withTrace v).dmast = s.dmast := rfl
@[simp] theorem State.withTrace_atc (s : State) (v : List WireItem) : (s.withTrace v).atc = s.atc := rfl
@[simp] theorem State.withTrace_tmr (s : State) (v : List WireItem) : (s.withTrace v).tmr = s.tmr := rfl
@[simp] theorem State.withTrace_cs (s : State) (v : List WireItem) : (s.withTrace v).cs = s.cs := rfl
@[simp] theorem State.withTrace_speed (s : State) (v : List WireItem) : (s.withTrace v).speed = s.speed := rfl
@[simp] theorem State.withTrace_job (s : State) (v : List WireItem) : (s.withTrace v).job = s.job := rfl
@[simp] theorem State.withTrace_mem (s : State) (v : List WireItem) : (s.withTrace v).mem = s.mem := rfl
@[simp] theorem State.withTrace_trace (s : State) (v : List WireItem) : (s.withTrace v).trace = v := rfl
@[simp] theorem State.withTrace_taken (s : State) (v : List WireItem) : (s.withTrace v).taken = s.taken := rfl
@[simp] theorem State.withTrace_env (s : State) (v : List WireItem) : (s.withTrace v).env = s.env := rfl
@[simp] theorem State.withTrace_sched (s : State) (v : List WireItem) : (s.withTrace v).sched = s.sched := rfl

/-! The update of `taken`. -/
@[simp] theorem State.withTaken_lat (s : State) (v : List Taken) : (s.withTaken v).lat = s.lat := rfl
@[simp] theorem State.withTaken_wk (s : State) (v : List Taken) : (s.withTaken v).wk = s.wk := rfl
@[simp] theorem State.withTaken_out (s : State) (v : List Taken) : (s.withTaken v).out = s.out := rfl
@[simp] theorem State.withTaken_pos (s : State) (v : List Taken) : (s.withTaken v).pos = s.pos := rfl
@[simp] theorem State.withTaken_todo (s : State) (v : List Taken) : (s.withTaken v).todo = s.todo := rfl
@[simp] theorem State.withTaken_dstat (s : State) (v : List Taken) : (s.withTaken v).dstat = s.dstat := rfl
@[simp] theorem State.withTaken_ctype (s : State) (v : List Taken) : (s.withTaken v).ctype = s.ctype := rfl
@[simp] theorem State.withTaken_dmast (s : State) (v : List Taken) : (s.withTaken v).dmast = s.dmast := rfl
@[simp] theorem State.withTaken_atc (s : State) (v : List Taken) : (s.withTaken v).atc = s.atc := rfl
@[simp] theorem State.withTaken_tmr (s : State) (v : List Taken) : (s.withTaken v).tmr = s.tmr := rfl
@[simp] theorem State.withTaken_cs (s : State) (v : List Taken) : (s.withTaken v).cs = s.cs := rfl
@[simp] theorem State.withTaken_speed (s : State) (v : List Taken) : (s.withTaken v).speed = s.speed := rfl
@[simp] theorem State.withTaken_job (s : State) (v : List Taken) : (s.withTaken v).job = s.job := rfl
@[simp] theorem State.withTaken_mem (s : State) (v : List Taken) : (s.withTaken v).mem = s.mem := rfl
@[simp] theorem State.withTaken_trace (s : State) (v : List Taken) : (s.withTaken v).trace = s.trace := rfl
@[simp] theorem State.withTaken_taken (s : State) (v : List Taken) : (s.withTaken v).taken = v := rfl
@[simp] theorem State.withTaken_env (s : State) (v : List Taken) : (s.withTaken v).env = s.env := rfl
@[simp] theorem State.withTaken_sched (s : State) (v : List Taken) : (s.withTaken v).sched = s.sched := rfl

/-! The update of `env`. -/
@[simp] theorem State.withEnv_lat (s : State) (v : Outside) : (s.withEnv v).lat = s.lat := rfl
@[simp] theorem State.withEnv_wk (s : State) (v : Outside) : (s.withEnv v).wk = s.wk := rfl
@[simp] theorem State.withEnv_out (s : State) (v : Outside) : (s.withEnv v).out = s.out := rfl
@[simp] theorem State.withEnv_pos (s : State) (v : Outside) : (s.withEnv v).pos = s.pos := rfl
@[simp] theorem State.withEnv_todo (s : State) (v : Outside) : (s.withEnv v).todo = s.todo := rfl
@[simp] theorem State.withEnv_dstat (s : State) (v : Outside) : (s.withEnv v).dstat = s.dstat := rfl
@[simp] theorem State.withEnv_ctype (s : State) (v : Outside) : (s.withEnv v).ctype = s.ctype := rfl
@[simp] theorem State.withEnv_dmast (s : State) (v : Outside) : (s.withEnv v).dmast = s.dmast := rfl
@[simp] theorem State.withEnv_atc (s : State) (v : Outside) : (s.withEnv v).atc = s.atc := rfl
@[simp] theorem State.withEnv_tmr (s : State) (v : Outside) : (s.withEnv v).tmr = s.tmr := rfl
@[simp] theorem State.withEnv_cs (s : State) (v : Outside) : (s.withEnv v).cs = s.cs := rfl
@[simp] theorem State.withEnv_speed (s : State) (v : Outside) : (s.withEnv v).speed = s.speed := rfl
@[simp] theorem State.withEnv_job (s : State) (v : Outside) : (s.withEnv v).job = s.job := rfl
@[simp] theorem State.withEnv_mem (s : State) (v : Outside) : (s.withEnv v).mem = s.mem := rfl
@[simp] theorem State.withEnv_trace (s : State) (v : Outside) : (s.withEnv v).trace = s.trace := rfl
@[simp] theorem State.withEnv_taken (s : State) (v : Outside) : (s.withEnv v).taken = s.taken := rfl
@[simp] theorem State.withEnv_env (s : State) (v : Outside) : (s.withEnv v).env = v := rfl
@[simp] theorem State.withEnv_sched (s : State) (v : Outside) : (s.withEnv v).sched = s.sched := rfl

/-! The update of `sched`. -/
@[simp] theorem State.withSched_lat (s : State) (v : List Turn) : (s.withSched v).lat = s.lat := rfl
@[simp] theorem State.withSched_wk (s : State) (v : List Turn) : (s.withSched v).wk = s.wk := rfl
@[simp] theorem State.withSched_out (s : State) (v : List Turn) : (s.withSched v).out = s.out := rfl
@[simp] theorem State.withSched_pos (s : State) (v : List Turn) : (s.withSched v).pos = s.pos := rfl
@[simp] theorem State.withSched_todo (s : State) (v : List Turn) : (s.withSched v).todo = s.todo := rfl
@[simp] theorem State.withSched_dstat (s : State) (v : List Turn) : (s.withSched v).dstat = s.dstat := rfl
@[simp] theorem State.withSched_ctype (s : State) (v : List Turn) : (s.withSched v).ctype = s.ctype := rfl
@[simp] theorem State.withSched_dmast (s : State) (v : List Turn) : (s.withSched v).dmast = s.dmast := rfl
@[simp] theorem State.withSched_atc (s : State) (v : List Turn) : (s.withSched v).atc = s.atc := rfl
@[simp] theorem State.withSched_tmr (s : State) (v : List Turn) : (s.withSched v).tmr = s.tmr := rfl
@[simp] theorem State.withSched_cs (s : State) (v : List Turn) : (s.withSched v).cs = s.cs := rfl
@[simp] theorem State.withSched_speed (s : State) (v : List Turn) : (s.withSched v).speed = s.speed := rfl
@[simp] theorem State.withSched_job (s : State) (v : List Turn) : (s.withSched v).job = s.job := rfl
@[simp] theorem State.withSched_mem (s : State) (v : List Turn) : (s.withSched v).mem = s.mem := rfl
@[simp] theorem State.withSched_trace (s : State) (v : List Turn) : (s.withSched v).trace = s.trace := rfl
@[simp] theorem State.withSched_taken (s : State) (v : List Turn) : (s.withSched v).taken = s.taken := rfl
@[simp] theorem State.withSched_env (s : State) (v : List Turn) : (s.withSched v).env = s.env := rfl
@[simp] theorem State.withSched_sched (s : State) (v : List Turn) : (s.withSched v).sched = v := rfl

end Sys2Proof.Machine
end

