-- ==== Sys2Proof/Laws/Memory.lean ====
section
/-! SUPPORT. Laws/Memory.lean: host buffer memory: a read after a write, and the canonical form, which every write keeps
(Machine/Ops.lean; 20_memory.md R62, R63). -/

namespace Sys2Proof.Machine

/-- Below the first listed address every byte is unlisted. -/
theorem memRead_below (m : Memory) : ∀ lo a, Memory.wfFrom lo m = true → a < lo → memRead m a = unlistedByte := by
  induction m with
  | nil => intro lo a _ _; rfl
  | cons c m ih =>
    obtain ⟨b, w⟩ := c
    intro lo a h hlt
    simp only [Memory.wfFrom, Bool.and_eq_true, decide_eq_true_eq] at h
    simp only [memRead]
    rw [if_neg (by omega)]
    exact ih (b + 1) a h.2 (by omega)

/-- The byte just written is read back. -/
theorem memRead_memWrite_same (m : Memory) : ∀ lo a v, Memory.wfFrom lo m = true → memRead (memWrite m a v) a = v := by
  induction m with
  | nil => intro lo a v _; simp only [memWrite]; split <;> simp_all [memRead]
  | cons c m ih =>
    obtain ⟨b, w⟩ := c
    intro lo a v h
    simp only [Memory.wfFrom, Bool.and_eq_true, decide_eq_true_eq] at h
    simp only [memWrite]
    split
    · split
      · next h1 h2 =>
        simp only [memRead]; rw [if_neg (by omega), memRead_below m (b + 1) a h.2 (by omega), h2]
      · simp [memRead]
    · split
      · next h1 h2 =>
        split
        · next h3 => rw [memRead_below m (b + 1) a h.2 (by omega), h3]
        · simp [memRead]
      · next h1 h2 =>
        simp only [memRead]; rw [if_neg h2]; exact ih (b + 1) a v h.2

/-- A write leaves every other address alone. -/
theorem memRead_memWrite_other (m : Memory) : ∀ lo a c v, Memory.wfFrom lo m = true → c ≠ a →
    memRead (memWrite m a v) c = memRead m c := by
  induction m with
  | nil => intro lo a c v _ hc; simp only [memWrite]; split <;> simp [memRead, hc]
  | cons e m ih =>
    obtain ⟨b, w⟩ := e
    intro lo a c v h hc
    simp only [Memory.wfFrom, Bool.and_eq_true, decide_eq_true_eq] at h
    simp only [memWrite]
    split
    · split
      · rfl
      · simp [memRead, hc]
    · split
      · next h1 h2 =>
        subst h2
        split
        · simp [memRead, hc]
        · simp [memRead, hc]
      · simp only [memRead]; split
        · rfl
        · exact ih (b + 1) a c v h.2 hc

/-- A write keeps the canonical form, from any bound up to the address. -/
theorem memWrite_wfFrom (m : Memory) : ∀ lo a v, Memory.wfFrom lo m = true → lo ≤ a → a < 2 ^ 32 →
    Memory.wfFrom lo (memWrite m a v) = true := by
  induction m with
  | nil =>
    intro lo a v _ h1 h2
    simp only [memWrite]; split
    · rfl
    · next hv => simp only [Memory.wfFrom, Bool.and_eq_true, decide_eq_true_eq]; exact ⟨⟨⟨h1, h2⟩, hv⟩, trivial⟩
  | cons e m ih =>
    obtain ⟨b, w⟩ := e
    intro lo a v h h1 h2
    have h' := h
    simp only [Memory.wfFrom, Bool.and_eq_true, decide_eq_true_eq] at h
    simp only [memWrite]
    split
    · next hab =>
      split
      · exact h'
      · next hv =>
        simp only [Memory.wfFrom, Bool.and_eq_true, decide_eq_true_eq]
        exact ⟨⟨⟨h1, h2⟩, hv⟩, ⟨⟨by omega, h.1.1.2⟩, h.1.2⟩, h.2⟩
    · split
      · next h3 h4 =>
        split
        · exact wfFrom_mono m (b + 1) lo h.2 (by omega)
        · next hv =>
          subst h4
          simp only [Memory.wfFrom, Bool.and_eq_true, decide_eq_true_eq]
          exact ⟨⟨⟨h1, h2⟩, hv⟩, h.2⟩
      · next h3 h4 =>
        simp only [Memory.wfFrom, Bool.and_eq_true, decide_eq_true_eq]
        exact ⟨h.1, ih (b + 1) a v h.2 (by omega) h2⟩
where
  wfFrom_mono (m : Memory) (hi lo : Nat) (h : Memory.wfFrom hi m = true) (hle : lo ≤ hi) : Memory.wfFrom lo m = true := by
    cases m with
    | nil => rfl
    | cons e m =>
      obtain ⟨b, w⟩ := e
      simp only [Memory.wfFrom, Bool.and_eq_true, decide_eq_true_eq] at h ⊢
      exact ⟨⟨⟨by omega, h.1.1.2⟩, h.1.2⟩, h.2⟩

/-- A buffer address is an address of the 32-bit space. -/
theorem bufferAddr_lt (base : Word) (off : Nat) : bufferAddr base off < 2 ^ 32 := BitVec.isLt _

/-- A byte stored at a buffer address keeps the canonical form. -/
theorem writeByte_wf (s : State) (a : Nat) (v : Byte) (ha : a < 2 ^ 32) (h : Memory.wf s.mem = true) :
    Memory.wf (s.writeByte a v).mem = true := memWrite_wfFrom s.mem 0 a v h (Nat.zero_le a) ha

/-- What is read at any address after a byte is stored. -/
theorem readByte_writeByte (s : State) (a c : Nat) (v : Byte) (h : Memory.wf s.mem = true) :
    (s.writeByte a v).readByte c = if c = a then v else s.readByte c := by
  show memRead (memWrite s.mem a v) c = _
  split
  · next e => rw [e]; exact memRead_memWrite_same s.mem 0 a v h
  · next e => exact memRead_memWrite_other s.mem 0 a c v h e

/-- A buffer address in numbers (20_memory.md R63 (b)). -/
theorem bufferAddr_eq (b : Word) (k : Nat) : bufferAddr b k = (b.toNat + k) % 2 ^ 32 := by
  unfold bufferAddr; rw [BitVec.toNat_add, BitVec.toNat_ofNat]; omega

theorem memWrite_wf {m : Memory} (h : Memory.wf m = true) (b : Word) (k : Nat) (v : Byte) :
    Memory.wf (memWrite m (bufferAddr b k) v) = true := memWrite_wfFrom _ _ _ _ h (Nat.zero_le _) (bufferAddr_lt _ _)

theorem memRead_memWrite {m : Memory} (h : Memory.wf m = true) (a c : Nat) (v : Byte) :
    memRead (memWrite m a v) c = if c = a then v else memRead m c := by
  by_cases e : c = a
  · subst e; rw [if_pos rfl]; exact memRead_memWrite_same _ _ _ _ h
  · rw [if_neg e]; exact memRead_memWrite_other _ _ _ _ _ h e

theorem storeBytes_wf (b : Word) (l : List Byte) : ∀ i m, Memory.wf m = true → Memory.wf (storeBytes b i l m) = true := by
  induction l with
  | nil => intro i m h; exact h
  | cons x l ih => intro i m h; exact ih _ _ (memWrite_wf h b i x)

/-- Bytes outside the stored ones are as before. -/
theorem storeBytes_outside (b : Word) (l : List Byte) : ∀ i m a, Memory.wf m = true →
    (∀ k, i ≤ k → k < i + l.length → a ≠ (b.toNat + k) % 2 ^ 32) → memRead (storeBytes b i l m) a = memRead m a := by
  induction l with
  | nil => intro i m a h _; rfl
  | cons x l ih =>
    intro i m a h ha
    rw [List.length_cons] at ha
    rw [storeBytes, ih _ _ _ (memWrite_wf h b i x) (fun k h1 h2 => ha k (by omega) (by omega)), memRead_memWrite h, if_neg]
    rw [bufferAddr_eq]; exact ha i (Nat.le_refl _) (by omega)

/-- A stored byte is read back. -/
theorem storeBytes_inside (b : Word) (l : List Byte) : ∀ i m k v, Memory.wf m = true → i + l.length ≤ 2 ^ 32 → l[k]? = some v →
    memRead (storeBytes b i l m) ((b.toNat + (i + k)) % 2 ^ 32) = v := by
  induction l with
  | nil => intro i m k v _ _ h; simp at h
  | cons x l ih =>
    intro i m k v h hl hk
    rw [List.length_cons] at hl
    have hw := memWrite_wf h b i x
    cases k with
    | zero =>
      rw [storeBytes, storeBytes_outside b l _ _ _ hw, memRead_memWrite h, if_pos (by rw [bufferAddr_eq]; rfl)]
      · simpa using hk
      · intro k h1 h2
        have := b.isLt
        omega
    | succ k =>
      rw [storeBytes]
      have := ih (i + 1) _ k v hw (by omega) (by simpa using hk)
      rwa [show i + 1 + k = i + (k + 1) by omega] at this

end Sys2Proof.Machine
end

