-- ==== Sys2Proof/Laws/Micro.lean ====
section
/-! SUPPORT. Laws/Micro.lean: what a step inside a micro-operation leaves alone (Machine/Packet.lean, Machine/Command.lean): the
control registers, the latches, the place in the host operation, and what it pushes before the rest of PHASE. -/

namespace Sys2Proof.Machine

/-! ### `received` -/

@[simp] theorem received_lat (x : Exchange) (rx : Byte) (s : State) : (received x rx s).lat = s.lat := by
  cases x <;> simp only [received, readyByte, tokenByte, pollByte, trailByte, dataByte, storeData, State.storeAt, dataSent, responseByte, State.returnFlag, State.push] <;> (repeat' split) <;> rfl
@[simp] theorem received_out (x : Exchange) (rx : Byte) (s : State) : (received x rx s).out = s.out := by
  cases x <;> simp only [received, readyByte, tokenByte, pollByte, trailByte, dataByte, storeData, State.storeAt, dataSent, responseByte, State.returnFlag, State.push] <;> (repeat' split) <;> rfl
@[simp] theorem received_pos (x : Exchange) (rx : Byte) (s : State) : (received x rx s).pos = s.pos := by
  cases x <;> simp only [received, readyByte, tokenByte, pollByte, trailByte, dataByte, storeData, State.storeAt, dataSent, responseByte, State.returnFlag, State.push] <;> (repeat' split) <;> rfl
@[simp] theorem received_dstat (x : Exchange) (rx : Byte) (s : State) : (received x rx s).dstat = s.dstat := by
  cases x <;> simp only [received, readyByte, tokenByte, pollByte, trailByte, dataByte, storeData, State.storeAt, dataSent, responseByte, State.returnFlag, State.push] <;> (repeat' split) <;> rfl
@[simp] theorem received_ctype (x : Exchange) (rx : Byte) (s : State) : (received x rx s).ctype = s.ctype := by
  cases x <;> simp only [received, readyByte, tokenByte, pollByte, trailByte, dataByte, storeData, State.storeAt, dataSent, responseByte, State.returnFlag, State.push] <;> (repeat' split) <;> rfl
@[simp] theorem received_dmast (x : Exchange) (rx : Byte) (s : State) : (received x rx s).dmast = s.dmast := by
  cases x <;> simp only [received, readyByte, tokenByte, pollByte, trailByte, dataByte, storeData, State.storeAt, dataSent, responseByte, State.returnFlag, State.push] <;> (repeat' split) <;> rfl
@[simp] theorem received_atc (x : Exchange) (rx : Byte) (s : State) : (received x rx s).atc = s.atc := by
  cases x <;> simp only [received, readyByte, tokenByte, pollByte, trailByte, dataByte, storeData, State.storeAt, dataSent, responseByte, State.returnFlag, State.push] <;> (repeat' split) <;> rfl
@[simp] theorem received_job (x : Exchange) (rx : Byte) (s : State) : (received x rx s).job = s.job := by
  cases x <;> simp only [received, readyByte, tokenByte, pollByte, trailByte, dataByte, storeData, State.storeAt, dataSent, responseByte, State.returnFlag, State.push] <;> (repeat' split) <;> rfl
@[simp] theorem received_taken (x : Exchange) (rx : Byte) (s : State) : (received x rx s).taken = s.taken := by
  cases x <;> simp only [received, readyByte, tokenByte, pollByte, trailByte, dataByte, storeData, State.storeAt, dataSent, responseByte, State.returnFlag, State.push] <;> (repeat' split) <;> rfl
@[simp] theorem received_sched (x : Exchange) (rx : Byte) (s : State) : (received x rx s).sched = s.sched := by
  cases x <;> simp only [received, readyByte, tokenByte, pollByte, trailByte, dataByte, storeData, State.storeAt, dataSent, responseByte, State.returnFlag, State.push] <;> (repeat' split) <;> rfl
@[simp] theorem received_cs (x : Exchange) (rx : Byte) (s : State) : (received x rx s).cs = s.cs := by
  cases x <;> simp only [received, readyByte, tokenByte, pollByte, trailByte, dataByte, storeData, State.storeAt, dataSent, responseByte, State.returnFlag, State.push] <;> (repeat' split) <;> rfl
@[simp] theorem received_speed (x : Exchange) (rx : Byte) (s : State) : (received x rx s).speed = s.speed := by
  cases x <;> simp only [received, readyByte, tokenByte, pollByte, trailByte, dataByte, storeData, State.storeAt, dataSent, responseByte, State.returnFlag, State.push] <;> (repeat' split) <;> rfl
@[simp] theorem received_tmr (x : Exchange) (rx : Byte) (s : State) : (received x rx s).tmr = s.tmr := by
  cases x <;> simp only [received, readyByte, tokenByte, pollByte, trailByte, dataByte, storeData, State.storeAt, dataSent, responseByte, State.returnFlag, State.push] <;> (repeat' split) <;> rfl
@[simp] theorem received_mem (x : Exchange) (rx : Byte) (s : State) : (received x rx s).mem = s.mem := by
  cases x <;> simp only [received, readyByte, tokenByte, pollByte, trailByte, dataByte, storeData, State.storeAt, dataSent, responseByte, State.returnFlag, State.push] <;> (repeat' split) <;> rfl
@[simp] theorem received_trace (x : Exchange) (rx : Byte) (s : State) : (received x rx s).trace = s.trace := by
  cases x <;> simp only [received, readyByte, tokenByte, pollByte, trailByte, dataByte, storeData, State.storeAt, dataSent, responseByte, State.returnFlag, State.push] <;> (repeat' split) <;> rfl
@[simp] theorem received_env (x : Exchange) (rx : Byte) (s : State) : (received x rx s).env = s.env := by
  cases x <;> simp only [received, readyByte, tokenByte, pollByte, trailByte, dataByte, storeData, State.storeAt, dataSent, responseByte, State.returnFlag, State.push] <;> (repeat' split) <;> rfl
@[simp] theorem received_ty (x : Exchange) (rx : Byte) (s : State) : (received x rx s).wk.ty = s.wk.ty := by
  cases x <;> simp only [received, readyByte, tokenByte, pollByte, trailByte, dataByte, storeData, State.storeAt, dataSent, responseByte, State.returnFlag, State.push] <;> (repeat' split) <;> rfl
@[simp] theorem received_icmd (x : Exchange) (rx : Byte) (s : State) : (received x rx s).wk.icmd = s.wk.icmd := by
  cases x <;> simp only [received, readyByte, tokenByte, pollByte, trailByte, dataByte, storeData, State.storeAt, dataSent, responseByte, State.returnFlag, State.push] <;> (repeat' split) <;> rfl
@[simp] theorem received_okf (x : Exchange) (rx : Byte) (s : State) : (received x rx s).wk.okf = s.wk.okf := by
  cases x <;> simp only [received, readyByte, tokenByte, pollByte, trailByte, dataByte, storeData, State.storeAt, dataSent, responseByte, State.returnFlag, State.push] <;> (repeat' split) <;> rfl
@[simp] theorem received_pst (x : Exchange) (rx : Byte) (s : State) : (received x rx s).wk.pst = s.wk.pst := by
  cases x <;> simp only [received, readyByte, tokenByte, pollByte, trailByte, dataByte, storeData, State.storeAt, dataSent, responseByte, State.returnFlag, State.push] <;> (repeat' split) <;> rfl
@[simp] theorem received_addr (x : Exchange) (rx : Byte) (s : State) : (received x rx s).wk.addr = s.wk.addr := by
  cases x <;> simp only [received, readyByte, tokenByte, pollByte, trailByte, dataByte, storeData, State.storeAt, dataSent, responseByte, State.returnFlag, State.push] <;> (repeat' split) <;> rfl

/-! ### `doLocal` -/

@[simp] theorem doLocal_lat (l : Local) (s : State) : (doLocal l s).lat = s.lat := by
  cases l <;> simp only [doLocal, readyTimer, tokenTimer, storeData, loadData, State.storeAt, State.writeByte, State.writeCs, State.writeSpeed, State.armTimer, State.returnFlag, State.push, State.log] <;> (repeat' split) <;> rfl
@[simp] theorem doLocal_out (l : Local) (s : State) : (doLocal l s).out = s.out := by
  cases l <;> simp only [doLocal, readyTimer, tokenTimer, storeData, loadData, State.storeAt, State.writeByte, State.writeCs, State.writeSpeed, State.armTimer, State.returnFlag, State.push, State.log] <;> (repeat' split) <;> rfl
@[simp] theorem doLocal_pos (l : Local) (s : State) : (doLocal l s).pos = s.pos := by
  cases l <;> simp only [doLocal, readyTimer, tokenTimer, storeData, loadData, State.storeAt, State.writeByte, State.writeCs, State.writeSpeed, State.armTimer, State.returnFlag, State.push, State.log] <;> (repeat' split) <;> rfl
@[simp] theorem doLocal_dstat (l : Local) (s : State) : (doLocal l s).dstat = s.dstat := by
  cases l <;> simp only [doLocal, readyTimer, tokenTimer, storeData, loadData, State.storeAt, State.writeByte, State.writeCs, State.writeSpeed, State.armTimer, State.returnFlag, State.push, State.log] <;> (repeat' split) <;> rfl
@[simp] theorem doLocal_ctype (l : Local) (s : State) : (doLocal l s).ctype = s.ctype := by
  cases l <;> simp only [doLocal, readyTimer, tokenTimer, storeData, loadData, State.storeAt, State.writeByte, State.writeCs, State.writeSpeed, State.armTimer, State.returnFlag, State.push, State.log] <;> (repeat' split) <;> rfl
@[simp] theorem doLocal_dmast (l : Local) (s : State) : (doLocal l s).dmast = s.dmast := by
  cases l <;> simp only [doLocal, readyTimer, tokenTimer, storeData, loadData, State.storeAt, State.writeByte, State.writeCs, State.writeSpeed, State.armTimer, State.returnFlag, State.push, State.log] <;> (repeat' split) <;> rfl
@[simp] theorem doLocal_atc (l : Local) (s : State) : (doLocal l s).atc = s.atc := by
  cases l <;> simp only [doLocal, readyTimer, tokenTimer, storeData, loadData, State.storeAt, State.writeByte, State.writeCs, State.writeSpeed, State.armTimer, State.returnFlag, State.push, State.log] <;> (repeat' split) <;> rfl
@[simp] theorem doLocal_job (l : Local) (s : State) : (doLocal l s).job = s.job := by
  cases l <;> simp only [doLocal, readyTimer, tokenTimer, storeData, loadData, State.storeAt, State.writeByte, State.writeCs, State.writeSpeed, State.armTimer, State.returnFlag, State.push, State.log] <;> (repeat' split) <;> rfl
@[simp] theorem doLocal_taken (l : Local) (s : State) : (doLocal l s).taken = s.taken := by
  cases l <;> simp only [doLocal, readyTimer, tokenTimer, storeData, loadData, State.storeAt, State.writeByte, State.writeCs, State.writeSpeed, State.armTimer, State.returnFlag, State.push, State.log] <;> (repeat' split) <;> rfl
@[simp] theorem doLocal_sched (l : Local) (s : State) : (doLocal l s).sched = s.sched := by
  cases l <;> simp only [doLocal, readyTimer, tokenTimer, storeData, loadData, State.storeAt, State.writeByte, State.writeCs, State.writeSpeed, State.armTimer, State.returnFlag, State.push, State.log] <;> (repeat' split) <;> rfl
@[simp] theorem doLocal_env (l : Local) (s : State) : (doLocal l s).env = s.env := by
  cases l <;> simp only [doLocal, readyTimer, tokenTimer, storeData, loadData, State.storeAt, State.writeByte, State.writeCs, State.writeSpeed, State.armTimer, State.returnFlag, State.push, State.log] <;> (repeat' split) <;> rfl
@[simp] theorem doLocal_ty (l : Local) (s : State) : (doLocal l s).wk.ty = s.wk.ty := by
  cases l <;> simp only [doLocal, readyTimer, tokenTimer, storeData, loadData, State.storeAt, State.writeByte, State.writeCs, State.writeSpeed, State.armTimer, State.returnFlag, State.push, State.log] <;> (repeat' split) <;> rfl
@[simp] theorem doLocal_icmd (l : Local) (s : State) : (doLocal l s).wk.icmd = s.wk.icmd := by
  cases l <;> simp only [doLocal, readyTimer, tokenTimer, storeData, loadData, State.storeAt, State.writeByte, State.writeCs, State.writeSpeed, State.armTimer, State.returnFlag, State.push, State.log] <;> (repeat' split) <;> rfl
@[simp] theorem doLocal_okf (l : Local) (s : State) : (doLocal l s).wk.okf = s.wk.okf := by
  cases l <;> simp only [doLocal, readyTimer, tokenTimer, storeData, loadData, State.storeAt, State.writeByte, State.writeCs, State.writeSpeed, State.armTimer, State.returnFlag, State.push, State.log] <;> (repeat' split) <;> rfl
@[simp] theorem doLocal_pst (l : Local) (s : State) : (doLocal l s).wk.pst = s.wk.pst := by
  cases l <;> simp only [doLocal, readyTimer, tokenTimer, storeData, loadData, State.storeAt, State.writeByte, State.writeCs, State.writeSpeed, State.armTimer, State.returnFlag, State.push, State.log] <;> (repeat' split) <;> rfl
@[simp] theorem doLocal_addr (l : Local) (s : State) : (doLocal l s).wk.addr = s.wk.addr := by
  cases l <;> simp only [doLocal, readyTimer, tokenTimer, storeData, loadData, State.storeAt, State.writeByte, State.writeCs, State.writeSpeed, State.armTimer, State.returnFlag, State.push, State.log] <;> (repeat' split) <;> rfl

/-! ### `doJoin` -/

@[simp] theorem doJoin_lat (j : Join) (s : State) : (doJoin j s).lat = s.lat := by
  cases j <;> simp only [doJoin, afterSelect, noResponse, afterPrefix, startPoll, afterToken, afterReady, State.returnFlag, State.push] <;> (repeat' split) <;> rfl
@[simp] theorem doJoin_out (j : Join) (s : State) : (doJoin j s).out = s.out := by
  cases j <;> simp only [doJoin, afterSelect, noResponse, afterPrefix, startPoll, afterToken, afterReady, State.returnFlag, State.push] <;> (repeat' split) <;> rfl
@[simp] theorem doJoin_pos (j : Join) (s : State) : (doJoin j s).pos = s.pos := by
  cases j <;> simp only [doJoin, afterSelect, noResponse, afterPrefix, startPoll, afterToken, afterReady, State.returnFlag, State.push] <;> (repeat' split) <;> rfl
@[simp] theorem doJoin_dstat (j : Join) (s : State) : (doJoin j s).dstat = s.dstat := by
  cases j <;> simp only [doJoin, afterSelect, noResponse, afterPrefix, startPoll, afterToken, afterReady, State.returnFlag, State.push] <;> (repeat' split) <;> rfl
@[simp] theorem doJoin_ctype (j : Join) (s : State) : (doJoin j s).ctype = s.ctype := by
  cases j <;> simp only [doJoin, afterSelect, noResponse, afterPrefix, startPoll, afterToken, afterReady, State.returnFlag, State.push] <;> (repeat' split) <;> rfl
@[simp] theorem doJoin_dmast (j : Join) (s : State) : (doJoin j s).dmast = s.dmast := by
  cases j <;> simp only [doJoin, afterSelect, noResponse, afterPrefix, startPoll, afterToken, afterReady, State.returnFlag, State.push] <;> (repeat' split) <;> rfl
@[simp] theorem doJoin_atc (j : Join) (s : State) : (doJoin j s).atc = s.atc := by
  cases j <;> simp only [doJoin, afterSelect, noResponse, afterPrefix, startPoll, afterToken, afterReady, State.returnFlag, State.push] <;> (repeat' split) <;> rfl
@[simp] theorem doJoin_job (j : Join) (s : State) : (doJoin j s).job = s.job := by
  cases j <;> simp only [doJoin, afterSelect, noResponse, afterPrefix, startPoll, afterToken, afterReady, State.returnFlag, State.push] <;> (repeat' split) <;> rfl
@[simp] theorem doJoin_taken (j : Join) (s : State) : (doJoin j s).taken = s.taken := by
  cases j <;> simp only [doJoin, afterSelect, noResponse, afterPrefix, startPoll, afterToken, afterReady, State.returnFlag, State.push] <;> (repeat' split) <;> rfl
@[simp] theorem doJoin_sched (j : Join) (s : State) : (doJoin j s).sched = s.sched := by
  cases j <;> simp only [doJoin, afterSelect, noResponse, afterPrefix, startPoll, afterToken, afterReady, State.returnFlag, State.push] <;> (repeat' split) <;> rfl
@[simp] theorem doJoin_cs (j : Join) (s : State) : (doJoin j s).cs = s.cs := by
  cases j <;> simp only [doJoin, afterSelect, noResponse, afterPrefix, startPoll, afterToken, afterReady, State.returnFlag, State.push] <;> (repeat' split) <;> rfl
@[simp] theorem doJoin_speed (j : Join) (s : State) : (doJoin j s).speed = s.speed := by
  cases j <;> simp only [doJoin, afterSelect, noResponse, afterPrefix, startPoll, afterToken, afterReady, State.returnFlag, State.push] <;> (repeat' split) <;> rfl
@[simp] theorem doJoin_tmr (j : Join) (s : State) : (doJoin j s).tmr = s.tmr := by
  cases j <;> simp only [doJoin, afterSelect, noResponse, afterPrefix, startPoll, afterToken, afterReady, State.returnFlag, State.push] <;> (repeat' split) <;> rfl
@[simp] theorem doJoin_mem (j : Join) (s : State) : (doJoin j s).mem = s.mem := by
  cases j <;> simp only [doJoin, afterSelect, noResponse, afterPrefix, startPoll, afterToken, afterReady, State.returnFlag, State.push] <;> (repeat' split) <;> rfl
@[simp] theorem doJoin_trace (j : Join) (s : State) : (doJoin j s).trace = s.trace := by
  cases j <;> simp only [doJoin, afterSelect, noResponse, afterPrefix, startPoll, afterToken, afterReady, State.returnFlag, State.push] <;> (repeat' split) <;> rfl
@[simp] theorem doJoin_env (j : Join) (s : State) : (doJoin j s).env = s.env := by
  cases j <;> simp only [doJoin, afterSelect, noResponse, afterPrefix, startPoll, afterToken, afterReady, State.returnFlag, State.push] <;> (repeat' split) <;> rfl
@[simp] theorem doJoin_ty (j : Join) (s : State) : (doJoin j s).wk.ty = s.wk.ty := by
  cases j <;> simp only [doJoin, afterSelect, noResponse, afterPrefix, startPoll, afterToken, afterReady, State.returnFlag, State.push] <;> (repeat' split) <;> rfl
@[simp] theorem doJoin_icmd (j : Join) (s : State) : (doJoin j s).wk.icmd = s.wk.icmd := by
  cases j <;> simp only [doJoin, afterSelect, noResponse, afterPrefix, startPoll, afterToken, afterReady, State.returnFlag, State.push] <;> (repeat' split) <;> rfl
@[simp] theorem doJoin_okf (j : Join) (s : State) : (doJoin j s).wk.okf = s.wk.okf := by
  cases j <;> simp only [doJoin, afterSelect, noResponse, afterPrefix, startPoll, afterToken, afterReady, State.returnFlag, State.push] <;> (repeat' split) <;> rfl
@[simp] theorem doJoin_pst (j : Join) (s : State) : (doJoin j s).wk.pst = s.wk.pst := by
  cases j <;> simp only [doJoin, afterSelect, noResponse, afterPrefix, startPoll, afterToken, afterReady, State.returnFlag, State.push] <;> (repeat' split) <;> rfl
@[simp] theorem doJoin_addr (j : Join) (s : State) : (doJoin j s).wk.addr = s.wk.addr := by
  cases j <;> simp only [doJoin, afterSelect, noResponse, afterPrefix, startPoll, afterToken, afterReady, State.returnFlag, State.push] <;> (repeat' split) <;> rfl

/-! ### `sendCommand` -/

@[simp] theorem sendCommand_lat (cmd : Byte) (arg : Word) (s : State) : (sendCommand cmd arg s).lat = s.lat := by
  simp only [sendCommand, State.noteCommand, State.push]; split <;> rfl
@[simp] theorem sendCommand_out (cmd : Byte) (arg : Word) (s : State) : (sendCommand cmd arg s).out = s.out := by
  simp only [sendCommand, State.noteCommand, State.push]; split <;> rfl
@[simp] theorem sendCommand_pos (cmd : Byte) (arg : Word) (s : State) : (sendCommand cmd arg s).pos = s.pos := by
  simp only [sendCommand, State.noteCommand, State.push]; split <;> rfl
@[simp] theorem sendCommand_dstat (cmd : Byte) (arg : Word) (s : State) : (sendCommand cmd arg s).dstat = s.dstat := by
  simp only [sendCommand, State.noteCommand, State.push]; split <;> rfl
@[simp] theorem sendCommand_ctype (cmd : Byte) (arg : Word) (s : State) : (sendCommand cmd arg s).ctype = s.ctype := by
  simp only [sendCommand, State.noteCommand, State.push]; split <;> rfl
@[simp] theorem sendCommand_dmast (cmd : Byte) (arg : Word) (s : State) : (sendCommand cmd arg s).dmast = s.dmast := by
  simp only [sendCommand, State.noteCommand, State.push]; split <;> rfl
@[simp] theorem sendCommand_atc (cmd : Byte) (arg : Word) (s : State) : (sendCommand cmd arg s).atc = s.atc := by
  simp only [sendCommand, State.noteCommand, State.push]; split <;> rfl
@[simp] theorem sendCommand_job (cmd : Byte) (arg : Word) (s : State) : (sendCommand cmd arg s).job = s.job := by
  simp only [sendCommand, State.noteCommand, State.push]; split <;> rfl
@[simp] theorem sendCommand_taken (cmd : Byte) (arg : Word) (s : State) : (sendCommand cmd arg s).taken = s.taken := by
  simp only [sendCommand, State.noteCommand, State.push]; split <;> rfl
@[simp] theorem sendCommand_sched (cmd : Byte) (arg : Word) (s : State) : (sendCommand cmd arg s).sched = s.sched := by
  simp only [sendCommand, State.noteCommand, State.push]; split <;> rfl
@[simp] theorem sendCommand_cs (cmd : Byte) (arg : Word) (s : State) : (sendCommand cmd arg s).cs = s.cs := by
  simp only [sendCommand, State.noteCommand, State.push]; split <;> rfl
@[simp] theorem sendCommand_speed (cmd : Byte) (arg : Word) (s : State) : (sendCommand cmd arg s).speed = s.speed := by
  simp only [sendCommand, State.noteCommand, State.push]; split <;> rfl
@[simp] theorem sendCommand_tmr (cmd : Byte) (arg : Word) (s : State) : (sendCommand cmd arg s).tmr = s.tmr := by
  simp only [sendCommand, State.noteCommand, State.push]; split <;> rfl
@[simp] theorem sendCommand_mem (cmd : Byte) (arg : Word) (s : State) : (sendCommand cmd arg s).mem = s.mem := by
  simp only [sendCommand, State.noteCommand, State.push]; split <;> rfl
@[simp] theorem sendCommand_trace (cmd : Byte) (arg : Word) (s : State) : (sendCommand cmd arg s).trace = s.trace := by
  simp only [sendCommand, State.noteCommand, State.push]; split <;> rfl
@[simp] theorem sendCommand_env (cmd : Byte) (arg : Word) (s : State) : (sendCommand cmd arg s).env = s.env := by
  simp only [sendCommand, State.noteCommand, State.push]; split <;> rfl
@[simp] theorem sendCommand_ty (cmd : Byte) (arg : Word) (s : State) : (sendCommand cmd arg s).wk.ty = s.wk.ty := by
  simp only [sendCommand, State.noteCommand, State.push]; split <;> rfl
@[simp] theorem sendCommand_icmd (cmd : Byte) (arg : Word) (s : State) : (sendCommand cmd arg s).wk.icmd = s.wk.icmd := by
  simp only [sendCommand, State.noteCommand, State.push]; split <;> rfl
@[simp] theorem sendCommand_okf (cmd : Byte) (arg : Word) (s : State) : (sendCommand cmd arg s).wk.okf = s.wk.okf := by
  simp only [sendCommand, State.noteCommand, State.push]; split <;> rfl
@[simp] theorem sendCommand_pst (cmd : Byte) (arg : Word) (s : State) : (sendCommand cmd arg s).wk.pst = s.wk.pst := by
  simp only [sendCommand, State.noteCommand, State.push]; split <;> rfl
@[simp] theorem sendCommand_addr (cmd : Byte) (arg : Word) (s : State) : (sendCommand cmd arg s).wk.addr = s.wk.addr := by
  simp only [sendCommand, State.noteCommand, State.push]; split <;> rfl

/-! ### What is pushed -/

/-- What an exchange pushes leaves SPEED and CS alone. -/
theorem received_todo (x : Exchange) (rx : Byte) (s : State) :
    ∃ p, (received x rx s).todo = p ++ s.todo ∧ p.all Micro.keepsSpeed = true ∧ p.all Micro.keepsCs = true := by
  cases x <;> simp only [received, readyByte, tokenByte, pollByte, trailByte, dataByte, storeData, State.storeAt, dataSent, responseByte,
    State.returnFlag, State.push] <;> (repeat' split) <;>
    first
      | exact ⟨[], rfl, rfl, rfl⟩
      | exact ⟨[_], rfl, rfl, rfl⟩
      | exact ⟨[_, _, _], rfl, rfl, rfl⟩

/-- So does what another primitive action pushes. -/
theorem doLocal_todo (l : Local) (s : State) :
    ∃ p, (doLocal l s).todo = p ++ s.todo ∧ p.all Micro.keepsSpeed = true ∧ p.all Micro.keepsCs = true := by
  cases l <;> simp only [doLocal, readyTimer, tokenTimer, storeData, loadData, State.storeAt, State.writeByte, State.writeCs,
    State.writeSpeed, State.armTimer, State.returnFlag, State.push, State.log] <;> (repeat' split) <;>
    first
      | exact ⟨[], rfl, rfl, rfl⟩
      | exact ⟨[_], rfl, rfl, rfl⟩
      | exact ⟨[_, _, _], rfl, rfl, rfl⟩

theorem frame_keepsSpeed (cmd : Byte) (arg : Word) : (frame cmd arg).all Micro.keepsSpeed = true := by
  unfold frame; split <;> rfl

theorem frame_keepsCs (cmd : Byte) (arg : Word) : (frame cmd arg).all Micro.keepsCs = true := by
  unfold frame; split <;> rfl

theorem plainCommand_keepsSpeed (cmd : Byte) (arg : Word) : (plainCommand cmd arg).all Micro.keepsSpeed = true := by
  unfold plainCommand; split
  · exact frame_keepsSpeed cmd arg
  · rfl

/-- A test pushes nothing that writes SPEED, and writes CS only where its entry says so. -/
theorem doJoin_todo (j : Join) (s : State) :
    ∃ p, (doJoin j s).todo = p ++ s.todo ∧ p.all Micro.keepsSpeed = true ∧
      ((Micro.join j).keepsCs = true → p.all Micro.keepsCs = true) := by
  cases j <;> simp only [doJoin, afterSelect, noResponse, afterPrefix, startPoll, afterToken, afterReady,
    State.returnFlag, State.push] <;> (repeat' split) <;>
    first
      | exact ⟨[], rfl, rfl, fun _ => rfl⟩
      | exact ⟨frame _ _, rfl, frame_keepsSpeed _ _, fun _ => frame_keepsCs _ _⟩
      | exact ⟨deselect ++ [_], rfl, rfl, fun h => by simp [Micro.keepsCs] at h⟩
      | exact ⟨[_], rfl, rfl, fun h => by simp_all [Micro.keepsCs]⟩
      | exact ⟨[_, _], rfl, rfl, fun _ => rfl⟩

theorem sendCommand_todo (cmd : Byte) (arg : Word) (s : State) :
    ∃ p, (sendCommand cmd arg s).todo = p ++ s.todo ∧ p.all Micro.keepsSpeed = true := by
  unfold sendCommand; split
  · exact ⟨plainCommand cmdApp 0 ++ [.join (.prefixed (cmd &&& 0x7F) arg)], by simp [State.push, State.noteCommand], by
      simp only [List.all_append, plainCommand_keepsSpeed]; rfl⟩
  · exact ⟨plainCommand cmd arg, by simp [State.push, State.noteCommand], plainCommand_keepsSpeed cmd arg⟩

/-- Only `SET_SPEED` writes SPEED. -/
theorem doLocal_speed (l : Local) (s : State) (h : (Micro.act l).keepsSpeed = true) : (doLocal l s).speed = s.speed := by
  cases l <;> simp only [doLocal, readyTimer, tokenTimer, storeData, loadData, State.storeAt, State.writeByte, State.writeCs,
    State.writeSpeed, State.armTimer, State.returnFlag, State.push, State.log] <;> (repeat' split) <;>
    first
      | rfl
      | simp [Micro.keepsSpeed] at h

/-- Only `CS <-` writes CS. -/
theorem doLocal_cs (l : Local) (s : State) (h : (Micro.act l).keepsCs = true) : (doLocal l s).cs = s.cs := by
  cases l <;> simp only [doLocal, readyTimer, tokenTimer, storeData, loadData, State.storeAt, State.writeByte, State.writeCs,
    State.writeSpeed, State.armTimer, State.returnFlag, State.push, State.log] <;> (repeat' split) <;>
    first
      | rfl
      | simp [Micro.keepsCs] at h

end Sys2Proof.Machine
end

