-- ==== Sys2Proof/Laws/Frame.lean ====
section
/-! SUPPORT. Laws/Frame.lean: what the tests behind a primitive action leave alone, so that a step of ENGINE is described by its one
primitive action (70_reset_and_hazards.md R360). -/

namespace Sys2Proof.Machine

/-- The two states agree on every register that only a primitive action writes. -/
structure SameRegisters (s t : State) : Prop where
  dstat : t.dstat = s.dstat
  ctype : t.ctype = s.ctype
  dmast : t.dmast = s.dmast
  atc : t.atc = s.atc
  tmr : t.tmr = s.tmr
  cs : t.cs = s.cs
  speed : t.speed = s.speed
  job : t.job = s.job
  mem : t.mem = s.mem
  trace : t.trace = s.trace
  taken : t.taken = s.taken
  env : t.env = s.env
  sched : t.sched = s.sched

theorem SameRegisters.refl (s : State) : SameRegisters s s := ⟨rfl, rfl, rfl, rfl, rfl, rfl, rfl, rfl, rfl, rfl, rfl, rfl, rfl⟩

theorem SameRegisters.trans {s t u : State} (h : SameRegisters s t) (g : SameRegisters t u) : SameRegisters s u :=
  ⟨g.1.trans h.1, g.2.trans h.2, g.3.trans h.3, g.4.trans h.4, g.5.trans h.5, g.6.trans h.6, g.7.trans h.7, g.8.trans h.8,
    g.9.trans h.9, g.10.trans h.10, g.11.trans h.11, g.12.trans h.12, g.13.trans h.13⟩

/-- A test of a host operation writes working registers, latches and PHASE only. -/
theorem doTest_same (u : Test) (s : State) : SameRegisters s (doTest u s) := by
  cases u <;> simp only [doTest, negoPoweredUp, negoCmd0, negoCmd8, negoTrailer, negoV2Loop, negoOcrCmd, negoOcr, negoProbe,
    negoLegacyLoop, negoBlockLen, negoClosed, negoFast, negoFail, negoFinish, readOne, readOneData, readMany, readManyData, readStopNow,
    readStop, blockClose, blockClosed, writeOne, writeOneData, writeHint, writeManyNow, writeMany, writeStopNow, writeManyData,
    writeStop, dmaReadCmd, dmaReadToken, dmaFail, dmaWriteHint, dmaWriteManyNow, dmaWriteCmd, dmaWriteReady, dmaWriteToken,
    dmaStopped, dmaClosed, pollStopToken, pollStopCmd, pollClose, pollClosed, csdCmd, csdData, csdClose, csdClosed] <;>
    (repeat' split) <;>
    exact ⟨rfl, rfl, rfl, rfl, rfl, rfl, rfl, rfl, rfl, rfl, rfl, rfl, rfl⟩

/-- So does a test inside a micro-operation. -/
theorem doJoin_same (j : Join) (s : State) : SameRegisters s (doJoin j s) := by
  constructor <;> simp

theorem settleWithin_same (n : Nat) : ∀ s : State, SameRegisters s (settleWithin n s) := by
  induction n with
  | zero => intro s; exact .refl s
  | succ n ih =>
    intro s
    unfold settleWithin
    split
    · next j k hs =>
      have h : SameRegisters s (s.withTodo k) := ⟨rfl, rfl, rfl, rfl, rfl, rfl, rfl, rfl, rfl, rfl, rfl, rfl, rfl⟩
      exact (h.trans (doJoin_same j _)).trans (ih _)
    · exact .refl s
    · exact .refl s
    · exact .refl s
    · split
      · next u _ => exact (doTest_same u s).trans (ih _)
      · exact .refl s
      · exact .refl s

/-- Settling writes no register that only a primitive action writes. -/
theorem settle_same (s : State) : SameRegisters s (settle s) := settleWithin_same 8 s

@[simp] theorem settle_dstat (s : State) : (settle s).dstat = s.dstat := (settle_same s).dstat
@[simp] theorem settle_ctype (s : State) : (settle s).ctype = s.ctype := (settle_same s).ctype
@[simp] theorem settle_dmast (s : State) : (settle s).dmast = s.dmast := (settle_same s).dmast
@[simp] theorem settle_atc (s : State) : (settle s).atc = s.atc := (settle_same s).atc
@[simp] theorem settle_tmr (s : State) : (settle s).tmr = s.tmr := (settle_same s).tmr
@[simp] theorem settle_cs (s : State) : (settle s).cs = s.cs := (settle_same s).cs
@[simp] theorem settle_speed (s : State) : (settle s).speed = s.speed := (settle_same s).speed
@[simp] theorem settle_job (s : State) : (settle s).job = s.job := (settle_same s).job
@[simp] theorem settle_mem (s : State) : (settle s).mem = s.mem := (settle_same s).mem
@[simp] theorem settle_trace (s : State) : (settle s).trace = s.trace := (settle_same s).trace
@[simp] theorem settle_taken (s : State) : (settle s).taken = s.taken := (settle_same s).taken
@[simp] theorem settle_env (s : State) : (settle s).env = s.env := (settle_same s).env
@[simp] theorem settle_sched (s : State) : (settle s).sched = s.sched := (settle_same s).sched

end Sys2Proof.Machine
end

