-- ==== Sys2Proof/Laws/Run.lean ====
section
/-! SUPPORT. Laws/Run.lean: a run of ENGINE over a stretch of its own turns, composed from single steps: what the exchanges, the
waits, the command and the data packets do from the state they begin in to the state they end in. -/

namespace Sys2Proof.Machine

/-- `n` steps of ENGINE, none of them at IDLE, lead from one state to the other. -/
inductive Reaches : Nat → State → State → Prop where
  | refl (s : State) : Reaches 0 s s
  | step {n : Nat} {s u t : State} (hi : s.isIdle = false) (h : engineStep s = .next u) (r : Reaches n u t) : Reaches (n + 1) s t

theorem Reaches.trans {m n : Nat} {s t u : State} (h : Reaches m s t) (g : Reaches n t u) : Reaches (m + n) s u := by
  induction h with
  | refl s => rw [Nat.zero_add]; exact g
  | step hi h _ ih => rw [Nat.add_right_comm]; exact .step hi h (ih g)

/-- One step of ENGINE at a place that is not IDLE. -/
theorem Reaches.one {s t : State} (hi : s.isIdle = false) (h : engineStep s = .next t) : Reaches 1 s t := .step hi h (.refl t)

/-- What the run means: under a schedule that begins with as many turns of ENGINE the machine comes to the state the run ends in. -/
theorem Reaches.run {n : Nat} {s t : State} (h : Reaches n s t) (rest : List Turn) :
    runTurns (engineTurns n ++ rest) s = runTurns rest t := by
  induction h with
  | refl s => rfl
  | step hi h _ ih =>
    show runTurns (Turn.engine :: (engineTurns _ ++ rest)) _ = _
    rw [runTurns, hi, h]; exact ih

theorem not_idle_of_todo {s : State} {m : Micro} {k : List Micro} (h : s.todo = m :: k) : s.isIdle = false := by
  simp [State.isIdle, h]

theorem not_idle_of_act {s : State} {a : Act} (h : s.pos = .act a) : s.isIdle = false := by
  simp [State.isIdle, h]

/-! ### Settling -/

/-- PHASE stands at a primitive action or at IDLE. -/
def State.atRest (s : State) : Prop :=
  match s.todo with
  | .join _ :: _ => False
  | .exchange _ :: _ => True
  | .act _ :: _ => True
  | .command _ _ :: _ => True
  | [] =>
    match s.pos with
    | .test _ => False
    | .act _ => True
    | .idle => True

theorem settleWithin_atRest {s : State} (h : s.atRest) (n : Nat) : settleWithin n s = s := by
  cases n with
  | zero => rfl
  | succ n =>
    unfold State.atRest at h
    unfold settleWithin
    split
    · next e => rw [e] at h; exact h.elim
    · rfl
    · rfl
    · rfl
    · next e =>
      rw [e] at h
      split
      · next u e2 => rw [e2] at h; exact h.elim
      · rfl
      · rfl

theorem settle_atRest {s : State} (h : s.atRest) : settle s = s := settleWithin_atRest h 8

theorem settle_exchange {s : State} {x : Exchange} {k : List Micro} (h : s.todo = .exchange x :: k) : settle s = s :=
  settle_atRest (by unfold State.atRest; rw [h]; trivial)

theorem settle_act {s : State} {l : Local} {k : List Micro} (h : s.todo = .act l :: k) : settle s = s :=
  settle_atRest (by unfold State.atRest; rw [h]; trivial)

theorem settle_command {s : State} {c : Byte} {a : Word} {k : List Micro} (h : s.todo = .command c a :: k) : settle s = s :=
  settle_atRest (by unfold State.atRest; rw [h]; trivial)

theorem settle_pos_act {s : State} {a : Act} (h : s.todo = []) (h2 : s.pos = .act a) : settle s = s :=
  settle_atRest (by unfold State.atRest; rw [h, h2]; trivial)

theorem atRest_of_head {s : State} (m : Micro) (k : List Micro) (h : s.todo = m :: k)
    (hm : (match m with | .join _ => false | .exchange _ => true | .act _ => true | .command _ _ => true) = true) : s.atRest := by
  unfold State.atRest; rw [h]; cases m <;> simp_all

/-- A caller's test always leads to a primitive action. -/
theorem doTest_atRest (u : Test) (s : State) (hp : s.todo = []) : (doTest u s).atRest := by
  cases u <;> simp only [doTest, negoPoweredUp, negoCmd0, negoCmd8, negoTrailer, negoV2Loop, negoOcrCmd, negoOcr, negoProbe,
    negoLegacyLoop, negoBlockLen, negoClosed, negoFast, negoFail, negoFinish, readOne, readOneData, readMany, readManyData, readStopNow,
    readStop, blockClose, blockClosed, writeOne, writeOneData, writeHint, writeManyNow, writeMany, writeStopNow, writeManyData,
    writeStop, dmaReadCmd, dmaReadToken, dmaFail, dmaWriteHint, dmaWriteManyNow, dmaWriteCmd, dmaWriteReady, dmaWriteToken,
    dmaStopped, dmaClosed, pollStopToken, pollStopCmd, pollClose, pollClosed, csdCmd, csdData, csdClose, csdClosed] <;>
    (repeat' split) <;>
    first
      | exact atRest_of_head _ _ rfl rfl
      | (unfold State.atRest
         simp only [State.goAct, State.withPos_todo, State.withPos_pos, State.endWith, State.setTy, State.withWk_todo, hp])

/-- Where a micro-operation has ended, the caller's test is made. -/
theorem settleWithin_test {s : State} {u : Test} (h : s.todo = []) (h2 : s.pos = .test u) (n : Nat) :
    settleWithin (n + 1) s = doTest u s := by
  rw [settleWithin, h, h2]
  exact settleWithin_atRest (doTest_atRest u s h) n

theorem settle_test {s : State} {u : Test} (h : s.todo = []) (h2 : s.pos = .test u) : settle s = doTest u s :=
  settleWithin_test h h2 7

/-- A test inside a micro-operation that leads to a primitive action. -/
theorem settle_join {s : State} {j : Join} {k : List Micro} (h : s.todo = .join j :: k) (hr : (doJoin j (s.withTodo k)).atRest) :
    settle s = doJoin j (s.withTodo k) := by
  show settleWithin 8 s = _
  rw [settleWithin, h]; exact settleWithin_atRest hr 7

/-- A test inside a micro-operation that ends it, and the caller's test behind it. -/
theorem settle_join_test {s : State} {j : Join} {u : Test} (h : s.todo = [.join j]) (h2 : s.pos = .test u)
    (h3 : (doJoin j (s.withTodo [])).todo = []) : settle s = doTest u (doJoin j (s.withTodo [])) := by
  show settleWithin 8 s = _
  rw [settleWithin, h]; exact settleWithin_test h3 (by simp [h2]) 6

/-! ### One primitive action -/

/-- The card's next answer is drawn from the script. -/
def State.nextScript (s : State) (bs : List Byte) : State := s.withEnv { s.env with card := bs }

theorem nextCard_script {s : State} {b : Byte} {bs : List Byte} (h : s.env.card = b :: bs) : s.nextCard = some (b, s.nextScript bs) := by
  unfold State.nextCard; rw [h]; rfl

theorem reaches_exchange {s : State} {x : Exchange} {k : List Micro} {b : Byte} {bs : List Byte} (h : s.todo = .exchange x :: k)
    (hc : s.env.card = b :: bs) : Reaches 1 s (exchanged x k b (s.nextScript bs)) := by
  refine Reaches.one (not_idle_of_todo h) ?_
  unfold engineStep doExchange; rw [h]; simp only [nextCard_script hc]

theorem reaches_action {s : State} {l : Local} {k : List Micro} (h : s.todo = .act l :: k) : Reaches 1 s (doAction l k s) := by
  refine Reaches.one (not_idle_of_todo h) ?_
  unfold engineStep; rw [h]

theorem reaches_act {s : State} {a : Act} {t : State} (h : s.todo = []) (hp : s.pos = .act a) (hd : doAct a s = .next t) :
    Reaches 1 s (settle t) := by
  refine Reaches.one (not_idle_of_act hp) ?_
  unfold engineStep; rw [h, hp]; simp only [hd, andThen]

/-! ### What a micro-operation leaves alone -/

/-- From one state to the other a micro-operation has run: these items are on the wire, this is left to do, these answers are left in the
script, and every register that no micro-operation of the command engine writes is as before. -/
structure Runs (s t : State) (items : List WireItem) (k : List Micro) (more : List Byte) : Prop where
  todo : t.todo = k
  pos : t.pos = s.pos
  lat : t.lat = s.lat
  out : t.out = s.out
  dstat : t.dstat = s.dstat
  ctype : t.ctype = s.ctype
  dmast : t.dmast = s.dmast
  atc : t.atc = s.atc
  speed : t.speed = s.speed
  job : t.job = s.job
  taken : t.taken = s.taken
  sched : t.sched = s.sched
  trace : t.trace = s.trace ++ items
  env : t.env = { s.env with card := more }
  ty : t.wk.ty = s.wk.ty
  icmd : t.wk.icmd = s.wk.icmd
  okf : t.wk.okf = s.wk.okf
  pst : t.wk.pst = s.wk.pst
  addr : t.wk.addr = s.wk.addr

theorem Runs.trans {s t u : State} {i j : List WireItem} {k l : List Micro} {m n : List Byte} (h : Runs s t i k m)
    (g : Runs t u j l n) : Runs s u (i ++ j) l n where
  todo := g.todo
  pos := g.pos.trans h.pos
  lat := g.lat.trans h.lat
  out := g.out.trans h.out
  dstat := g.dstat.trans h.dstat
  ctype := g.ctype.trans h.ctype
  dmast := g.dmast.trans h.dmast
  atc := g.atc.trans h.atc
  speed := g.speed.trans h.speed
  job := g.job.trans h.job
  taken := g.taken.trans h.taken
  sched := g.sched.trans h.sched
  trace := by rw [g.trace, h.trace, List.append_assoc]
  env := by rw [g.env, h.env]
  ty := g.ty.trans h.ty
  icmd := g.icmd.trans h.icmd
  okf := g.okf.trans h.okf
  pst := g.pst.trans h.pst
  addr := g.addr.trans h.addr

/-- Only PHASE is replaced behind the run. -/
theorem Runs.before {s t : State} {i : List WireItem} {k : List Micro} {m : List Byte} (h : Runs s t i k m) (l : List Micro) :
    Runs s (t.withTodo l) i l m :=
  ⟨rfl, h.pos, h.lat, h.out, h.dstat, h.ctype, h.dmast, h.atc, h.speed, h.job, h.taken, h.sched, h.trace, h.env, h.ty, h.icmd, h.okf, h.pst, h.addr⟩

/-- Working registers other than the five that no micro-operation writes are replaced behind the run, and PHASE. -/
theorem Runs.working {s t : State} {i : List WireItem} {k : List Micro} {m : List Byte} (h : Runs s t i k m) (w : Work) (l : List Micro)
    (h1 : w.ty = t.wk.ty) (h2 : w.icmd = t.wk.icmd) (h3 : w.okf = t.wk.okf) (h4 : w.pst = t.wk.pst) (h5 : w.addr = t.wk.addr) :
    Runs s ((t.withWk w).withTodo l) i l m :=
  ⟨rfl, h.pos, h.lat, h.out, h.dstat, h.ctype, h.dmast, h.atc, h.speed, h.job, h.taken, h.sched, h.trace, h.env, h1.trans h.ty, h2.trans h.icmd, h3.trans h.okf,
    h4.trans h.pst, h5.trans h.addr⟩

/-- Only PHASE was replaced in front of the run. -/
theorem Runs.after {s t : State} {i : List WireItem} {k l : List Micro} {m : List Byte} (h : Runs (s.withTodo l) t i k m) :
    Runs s t i k m :=
  ⟨h.todo, h.pos, h.lat, h.out, h.dstat, h.ctype, h.dmast, h.atc, h.speed, h.job, h.taken, h.sched, h.trace, h.env, h.ty, h.icmd, h.okf, h.pst, h.addr⟩

/-- The registers a micro-operation of one exchange keeps as well. -/
structure Kept (s t : State) : Prop where
  cs : t.cs = s.cs
  tmr : t.tmr = s.tmr
  mem : t.mem = s.mem

theorem Kept.trans {s t u : State} (h : Kept s t) (g : Kept t u) : Kept s u :=
  ⟨g.1.trans h.1, g.2.trans h.2, g.3.trans h.3⟩

/-! ### Sends -/

/-- One byte sent, the answer discarded. -/
def State.sent (s : State) (tx rx : Byte) (k : List Micro) (bs : List Byte) : State :=
  ((s.nextScript bs).withTodo k).log (.xchg tx rx)

theorem runs_send {s : State} {tx rx : Byte} {k : List Micro} {more : List Byte} (h : s.todo = .exchange (.send tx) :: k)
    (hc : s.env.card = rx :: more) :
    Reaches 1 s (settle (s.sent tx rx k more)) ∧ Runs s (s.sent tx rx k more) [.xchg tx rx] k more ∧
      Kept s (s.sent tx rx k more) ∧ (s.sent tx rx k more).wk = s.wk :=
  ⟨reaches_exchange h hc, by constructor <;> rfl,
    ⟨rfl, rfl, rfl⟩, rfl⟩

/-- The entries that send these bytes. -/
def sends (txs : List Byte) : List Micro := txs.map fun b => .exchange (.send b)

/-- Several bytes sent, one exchange each, the answers discarded. -/
theorem runs_sends (txs : List Byte) : ∀ (rxs : List Byte) (s : State) (k : List Micro) (more : List Byte), txs ≠ [] →
    rxs.length = txs.length → s.todo = sends txs ++ k → s.env.card = rxs ++ more →
    ∃ t, Reaches txs.length s (settle t) ∧ Runs s t (List.zipWith WireItem.xchg txs rxs) k more ∧ Kept s t ∧ t.wk = s.wk := by
  induction txs with
  | nil => intro _ _ _ _ h; exact absurd rfl h
  | cons tx txs ih =>
    intro rxs s k more _ hl ht hc
    cases rxs with
    | nil => cases hl
    | cons rx rxs =>
      obtain ⟨r1, r2, r3, r4⟩ := runs_send (k := sends txs ++ k) (more := rxs ++ more) ht hc
      cases txs with
      | nil =>
        cases rxs with
        | nil => exact ⟨_, r1, r2, r3, r4⟩
        | cons _ _ => cases hl
      | cons tx' txs =>
        obtain ⟨t, q1, q2, q3, q4⟩ := ih rxs (s.sent tx rx _ (rxs ++ more)) k more (List.cons_ne_nil _ _) (Nat.succ.inj hl) rfl rfl
        rw [settle_exchange (k := sends txs ++ k) (x := .send tx') rfl] at r1
        refine ⟨t, ?_, r2.trans q2, r3.trans q3, q4.trans r4⟩
        have := r1.trans q1
        rwa [Nat.add_comm] at this

/-! ### Exchanges whose answer is kept -/

/-- The state in which the answer of an exchange has come and nothing is done with it yet. -/
def State.got (s : State) (x : Exchange) (rx : Byte) (k : List Micro) (bs : List Byte) : State :=
  ((s.nextScript bs).withTodo k).log (.xchg (x.tx s) rx)

theorem runs_got (s : State) (x : Exchange) (rx : Byte) (k : List Micro) (bs : List Byte) :
    Runs s (s.got x rx k bs) [.xchg (x.tx s) rx] k bs :=
  by constructor <;> rfl

theorem reaches_got {s : State} {x : Exchange} {k : List Micro} {b : Byte} {bs : List Byte} (h : s.todo = .exchange x :: k)
    (hc : s.env.card = b :: bs) : Reaches 1 s (settle (received x b (s.got x b k bs))) := by
  have := reaches_exchange h hc
  have e : exchanged x k b (s.nextScript bs) = settle (received x b (s.got x b k bs)) := by
    unfold exchanged State.got; cases x <;> rfl
  rwa [e] at this

/-- The same where what is done with the answer is known. -/
theorem reaches_got_to {s u : State} {x : Exchange} {k : List Micro} {b : Byte} {bs : List Byte} (h : s.todo = .exchange x :: k)
    (hc : s.env.card = b :: bs) (hu : received x b (s.got x b k bs) = u) : Reaches 1 s (settle u) := hu ▸ reaches_got h hc

/-- A primitive action that is no exchange, whose outcome is known. -/
theorem reaches_action_to {s u : State} {l : Local} {k : List Micro} (h : s.todo = .act l :: k)
    (hu : doLocal l (s.withTodo k) = u) : Reaches 1 s (settle u) := hu ▸ reaches_action h

/-! ### The readiness wait (40_bus_transport.md R139) -/

theorem runs_ready (busy : List Byte) : ∀ (s : State) (k : List Micro) (more : List Byte),
    s.todo = .exchange .ready :: k → s.env.card = busy ++ Config.filler :: more → (∀ b ∈ busy, cardIsReady b = false) →
    s.tmr.rdy ≠ 0 →
    ∃ t, Reaches (2 * busy.length + 1) s (settle t) ∧ Runs s t (fillers (busy ++ [Config.filler])) k more ∧ Kept s t ∧
      t.wk = { s.wk with rdy := Config.filler, flag := true } := by
  induction busy with
  | nil =>
    intro s k more ht hc _ _
    exact ⟨_, reaches_got ht hc, by constructor <;> rfl, ⟨rfl, rfl, rfl⟩, rfl⟩
  | cons b busy ih =>
    intro s k more ht hc hb hz
    have hb1 : cardIsReady b = false := hb b (List.mem_cons_self ..)
    let g := s.got .ready b k (busy ++ Config.filler :: more)
    let u := (g.withWk { s.wk with rdy := b }).push [.act .readyExpired]
    let v := (g.withWk { s.wk with rdy := b }).push [.exchange .ready]
    have r1 : Reaches 1 s (settle u) := reaches_got_to ht hc (by simp only [received, readyByte, hb1]; rfl)
    have r2 : Reaches 1 u (settle v) := reaches_action_to (k := k) rfl (by
      have : (u.withTodo k).expired .rdy = false := by
        show (s.tmr.rdy == 0) = false
        simpa using hz
      simp only [doLocal, readyTimer, this]; rfl)
    rw [show settle u = u from settle_act rfl] at r1
    rw [show settle v = v from settle_exchange rfl] at r2
    obtain ⟨t, q1, q2, q3, q4⟩ := ih v k more rfl rfl (fun c hc => hb c (List.mem_cons_of_mem _ hc)) hz
    have rv : Runs s v [.xchg Config.filler b] v.todo (busy ++ Config.filler :: more) :=
      by constructor <;> rfl
    refine ⟨t, ?_, rv.trans q2, Kept.trans (t := v) ⟨rfl, rfl, rfl⟩ q3, by rw [q4]; rfl⟩
    have := (r1.trans r2).trans q1
    rwa [show 1 + 1 + (2 * busy.length + 1) = 2 * (b :: busy).length + 1 by simp; omega] at this

/-- `wait_ready(500)`, its counter armed first. -/
theorem runs_waitReady {s : State} {k : List Micro} {busy more : List Byte} (h : s.todo = waitReady Config.tRdyMs ++ k)
    (hc : s.env.card = busy ++ Config.filler :: more) (hb : ∀ b ∈ busy, cardIsReady b = false) :
    ∃ n t, Reaches n s (settle t) ∧ Runs s t (fillers (busy ++ [Config.filler])) k more ∧ t.cs = s.cs ∧
      t.mem = s.mem ∧ t.tmr = { s.tmr with rdy := Config.tRdyMs } ∧ t.wk = { s.wk with rdy := Config.filler, flag := true } := by
  let s1 : State := (s.withTodo (.exchange .ready :: k)).armTimer .rdy Config.tRdyMs
  have a1 : Reaches 1 s s1 := by
    have := reaches_action_to (s := s) (u := s1) (l := .arm .rdy Config.tRdyMs) h rfl
    rwa [show settle s1 = s1 from settle_exchange rfl] at this
  obtain ⟨t, q1, q2, q3, q4⟩ := runs_ready busy s1 k more rfl hc hb (by show Config.tRdyMs ≠ 0; decide)
  have r1 : Runs s s1 [] s1.todo (busy ++ Config.filler :: more) := by
    constructor
    case env => show s.env = _; rw [← hc]
    case trace => exact (List.append_nil _).symm
    all_goals rfl
  exact ⟨_, t, a1.trans q1, r1.trans q2, by rw [q3.cs]; rfl, by rw [q3.mem]; rfl, by rw [q3.tmr]; rfl, by rw [q4]; rfl⟩

/-! ### The R1 poll (42_command_framing.md R175) -/

/-- The poll, ended by a response or by its last exchange. -/
theorem runs_poll (wait : List Byte) : ∀ (s : State) (k : List Micro) (r : Byte) (more : List Byte),
    s.todo = .exchange .poll :: k → s.env.card = wait ++ r :: more → (∀ b ∈ wait, isResponse b = false) →
    wait.length < s.wk.ntry.toNat → (isResponse r = true ∨ wait.length + 1 = s.wk.ntry.toNat) →
    ∃ t, Reaches (wait.length + 1) s (settle t) ∧ Runs s t (fillers (wait ++ [r])) k more ∧ Kept s t ∧
      ∃ n, t.wk = { s.wk with r1 := r, ntry := n } := by
  induction wait with
  | nil =>
    intro s k r more ht hc _ _ hr
    refine ⟨_, reaches_got_to ht hc (u := (s.got .poll r k more).withWk { s.wk with r1 := r, ntry := s.wk.ntry - 1 }) ?_, ?_, ?_, _, rfl⟩
    · refine if_pos (Bool.or_eq_true_iff.2 (hr.imp_right fun h => beq_iff_eq.2 ?_))
      show s.wk.ntry - 1 = 0
      simp only [List.length_nil] at h; bv_omega
    · constructor <;> rfl
    · exact ⟨rfl, rfl, rfl⟩
  | cons b wait ih =>
    intro s k r more ht hc hb hn hr
    have hb1 : isResponse b = false := hb b (List.mem_cons_self ..)
    have hn1 : (s.wk.ntry - 1).toNat = s.wk.ntry.toNat - 1 := by
      simp only [List.length_cons] at hn; bv_omega
    let g := s.got .poll b k (wait ++ r :: more)
    let u := (g.withWk { s.wk with r1 := b, ntry := s.wk.ntry - 1 }).push [.exchange .poll]
    have r1 : Reaches 1 s (settle u) := reaches_got_to ht hc (by
      have hz : (s.wk.ntry - 1 == 0) = false := by
        rw [beq_eq_false_iff_ne]; intro h
        have := congrArg BitVec.toNat h
        rw [hn1] at this; simp only [List.length_cons] at hn; simp at this; omega
      simp only [received, pollByte, hb1, Bool.false_or]
      rw [if_neg]
      · rfl
      · show ¬ (s.wk.ntry - 1 == 0) = true
        rw [hz]; decide)
    rw [show settle u = u from settle_exchange rfl] at r1
    obtain ⟨t, q1, q2, q3, n, q4⟩ := ih u k r more rfl rfl (fun c hc => hb c (List.mem_cons_of_mem _ hc)) (by
      show wait.length < (s.wk.ntry - 1).toNat
      rw [hn1]; simp only [List.length_cons] at hn; omega) (hr.imp_right fun h => by
      show wait.length + 1 = (s.wk.ntry - 1).toNat
      rw [hn1]; simp only [List.length_cons] at h; omega)
    have rv : Runs s u [.xchg Config.filler b] u.todo (wait ++ r :: more) :=
      by constructor <;> rfl
    refine ⟨t, ?_, rv.trans q2, Kept.trans (t := u) ⟨rfl, rfl, rfl⟩ q3, n, by rw [q4]; rfl⟩
    have := r1.trans q1
    rwa [show 1 + (wait.length + 1) = (b :: wait).length + 1 by simp; omega] at this

/-! ### Commands (42_command_framing.md R170 to R175) -/

/-- The working registers after a command that was answered. -/
def Work.answered (w : Work) (cmd : Byte) (arg : Word) (r : Byte) (n : BitVec 4) : Work :=
  { w with cmd := cmd, arg := arg, r1 := r, ntry := n }

/-- A frame and the poll behind it, of a command other than CMD12. -/
theorem runs_frame {s : State} {cmd : Byte} {arg : Word} {k : List Micro} {more junk wait : List Byte} {r : Byte}
    (hcmd : cmd ≠ cmdStop) (h : s.todo = frame cmd arg ++ k) (hc : s.env.card = junk ++ (wait ++ r :: more))
    (hj : junk.length = 6) (hw : wait.length < 10) (hb : ∀ b ∈ wait, isResponse b = false)
    (hr : isResponse r = true ∨ wait.length = 9) :
    ∃ t, Reaches (7 + wait.length) s (settle t) ∧ Runs s t (frameItems cmd arg junk ++ fillers (wait ++ [r])) k more ∧ Kept s t ∧
      ∃ n, t.wk = { s.wk with r1 := r, ntry := n } := by
  have hf : frame cmd arg ++ k = sends (frameBytes cmd arg) ++ (.join .startPoll :: k) := by
    simp [frame, hcmd, sends]
  rw [hf] at h
  obtain ⟨t, r1, r2, r3, r4⟩ := runs_sends (frameBytes cmd arg) junk s _ _ (by simp [frameBytes]) (by rw [hj]; rfl) h hc
  have e : settle t = doJoin .startPoll (t.withTodo k) := settle_join r2.todo (atRest_of_head _ _ rfl rfl)
  rw [e] at r1
  obtain ⟨u, q1, q2, q3, n, q4⟩ := runs_poll wait (doJoin .startPoll (t.withTodo k)) k r more rfl (by
    show t.env.card = _; rw [r2.env]) hb hw (hr.imp_right (congrArg (· + 1)))
  have rj : Runs t (doJoin .startPoll (t.withTodo k)) [] (.exchange .poll :: k) (wait ++ r :: more) := by
    constructor
    case env => show t.env = _; rw [r2.env]
    case trace => exact (List.append_nil _).symm
    all_goals rfl
  refine ⟨u, ?_, ?_, ?_, n, ?_⟩
  · have := r1.trans q1
    rwa [show (frameBytes cmd arg).length + (wait.length + 1) = 7 + wait.length by
      simp [frameBytes, argBytes]; omega] at this
  · have := (r2.trans rj).trans q2
    rwa [List.append_nil] at this
  · exact r3.trans (Kept.trans (t := doJoin .startPoll (t.withTodo k)) ⟨rfl, rfl, rfl⟩ q3)
  · rw [q4]
    show ({ t.wk with ntry := n, r1 := r } : Work) = _
    rw [r4]

/-- What every command but CMD12 begins with (R172): the deselect, and `CS <- 0` of the select; its readiness wait is next. -/
theorem runs_head {s : State} {cmd : Byte} {arg : Word} {k : List Micro} {d : Byte} {more : List Byte} (hcmd : cmd ≠ cmdStop)
    (happ : isApp cmd = false) (h : s.todo = .command cmd arg :: k) (hc : s.env.card = d :: more) :
    ∃ t, Reaches 3 s t ∧ Runs s t [.cs true, .xchg Config.filler d, .cs false]
        (waitReady Config.tRdyMs ++ .join (.selected cmd arg) :: k) more ∧ t.cs = false ∧ t.mem = s.mem ∧ t.tmr = s.tmr ∧
      t.wk = { s.wk with cmd := cmd, arg := arg } := by
  let w1 : Work := { s.wk with cmd := cmd, arg := arg }
  let k3 : List Micro := waitReady Config.tRdyMs ++ .join (.selected cmd arg) :: k
  let s1 : State := (((s.withTodo (.exchange (.send Config.filler) :: .act (.setCs false) :: k3)).withWk w1).withCs true).log (.cs true)
  have a1 : Reaches 1 s s1 := by
    refine Reaches.one (not_idle_of_todo h) ?_
    unfold engineStep; rw [h]
    have e : sendCommand cmd arg (s.withTodo k) =
        (s.withWk w1).withTodo (.act (.setCs true) :: .exchange (.send Config.filler) :: .act (.setCs false) :: k3) := by
      simp only [sendCommand, happ, Bool.false_eq_true, if_false, plainCommand, if_neg hcmd]; rfl
    simp only [doCommand, e]
    rfl
  have b1 := (runs_send (s := s1) (k := .act (.setCs false) :: k3) (rx := d) (more := more) rfl hc).1
  let s2 := s1.sent Config.filler d (.act (.setCs false) :: k3) more
  rw [show settle s2 = s2 from settle_act rfl] at b1
  let s3 : State := ((s2.withTodo k3).withCs false).log (.cs false)
  have a3 : Reaches 1 s2 s3 := by
    have := reaches_action_to (s := s2) (u := s3) (l := .setCs false) rfl rfl
    rwa [show settle s3 = s3 from settle_act rfl] at this
  refine ⟨s3, (a1.trans b1).trans a3, ?_, rfl, rfl, rfl, rfl⟩
  constructor
  case trace => show s.trace ++ [_] ++ [_] ++ [_] = _; simp
  all_goals rfl

/-- A command other than CMD12 and without the application prefix, answered by the card. -/
theorem runs_plain {s : State} {cmd : Byte} {arg : Word} {k : List Micro} {more : List Byte} {p : Reply} (hcmd : cmd ≠ cmdStop)
    (happ : isApp cmd = false) (h : s.todo = .command cmd arg :: k) (hc : s.env.card = p.bytes ++ more) (hp : p.ok) :
    ∃ m t, Reaches (m + 1) s (settle t) ∧ Runs s t (p.trace cmd arg) k more ∧ t.cs = false ∧ t.mem = s.mem ∧
      t.tmr = { s.tmr with rdy := Config.tRdyMs } ∧
      ∃ n, t.wk = { s.wk with cmd := cmd, arg := arg, rdy := Config.filler, flag := true, r1 := p.r1, ntry := n } := by
  obtain ⟨hbusy, hj, hw, hwb, hr⟩ := hp
  obtain ⟨s3, a1, a2, a3, a4, a5, a6⟩ := runs_head (more := p.busy ++ Config.filler :: (p.junk ++ p.tail) ++ more) hcmd happ h hc
  -- the readiness wait
  obtain ⟨m, t5, c1, c2, c3, c4, c5, c6⟩ := runs_waitReady (busy := p.busy) (more := p.junk ++ p.tail ++ more) a2.todo
    (by rw [a2.env]; simp) hbusy
  let t6 := (t5.withTodo k).push (frame cmd arg)
  have e6 : settle t5 = t6 := by
    have hd : doJoin (.selected cmd arg) (t5.withTodo k) = t6 := by
      have : (t5.withTodo k).wk.flag = true := by rw [State.withTodo_wk, c6]
      simp only [doJoin, afterSelect, this, if_true]; rfl
    rw [settle_join c2.todo (hd ▸ atRest_of_head _ _ rfl rfl), hd]
  rw [e6] at c1
  -- the frame and the poll
  obtain ⟨t, d1, d2, d3, n, d4⟩ := runs_frame (s := t6) (k := k) (more := more) (junk := p.junk) (wait := p.wait) (r := p.r1) hcmd rfl (by
    show t5.env.card = _; rw [c2.env]; simp [Reply.tail]) hj hw hwb hr
  have r16 : Runs s t6 ([.cs true, .xchg Config.filler p.dummy, .cs false] ++ fillers (p.busy ++ [Config.filler]))
      (frame cmd arg ++ k) (p.junk ++ p.tail ++ more) := (a2.trans c2).before _
  refine ⟨2 + m + (7 + p.wait.length), t, ?_, ?_, ?_, ?_, ?_, n, ?_⟩
  · have := (a1.trans c1).trans d1
    rwa [show 3 + m + (7 + p.wait.length) = 2 + m + (7 + p.wait.length) + 1 by omega] at this
  · have := r16.trans d2
    rwa [show ([.cs true, .xchg Config.filler p.dummy, .cs false] ++ fillers (p.busy ++ [Config.filler])) ++
      (frameItems cmd arg p.junk ++ fillers (p.wait ++ [p.r1])) = p.trace cmd arg by
        simp [Reply.trace, Reply.tail]] at this
  · rw [d3.cs]; exact c3.trans a3
  · rw [d3.mem]; exact c4.trans a4
  · rw [d3.tmr]; show t5.tmr = _; rw [c5, a5]
  · rw [d4]; show ({ t5.wk with r1 := p.r1, ntry := n } : Work) = _; rw [c6, a6]

/-- Two states that make the same step make the same run. -/
theorem Reaches.of_same_step {m : Nat} {s s' t : State} (h : Reaches (m + 1) s' t) (hi : s.isIdle = false)
    (he : engineStep s = engineStep s') : Reaches (m + 1) s t := by
  cases h with
  | step hi' h r => exact .step hi (he.trans h) r

/-- An application command: CMD55 runs first (R171). -/
theorem runs_prefix {s : State} {cmd : Byte} {arg : Word} {k : List Micro} {more : List Byte} {p : Reply}
    (happ : isApp cmd = true) (h : s.todo = .command cmd arg :: k) (hc : s.env.card = p.bytes ++ more) (hp : p.ok) :
    ∃ m t, Reaches (m + 1) s (settle t) ∧ Runs s t (p.trace cmdApp 0) (.join (.prefixed (cmd &&& 0x7F) arg) :: k) more ∧
      t.cs = false ∧ t.mem = s.mem ∧ t.tmr = { s.tmr with rdy := Config.tRdyMs } ∧
      ∃ n, t.wk = { s.wk with cmd := cmdApp, arg := 0, rdy := Config.filler, flag := true, r1 := p.r1, ntry := n } := by
  let s' : State := s.withTodo (.command cmdApp 0 :: .join (.prefixed (cmd &&& 0x7F) arg) :: k)
  obtain ⟨m, t, r1, r2, r3⟩ := runs_plain (s := s') (cmd := cmdApp) (arg := 0) (by decide) (by decide) rfl hc hp
  refine ⟨m, t, r1.of_same_step (not_idle_of_todo h) ?_, ?_, r3⟩
  · unfold engineStep; rw [h]
    show Host.Outcome.next (doCommand cmd arg k s) = Host.Outcome.next (doCommand cmdApp 0 _ s')
    have e : sendCommand cmd arg (s.withTodo k) = sendCommand cmdApp 0 (s'.withTodo (.join (.prefixed (cmd &&& 0x7F) arg) :: k)) := by
      have h55 : isApp cmdApp = false := by decide
      unfold sendCommand; simp only [happ, h55, if_true, Bool.false_eq_true, if_false]
      rfl
    unfold doCommand; rw [e]
  · exact r2.after

/-- An application command whose CMD55 was accepted: the command itself follows. -/
theorem runs_app {s : State} {cmd : Byte} {arg : Word} {k : List Micro} {more : List Byte} {p q : Reply}
    (happ : isApp cmd = true) (hsub : cmd &&& 0x7F ≠ cmdStop) (hplain : isApp (cmd &&& 0x7F) = false)
    (h : s.todo = .command cmd arg :: k) (hc : s.env.card = p.bytes ++ (q.bytes ++ more))
    (hp : p.ok) (hq : q.ok) (hacc : r1Accepted p.r1 = true) :
    ∃ m t, Reaches (m + 1) s (settle t) ∧ Runs s t (p.trace cmdApp 0 ++ q.trace (cmd &&& 0x7F) arg) k more ∧
      t.cs = false ∧ t.mem = s.mem ∧ t.tmr = { s.tmr with rdy := Config.tRdyMs } ∧
      ∃ n, t.wk = { s.wk with cmd := cmd &&& 0x7F, arg := arg, rdy := Config.filler, flag := true, r1 := q.r1, ntry := n } := by
  obtain ⟨m, t, r1, r2, r3, r4, r5, n, r6⟩ := runs_prefix happ h hc hp
  let u : State := t.withTodo (.command (cmd &&& 0x7F) arg :: k)
  have e : settle t = u := by
    have hd : doJoin (.prefixed (cmd &&& 0x7F) arg) (t.withTodo k) = u := by
      have : r1Accepted (t.withTodo k).wk.r1 = true := by rw [State.withTodo_wk, r6]; exact hacc
      simp only [doJoin, afterPrefix, this, if_true]; rfl
    rw [settle_join r2.todo (hd ▸ atRest_of_head _ _ rfl rfl), hd]
  rw [e] at r1
  obtain ⟨m', v, q1, q2, q3, q4, q5, n', q6⟩ := runs_plain (s := u) hsub hplain rfl (by show t.env.card = _; rw [r2.env]) hq
  have ru : Runs s u (p.trace cmdApp 0) u.todo (q.bytes ++ more) := by
    exact r2.before _
  refine ⟨m + 1 + m', v, r1.trans q1, ru.trans q2, q3, ?_, ?_, n', ?_⟩
  · rw [q4]; exact r4
  · rw [q5]; show ({ t.tmr with rdy := _ } : Timers) = _; rw [r5]
  · rw [q6]
    show ({ t.wk with cmd := _, arg := _, rdy := _, flag := _, r1 := _, ntry := _ } : Work) = _
    rw [r6]

/-- An application command whose CMD55 was not accepted: its response is the command's, which is not framed (R171). -/
theorem runs_app_rejected {s : State} {cmd : Byte} {arg : Word} {k : List Micro} {more : List Byte} {p : Reply}
    (happ : isApp cmd = true) (h : s.todo = .command cmd arg :: k) (hc : s.env.card = p.bytes ++ more) (hp : p.ok)
    (hrej : r1Accepted p.r1 = false) :
    ∃ m t, Reaches (m + 1) s (settleWithin 7 t) ∧ Runs s t (p.trace cmdApp 0) k more ∧
      t.cs = false ∧ t.mem = s.mem ∧ t.tmr = { s.tmr with rdy := Config.tRdyMs } ∧
      ∃ n, t.wk = { s.wk with cmd := cmdApp, arg := 0, rdy := Config.filler, flag := true, r1 := p.r1, ntry := n } := by
  obtain ⟨m, t, r1, r2, r3, r4, r5, n, r6⟩ := runs_prefix happ h hc hp
  have e : settle t = settleWithin 7 (t.withTodo k) := by
    show settleWithin 8 t = _
    rw [settleWithin, r2.todo]
    have : r1Accepted (t.withTodo k).wk.r1 = false := by rw [State.withTodo_wk, r6]; exact hrej
    simp only [doJoin, afterPrefix, this, Bool.false_eq_true, if_false]
  rw [e] at r1
  refine ⟨m, t.withTodo k, r1, ?_, r3, r4, r5, n, r6⟩
  exact r2.before _

/-! ### CMD12, deselect, trailer -/

/-- CMD12 (R172, R174): no deselect and no select, the frame, one stuff byte, the poll. -/
theorem runs_stop {s : State} {k : List Micro} {more : List Byte} {p : StopReply} (h : s.todo = .command cmdStop 0 :: k)
    (hc : s.env.card = p.bytes ++ more) (hp : p.ok) :
    ∃ m t, Reaches (m + 1) s (settle t) ∧ Runs s t p.trace k more ∧ Kept s t ∧
      ∃ n, t.wk = { s.wk with cmd := cmdStop, arg := 0, r1 := p.r1, ntry := n } := by
  obtain ⟨hj, hw, hwb, hr⟩ := hp
  let k' : List Micro := .join .startPoll :: k
  let txs : List Byte := frameBytes cmdStop 0 ++ [Config.filler]
  let s' : State := (s.withWk { s.wk with cmd := cmdStop, arg := 0 }).withTodo (sends txs ++ k')
  obtain ⟨t, r1, r2, r3, r4⟩ := runs_sends txs (p.junk ++ [p.stuff]) s' k' (p.wait ++ p.r1 :: more) (by simp [txs])
    (by simp [txs, hj, frameBytes, argBytes]) rfl (by show s.env.card = _; rw [hc]; simp [StopReply.bytes])
  have e : settle t = doJoin .startPoll (t.withTodo k) := settle_join r2.todo (atRest_of_head _ _ rfl rfl)
  rw [e] at r1
  obtain ⟨u, q1, q2, q3, n, q4⟩ := runs_poll p.wait (doJoin .startPoll (t.withTodo k)) k p.r1 more rfl (by
    show t.env.card = _; rw [r2.env]) hwb hw (hr.imp_right (congrArg (· + 1)))
  have rj : Runs t (doJoin .startPoll (t.withTodo k)) [] (.exchange .poll :: k) (p.wait ++ p.r1 :: more) := by
    constructor
    case env => show t.env = _; rw [r2.env]
    case trace => exact (List.append_nil _).symm
    all_goals rfl
  have hlen : txs.length = 7 := rfl
  rw [hlen] at r1
  have all : Reaches (7 + p.wait.length + 1) s (settle u) := by
    have := r1.trans q1
    rw [← Nat.add_assoc] at this
    refine Reaches.of_same_step this (not_idle_of_todo h) ?_
    unfold engineStep; rw [h]
    rfl
  refine ⟨7 + p.wait.length, u, all, ?_, ?_, n, ?_⟩
  · have := (r2.trans rj).trans q2
    rw [List.append_nil] at this
    have e : List.zipWith WireItem.xchg txs (p.junk ++ [p.stuff]) ++ fillers (p.wait ++ [p.r1]) = p.trace := by
      have h1 : List.zipWith WireItem.xchg txs (p.junk ++ [p.stuff]) = frameItems cmdStop 0 p.junk ++ [.xchg Config.filler p.stuff] := by
        simp only [txs]; rw [List.zipWith_append (by rw [hj]; rfl)]; rfl
      rw [h1]; simp [StopReply.trace, fillers]
    rw [e] at this
    exact ⟨this.todo, this.pos, this.lat, this.out, this.dstat, this.ctype, this.dmast, this.atc, this.speed, this.job,
      this.taken, this.sched, this.trace, this.env, this.ty, this.icmd, this.okf, this.pst, this.addr⟩
  · have := r3.trans (Kept.trans (t := doJoin .startPoll (t.withTodo k)) ⟨rfl, rfl, rfl⟩ q3)
    exact ⟨this.cs, this.tmr, this.mem⟩
  · rw [q4]
    show ({ t.wk with ntry := n, r1 := p.r1 } : Work) = _
    rw [r4]; rfl

/-- `deselect()` (40_bus_transport.md R137). -/
theorem runs_deselect {s : State} {k : List Micro} {d : Byte} {more : List Byte} (h : s.todo = deselect ++ k)
    (hc : s.env.card = d :: more) :
    ∃ t, Reaches 2 s (settle t) ∧ Runs s t [.cs true, .xchg Config.filler d] k more ∧ t.cs = true ∧ t.tmr = s.tmr ∧ t.mem = s.mem ∧
      t.wk = s.wk := by
  let s1 : State := ((s.withTodo (.exchange (.send Config.filler) :: k)).withCs true).log (.cs true)
  have a1 : Reaches 1 s s1 := by
    have := reaches_action_to (s := s) (u := s1) (l := .setCs true) h rfl
    rwa [show settle s1 = s1 from settle_exchange rfl] at this
  obtain ⟨b1, b2, b3, b4⟩ := runs_send (s := s1) (k := k) (rx := d) (more := more) rfl hc
  refine ⟨_, a1.trans b1, ?_, by rw [b3.cs]; rfl, by rw [b3.tmr]; rfl, by rw [b3.mem]; rfl, by rw [b4]; rfl⟩
  have : Runs s s1 [.cs true] s1.todo (d :: more) := by
    constructor
    case env => show s.env = _; rw [← hc]
    all_goals rfl
  exact this.trans b2

/-- One byte of the trailer, with more exchanges or none behind it. -/
theorem runs_trailByte {s : State} {i : Fin 4} {k : List Micro} {b : Byte} {more : List Byte} (h : s.todo = .exchange (.trail i) :: k)
    (hc : s.env.card = b :: more) :
    ∃ t, Reaches 1 s (settle t) ∧ Runs s t [.xchg Config.filler b] k more ∧ Kept s t ∧
      t.wk = { s.wk with trail := s.wk.trail.set i b } :=
  ⟨trailByte i b (s.got (.trail i) b k more), reaches_got_to h hc rfl, by constructor <;> rfl, ⟨rfl, rfl, rfl⟩, rfl⟩

theorem trail_filled (v : Vector Byte 4) (a b c d : Byte) : (((v.set 0 a).set 1 b).set 2 c).set 3 d = #v[a, b, c, d] := by
  apply Vector.ext
  intro i hi
  have : i = 0 ∨ i = 1 ∨ i = 2 ∨ i = 3 := by omega
  rcases this with rfl | rfl | rfl | rfl <;> simp

/-- `read_trailer()` (42_command_framing.md R190). -/
theorem runs_trailer {s : State} {k : List Micro} {a b c d : Byte} {more : List Byte} (h : s.todo = readTrailer ++ k)
    (hc : s.env.card = a :: b :: c :: d :: more) :
    ∃ t, Reaches 4 s (settle t) ∧ Runs s t (fillers [a, b, c, d]) k more ∧ Kept s t ∧
      t.wk = { s.wk with trail := #v[a, b, c, d] } := by
  obtain ⟨t1, a1, a2, a3, a4⟩ := runs_trailByte (s := s) h hc
  rw [settle_exchange a2.todo] at a1
  obtain ⟨t2, b1, b2, b3, b4⟩ := runs_trailByte a2.todo (by rw [a2.env])
  rw [settle_exchange b2.todo] at b1
  obtain ⟨t3, c1, c2, c3, c4⟩ := runs_trailByte b2.todo (by rw [b2.env])
  rw [settle_exchange c2.todo] at c1
  obtain ⟨t4, d1, d2, d3, d4⟩ := runs_trailByte c2.todo (by rw [c2.env])
  refine ⟨t4, ((a1.trans b1).trans c1).trans d1, ((a2.trans b2).trans c2).trans d2, ((a3.trans b3).trans c3).trans d3, ?_⟩
  rw [d4, c4, b4, a4]
  show ({ s.wk with trail := (((s.wk.trail.set 0 a).set 1 b).set 2 c).set 3 d } : Work) = _
  rw [trail_filled]

/-! ### The token wait (44_polling_block_io.md R238) -/

theorem runs_token (n : Nat) : ∀ (s : State) (k : List Micro) (b : Byte) (more : List Byte), s.todo = .exchange .token :: k →
    s.env.card = List.replicate n Config.filler ++ b :: more → b ≠ Config.filler → s.tmr.tok ≠ 0 →
    ∃ t, Reaches (2 * n + 1) s (settle t) ∧ Runs s t (fillers (List.replicate n Config.filler ++ [b])) k more ∧ Kept s t ∧
      t.wk = { s.wk with tok := b, flag := b == Config.tokStart } := by
  induction n with
  | zero =>
    intro s k b more ht hc hb _
    refine ⟨_, reaches_got_to ht hc (u := (s.got .token b k more).withWk { s.wk with tok := b, flag := b == Config.tokStart }) ?_, ?_, ?_, rfl⟩
    · simp only [received, tokenByte, if_neg hb]; rfl
    · constructor <;> rfl
    · exact ⟨rfl, rfl, rfl⟩
  | succ n ih =>
    intro s k b more ht hc hb hz
    let g := s.got .token Config.filler k (List.replicate n Config.filler ++ b :: more)
    let u := (g.withWk { s.wk with tok := Config.filler }).push [.act .tokenExpired]
    let v := (g.withWk { s.wk with tok := Config.filler }).push [.exchange .token]
    have r1 : Reaches 1 s (settle u) := reaches_got_to ht hc rfl
    have r2 : Reaches 1 u (settle v) := reaches_action_to (k := k) rfl (by
      have : (u.withTodo k).expired .tok = false := by
        show (s.tmr.tok == 0) = false
        simpa using hz
      simp only [doLocal, tokenTimer, this]; rfl)
    rw [show settle u = u from settle_act rfl] at r1
    rw [show settle v = v from settle_exchange rfl] at r2
    obtain ⟨t, q1, q2, q3, q4⟩ := ih v k b more rfl rfl hb hz
    have rv : Runs s v [.xchg Config.filler Config.filler] v.todo (List.replicate n Config.filler ++ b :: more) := by
      constructor <;> rfl
    refine ⟨t, ?_, rv.trans q2, Kept.trans (t := v) ⟨rfl, rfl, rfl⟩ q3, by rw [q4]; rfl⟩
    have := (r1.trans r2).trans q1
    rwa [show 1 + 1 + (2 * n + 1) = 2 * (n + 1) + 1 by omega] at this

/-- `wait_token()`, its counter armed first. -/
theorem runs_waitToken {n : Nat} {s : State} {k : List Micro} {b : Byte} {more : List Byte} (h : s.todo = waitToken ++ k)
    (hc : s.env.card = List.replicate n Config.filler ++ b :: more) (hb : b ≠ Config.filler) :
    ∃ t, Reaches (1 + (2 * n + 1)) s (settle t) ∧ Runs s t (fillers (List.replicate n Config.filler ++ [b])) k more ∧ t.cs = s.cs ∧
      t.mem = s.mem ∧ t.tmr = { s.tmr with tok := Config.tTokMs } ∧ t.wk = { s.wk with tok := b, flag := b == Config.tokStart } := by
  let s1 : State := (s.withTodo (.exchange .token :: k)).armTimer .tok Config.tTokMs
  have a1 : Reaches 1 s s1 := by
    have := reaches_action_to (s := s) (u := s1) (l := .arm .tok Config.tTokMs) h rfl
    rwa [show settle s1 = s1 from settle_exchange rfl] at this
  obtain ⟨t, q1, q2, q3, q4⟩ := runs_token n s1 k b more rfl hc hb (by show Config.tTokMs ≠ 0; decide)
  have r1 : Runs s s1 [] s1.todo (List.replicate n Config.filler ++ b :: more) := by
    constructor
    case env => show s.env = _; rw [← hc]
    case trace => exact (List.append_nil _).symm
    all_goals rfl
  exact ⟨t, a1.trans q1, r1.trans q2, by rw [q3.cs]; rfl, by rw [q3.mem]; rfl, by rw [q3.tmr]; rfl, by rw [q4]; rfl⟩

end Sys2Proof.Machine
end

