-- ==== Sys2Proof/Laws/RunData.lean ====
section
/-! SUPPORT. Laws/RunData.lean: runs of the data packets (44_polling_block_io.md R232, R233): the reception of a block or of the CSD
register, the transmission of a block or of the stop token. -/

namespace Sys2Proof.Machine

/-! ### Reception -/

theorem storeAt_mem (s : State) (d : Dest) (i : Nat) (b : Byte) :
    (s.storeAt d i b).mem = d.memAfter s.lat.buf i [b] s.mem := by
  cases d <;> rfl

theorem storeAt_csdr (s : State) (d : Dest) (i : Nat) (b : Byte) :
    (s.storeAt d i b).wk.csdr = d.csdAfter i [b] s.wk.csdr := by
  cases d <;> rfl

theorem memAfter_cons (d : Dest) (base : Word) (i : Nat) (b : Byte) (bs : List Byte) (m : Memory) :
    d.memAfter base i (b :: bs) m = d.memAfter base (i + 1) bs (d.memAfter base i [b] m) := by
  cases d <;> rfl

theorem csdAfter_cons (d : Dest) (i : Nat) (b : Byte) (bs : List Byte) (c : Vector Byte 16) :
    d.csdAfter i (b :: bs) c = d.csdAfter (i + 1) bs (d.csdAfter i [b] c) := by
  cases d <;> rfl

/-- A stored byte changes no register a run is about. -/
theorem Runs.stored {s t : State} {i : List WireItem} {k : List Micro} {m : List Byte} (h : Runs s t i k m) (d : Dest) (j : Nat)
    (b : Byte) : Runs s (t.storeAt d j b) i k m := by
  cases d <;>
    exact ⟨h.todo, h.pos, h.lat, h.out, h.dstat, h.ctype, h.dmast, h.atc, h.speed, h.job, h.taken, h.sched, h.trace, h.env, h.ty,
      h.icmd, h.okf, h.pst, h.addr⟩

@[simp] theorem storeAt_todo (s : State) (d : Dest) (j : Nat) (b : Byte) : (s.storeAt d j b).todo = s.todo := by cases d <;> rfl
@[simp] theorem storeAt_cs (s : State) (d : Dest) (j : Nat) (b : Byte) : (s.storeAt d j b).cs = s.cs := by cases d <;> rfl
@[simp] theorem storeAt_tmr (s : State) (d : Dest) (j : Nat) (b : Byte) : (s.storeAt d j b).tmr = s.tmr := by cases d <;> rfl
@[simp] theorem storeAt_idx (s : State) (d : Dest) (j : Nat) (b : Byte) : (s.storeAt d j b).wk.idx = s.wk.idx := by cases d <;> rfl
@[simp] theorem storeAt_r1 (s : State) (d : Dest) (j : Nat) (b : Byte) : (s.storeAt d j b).wk.r1 = s.wk.r1 := by cases d <;> rfl

/-- A data byte's exchange and its store: two steps for the buffer, one for CSDR (70_reset_and_hazards.md R360). -/
theorem reaches_store {s u : State} {d : Dest} {k : List Micro} {b : Byte} {more : List Byte} (h : s.todo = .exchange (.data d) :: k)
    (hc : s.env.card = b :: more) (hu : storeData d ((s.got (.data d) b k more).withWk { s.wk with dat := b }) = u) :
    ∃ n, Reaches n s (settle u) := by
  cases d with
  | csd => exact ⟨1, reaches_got_to h hc hu⟩
  | buffer =>
    let v : State := ((s.got (.data .buffer) b k more).withWk { s.wk with dat := b }).push [.act .store]
    have a1 : Reaches 1 s v := by
      have := reaches_got_to (u := v) h hc rfl
      rwa [show settle v = v from settle_act rfl] at this
    exact ⟨2, a1.trans (reaches_action_to (s := v) (k := k) rfl hu)⟩

/-- One data byte exchanged and stored. -/
theorem runs_dataByte {s : State} {d : Dest} {k : List Micro} {b : Byte} {more : List Byte} {i : Nat}
    (h : s.todo = .exchange (.data d) :: k) (hc : s.env.card = b :: more) (hi : s.wk.idx.toNat = i) (hlt : i + 1 < d.len) :
    ∃ n t, Reaches n s t ∧ Runs s t [.xchg Config.filler b] (.exchange (.data d) :: k) more ∧ t.cs = s.cs ∧ t.tmr = s.tmr ∧
      t.mem = d.memAfter s.lat.buf i [b] s.mem ∧ t.wk.csdr = d.csdAfter i [b] s.wk.csdr ∧ t.wk.idx.toNat = i + 1 ∧
      t.wk.r1 = s.wk.r1 := by
  let u : State := (s.got (.data d) b k more).withWk { s.wk with dat := b }
  have hd : d.len ≤ 512 := by cases d <;> decide
  let v : State := u.storeAt d i b
  let t : State := (v.withWk { v.wk with idx := v.wk.idx + 1 }).push [.exchange (.data d)]
  have hs : storeData d u = t := by
    have e1 : u.wk.idx.toNat = i := hi
    simp only [storeData, e1]
    rw [if_neg (by omega)]; rfl
  obtain ⟨n, a⟩ := reaches_store h hc hs
  rw [show settle t = t from settle_exchange (x := .data d) (k := v.todo) rfl] at a
  have hidx : v.wk.idx = s.wk.idx := storeAt_idx u d i b
  have ru : Runs s u [.xchg Config.filler b] k more :=
    (runs_got s (.data d) b k more).working { s.wk with dat := b } k rfl rfl rfl rfl rfl
  have hvt : v.todo = k := storeAt_todo u d i b
  have rt : Runs s t [.xchg Config.filler b] (.exchange (.data d) :: v.todo) more := (ru.stored d i b).working _ _ rfl rfl rfl rfl rfl
  rw [hvt] at rt
  refine ⟨n, t, a, rt, storeAt_cs u d i b, storeAt_tmr u d i b, storeAt_mem u d i b, storeAt_csdr u d i b, ?_, storeAt_r1 u d i b⟩
  show (v.wk.idx + 1).toNat = i + 1
  rw [hidx]; bv_omega

/-- The last data byte, and the two CRC bytes behind it. -/
theorem runs_lastByte {s : State} {d : Dest} {k : List Micro} {b c0 c1 : Byte} {more : List Byte} {i : Nat}
    (h : s.todo = .exchange (.data d) :: k) (hc : s.env.card = b :: c0 :: c1 :: more) (hi : s.wk.idx.toNat = i) (hlt : i + 1 = d.len) :
    ∃ n t, Reaches n s (settleWithin 7 t) ∧ Runs s t (fillers [b, c0, c1]) k more ∧ t.cs = s.cs ∧ t.tmr = s.tmr ∧
      t.mem = d.memAfter s.lat.buf i [b] s.mem ∧ t.wk.csdr = d.csdAfter i [b] s.wk.csdr ∧ t.wk.r1 = s.wk.r1 ∧ t.wk.flag = true := by
  let u : State := (s.got (.data d) b k (c0 :: c1 :: more)).withWk { s.wk with dat := b }
  let v : State := u.storeAt d i b
  let w : State := v.push (sends [Config.filler, Config.filler] ++ [.join .returnTrue])
  have hs : storeData d u = w := by
    have e1 : u.wk.idx.toNat = i := hi
    simp only [storeData, e1]
    rw [if_pos hlt]; rfl
  obtain ⟨n, a⟩ := reaches_store h hc hs
  rw [show settle w = w from settle_exchange (x := .send Config.filler)
    (k := .exchange (.send Config.filler) :: .join .returnTrue :: v.todo) rfl] at a
  have hv : v.todo = k := storeAt_todo u d i b
  have ru : Runs s u [.xchg Config.filler b] k (c0 :: c1 :: more) :=
    (runs_got s (.data d) b k (c0 :: c1 :: more)).working { s.wk with dat := b } k rfl rfl rfl rfl rfl
  have r12 : Runs s w [.xchg Config.filler b] w.todo (c0 :: c1 :: more) := (ru.stored d i b).before _
  obtain ⟨x, b1, b2, b3, b4⟩ := runs_sends [Config.filler, Config.filler] [c0, c1] w (.join .returnTrue :: k) more (by simp) rfl
    (by show _ ++ v.todo = _; rw [hv]; simp) (by rw [r12.env]; rfl)
  have b1 : Reaches 2 w (settle x) := b1
  let t : State := doJoin .returnTrue (x.withTodo k)
  have e : settle x = settleWithin 7 t := by
    show settleWithin 8 x = _
    rw [settleWithin, b2.todo]
  rw [e] at b1
  have r3 := (r12.trans b2).before k
  refine ⟨_, t, a.trans b1, ?_, ?_, ?_, ?_, ?_, ?_, rfl⟩
  · exact ⟨rfl, r3.pos, r3.lat, r3.out, r3.dstat, r3.ctype, r3.dmast, r3.atc, r3.speed, r3.job,
      r3.taken, r3.sched, r3.trace, r3.env, r3.ty, r3.icmd, r3.okf, r3.pst, r3.addr⟩
  · exact b3.cs.trans (storeAt_cs u d i b)
  · exact b3.tmr.trans (storeAt_tmr u d i b)
  · show x.mem = _; rw [b3.mem]; exact storeAt_mem u d i b
  · show x.wk.csdr = _; rw [b4]; exact storeAt_csdr u d i b
  · show x.wk.r1 = _; rw [b4]; exact storeAt_r1 u d i b

/-- The data of a packet from an index to its end. -/
theorem runs_data (data : List Byte) : ∀ (s : State) (d : Dest) (k : List Micro) (c0 c1 : Byte) (more : List Byte) (i : Nat),
    data ≠ [] → s.todo = .exchange (.data d) :: k → s.env.card = data ++ c0 :: c1 :: more → s.wk.idx.toNat = i →
    i + data.length = d.len →
    ∃ n t, Reaches n s (settleWithin 7 t) ∧ Runs s t (fillers (data ++ [c0, c1])) k more ∧ t.cs = s.cs ∧ t.tmr = s.tmr ∧
      t.mem = d.memAfter s.lat.buf i data s.mem ∧ t.wk.csdr = d.csdAfter i data s.wk.csdr ∧ t.wk.r1 = s.wk.r1 ∧
      t.wk.flag = true := by
  induction data with
  | nil => intro _ _ _ _ _ _ _ h; exact absurd rfl h
  | cons b data ih =>
    intro s d k c0 c1 more i _ h hc hi hl
    cases data with
    | nil =>
      exact runs_lastByte h hc hi hl
    | cons b' data =>
      simp only [List.length_cons] at hl
      obtain ⟨m, t, r1, r2, r3, r4, r5, r6, r7, r8⟩ := runs_dataByte (i := i) h hc hi (by omega)
      obtain ⟨n, u, q1, q2, q3, q4, q5, q6, q7, q8⟩ := ih t d k c0 c1 more (i + 1) (by simp) r2.todo (by rw [r2.env]; rfl) r7 (by
        simp only [List.length_cons]; omega)
      refine ⟨m + n, u, r1.trans q1, r2.trans q2, q3.trans r3, q4.trans r4, ?_, ?_, q7.trans r8, q8⟩
      · rw [memAfter_cons, q5, r2.lat, r5]
      · rw [csdAfter_cons, q6, r6]

/-- `rcvr_datablock(dest, len)` on a packet that comes (R232). -/
theorem runs_receive {s : State} {d : Dest} {k : List Micro} {p : Packet} {more : List Byte} (h : s.todo = receiveBlock d ++ k)
    (hc : s.env.card = p.bytes ++ more) (hl : p.data.length = d.len) :
    ∃ n t, Reaches n s (settleWithin 7 t) ∧ Runs s t (fillers p.bytes) k more ∧ t.cs = s.cs ∧
      t.tmr = { s.tmr with tok := Config.tTokMs } ∧ t.mem = d.memAfter s.lat.buf 0 p.data s.mem ∧
      t.wk.csdr = d.csdAfter 0 p.data s.wk.csdr ∧ t.wk.r1 = s.wk.r1 ∧ t.wk.flag = true := by
  obtain ⟨t, r1, r2, r3, r4, r5, r6⟩ := runs_waitToken (n := p.fill) (k := .join (.tokenSeen d) :: k) (b := Config.tokStart)
    (more := p.data ++ p.crc0 :: p.crc1 :: more) (by rw [h]; simp [receiveBlock]) (by rw [hc]; simp [Packet.bytes]) (by decide)
  let u : State := ((t.withTodo k).withWk { t.wk with idx := 0 }).push [.exchange (.data d)]
  have e : settle t = u := by
    have hd : doJoin (.tokenSeen d) (t.withTodo k) = u := by
      have : (t.withTodo k).wk.flag = true := by rw [State.withTodo_wk, r6]; rfl
      show (if (t.withTodo k).wk.flag = true then _ else _) = u
      rw [if_pos this]; rfl
    rw [settle_join r2.todo (hd ▸ atRest_of_head _ _ rfl rfl), hd]
  rw [e] at r1
  have hne : p.data ≠ [] := by
    intro hn; rw [hn] at hl; cases d <;> simp [Dest.len, Config.blockLen, Config.csdLen] at hl
  obtain ⟨n, v, q1, q2, q3, q4, q5, q6, q7, q8⟩ := runs_data p.data u d k p.crc0 p.crc1 more 0 hne rfl (by
    show t.env.card = _; rw [r2.env]) rfl (by omega)
  have ru : Runs s u (fillers (List.replicate p.fill Config.filler ++ [Config.tokStart])) u.todo
      (p.data ++ p.crc0 :: p.crc1 :: more) := by
    have := r2.before u.todo
    exact ⟨rfl, this.pos, this.lat, this.out, this.dstat, this.ctype, this.dmast, this.atc, this.speed, this.job,
      this.taken, this.sched, this.trace, this.env, this.ty, this.icmd, this.okf, this.pst, this.addr⟩
  refine ⟨_, v, r1.trans q1, ?_, ?_, ?_, ?_, ?_, ?_, q8⟩
  · have := ru.trans q2
    rwa [show fillers (List.replicate p.fill Config.filler ++ [Config.tokStart]) ++ fillers (p.data ++ [p.crc0, p.crc1]) =
      fillers p.bytes by simp [fillers, Packet.bytes]] at this
  · rw [q3]; exact r3
  · rw [q4]; exact r5
  · rw [q5]; show d.memAfter t.lat.buf 0 p.data t.mem = _; rw [r2.lat, r4]
  · rw [q6]; show d.csdAfter 0 p.data t.wk.csdr = _; rw [r6]
  · rw [q7]; show t.wk.r1 = _; rw [r6]

/-! ### Transmission -/

theorem bufferBytes_length (s : State) (base : Word) (n : Nat) : ∀ i, (bufferBytes s base i n).length = n := by
  induction n with
  | zero => intro i; rfl
  | succ n ih => intro i; simp [bufferBytes, ih]

theorem bufferBytes_mem {s t : State} (h : t.mem = s.mem) (base : Word) (n : Nat) : ∀ i,
    bufferBytes t base i n = bufferBytes s base i n := by
  induction n with
  | zero => intro i; rfl
  | succ n ih => intro i; simp only [bufferBytes, ih, State.readByte, h]

/-- One data byte fetched and sent. -/
theorem runs_loadByte {s : State} {k : List Micro} {rx : Byte} {more : List Byte} {i : Nat}
    (h : s.todo = .act .load :: k) (hc : s.env.card = rx :: more) (hi : s.wk.idx.toNat = i) (hlt : i + 1 < Config.blockLen) :
    ∃ t, Reaches 2 s t ∧ Runs s t [.xchg (s.readByte (bufferAddr s.lat.buf i)) rx] (.act .load :: k) more ∧ Kept s t ∧
      t.wk.idx.toNat = i + 1 ∧ t.wk.r1 = s.wk.r1 := by
  let b := s.readByte (bufferAddr s.lat.buf i)
  let u : State := ((s.withTodo k).withWk { s.wk with dat := b }).push [.exchange .sendData]
  have a1 : Reaches 1 s u := by
    have := reaches_action_to (s := s) (u := u) h (by simp only [doLocal, loadData, State.withTodo_wk, hi]; rfl)
    rwa [show settle u = u from settle_exchange rfl] at this
  let g : State := u.got .sendData rx k more
  let t : State := (g.withWk { g.wk with idx := g.wk.idx + 1 }).push [.act .load]
  have a2 : Reaches 1 u t := by
    have := reaches_got_to (s := u) (u := t) (k := k) (bs := more) rfl hc (by
      have hg : (u.got .sendData rx k more).wk.idx.toNat = i := hi
      show (if (u.got .sendData rx k more).wk.idx.toNat + 1 = Config.blockLen then _ else _) = t
      rw [hg, if_neg (by omega)])
    rwa [show settle t = t from settle_act rfl] at this
  refine ⟨t, a1.trans a2, by constructor <;> rfl, ⟨rfl, rfl, rfl⟩, ?_, rfl⟩
  show (s.wk.idx + 1).toNat = i + 1
  simp only [Config.blockLen] at hlt; bv_omega

/-- The last data byte, the two dummy CRC bytes, and the data response. -/
theorem runs_lastLoad {s : State} {k : List Micro} {rx c0 c1 r : Byte} {more : List Byte} {i : Nat}
    (h : s.todo = .act .load :: k) (hc : s.env.card = rx :: c0 :: c1 :: r :: more) (hi : s.wk.idx.toNat = i)
    (hlt : i + 1 = Config.blockLen) :
    ∃ t, Reaches 5 s (settle t) ∧ Runs s t (.xchg (s.readByte (bufferAddr s.lat.buf i)) rx :: fillers [c0, c1, r]) k more ∧ Kept s t ∧
      t.wk.r1 = s.wk.r1 ∧ t.wk.flag = responseAccepted r := by
  let b := s.readByte (bufferAddr s.lat.buf i)
  let u : State := ((s.withTodo k).withWk { s.wk with dat := b }).push [.exchange .sendData]
  have a1 : Reaches 1 s u := by
    have := reaches_action_to (s := s) (u := u) h (by simp only [doLocal, loadData, State.withTodo_wk, hi]; rfl)
    rwa [show settle u = u from settle_exchange rfl] at this
  let g : State := u.got .sendData rx k (c0 :: c1 :: r :: more)
  let w : State := g.push (sends [Config.filler, Config.filler] ++ [.exchange .response])
  have a2 : Reaches 1 u w := by
    have := reaches_got_to (s := u) (u := w) (k := k) (bs := c0 :: c1 :: r :: more) rfl hc (by
      have hg : (u.got .sendData rx k (c0 :: c1 :: r :: more)).wk.idx.toNat = i := hi
      show (if (u.got .sendData rx k (c0 :: c1 :: r :: more)).wk.idx.toNat + 1 = Config.blockLen then _ else _) = w
      rw [hg, if_pos hlt]; rfl)
    rwa [show settle w = w from settle_exchange (x := .send Config.filler)
      (k := .exchange (.send Config.filler) :: .exchange .response :: k) rfl] at this
  have rw1 : Runs s w [.xchg b rx] w.todo (c0 :: c1 :: r :: more) := by constructor <;> rfl
  obtain ⟨x, b1, b2, b3, b4⟩ := runs_sends [Config.filler, Config.filler] [c0, c1] w (.exchange .response :: k) (r :: more) (by simp) rfl
    rfl rfl
  have b1 : Reaches 2 w (settle x) := b1
  rw [settle_exchange b2.todo] at b1
  let y : State := x.got .response r k more
  let t : State := (y.withWk { y.wk with dresp := r }).returnFlag (responseAccepted r)
  have a3 : Reaches 1 x (settle t) := reaches_got_to (s := x) b2.todo (by rw [b2.env]) rfl
  have r3 : Runs x t [.xchg Config.filler r] k more := by constructor <;> rfl
  refine ⟨t, ((a1.trans a2).trans b1).trans a3, (rw1.trans b2).trans r3, ?_, ?_, rfl⟩
  · exact ⟨b3.cs, b3.tmr, b3.mem⟩
  · show x.wk.r1 = _; rw [b4]; rfl

/-- The data of a transmitted packet from an index to its end. -/
theorem runs_load (n : Nat) : ∀ (s : State) (k : List Micro) (junk : List Byte) (c0 c1 r : Byte) (more : List Byte) (i : Nat),
    junk.length = n + 1 → s.todo = .act .load :: k → s.env.card = junk ++ c0 :: c1 :: r :: more → s.wk.idx.toNat = i →
    i + (n + 1) = Config.blockLen →
    ∃ m t, Reaches m s (settle t) ∧
      Runs s t (List.zipWith WireItem.xchg (bufferBytes s s.lat.buf i (n + 1)) junk ++ fillers [c0, c1, r]) k more ∧ Kept s t ∧
      t.wk.r1 = s.wk.r1 ∧ t.wk.flag = responseAccepted r := by
  induction n with
  | zero =>
    intro s k junk c0 c1 r more i hl h hc hi hlt
    match junk, hl with
    | [rx], _ =>
      obtain ⟨t, q⟩ := runs_lastLoad h hc hi hlt
      exact ⟨5, t, q⟩
  | succ n ih =>
    intro s k junk c0 c1 r more i hl h hc hi hlt
    match junk, hl with
    | rx :: junk, hl =>
      obtain ⟨t, r1, r2, r3, r4, r5⟩ := runs_loadByte (i := i) h hc hi (by omega)
      obtain ⟨m, u, q1, q2, q3, q4, q5⟩ := ih t k junk c0 c1 r more (i + 1) (by simpa using hl) r2.todo (by rw [r2.env]; rfl) r4 (by omega)
      refine ⟨2 + m, u, r1.trans q1, ?_, r3.trans q3, q4.trans r5, q5⟩
      have := r2.trans q2
      rw [r2.lat, bufferBytes_mem r3.mem] at this
      exact this

/-- `xmit_datablock(BUF, token)` with a block token (R233). -/
theorem runs_transmit {s : State} {tok : Byte} {k : List Micro} {p : Receipt} {more : List Byte} (htok : tok ≠ Config.tokStop)
    (h : s.todo = transmitBlock tok ++ k) (hc : s.env.card = p.bytes ++ more) (hp : p.ok) :
    ∃ n t, Reaches n s (settle t) ∧ Runs s t (p.trace tok (bufferBytes s s.lat.buf 0 Config.blockLen)) k more ∧ t.cs = s.cs ∧
      t.tmr = { s.tmr with rdy := Config.tRdyMs } ∧ t.mem = s.mem ∧ t.wk.r1 = s.wk.r1 ∧
      t.wk.flag = responseAccepted p.response := by
  obtain ⟨hb, hj⟩ := hp
  obtain ⟨m, t, r1, r2, r3, r4, r5, r6⟩ := runs_waitReady (k := .join (.cardReady tok) :: k) (busy := p.busy)
    (more := p.token :: (p.junk ++ p.crc0 :: p.crc1 :: p.response :: more)) (by rw [h]; simp [transmitBlock])
    (by rw [hc]; simp [Receipt.bytes]) hb
  let u : State := ((t.withTodo k).withWk { t.wk with idx := 0 }).push [.exchange (.sendToken tok), .act .load]
  have e : settle t = u := by
    have hd : doJoin (.cardReady tok) (t.withTodo k) = u := by
      have : (t.withTodo k).wk.flag = true := by rw [State.withTodo_wk, r6]
      show (if (t.withTodo k).wk.flag = true then _ else _) = u
      rw [if_pos this, if_neg htok]; rfl
    rw [settle_join r2.todo (hd ▸ atRest_of_head _ _ rfl rfl), hd]
  rw [e] at r1
  have hcu : u.env.card = p.token :: (p.junk ++ p.crc0 :: p.crc1 :: p.response :: more) := by
    show t.env.card = _; rw [r2.env]
  let v : State := u.got (.sendToken tok) p.token (.act .load :: k) (p.junk ++ p.crc0 :: p.crc1 :: p.response :: more)
  have a2 : Reaches 1 u v := by
    have := reaches_got_to (s := u) (u := v) rfl hcu rfl
    rwa [show settle v = v from settle_act rfl] at this
  have ru : Runs s u (fillers (p.busy ++ [Config.filler])) u.todo
      (p.token :: (p.junk ++ p.crc0 :: p.crc1 :: p.response :: more)) := by
    have := r2.before u.todo
    exact ⟨rfl, this.pos, this.lat, this.out, this.dstat, this.ctype, this.dmast, this.atc, this.speed, this.job,
      this.taken, this.sched, this.trace, this.env, this.ty, this.icmd, this.okf, this.pst, this.addr⟩
  have rv : Runs u v [.xchg tok p.token] v.todo (p.junk ++ p.crc0 :: p.crc1 :: p.response :: more) := by constructor <;> rfl
  obtain ⟨n, w, q1, q2, q3, q4, q5⟩ := runs_load 511 v k p.junk p.crc0 p.crc1 p.response more 0 hj rfl rfl rfl rfl
  have hm : v.mem = s.mem := by show t.mem = s.mem; exact r4
  have hlat : v.lat = s.lat := by show t.lat = s.lat; exact r2.lat
  refine ⟨_, w, (r1.trans a2).trans q1, ?_, ?_, ?_, ?_, ?_, q5⟩
  · have := (ru.trans rv).trans q2
    rw [hlat, bufferBytes_mem hm] at this
    rwa [show fillers (p.busy ++ [Config.filler]) ++ [.xchg tok p.token] ++
      (List.zipWith WireItem.xchg (bufferBytes s s.lat.buf 0 (511 + 1)) p.junk ++ fillers [p.crc0, p.crc1, p.response]) =
      p.trace tok (bufferBytes s s.lat.buf 0 Config.blockLen) by simp [Receipt.trace, Config.blockLen]] at this
  · rw [q3.cs]; exact r3
  · rw [q3.tmr]; exact r5
  · rw [q3.mem]; exact hm
  · rw [q4]; show t.wk.r1 = _; rw [r6]

/-- `xmit_datablock(BUF, 0xFD)`: the stop token. -/
theorem runs_stopToken {s : State} {k : List Micro} {busy more : List Byte} {x : Byte}
    (h : s.todo = transmitBlock Config.tokStop ++ k) (hc : s.env.card = busy ++ Config.filler :: x :: more)
    (hb : ∀ b ∈ busy, cardIsReady b = false) :
    ∃ n t, Reaches n s (settleWithin 7 t) ∧ Runs s t (fillers (busy ++ [Config.filler]) ++ [.xchg Config.tokStop x]) k more ∧ t.cs = s.cs ∧
      t.tmr = { s.tmr with rdy := Config.tRdyMs } ∧ t.mem = s.mem ∧ t.wk.r1 = s.wk.r1 ∧ t.wk.flag = true := by
  obtain ⟨m, t, r1, r2, r3, r4, r5, r6⟩ := runs_waitReady (k := .join (.cardReady Config.tokStop) :: k) (busy := busy)
    (more := x :: more) (by rw [h]; simp [transmitBlock]) hc hb
  let u : State := (t.withTodo k).push [.exchange (.sendToken Config.tokStop), .join .returnTrue]
  have e : settle t = u := by
    have hd : doJoin (.cardReady Config.tokStop) (t.withTodo k) = u := by
      have : (t.withTodo k).wk.flag = true := by rw [State.withTodo_wk, r6]
      show (if (t.withTodo k).wk.flag = true then _ else _) = u
      rw [if_pos this, if_pos rfl]
    rw [settle_join r2.todo (hd ▸ atRest_of_head _ _ rfl rfl), hd]
  rw [e] at r1
  have hcu : u.env.card = x :: more := by show t.env.card = _; rw [r2.env]
  let v : State := u.got (.sendToken Config.tokStop) x (.join .returnTrue :: k) more
  have a2 : Reaches 1 u (settle v) := reaches_got_to (s := u) (u := v) rfl hcu rfl
  let w : State := doJoin .returnTrue (v.withTodo k)
  have hv : v.todo = .join .returnTrue :: k := rfl
  have e2 : settle v = settleWithin 7 w := by
    show settleWithin 8 v = _
    rw [settleWithin, hv]
  rw [e2] at a2
  have ru : Runs s u (fillers (busy ++ [Config.filler])) u.todo (x :: more) := r2.before u.todo
  have rv : Runs u v [.xchg Config.tokStop x] v.todo more := by constructor <;> rfl
  have all := (ru.trans rv).before k
  refine ⟨_, w, r1.trans a2, ?_, r3, r5, r4, ?_, rfl⟩
  · exact ⟨rfl, all.pos, all.lat, all.out, all.dstat, all.ctype, all.dmast, all.atc, all.speed, all.job,
      all.taken, all.sched, all.trace, all.env, all.ty, all.icmd, all.okf, all.pst, all.addr⟩
  · show t.wk.r1 = _; rw [r6]

end Sys2Proof.Machine
end

