-- ==== Sys2Proof/Laws/Schedule.lean ====
section
/-! SUPPORT. Laws/Schedule.lean: the schedule is read and written by no step of ENGINE: a step from a state with another schedule is the
same step (60_exceptions.md R313). So a run found once is the run under every schedule that gives ENGINE its turns. -/

namespace Sys2Proof.Machine

/-- An answer with another schedule in its state. -/
def withSchedule (l : List Turn) : Answer → Answer
  | .next s => .next (s.withSched l)
  | .fault r => .fault r
  | .refused r => .refused r

theorem withSched_ite (c : Prop) [Decidable c] (a b : State) (l : List Turn) :
    (if c then a else b).withSched l = if c then a.withSched l else b.withSched l := by
  split <;> rfl

theorem received_withSched (x : Exchange) (rx : Byte) (s : State) (l : List Turn) :
    received x rx (s.withSched l) = (received x rx s).withSched l := by
  cases x
  case ready =>
    show (if cardIsReady rx then _ else _) = State.withSched (if cardIsReady rx then _ else _) l
    split <;> rfl
  case token =>
    show (if rx = Config.filler then _ else _) = State.withSched (if rx = Config.filler then _ else _) l
    split <;> rfl
  case poll =>
    show (if isResponse rx || s.wk.ntry - 1 == 0 then _ else _) = State.withSched (if isResponse rx || s.wk.ntry - 1 == 0 then _ else _) l
    split <;> rfl
  case data d =>
    cases d
    · rfl
    · simp only [received, dataByte, storeData, State.storeAt, withSched_ite]; rfl
  case sendData =>
    show (if s.wk.idx.toNat + 1 = Config.blockLen then _ else _) = State.withSched (if s.wk.idx.toNat + 1 = Config.blockLen then _ else _) l
    split <;> rfl
  all_goals rfl

theorem doLocal_withSched (c : Local) (s : State) (l : List Turn) : doLocal c (s.withSched l) = (doLocal c s).withSched l := by
  cases c
  case readyExpired =>
    show (if s.expired .rdy then _ else _) = State.withSched (if s.expired .rdy then _ else _) l
    split <;> rfl
  case tokenExpired =>
    show (if s.expired .tok then _ else _) = State.withSched (if s.expired .tok then _ else _) l
    split <;> rfl
  case store => simp only [doLocal, storeData, State.storeAt, withSched_ite]; rfl
  all_goals rfl

theorem doJoin_withSched (j : Join) (s : State) (l : List Turn) : doJoin j (s.withSched l) = (doJoin j s).withSched l := by
  cases j <;> simp only [doJoin, afterSelect, afterPrefix, afterToken, afterReady, withSched_ite] <;> rfl

theorem sendCommand_withSched (cmd : Byte) (arg : Word) (s : State) (l : List Turn) :
    sendCommand cmd arg (s.withSched l) = (sendCommand cmd arg s).withSched l := by
  simp only [sendCommand, withSched_ite]; rfl

theorem doTest_withSched (u : Test) (s : State) (l : List Turn) : doTest u (s.withSched l) = (doTest u s).withSched l := by
  cases u
  case csdData =>
    show (if s.wk.flag then _ else _) = State.withSched (if s.wk.flag then _ else _) l
    rw [withSched_ite]
    split
    · show (match decodeCsd s.wk.csdr with | some v => _ | none => _) = State.withSched (match decodeCsd s.wk.csdr with | some v => _ | none => _) l
      cases decodeCsd s.wk.csdr <;> rfl
    · rfl
  case probe =>
    show negoProbe (s.withSched l) = (negoProbe s).withSched l
    unfold negoProbe
    rw [State.withSched_wk]
    by_cases h : r1Accepted s.wk.r1 = true
    · simp only [if_pos h]; rfl
    · simp only [if_neg h]; rfl
  case ocr =>
    show negoOcr (s.withSched l) = (negoOcr s).withSched l
    unfold negoOcr
    rw [State.withSched_wk]
    by_cases h : ocrBlock s.wk.trail = true
    · simp only [if_pos h]; rfl
    · simp only [if_neg h]; rfl
  case readOneData => exact flagged (f := blockClose) (fun _ => rfl) s (s.setCount 0) s
  case writeOneData => exact flagged (f := blockClose) (fun _ => rfl) s (s.setCount 0) s
  case writeStop => exact flagged (f := blockClose) (fun _ => rfl) s s (s.setCount 1)
  case pollStopToken => exact flagged (f := pollClose) (fun _ => rfl) s s (s.withWk { s.wk with okf := false })
  case blockClosed =>
    show blockClosed (s.withSched l) = (blockClosed s).withSched l
    rfl
  all_goals simp only [doTest, negoPoweredUp, negoCmd0, negoCmd8, negoTrailer, negoV2Loop, negoOcrCmd,
    negoLegacyLoop, negoBlockLen, negoClosed, negoFast, readOne, readMany, readManyData,
    readStop, writeOne, writeHint, writeMany, writeManyData,
    dmaReadCmd, dmaReadToken, dmaWriteHint, dmaWriteCmd, dmaWriteReady, dmaWriteToken,
    dmaStopped, dmaClosed, pollStopCmd, pollClosed, csdCmd, csdClosed, withSched_ite]
  all_goals rfl
where
  flagged {f : State → State} {l : List Turn} (hf : ∀ t, f (t.withSched l) = (f t).withSched l) (s : State) (a b : State) :
      f (if (s.withSched l).wk.flag then a.withSched l else b.withSched l) = (f (if s.wk.flag then a else b)).withSched l := by
    rw [State.withSched_wk]
    split
    · exact hf a
    · exact hf b

theorem withSchedule_next (l : List Turn) (s : State) : withSchedule l (.next s) = .next (s.withSched l) := rfl

theorem withSchedule_ite (c : Prop) [Decidable c] (a b : Answer) (l : List Turn) :
    withSchedule l (if c then a else b) = if c then withSchedule l a else withSchedule l b := by
  split <;> rfl

theorem doAct_withSched (a : Act) (s : State) (l : List Turn) : doAct a (s.withSched l) = withSchedule l (doAct a s) := by
  cases a
  case scale o =>
    cases o <;> simp only [doAct, readBegin, writeBegin, dmaReadBegin, dmaWriteBegin, withSchedule_next, withSched_ite] <;> rfl
  case testSdc d => cases d <;> simp only [doAct, writeTestSdc, dmaWriteTestSdc, withSchedule_next, withSched_ite] <;> rfl
  case readStatus =>
    show Host.Outcome.next (pollRead (s.withSched l)) = Host.Outcome.next ((pollRead s).withSched l)
    congr 1
    unfold pollRead
    simp only [State.withSched_wk, State.withSched_dmast, State.withWk_wk]
    cases s.dmast <;> rfl
  case testMulti d =>
    cases d <;> simp only [doAct, dmaTestMulti, withSchedule_next, withSched_ite] <;> rfl
  case readDir =>
    simp only [doAct, pollDir, withSchedule_ite, withSchedule_next, State.withSched_atc]
    cases s.atc.dir <;> rfl
  case windowExpired v =>
    cases v <;> simp only [doAct, negoWindow, withSchedule_next, withSched_ite] <;> rfl
  all_goals simp only [doAct, negoTestMedium, gateInit, gatePassed, gateProtect, guardDma, guardContext, pollMulti, ioctlGate,
    withSchedule_ite, withSchedule_next, withSched_ite]
  all_goals rfl

theorem settleWithin_withSched (n : Nat) (l : List Turn) : ∀ s : State,
    settleWithin n (s.withSched l) = (settleWithin n s).withSched l := by
  induction n with
  | zero => intro s; rfl
  | succ n ih =>
    intro s
    simp only [settleWithin, State.withSched_todo, State.withSched_pos]
    split
    · next j k _ =>
      rw [← ih, ← doJoin_withSched]; rfl
    · rfl
    · rfl
    · rfl
    · split
      · rw [← ih, ← doTest_withSched]
      · rfl
      · rfl

theorem settle_withSched (s : State) (l : List Turn) : settle (s.withSched l) = (settle s).withSched l :=
  settleWithin_withSched 8 l s

theorem doExchange_withSched (x : Exchange) (k : List Micro) (s : State) (l : List Turn) :
    doExchange x k (s.withSched l) = (doExchange x k s).withSched l := by
  have hn : (s.withSched l).nextCard = s.nextCard.map fun p => (p.1, p.2.withSched l) := by
    unfold State.nextCard
    simp only [State.withSched_env]
    split
    · rfl
    · have e : ∀ c : Bool, ∀ p : Byte × State, (if c = true then some (p.1, p.2.withSched l) else none) =
          Option.map (fun p : Byte × State => (p.1, p.2.withSched l)) (if c = true then some p else none) := by
        intro c p; cases c <;> rfl
      exact e s.env.responsive (Config.cardByte s.env.drawn, s.withEnv { s.env with drawn := s.env.drawn + 1 })
  unfold doExchange
  rw [hn]
  cases s.nextCard with
  | none => rfl
  | some p =>
    show exchanged x k p.1 (p.2.withSched l) = _
    unfold exchanged
    rw [← settle_withSched, ← received_withSched]
    cases x <;> rfl

theorem doAction_withSched (c : Local) (k : List Micro) (s : State) (l : List Turn) :
    doAction c k (s.withSched l) = (doAction c k s).withSched l := by
  unfold doAction
  rw [← settle_withSched, ← doLocal_withSched]; rfl

theorem doCommand_withSched (cmd : Byte) (arg : Word) (k : List Micro) (s : State) (l : List Turn) :
    doCommand cmd arg k (s.withSched l) = (doCommand cmd arg k s).withSched l := by
  have e : sendCommand cmd arg ((s.withSched l).withTodo k) = (sendCommand cmd arg (s.withTodo k)).withSched l :=
    sendCommand_withSched cmd arg (s.withTodo k) l
  simp only [doCommand, e, State.withSched_todo]
  split
  · exact doExchange_withSched _ _ _ l
  · exact doAction_withSched _ _ _ l
  · rfl
  · rfl
  · rfl

/-- A step of ENGINE is the same under every schedule. -/
theorem engineStep_withSched (s : State) (l : List Turn) : engineStep (s.withSched l) = withSchedule l (engineStep s) := by
  simp only [engineStep, State.withSched_todo, State.withSched_pos]
  split
  · rw [doExchange_withSched]; rfl
  · rw [doAction_withSched]; rfl
  · rw [doCommand_withSched]; rfl
  · rw [settle_withSched]; rfl
  · split
    · rfl
    · next a _ =>
      rw [doAct_withSched]
      cases doAct a s with
      | next t => show Host.Outcome.next (settle (t.withSched l)) = _; rw [settle_withSched]; rfl
      | fault r => rfl
      | refused r => rfl
    · rw [settle_withSched]; rfl

theorem withSched_same (s : State) : s.withSched s.sched = s := rfl

/-- Another schedule in the state a run begins in is another schedule in the state it ends in. -/
theorem Reaches.withSched {n : Nat} {s t : State} (h : Reaches n s t) (l : List Turn) : Reaches n (s.withSched l) (t.withSched l) := by
  induction h with
  | refl s => exact .refl _
  | step hi h _ ih => exact .step hi (by rw [engineStep_withSched, h]; rfl) ih

/-- A schedule whose next entry finds PHASE at IDLE stands still. -/
theorem runTurns_idle {s : State} (h : s.isIdle = true) (l : List Turn) : runTurns l s = .next (s.withSched l) := by
  cases l with
  | nil => rfl
  | cons t l => unfold runTurns; rw [h]; rfl

/-- Under a schedule that begins with these turns the first state leads to the second, whatever follows. -/
def Gets (turns : List Turn) (s t : State) : Prop :=
  ∀ l rest, runTurns (turns ++ rest) (s.withSched l) = runTurns rest (t.withSched l)

theorem Reaches.gets {n : Nat} {s t : State} (h : Reaches n s t) : Gets (engineTurns n) s t := fun l rest => (h.withSched l).run rest

theorem Gets.trans {a b : List Turn} {s t u : State} (h : Gets a s t) (g : Gets b t u) : Gets (a ++ b) s u := fun l rest => by
  rw [List.append_assoc, h, g]

/-- The issue of an operation whose run ends at IDLE: it completes under every schedule that begins with those turns, and what is behind
them is left. -/
theorem issue_completes {op sel : Byte} {start : State → State} {turns : List Turn} {s t : State} (hi : s.isIdle = true)
    (hs : ∀ u l, start (u.withSched l) = (start u).withSched l)
    (h : Gets turns (start (s.clearResults.latchWord op sel)) t) (ht : t.isIdle = true) (rest : List Turn) :
    issue op sel start (s.withSched (turns ++ rest)) = .next (t.withSched rest) := by
  have hi' : (s.withSched (turns ++ rest)).isIdle = true := hi
  unfold issue
  rw [hi', if_pos rfl]
  show resume (start ((s.clearResults.latchWord op sel).withSched (turns ++ rest))) = _
  rw [hs]
  exact (h (turns ++ rest) rest).trans (runTurns_idle (s := t.withSched (turns ++ rest)) ht rest)

end Sys2Proof.Machine
end

