-- ==== Sys2Proof/Laws/Timed.lean ====
section
/-! SUPPORT. Laws/Timed.lean: runs of ENGINE with TICK events between its steps: the waits that run out their counter
(40_bus_transport.md R139, 44_polling_block_io.md R238) and the command whose `select()` fails (42_command_framing.md R172). -/

namespace Sys2Proof.Machine

/-! ### Runs with ticks -/

/-- Some steps of ENGINE and `k` TICK events between them lead from one state to the other, whatever follows on the schedule. -/
def Passes (k : Nat) (s t : State) : Prop := ∃ turns, Timed k turns ∧ Gets turns s t

theorem Passes.trans {j k : Nat} {s t u : State} (h : Passes j s t) (g : Passes k t u) : Passes (j + k) s u := by
  obtain ⟨x, ⟨x1, rfl⟩, x3⟩ := h
  obtain ⟨y, ⟨y1, rfl⟩, y3⟩ := g
  exact ⟨x ++ y, ⟨fun t ht => (List.mem_append.1 ht).elim (x1 t) (y1 t), List.count_append⟩, x3.trans y3⟩

theorem Reaches.passes {n : Nat} {s t : State} (h : Reaches n s t) : Passes 0 s t :=
  ⟨engineTurns n, ⟨fun _ ht => Or.inl (List.eq_of_mem_replicate ht), by simp [engineTurns, List.count_replicate]⟩, h.gets⟩

theorem engineTurns_add (m n : Nat) : engineTurns (m + n) = engineTurns m ++ engineTurns n := List.replicate_add ..

/-- More of ENGINE's turns in front. -/
theorem Timed.engine {k : Nat} {turns : List Turn} (h : Timed k turns) (n : Nat) : Timed k (engineTurns n ++ turns) :=
  ⟨fun t ht => (List.mem_append.1 ht).elim (fun h => Or.inl (List.eq_of_mem_replicate h)) (h.1 t), by
    rw [List.count_append, h.2]; simp [engineTurns, List.count_replicate]⟩

/-- ENGINE's steps before a run with ticks. -/
theorem Reaches.into {n k : Nat} {s t u : State} (h : Reaches n s t) (g : Passes k t u) : Passes k s u := by
  have := h.passes.trans g
  rwa [Nat.zero_add] at this

/-- ENGINE's steps behind a run with ticks. -/
theorem Passes.on {n k : Nat} {s t u : State} (h : Passes k s t) (g : Reaches n t u) : Passes k s u := h.trans g.passes

theorem after_zero (t : Timers) : t.after 0 = t := by cases t; simp [Timers.after]

theorem countDown_after (v : BitVec 16) (k : Nat) :
    BitVec.ofNat 16 ((countDown v).toNat - k) = BitVec.ofNat 16 (v.toNat - (k + 1)) := by
  unfold countDown
  split
  · next h => subst h; simp
  · next h =>
    have hv : v.toNat ≠ 0 := fun e => h (BitVec.eq_of_toNat_eq e)
    have : (v - 1).toNat = v.toNat - 1 := by bv_omega
    rw [this, show v.toNat - 1 - k = v.toNat - (k + 1) by omega]

theorem tickDown_after (s : State) (k : Nat) : s.tickDown.withTmr (s.tickDown.tmr.after k) = s.withTmr (s.tmr.after (k + 1)) := by
  simp only [State.tickDown, State.withTmr, Timers.after, countDown_after]

/-- TICK events while an operation runs. -/
theorem Passes.ticks {s : State} (k : Nat) (hi : s.isIdle = false) : Passes k s (s.withTmr (s.tmr.after k)) := by
  refine ⟨List.replicate k .tick, ⟨fun _ ht => Or.inr (List.eq_of_mem_replicate ht), by simp⟩, ?_⟩
  induction k generalizing s with
  | zero => intro l rest; rw [after_zero]; rfl
  | succ k ih =>
    intro l rest
    rw [List.replicate_succ, List.cons_append, runTurns, show (s.withSched l).isIdle = false from hi]
    have := ih (s := s.tickDown) hi l rest
    rwa [tickDown_after] at this

/-- So many TICK events, and then so many more. -/
theorem Timers.after_add (t : Timers) (j k : Nat) : (t.after j).after k = t.after (j + k) := by
  have e (v : BitVec 16) : BitVec.ofNat 16 ((BitVec.ofNat 16 (v.toNat - j)).toNat - k) = BitVec.ofNat 16 (v.toNat - (j + k)) := by
    rw [BitVec.toNat_ofNat, Nat.mod_eq_of_lt (Nat.lt_of_le_of_lt (Nat.sub_le _ _) v.isLt), Nat.sub_sub]
  simp only [Timers.after, e]

/-- TICK took the counters down `k` times on the way from the first to the second; T_RDY may have been armed on the way. -/
def Timers.ranDown (t u : Timers) (k : Nat) : Prop := ∀ x, ({ u with rdy := x } : Timers) = { t.after k with rdy := x }

theorem Timers.ranDown_refl (t : Timers) : t.ranDown t 0 := fun x => by rw [after_zero]

theorem Timers.ranDown.trans {t u v : Timers} {j k : Nat} (h : t.ranDown u j) (g : u.ranDown v k) : t.ranDown v (j + k) := fun x => by
  have e := congrArg (fun w : Timers => ({ w.after k with rdy := x } : Timers)) (h u.rdy)
  refine (g x).trans (e.trans ?_)
  rw [← Timers.after_add]; rfl

/-- T_NEG at the end of it. -/
theorem Timers.ranDown.neg {t u : Timers} {k : Nat} (h : t.ranDown u k) : u.neg.toNat = t.neg.toNat - k := by
  have : u.neg = BitVec.ofNat 16 (t.neg.toNat - k) := congrArg Timers.neg (h 0)
  rw [this, BitVec.toNat_ofNat, Nat.mod_eq_of_lt (Nat.lt_of_le_of_lt (Nat.sub_le _ _) t.neg.isLt)]

theorem Attempt.ranDown (p : Attempt) (t : Timers) : t.ranDown (p.timers t) p.ticks := fun _ => rfl

theorem AppReply.ranDown (p : AppReply) (t : Timers) : t.ranDown (p.timers t) p.ticks := fun _ => rfl

/-- A counter that was armed with less is at zero. -/
theorem after_expired {v : BitVec 16} {n : Nat} (h : v.toNat ≤ n) : (BitVec.ofNat 16 (v.toNat - n) == 0) = true := by
  rw [show v.toNat - n = 0 by omega]; rfl

/-! ### The readiness wait that runs out (40_bus_transport.md R139) -/

theorem runs_busy {k : List Micro} {more : List Byte} {n : Nat} : ∀ (busy : List Byte) (s : State),
    s.todo = .exchange .ready :: k → s.env.card = busy ++ more → staysBusy busy → s.tmr.rdy ≠ 0 → s.tmr.rdy.toNat ≤ n →
    ∃ t r, Passes n s (settle t) ∧ Runs s t (fillers busy) k more ∧ t.cs = s.cs ∧ t.mem = s.mem ∧
      t.tmr = s.tmr.after n ∧ t.wk = { s.wk with rdy := r, flag := false } := by
  intro busy
  induction busy with
  | nil => intro s _ _ h; exact absurd rfl h.1
  | cons b busy ih =>
    intro s ht hc hb hz hn
    have hb1 : cardIsReady b = false := hb.2 b (List.mem_cons_self ..)
    let g := s.got .ready b k (busy ++ more)
    let u := (g.withWk { s.wk with rdy := b }).push [.act .readyExpired]
    have r1 : Reaches 1 s (settle u) := reaches_got_to ht hc (by simp only [received, readyByte, hb1]; rfl)
    rw [show settle u = u from settle_act rfl] at r1
    cases busy with
    | nil =>
      let v := (g.withWk { s.wk with rdy := b, flag := false }).withTmr (s.tmr.after n)
      have r2 : Reaches 1 (u.withTmr (u.tmr.after n)) (settle v) := reaches_action_to (k := k) rfl (by
        have : ((u.withTmr (u.tmr.after n)).withTodo k).expired .rdy = true := after_expired hn
        simp only [doLocal, readyTimer, this]; rfl)
      exact ⟨v, b, r1.into ((Passes.ticks n (not_idle_of_todo rfl)).on r2), by constructor <;> rfl, rfl, rfl, rfl, rfl⟩
    | cons b' busy =>
      let v := (g.withWk { s.wk with rdy := b }).push [.exchange .ready]
      have r2 : Reaches 1 u (settle v) := reaches_action_to (k := k) rfl (by
        have : (u.withTodo k).expired .rdy = false := by
          show (s.tmr.rdy == 0) = false
          simpa using hz
        simp only [doLocal, readyTimer, this]; rfl)
      rw [show settle v = v from settle_exchange rfl] at r2
      obtain ⟨t, r, q1, q2, q3, q4, q5, q6⟩ := ih v rfl rfl ⟨List.cons_ne_nil _ _, fun c hc => hb.2 c (List.mem_cons_of_mem _ hc)⟩ hz hn
      have rv : Runs s v [.xchg Config.filler b] v.todo (b' :: busy ++ more) := by constructor <;> rfl
      exact ⟨t, r, (r1.trans r2).into q1, rv.trans q2, q3, q4, q5, q6⟩

/-- The counters behind an arm of T_RDY or of T_TOK whose whole time has passed. -/
def Timers.readySpent (t : Timers) : Timers := ({ t with rdy := Config.tRdyMs } : Timers).after 500

def Timers.tokenSpent (t : Timers) : Timers := ({ t with tok := Config.tTokMs } : Timers).after 200

/-- `wait_ready(500)` of a card that stays busy. -/
theorem runs_waitBusy {s : State} {k : List Micro} {busy more : List Byte} (h : s.todo = waitReady Config.tRdyMs ++ k)
    (hc : s.env.card = busy ++ more) (hb : staysBusy busy) :
    ∃ t r, Passes 500 s (settle t) ∧ Runs s t (fillers busy) k more ∧ t.cs = s.cs ∧
      t.mem = s.mem ∧ t.tmr = s.tmr.readySpent ∧ t.wk = { s.wk with rdy := r, flag := false } := by
  let s1 : State := (s.withTodo (.exchange .ready :: k)).armTimer .rdy Config.tRdyMs
  have a1 : Reaches 1 s s1 := by
    have := reaches_action_to (s := s) (u := s1) (l := .arm .rdy Config.tRdyMs) h rfl
    rwa [show settle s1 = s1 from settle_exchange rfl] at this
  obtain ⟨t, r, q1, q2, q3, q4, q5, q6⟩ := runs_busy (n := 500) busy s1 rfl hc hb (by show Config.tRdyMs ≠ 0; decide)
    (by show Config.tRdyMs.toNat ≤ 500; decide)
  refine ⟨t, r, a1.into q1, ?_, q3, q4, q5, q6⟩
  exact ⟨q2.todo, q2.pos, q2.lat, q2.out, q2.dstat, q2.ctype, q2.dmast, q2.atc, q2.speed, q2.job, q2.taken, q2.sched, q2.trace,
    q2.env, q2.ty, q2.icmd, q2.okf, q2.pst, q2.addr⟩

/-! ### The token wait that runs out (44_polling_block_io.md R238) -/

theorem runs_silent {k : List Micro} {more : List Byte} {n : Nat} : ∀ (f : Nat) (s : State),
    s.todo = .exchange .token :: k → s.env.card = List.replicate (f + 1) Config.filler ++ more → s.tmr.tok ≠ 0 → s.tmr.tok.toNat ≤ n →
    ∃ t, Passes n s (settle t) ∧ Runs s t (fillers (List.replicate (f + 1) Config.filler)) k more ∧ t.cs = s.cs ∧
      t.mem = s.mem ∧ t.tmr = s.tmr.after n ∧ t.wk = { s.wk with tok := Config.filler, flag := false } := by
  intro f
  induction f with
  | zero =>
    intro s ht hc hz hn
    let g := s.got .token Config.filler k more
    let u := (g.withWk { s.wk with tok := Config.filler }).push [.act .tokenExpired]
    have r1 : Reaches 1 s (settle u) := reaches_got_to ht hc rfl
    rw [show settle u = u from settle_act rfl] at r1
    let v := (g.withWk { s.wk with tok := Config.filler, flag := false }).withTmr (s.tmr.after n)
    have r2 : Reaches 1 (u.withTmr (u.tmr.after n)) (settle v) := reaches_action_to (k := k) rfl (by
      have : ((u.withTmr (u.tmr.after n)).withTodo k).expired .tok = true := after_expired hn
      simp only [doLocal, tokenTimer, this]; rfl)
    exact ⟨v, r1.into ((Passes.ticks n (not_idle_of_todo rfl)).on r2), by constructor <;> rfl, rfl, rfl, rfl, rfl⟩
  | succ f ih =>
    intro s ht hc hz hn
    let g := s.got .token Config.filler k (List.replicate (f + 1) Config.filler ++ more)
    let u := (g.withWk { s.wk with tok := Config.filler }).push [.act .tokenExpired]
    have r1 : Reaches 1 s (settle u) := reaches_got_to ht hc rfl
    rw [show settle u = u from settle_act rfl] at r1
    let v := (g.withWk { s.wk with tok := Config.filler }).push [.exchange .token]
    have r2 : Reaches 1 u (settle v) := reaches_action_to (k := k) rfl (by
      have : (u.withTodo k).expired .tok = false := by
        show (s.tmr.tok == 0) = false
        simpa using hz
      simp only [doLocal, tokenTimer, this]; rfl)
    rw [show settle v = v from settle_exchange rfl] at r2
    obtain ⟨t, q1, q2, q3, q4, q5, q6⟩ := ih v rfl rfl hz hn
    have rv : Runs s v [.xchg Config.filler Config.filler] v.todo (List.replicate (f + 1) Config.filler ++ more) := by constructor <;> rfl
    exact ⟨t, (r1.trans r2).into q1, rv.trans q2, q3, q4, q5, q6⟩

/-- `wait_token()` of a card that sends nothing. -/
theorem runs_waitSilent {f : Nat} {s : State} {k : List Micro} {more : List Byte} (h : s.todo = waitToken ++ k)
    (hc : s.env.card = List.replicate (f + 1) Config.filler ++ more) :
    ∃ t, Passes 200 s (settle t) ∧ Runs s t (fillers (List.replicate (f + 1) Config.filler)) k more ∧
      t.cs = s.cs ∧ t.mem = s.mem ∧ t.tmr = s.tmr.tokenSpent ∧ t.wk = { s.wk with tok := Config.filler, flag := false } := by
  let s1 : State := (s.withTodo (.exchange .token :: k)).armTimer .tok Config.tTokMs
  have a1 : Reaches 1 s s1 := by
    have := reaches_action_to (s := s) (u := s1) (l := .arm .tok Config.tTokMs) h rfl
    rwa [show settle s1 = s1 from settle_exchange rfl] at this
  obtain ⟨t, q1, q2, q3, q4, q5, q6⟩ := runs_silent (n := 200) f s1 rfl hc (by show Config.tTokMs ≠ 0; decide)
    (by show Config.tTokMs.toNat ≤ 200; decide)
  refine ⟨t, a1.into q1, ?_, q3, q4, q5, q6⟩
  exact ⟨q2.todo, q2.pos, q2.lat, q2.out, q2.dstat, q2.ctype, q2.dmast, q2.atc, q2.speed, q2.job, q2.taken, q2.sched, q2.trace,
    q2.env, q2.ty, q2.icmd, q2.okf, q2.pst, q2.addr⟩

/-! ### The command whose `select()` fails (42_command_framing.md R172) -/

theorem runs_unselected {s : State} {cmd : Byte} {arg : Word} {k : List Micro} {more : List Byte} {p : BusyReply} (hcmd : cmd ≠ cmdStop)
    (happ : isApp cmd = false) (h : s.todo = .command cmd arg :: k) (hc : s.env.card = p.bytes ++ more) (hp : p.ok) :
    ∃ t r u, Reaches 3 s u ∧ Passes 500 u (settleWithin 7 t) ∧ Runs s t p.trace k more ∧ t.cs = true ∧
      t.mem = s.mem ∧ t.tmr = s.tmr.readySpent ∧ t.wk = { s.wk with cmd := cmd, arg := arg, rdy := r, flag := false, r1 := 0xFF } := by
  obtain ⟨u, a1, a2, -, a4, a5, a6⟩ := runs_head (d := p.dummy) (more := p.busy ++ p.last :: more) hcmd happ h (by rw [hc]; simp [BusyReply.bytes])
  obtain ⟨v, r, b1, b2, -, b4, b5, b6⟩ := runs_waitBusy (k := .join (.selected cmd arg) :: k) a2.todo (by rw [a2.env]) hp
  let w := (v.withTodo k).push (deselect ++ [.join .noResponse])
  have ew : settle v = w := by
    have hd : doJoin (.selected cmd arg) (v.withTodo k) = w := by
      have : (v.withTodo k).wk.flag = false := by rw [State.withTodo_wk, b6]
      simp only [doJoin, afterSelect, this]; rfl
    rw [settle_join b2.todo (hd ▸ atRest_of_head _ _ rfl rfl), hd]
  rw [ew] at b1
  obtain ⟨x, c1, c2, c3, c4, c5, c6⟩ := runs_deselect (s := w) (k := .join .noResponse :: k) (more := more) rfl (by
    show v.env.card = _; rw [b2.env])
  let t := doJoin .noResponse (x.withTodo k)
  have et : settle x = settleWithin 7 t := by
    show settleWithin 8 x = _
    rw [settleWithin, c2.todo]
  rw [et] at c1
  have rw1 : Runs s w _ w.todo _ := (a2.trans b2).before _
  have all := rw1.trans c2
  refine ⟨t, r, u, a1, b1.on c1, ?_, c3, ?_, ?_, ?_⟩
  · rw [show ([.cs true, .xchg Config.filler p.dummy, .cs false] ++ fillers p.busy) ++ [.cs true, .xchg Config.filler p.last] =
      p.trace by simp [BusyReply.trace]] at all
    exact all.working { x.wk with r1 := 0xFF } k rfl rfl rfl rfl rfl
  · exact c5.trans (b4.trans a4)
  · exact c4.trans (b5.trans (by rw [a5]))
  · show ({ x.wk with r1 := 0xFF } : Work) = _
    rw [c6]; show ({ v.wk with r1 := 0xFF } : Work) = _
    rw [b6, a6]

/-- An application command whose CMD55 is not sent because `select()` fails: its 0xFF is the command's response (R171, R172). -/
theorem runs_app_unselected {s : State} {cmd : Byte} {arg : Word} {k : List Micro} {more : List Byte} {p : BusyReply}
    (happ : isApp cmd = true) (h : s.todo = .command cmd arg :: k) (hc : s.env.card = p.bytes ++ more) (hp : p.ok) :
    ∃ t r u, Reaches 3 s u ∧ Passes 500 u (settleWithin 6 t) ∧ Runs s t p.trace k more ∧ t.cs = true ∧
      t.mem = s.mem ∧ t.tmr = s.tmr.readySpent ∧ t.wk = { s.wk with cmd := cmdApp, arg := 0, rdy := r, flag := false, r1 := 0xFF } := by
  let s' : State := s.withTodo (.command cmdApp 0 :: .join (.prefixed (cmd &&& 0x7F) arg) :: k)
  obtain ⟨t, r, u, r0, r1, r2, r3, r4, r5, r6⟩ := runs_unselected (s := s') (cmd := cmdApp) (arg := 0) (by decide) (by decide) rfl hc hp
  have e : settleWithin 7 t = settleWithin 6 (t.withTodo k) := by
    rw [settleWithin, r2.todo]
    have : r1Accepted (t.withTodo k).wk.r1 = false := by rw [State.withTodo_wk, r6]; rfl
    simp only [doJoin, afterPrefix, this, Bool.false_eq_true, if_false]
  rw [e] at r1
  refine ⟨t.withTodo k, r, u, r0.of_same_step (not_idle_of_todo h) ?_, r1, ?_, r3, r4, r5, r6⟩
  · unfold engineStep; rw [h]
    show Host.Outcome.next (doCommand cmd arg k s) = Host.Outcome.next (doCommand cmdApp 0 _ s')
    have e : sendCommand cmd arg (s.withTodo k) = sendCommand cmdApp 0 (s'.withTodo (.join (.prefixed (cmd &&& 0x7F) arg) :: k)) := by
      unfold sendCommand
      rw [if_pos happ, if_neg (by decide)]
      rfl
    unfold doCommand; rw [e]
  · exact ⟨rfl, r2.pos, r2.lat, r2.out, r2.dstat, r2.ctype, r2.dmast, r2.atc, r2.speed, r2.job, r2.taken, r2.sched, r2.trace,
      r2.env, r2.ty, r2.icmd, r2.okf, r2.pst, r2.addr⟩

/-- An application command whose CMD55 was accepted, and whose own `select()` fails. -/
theorem runs_app_cut {s : State} {cmd : Byte} {arg : Word} {k : List Micro} {more : List Byte} {p : Reply} {q : BusyReply}
    (happ : isApp cmd = true) (hsub : cmd &&& 0x7F ≠ cmdStop) (hplain : isApp (cmd &&& 0x7F) = false) (h : s.todo = .command cmd arg :: k)
    (hc : s.env.card = p.bytes ++ (q.bytes ++ more)) (hp : p.ok) (hacc : r1Accepted p.r1 = true) (hq : q.ok) :
    ∃ m t r n u, Reaches (m + 1) s u ∧ Passes 500 u (settleWithin 7 t) ∧
      Runs s t (p.trace cmdApp 0 ++ q.trace) k more ∧ t.cs = true ∧ t.mem = s.mem ∧ t.tmr = s.tmr.readySpent ∧
      t.wk = { s.wk with cmd := cmd &&& 0x7F, arg := arg, rdy := r, flag := false, r1 := 0xFF, ntry := n } := by
  obtain ⟨m, t, r1, r2, r3, r4, r5, n, r6⟩ := runs_prefix happ h hc hp
  let u : State := t.withTodo (.command (cmd &&& 0x7F) arg :: k)
  have e : settle t = u := by
    have hd : doJoin (.prefixed (cmd &&& 0x7F) arg) (t.withTodo k) = u := by
      have : r1Accepted (t.withTodo k).wk.r1 = true := by rw [State.withTodo_wk, r6]; exact hacc
      simp only [doJoin, afterPrefix, this, if_true]; rfl
    rw [settle_join r2.todo (hd ▸ atRest_of_head _ _ rfl rfl), hd]
  rw [e] at r1
  obtain ⟨v, b, w, q0, q1, q2, q3, q4, q5, q6⟩ := runs_unselected (s := u) (more := more) hsub hplain rfl (by show t.env.card = _; rw [r2.env]) hq
  have et : u.tmr.readySpent = s.tmr.readySpent := by
    show (({ t.tmr with rdy := _ } : Timers)).after 500 = _
    rw [r5]; rfl
  rw [et] at q5
  refine ⟨m + 3, v, b, n, w, r1.trans q0, q1, (r2.before _).trans q2, q3, q4.trans r4, q5, ?_⟩
  rw [q6]
  show ({ t.wk with cmd := _, arg := _, rdy := _, flag := _, r1 := _ } : Work) = _
  rw [r6]

end Sys2Proof.Machine
end

