-- ==== Sys2Proof/Laws/Calls.lean ====
section
/-! SUPPORT. Laws/Calls.lean: a host operation calls a micro-operation, the card answers, and the caller's test stands behind it: one
lemma for each micro-operation, from the call to the state the test is made in. -/

namespace Sys2Proof.Machine

/-- What no micro-operation and no test between two of them writes, and what went over the wire. -/
structure Along (s t : State) (items : List WireItem) (more : List Byte) : Prop where
  out : t.out = s.out
  dstat : t.dstat = s.dstat
  ctype : t.ctype = s.ctype
  dmast : t.dmast = s.dmast
  atc : t.atc = s.atc
  speed : t.speed = s.speed
  job : t.job = s.job
  taken : t.taken = s.taken
  sched : t.sched = s.sched
  trace : t.trace = s.trace ++ items
  env : t.env = { s.env with card := more }
  ty : t.wk.ty = s.wk.ty
  icmd : t.wk.icmd = s.wk.icmd
  okf : t.wk.okf = s.wk.okf
  pst : t.wk.pst = s.wk.pst
  addr : t.wk.addr = s.wk.addr

theorem Runs.along {s t : State} {i : List WireItem} {k : List Micro} {m : List Byte} (h : Runs s t i k m) : Along s t i m :=
  ⟨h.out, h.dstat, h.ctype, h.dmast, h.atc, h.speed, h.job, h.taken, h.sched, h.trace, h.env, h.ty, h.icmd, h.okf, h.pst, h.addr⟩

theorem Along.trans {s t u : State} {i j : List WireItem} {m n : List Byte} (h : Along s t i m) (g : Along t u j n) :
    Along s u (i ++ j) n :=
  ⟨g.out.trans h.out, g.dstat.trans h.dstat, g.ctype.trans h.ctype, g.dmast.trans h.dmast, g.atc.trans h.atc,
    g.speed.trans h.speed, g.job.trans h.job, g.taken.trans h.taken, g.sched.trans h.sched,
    by rw [g.trace, h.trace, List.append_assoc], by rw [g.env, h.env], g.ty.trans h.ty, g.icmd.trans h.icmd, g.okf.trans h.okf,
    g.pst.trans h.pst, g.addr.trans h.addr⟩

/-- Latches, PHASE, the chip-select and memory are not part of it, nor are the counters. -/
theorem Along.aside {s t : State} {i : List WireItem} {m : List Byte} (h : Along s t i m) (lat : Latches) (pos : Pos) (todo : List Micro)
    (cs : Bool) (mem : Memory) : Along s { t with lat := lat, pos := pos, todo := todo, cs := cs, mem := mem } i m :=
  ⟨h.out, h.dstat, h.ctype, h.dmast, h.atc, h.speed, h.job, h.taken, h.sched, h.trace, h.env, h.ty, h.icmd, h.okf, h.pst, h.addr⟩

/-- The script the next call finds. -/
theorem Along.card {s t : State} {i : List WireItem} {m : List Byte} (h : Along s t i m) : t.env.card = m := by rw [h.env]

theorem call_todo {s : State} {ms : List Micro} {u : Test} (h : s.todo = []) : (s.call ms u).todo = ms := by
  show ms ++ s.todo = ms
  rw [h, List.append_nil]

/-- The run of a call ends in the caller's test. -/
theorem reaches_call {n f : Nat} {s t : State} {ms : List Micro} {u : Test} {i : List WireItem} {m : List Byte}
    (r : Reaches n (s.call ms u) (settleWithin (f + 1) t)) (g : Runs (s.call ms u) t i [] m) :
    Reaches n (s.call ms u) (doTest u t) ∧ t.todo = [] ∧ Along s t i m ∧ t.lat = s.lat := by
  have hp : t.pos = .test u := g.pos
  rw [settleWithin_test g.todo hp] at r
  refine ⟨r, g.todo, ?_, g.lat⟩
  exact ⟨g.out, g.dstat, g.ctype, g.dmast, g.atc, g.speed, g.job, g.taken, g.sched, g.trace, g.env, g.ty, g.icmd, g.okf, g.pst,
    g.addr⟩

/-- `send_command` of a command without prefix other than CMD12 (42_command_framing.md R170). -/
theorem call_plain {s : State} {cmd : Byte} {arg : Word} {u : Test} {p : Reply} {more : List Byte} (hcmd : cmd ≠ cmdStop)
    (happ : isApp cmd = false) (ht : s.todo = []) (hp : p.ok) (hc : s.env.card = p.bytes ++ more) :
    ∃ n t, Reaches n (s.call [.command cmd arg] u) (doTest u t) ∧ t.todo = [] ∧ Along s t (p.trace cmd arg) more ∧ t.lat = s.lat ∧
      t.cs = false ∧ t.mem = s.mem ∧ t.tmr = { s.tmr with rdy := Config.tRdyMs } ∧ t.wk.r1 = p.r1 := by
  obtain ⟨m, t, r1, r2, r3, r4, r5, b, r6⟩ := runs_plain (s := s.call [.command cmd arg] u) hcmd happ (call_todo ht) hc hp
  obtain ⟨a, b1, c, d⟩ := reaches_call r1 r2
  exact ⟨m + 1, t, a, b1, c, d, r3, r4, r5, by rw [r6]⟩

/-- CMD12 (R180). -/
theorem call_stop {s : State} {u : Test} {p : StopReply} {more : List Byte} (ht : s.todo = []) (hp : p.ok)
    (hc : s.env.card = p.bytes ++ more) :
    ∃ n t, Reaches n (s.call [.command cmdStop 0] u) (doTest u t) ∧ t.todo = [] ∧ Along s t p.trace more ∧ t.lat = s.lat ∧
      t.cs = s.cs ∧ t.mem = s.mem ∧ t.tmr = s.tmr := by
  obtain ⟨m, t, r1, r2, r3, b, r6⟩ := runs_stop (s := s.call [.command cmdStop 0] u) (call_todo ht) hc hp
  obtain ⟨a, b1, c, d⟩ := reaches_call r1 r2
  exact ⟨m + 1, t, a, b1, c, d, r3.cs, r3.mem, r3.tmr⟩

/-- `deselect()` (40_bus_transport.md R137). -/
theorem call_deselect {s : State} {u : Test} {d : Byte} {more : List Byte} (ht : s.todo = []) (hc : s.env.card = d :: more) :
    ∃ t, Reaches 2 (s.call deselect u) (doTest u t) ∧ t.todo = [] ∧ Along s t [.cs true, .xchg Config.filler d] more ∧ t.lat = s.lat ∧
      t.cs = true ∧ t.mem = s.mem ∧ t.tmr = s.tmr ∧ t.wk = s.wk := by
  obtain ⟨t, r1, r2, r3, r4, r5, r6⟩ := runs_deselect (s := s.call deselect u) (k := []) (by rw [call_todo ht, List.append_nil]) hc
  obtain ⟨a, b1, c, d⟩ := reaches_call r1 r2
  exact ⟨t, a, b1, c, d, r3, r5, r4, r6⟩

/-- `read_trailer()` (42_command_framing.md R190). -/
theorem call_trailer {s : State} {u : Test} {a b c d : Byte} {more : List Byte} (ht : s.todo = [])
    (hc : s.env.card = a :: b :: c :: d :: more) :
    ∃ t, Reaches 4 (s.call readTrailer u) (doTest u t) ∧ t.todo = [] ∧ Along s t (fillers [a, b, c, d]) more ∧ t.lat = s.lat ∧
      t.cs = s.cs ∧ t.mem = s.mem ∧ t.tmr = s.tmr ∧ t.wk = { s.wk with trail := #v[a, b, c, d] } := by
  obtain ⟨t, r1, r2, r3, r4⟩ := runs_trailer (s := s.call readTrailer u) (k := []) (by rw [call_todo ht, List.append_nil]) hc
  obtain ⟨x, b1, y, z⟩ := reaches_call r1 r2
  exact ⟨t, x, b1, y, z, r3.cs, r3.mem, r3.tmr, r4⟩

/-- `rcvr_datablock` with a packet (44_polling_block_io.md R232). -/
theorem call_receive {s : State} {u : Test} {d : Dest} {p : Packet} {more : List Byte} (ht : s.todo = [])
    (hl : p.data.length = d.len) (hc : s.env.card = p.bytes ++ more) :
    ∃ n t, Reaches n (s.call (receiveBlock d) u) (doTest u t) ∧ t.todo = [] ∧ Along s t (fillers p.bytes) more ∧ t.lat = s.lat ∧
      t.cs = s.cs ∧ t.mem = d.memAfter s.lat.buf 0 p.data s.mem ∧ t.tmr = { s.tmr with tok := Config.tTokMs } ∧ t.wk.flag = true ∧
      t.wk.csdr = d.csdAfter 0 p.data s.wk.csdr := by
  obtain ⟨n, t, r1, r2, r3, r4, r5, r6, r7, r8⟩ := runs_receive (s := s.call (receiveBlock d) u) (k := [])
    (by rw [call_todo ht, List.append_nil]) hc hl
  obtain ⟨x, b1, y, z⟩ := reaches_call r1 r2
  exact ⟨n, t, x, b1, y, z, r3, r5, r4, r8, r6⟩

/-- `wait_token` that ends with a byte that is not filler (R238). -/
theorem call_waitToken {s : State} {u : Test} {n : Nat} {b : Byte} {more : List Byte} (ht : s.todo = [])
    (hc : s.env.card = List.replicate n Config.filler ++ b :: more) (hb : b ≠ Config.filler) :
    ∃ m t, Reaches m (s.call waitToken u) (doTest u t) ∧ t.todo = [] ∧
      Along s t (fillers (List.replicate n Config.filler ++ [b])) more ∧ t.lat = s.lat ∧
      t.cs = s.cs ∧ t.mem = s.mem ∧ t.tmr = { s.tmr with tok := Config.tTokMs } ∧ t.wk.flag = (b == Config.tokStart) := by
  obtain ⟨t, r1, r2, r3, r4, r5, r6⟩ := runs_waitToken (s := s.call waitToken u) (k := [])
    (by rw [call_todo ht, List.append_nil]) hc hb
  obtain ⟨x, b1, y, z⟩ := reaches_call r1 r2
  exact ⟨_, t, x, b1, y, z, r3, r4, r5, by rw [r6]⟩

/-- The run of a call with ticks ends in the caller's test. -/
theorem passes_call {n f : Nat} {s t : State} {ms : List Micro} {u : Test} {i : List WireItem} {m : List Byte}
    (r : Passes n (s.call ms u) (settleWithin (f + 1) t)) (g : Runs (s.call ms u) t i [] m) :
    Passes n (s.call ms u) (doTest u t) ∧ t.todo = [] ∧ Along s t i m ∧ t.lat = s.lat := by
  have hp : t.pos = .test u := g.pos
  rw [settleWithin_test g.todo hp] at r
  refine ⟨r, g.todo, ?_, g.lat⟩
  exact ⟨g.out, g.dstat, g.ctype, g.dmast, g.atc, g.speed, g.job, g.taken, g.sched, g.trace, g.env, g.ty, g.icmd, g.okf, g.pst,
    g.addr⟩

/-- The counters behind a token wait that failed. -/
def BadToken.timers (p : BadToken) (t : Timers) : Timers := ({ t with tok := Config.tTokMs } : Timers).after p.ticks

/-- `wait_token` that fails, by a wrong byte or by its time (R238, decision D20), before any test that asks its outcome. -/
theorem runs_badToken {s : State} {k : List Micro} {p : BadToken} {more : List Byte} (h : s.todo = waitToken ++ k) (hp : p.ok)
    (hc : s.env.card = p.bytes ++ more) :
    ∃ t b, Passes p.ticks s (settle t) ∧ Runs s t (fillers p.bytes) k more ∧ t.cs = s.cs ∧ t.mem = s.mem ∧
      t.tmr = p.timers s.tmr ∧ t.wk = { s.wk with tok := b, flag := false } := by
  cases p with
  | wrong n b =>
    obtain ⟨t, r1, r2, r3, r4, r5, r6⟩ := runs_waitToken (n := n) (b := b) (more := more) h (by rw [hc]; simp [BadToken.bytes]) hp.1
    have e : (BadToken.wrong n b).timers s.tmr = { s.tmr with tok := Config.tTokMs } := after_zero _
    exact ⟨t, b, r1.passes, r2, r3, r4, r5.trans e.symm, by rw [r6, beq_false_of_ne hp.2]⟩
  | silent n =>
    obtain ⟨t, r⟩ := runs_waitSilent (f := n) (more := more) h hc
    exact ⟨t, _, r⟩

/-- `wait_token` that fails, called by START_READ_DMA (45_dma_completion.md R261). -/
theorem call_noToken {s : State} {u : Test} {p : BadToken} {more : List Byte} (ht : s.todo = []) (hp : p.ok)
    (hc : s.env.card = p.bytes ++ more) :
    ∃ t, Passes p.ticks (s.call waitToken u) (doTest u t) ∧ t.todo = [] ∧ Along s t (fillers p.bytes) more ∧
      t.lat = s.lat ∧ t.cs = s.cs ∧ t.mem = s.mem ∧ t.tmr = p.timers s.tmr ∧ t.wk.flag = false := by
  obtain ⟨t, b, r1, r2, r3, r4, r5, r6⟩ := runs_badToken (s := s.call waitToken u) (k := []) (by rw [call_todo ht]; rfl) hp hc
  obtain ⟨x, b1, y, z⟩ := passes_call r1 r2
  exact ⟨t, x, b1, y, z, r3, r4, r5, by rw [r6]⟩

/-- `rcvr_datablock` whose token does not come: nothing is stored (R232, R238). -/
theorem call_badToken {s : State} {u : Test} {d : Dest} {p : BadToken} {more : List Byte} (ht : s.todo = []) (hp : p.ok)
    (hc : s.env.card = p.bytes ++ more) :
    ∃ t, Passes p.ticks (s.call (receiveBlock d) u) (doTest u t) ∧ t.todo = [] ∧ Along s t (fillers p.bytes) more ∧
      t.lat = s.lat ∧ t.cs = s.cs ∧ t.mem = s.mem ∧ t.tmr = p.timers s.tmr ∧ t.wk.flag = false := by
  obtain ⟨t, b, r1, r2, r3, r4, r5, r6⟩ := runs_badToken (s := s.call (receiveBlock d) u) (k := [.join (.tokenSeen d)])
    (by rw [call_todo ht]; rfl) hp hc
  have hf : t.wk.flag = false := by rw [r6]
  have hj : doJoin (.tokenSeen d) (t.withTodo []) = t.withTodo [] := by
    show afterToken d (t.withTodo []) = _
    unfold afterToken; rw [State.withTodo_wk, hf]; rfl
  have hs : settle t = settleWithin 7 (t.withTodo []) := by
    show settleWithin 8 t = _
    rw [settleWithin, r2.todo]; simp only [hj]
  rw [hs] at r1
  obtain ⟨x, b1, y, z⟩ := passes_call r1 (r2.before [])
  exact ⟨t.withTodo [], x, b1, y, z, r3, r4, r5, hf⟩

/-- `wait_ready(500)` of a card that stays busy, called by START_WRITE_DMA (45_dma_completion.md R262). -/
theorem call_waitBusy {s : State} {u : Test} {busy more : List Byte} (ht : s.todo = []) (hc : s.env.card = busy ++ more)
    (hb : staysBusy busy) :
    ∃ t, Passes 500 (s.call (waitReady Config.tRdyMs) u) (doTest u t) ∧ t.todo = [] ∧
      Along s t (fillers busy) more ∧ t.lat = s.lat ∧ t.cs = s.cs ∧ t.mem = s.mem ∧
      t.tmr = s.tmr.readySpent ∧ t.wk.flag = false := by
  obtain ⟨t, r, r1, r2, r3, r4, r5, r6⟩ := runs_waitBusy (s := s.call (waitReady Config.tRdyMs) u) (k := [])
    (by rw [call_todo ht, List.append_nil]) hc hb
  obtain ⟨x, b1, y, z⟩ := passes_call r1 r2
  exact ⟨t, x, b1, y, z, r3, r4, r5, by rw [r6]⟩

/-- `xmit_datablock` of a block or of a stop token to a card that stays busy: nothing is sent (44_polling_block_io.md R233). -/
theorem call_transmitBusy {s : State} {u : Test} {tok : Byte} {busy more : List Byte} (ht : s.todo = []) (hc : s.env.card = busy ++ more)
    (hb : staysBusy busy) :
    ∃ t, Passes 500 (s.call (transmitBlock tok) u) (doTest u t) ∧ t.todo = [] ∧
      Along s t (fillers busy) more ∧ t.lat = s.lat ∧ t.cs = s.cs ∧ t.mem = s.mem ∧
      t.tmr = s.tmr.readySpent ∧ t.wk.flag = false := by
  obtain ⟨t, r, r1, r2, r3, r4, r5, r6⟩ := runs_waitBusy (s := s.call (transmitBlock tok) u) (k := [.join (.cardReady tok)])
    (by rw [call_todo ht]; rfl) hc hb
  have hf : t.wk.flag = false := by rw [r6]
  have hj : doJoin (.cardReady tok) (t.withTodo []) = t.withTodo [] := by
    show afterReady tok (t.withTodo []) = _
    unfold afterReady; rw [State.withTodo_wk, hf]; rfl
  have hs : settle t = settleWithin 7 (t.withTodo []) := by
    show settleWithin 8 t = _
    rw [settleWithin, r2.todo]; simp only [hj]
  rw [hs] at r1
  obtain ⟨x, b1, y, z⟩ := passes_call r1 (r2.before [])
  exact ⟨t.withTodo [], x, b1, y, z, r3, r4, r5, hf⟩

/-- `send_command` whose `select()` fails (42_command_framing.md R172). -/
theorem call_unselected {s : State} {cmd : Byte} {arg : Word} {u : Test} {p : BusyReply} {more : List Byte} (hcmd : cmd ≠ cmdStop)
    (happ : isApp cmd = false) (ht : s.todo = []) (hp : p.ok) (hc : s.env.card = p.bytes ++ more) :
    ∃ t, Passes 500 (s.call [.command cmd arg] u) (doTest u t) ∧ t.todo = [] ∧ Along s t p.trace more ∧
      t.lat = s.lat ∧ t.cs = true ∧ t.mem = s.mem ∧ t.tmr = s.tmr.readySpent ∧ t.wk.r1 = 0xFF := by
  obtain ⟨t, r, v, r0, r1, r2, r3, r4, r5, r6⟩ := runs_unselected (s := s.call [.command cmd arg] u) hcmd happ (call_todo ht) hc hp
  obtain ⟨x, b1, y, z⟩ := passes_call (r0.into r1) r2
  exact ⟨t, x, b1, y, z, r3, r4, r5, by rw [r6]⟩

/-- `wait_ready(500)` that ends with a ready card (40_bus_transport.md R139). -/
theorem call_waitReady {s : State} {u : Test} {busy more : List Byte} (ht : s.todo = [])
    (hc : s.env.card = busy ++ Config.filler :: more) (hb : ∀ b ∈ busy, cardIsReady b = false) :
    ∃ n t, Reaches n (s.call (waitReady Config.tRdyMs) u) (doTest u t) ∧ t.todo = [] ∧
      Along s t (fillers (busy ++ [Config.filler])) more ∧ t.lat = s.lat ∧ t.cs = s.cs ∧ t.mem = s.mem ∧
      t.tmr = { s.tmr with rdy := Config.tRdyMs } ∧ t.wk = { s.wk with rdy := Config.filler, flag := true } := by
  obtain ⟨n, t, r1, r2, r3, r4, r5, r6⟩ := runs_waitReady (s := s.call (waitReady Config.tRdyMs) u) (k := [])
    (by rw [call_todo ht, List.append_nil]) hc hb
  obtain ⟨x, b1, y, z⟩ := reaches_call r1 r2
  exact ⟨n, t, x, b1, y, z, r3, r4, r5, r6⟩

/-- A block sent, accepted or not (44_polling_block_io.md R233). -/
theorem call_transmit {s : State} {u : Test} {tok : Byte} {p : Receipt} {more : List Byte} (htok : tok ≠ Config.tokStop)
    (ht : s.todo = []) (hp : p.ok) (hc : s.env.card = p.bytes ++ more) :
    ∃ n t, Reaches n (s.call (transmitBlock tok) u) (doTest u t) ∧ t.todo = [] ∧
      Along s t (p.trace tok (bufferBytes s s.lat.buf 0 Config.blockLen)) more ∧ t.lat = s.lat ∧ t.cs = s.cs ∧ t.mem = s.mem ∧
      t.tmr = { s.tmr with rdy := Config.tRdyMs } ∧ t.wk.flag = responseAccepted p.response := by
  obtain ⟨n, t, r1, r2, r3, r4, r5, r6, r7⟩ := runs_transmit (s := s.call (transmitBlock tok) u) (k := []) htok
    (by rw [call_todo ht, List.append_nil]) hc hp
  rw [bufferBytes_mem (s := s) (t := s.call (transmitBlock tok) u) rfl] at r2
  obtain ⟨x, b1, y, z⟩ := reaches_call r1 r2
  exact ⟨n, t, x, b1, y, z, r3, r5, r4, r7⟩

/-- The stop token (R233). -/
theorem call_stopToken {s : State} {u : Test} {p : StopToken} {more : List Byte} (ht : s.todo = []) (hp : p.ok)
    (hc : s.env.card = p.bytes ++ more) :
    ∃ n t, Reaches n (s.call (transmitBlock Config.tokStop) u) (doTest u t) ∧ t.todo = [] ∧ Along s t p.trace more ∧ t.lat = s.lat ∧
      t.cs = s.cs ∧ t.mem = s.mem ∧ t.tmr = { s.tmr with rdy := Config.tRdyMs } ∧ t.wk.flag = true := by
  obtain ⟨n, t, r1, r2, r3, r4, r5, r6, r7⟩ := runs_stopToken (s := s.call (transmitBlock Config.tokStop) u) (k := []) (busy := p.busy)
    (x := p.under) (more := more) (by rw [call_todo ht, List.append_nil])
    (by rw [show (s.call (transmitBlock Config.tokStop) u).env.card = s.env.card from rfl, hc]; simp [StopToken.bytes]) hp
  obtain ⟨x, b1, y, z⟩ := reaches_call r1 r2
  exact ⟨n, t, x, b1, y, z, r3, r5, r4, r7⟩

/-- `send_command` of a command without prefix, whether the card answers or `select()` fails (42_command_framing.md R170, R172). -/
theorem call_attempt {s : State} {cmd : Byte} {arg : Word} {u : Test} {p : Attempt} {more : List Byte} (hcmd : cmd ≠ cmdStop)
    (happ : isApp cmd = false) (ht : s.todo = []) (hp : p.ok) (hc : s.env.card = p.bytes ++ more) :
    ∃ t, Passes p.ticks (s.call [.command cmd arg] u) (doTest u t) ∧ t.todo = [] ∧ Along s t (p.trace cmd arg) more ∧ t.lat = s.lat ∧
      t.mem = s.mem ∧ t.tmr = p.timers s.tmr ∧ t.wk.r1 = p.r1 := by
  cases p with
  | answered q =>
    obtain ⟨n, t, r, h1, h2, h3, -, h5, h6, h7⟩ := call_plain (u := u) (arg := arg) hcmd happ ht hp hc
    exact ⟨t, r.passes, h1, h2, h3, h5, h6.trans (after_zero _).symm, h7⟩
  | unselected q =>
    obtain ⟨t, r, h1, h2, h3, -, h5, h6, h7⟩ := call_unselected (u := u) (arg := arg) hcmd happ ht hp hc
    exact ⟨t, r, h1, h2, h3, h5, h6, h7⟩

/-- `send_command` of an application command: CMD55 not sent or not accepted, or the command behind it sent or not (R171, R172). -/
theorem call_app {s : State} {idx : Byte} {arg : Word} {u : Test} {p : AppReply} {more : List Byte} (happ : isApp (0x80 ||| idx) = true)
    (hidx : (0x80 ||| idx) &&& 0x7F = idx) (hsub : idx ≠ cmdStop) (hplain : isApp idx = false) (ht : s.todo = []) (hp : p.ok)
    (hc : s.env.card = p.bytes ++ more) :
    ∃ t, Passes p.ticks (s.call [.command (0x80 ||| idx) arg] u) (doTest u t) ∧ t.todo = [] ∧ Along s t (p.trace idx arg) more ∧
      t.lat = s.lat ∧ t.mem = s.mem ∧ t.tmr = p.timers s.tmr ∧ t.wk.r1 = p.r1 := by
  let v : State := s.call [.command (0x80 ||| idx) arg] u
  have ht' : v.todo = [.command (0x80 ||| idx) arg] := call_todo ht
  have hc' : v.env.card = p.bytes ++ more := hc
  obtain ⟨app, cmd⟩ := p
  cases app with
  | unselected a =>
    have e : (AppReply.mk (.unselected a) cmd).bytes = a.bytes := List.append_nil _
    obtain ⟨t, r, w, r0, r1, r2, r3, r4, r5, r6⟩ := runs_app_unselected happ ht' (e ▸ hc') hp.1
    obtain ⟨x, b1, y, z⟩ := passes_call (r0.into r1) r2
    refine ⟨t, x, b1, ?_, z, r4, r5, by rw [r6]; rfl⟩
    rwa [show (AppReply.mk (.unselected a) cmd).trace idx arg = a.trace from List.append_nil _]
  | answered a =>
    by_cases hacc : r1Accepted a.r1 = true
    · have e : (AppReply.mk (.answered a) cmd).last = cmd := if_pos hacc
      have eb : (AppReply.mk (.answered a) cmd).bytes ++ more = a.bytes ++ (cmd.bytes ++ more) := by
        rw [AppReply.bytes, if_pos (show r1Accepted (Attempt.answered a).r1 = true from hacc), List.append_assoc]; rfl
      have et : (AppReply.mk (.answered a) cmd).trace idx arg = a.trace cmdApp 0 ++ cmd.trace idx arg :=
        congrArg (a.trace cmdApp 0 ++ ·) (if_pos hacc)
      rw [AppReply.ticks, AppReply.timers, AppReply.r1, e, et]
      rw [eb] at hc'
      cases cmd with
      | answered b =>
        obtain ⟨m, t, r1, r2, -, r4, r5, n, r6⟩ := runs_app happ (by rwa [hidx]) (by rwa [hidx]) ht' hc' hp.1 hp.2 hacc
        rw [hidx] at r2
        obtain ⟨x, b1, y, z⟩ := reaches_call r1 r2
        exact ⟨t, x.passes, b1, y, z, r4, r5.trans (after_zero _).symm, by rw [r6]; rfl⟩
      | unselected b =>
        obtain ⟨m, t, r, n, w, r0, r1, r2, r3, r4, r5, r6⟩ := runs_app_cut happ (by rwa [hidx]) (by rwa [hidx]) ht' hc' hp.1 hacc hp.2
        obtain ⟨x, b1, y, z⟩ := passes_call (r0.into r1) r2
        exact ⟨t, x, b1, y, z, r4, r5, by rw [r6]; rfl⟩
    · have e : (AppReply.mk (.answered a) cmd).last = .answered a := if_neg hacc
      have eb : (AppReply.mk (.answered a) cmd).bytes = a.bytes := by
        rw [AppReply.bytes, if_neg (show ¬ r1Accepted (Attempt.answered a).r1 = true from hacc), List.append_nil]; rfl
      have et : (AppReply.mk (.answered a) cmd).trace idx arg = a.trace cmdApp 0 := by
        rw [AppReply.trace, if_neg (show ¬ r1Accepted (Attempt.answered a).r1 = true from hacc), List.append_nil]; rfl
      rw [AppReply.ticks, AppReply.timers, AppReply.r1, e, et]
      rw [eb] at hc'
      obtain ⟨m, t, r1, r2, -, r4, r5, n, r6⟩ := runs_app_rejected happ ht' hc' hp.1 (by simpa using hacc)
      obtain ⟨x, b1, y, z⟩ := reaches_call r1 r2
      exact ⟨t, x.passes, b1, y, z, r4, r5.trans (after_zero _).symm, by rw [r6]; rfl⟩

/-- The counters behind a block that was not accepted. -/
def BadBlock.timers (p : BadBlock) (t : Timers) : Timers := ({ t with rdy := Config.tRdyMs } : Timers).after p.ticks

/-- A block that is not accepted (44_polling_block_io.md R233). -/
theorem call_badBlock {s : State} {u : Test} {tok : Byte} {p : BadBlock} {more : List Byte} (htok : tok ≠ Config.tokStop)
    (ht : s.todo = []) (hp : p.ok) (hc : s.env.card = p.bytes ++ more) :
    ∃ t, Passes p.ticks (s.call (transmitBlock tok) u) (doTest u t) ∧ t.todo = [] ∧
      Along s t (p.trace tok (bufferBytes s s.lat.buf 0 Config.blockLen)) more ∧ t.lat = s.lat ∧ t.cs = s.cs ∧
      t.mem = s.mem ∧ t.tmr = p.timers s.tmr ∧ t.wk.flag = false := by
  cases p with
  | rejected q =>
    obtain ⟨n, t, r, h1, h2, h3, h4, h5, h6, h7⟩ := call_transmit (u := u) htok ht hp.1 hc
    exact ⟨t, r.passes, h1, h2, h3, h4, h5, h6.trans (after_zero _).symm, h7.trans (beq_false_of_ne hp.2)⟩
  | busy bs =>
    exact call_transmitBusy ht hc hp

/-- A stop token that is to be sent (R233). -/
theorem call_stopAttempt {s : State} {u : Test} {p : StopAttempt} {more : List Byte} (ht : s.todo = []) (hp : p.ok)
    (hc : s.env.card = p.bytes ++ more) :
    ∃ t, Passes p.ticks (s.call (transmitBlock Config.tokStop) u) (doTest u t) ∧ t.todo = [] ∧
      Along s t p.trace more ∧ t.lat = s.lat ∧ t.cs = s.cs ∧ t.mem = s.mem ∧ t.tmr = p.timers s.tmr ∧
      t.wk.flag = p.goesOut := by
  cases p with
  | sent q =>
    obtain ⟨n, t, r, h1, h2, h3, h4, h5, h6, h7⟩ := call_stopToken (u := u) ht hp hc
    exact ⟨t, r.passes, h1, h2, h3, h4, h5, h6.trans (after_zero _).symm, h7⟩
  | busy bs => exact call_transmitBusy ht hc hp

/-- A token sent on its own (45_dma_completion.md R262). -/
theorem call_sendToken {s : State} {u : Test} {tok rx : Byte} {more : List Byte} (ht : s.todo = []) (hc : s.env.card = rx :: more) :
    ∃ t, Reaches 1 (s.call [.exchange (.sendToken tok)] u) (doTest u t) ∧ t.todo = [] ∧ Along s t [.xchg tok rx] more ∧
      t.lat = s.lat ∧ t.cs = s.cs ∧ t.mem = s.mem ∧ t.tmr = s.tmr := by
  let v : State := s.call [.exchange (.sendToken tok)] u
  have r1 : Reaches 1 v (settle (v.got (.sendToken tok) rx [] more)) :=
    reaches_got_to (x := .sendToken tok) (call_todo ht) hc rfl
  have r2 : Runs v (v.got (.sendToken tok) rx [] more) [.xchg tok rx] [] more := runs_got v (.sendToken tok) rx [] more
  have r3 : Kept v (v.got (.sendToken tok) rx [] more) := ⟨rfl, rfl, rfl⟩
  generalize v.got (.sendToken tok) rx [] more = w at r1 r2 r3
  obtain ⟨x, b1, y, z⟩ := reaches_call r1 r2
  exact ⟨w, x, b1, y, z, r3.cs, r3.mem, r3.tmr⟩

/-! ### The actions of a host operation -/

/-- An action that leads to a place of rest. -/
theorem reaches_act_to {s t : State} {a : Act} (h : s.todo = []) (hp : s.pos = .act a) (hd : doAct a s = .next t) (hr : t.atRest) :
    Reaches 1 s t := by
  have := reaches_act h hp hd
  rwa [settle_atRest hr] at this

/-- An action that leads to an action. -/
theorem reaches_act_act {s t : State} {a b : Act} (h : s.todo = []) (hp : s.pos = .act a) (hd : doAct a s = .next t) (ht : t.todo = [])
    (hb : t.pos = .act b) : Reaches 1 s t :=
  reaches_act_to h hp hd (by unfold State.atRest; rw [ht, hb]; trivial)

/-- `return <Result>` (00_scope.md R10). -/
theorem reaches_ret {s : State} {r : TransferResult} (h : s.todo = []) (hp : s.pos = .act (.ret r)) :
    Reaches 1 s (s.returnWith r) :=
  reaches_act_to h hp rfl (by unfold State.atRest; simp [State.returnWith, h])

/-- `SVAL <- DSTAT; return` (43_negotiation.md R200, R211). -/
theorem reaches_retStatus {s : State} (h : s.todo = []) (hp : s.pos = .act .retStatus) : Reaches 1 s s.returnStatus :=
  reaches_act_to h hp rfl (by unfold State.atRest; simp [State.returnStatus, h])

/-- After a `return` PHASE is IDLE. -/
theorem returnWith_idle {s : State} {r : TransferResult} (h : s.todo = []) : (s.returnWith r).isIdle = true := by
  simp [State.isIdle, State.returnWith, h]

theorem returnStatus_idle {s : State} (h : s.todo = []) : s.returnStatus.isIdle = true := by
  simp [State.isIdle, State.returnStatus, h]

/-! ### Issue and completion -/

theorem blockStart_withSched (o : BlockOp) (buf sector count : Word) (u : State) (l : List Turn) :
    blockStart o buf sector count (u.withSched l) = (blockStart o buf sector count u).withSched l := by
  unfold blockStart gateCount
  split
  · next h => rw [if_pos (show (u.latchBlock buf sector count).lat.count = 0 from h)]; rfl
  · next h => rw [if_neg (show ¬ (u.latchBlock buf sector count).lat.count = 0 from h)]; rfl

/-- A block operation whose run ends at IDLE completes under every schedule that begins with those turns. -/
theorem exec_block {o : BlockOp} {s t : State} {sel : Byte} {buf sector count : Word} {turns : List Turn} (hi : s.isIdle = true)
    (hd : o.isDma = false → s.dmast = .idle) (h : Gets turns (blockStart o buf sector count (s.clearResults.latchWord o.code sel)) t)
    (ht : t.isIdle = true) (rest : List Turn) :
    exec (o.instr sel buf sector count) (s.withSched (turns ++ rest)) = .next (t.withSched rest) := by
  have key := issue_completes hi (blockStart_withSched o buf sector count) h ht rest
  have bus : ∀ op start, o.isDma = false → issueOnBus op sel start (s.withSched (turns ++ rest)) =
      issue op sel start (s.withSched (turns ++ rest)) := by
    intro op start ho
    unfold issueOnBus
    rw [if_pos (show (s.withSched (turns ++ rest)).dmast = .idle from hd ho)]
  cases o
  · exact (bus _ _ rfl).trans key
  · exact (bus _ _ rfl).trans key
  · exact key
  · exact key

/-- An IOCTL, whichever row its selector lies in. -/
theorem issueIoctl_completes {s t : State} {sel : Byte} {turns : List Turn} (hi : s.isIdle = true) (hd : s.dmast = .idle)
    (h : Gets turns ((s.clearResults.latchWord 0x07 sel).goAct .ioctlGate) t) (ht : t.isIdle = true) (rest : List Turn) :
    issueIoctl sel (s.withSched (turns ++ rest)) = .next (t.withSched rest) := by
  unfold issueIoctl issueOnBus
  rw [if_pos (show (s.withSched (turns ++ rest)).dmast = .idle from hd)]
  exact issue_completes (start := fun t => t.goAct .ioctlGate) hi (fun _ _ => rfl) h ht rest

/-- POLL_STATUS. -/
theorem exec_poll {s t : State} {sel : Byte} {turns : List Turn} (hi : s.isIdle = true)
    (h : Gets turns ((s.clearResults.latchWord 0x06 sel).goAct .readStatus) t) (ht : t.isIdle = true) (rest : List Turn) :
    exec (.pollStatus sel) (s.withSched (turns ++ rest)) = .next (t.withSched rest) :=
  issue_completes (start := fun t => t.goAct .readStatus) hi (fun _ _ => rfl) h ht rest

/-- STATUS. -/
theorem exec_status {s t : State} {sel : Byte} {turns : List Turn} (hi : s.isIdle = true)
    (h : Gets turns ((s.clearResults.latchWord 0x01 sel).goAct .retStatus) t) (ht : t.isIdle = true) (rest : List Turn) :
    exec (.status sel) (s.withSched (turns ++ rest)) = .next (t.withSched rest) :=
  issue_completes (start := fun t => t.goAct .retStatus) hi (fun _ _ => rfl) h ht rest

/-- INITIALIZE. -/
theorem exec_initCard {s t : State} {sel : Byte} {turns : List Turn} (hi : s.isIdle = true) (hd : s.dmast = .idle)
    (h : Gets turns ((s.clearResults.latchWord 0x00 sel).goAct .senseMedium) t) (ht : t.isIdle = true) (rest : List Turn) :
    exec (.initCard sel) (s.withSched (turns ++ rest)) = .next (t.withSched rest) := by
  show issueOnBus 0x00 sel _ _ = _
  unfold issueOnBus
  rw [if_pos (show (s.withSched (turns ++ rest)).dmast = .idle from hd)]
  exact issue_completes (start := fun t => t.goAct .senseMedium) hi (fun _ _ => rfl) h ht rest

/-- A reserved operation code. -/
theorem issueReserved_completes {s t : State} {op sel : Byte} {turns : List Turn} (hi : s.isIdle = true)
    (h : Gets turns ((s.clearResults.latchWord op sel).endWith .invalidParameter) t) (ht : t.isIdle = true) (rest : List Turn) :
    issueReserved op sel (s.withSched (turns ++ rest)) = .next (t.withSched rest) :=
  issue_completes (start := fun t => t.endWith .invalidParameter) hi (fun _ _ => rfl) h ht rest

/-- Two states with the same fields. -/
theorem State.eq_of {s t : State} (h1 : s.lat = t.lat) (h2 : s.wk = t.wk) (h3 : s.out = t.out) (h4 : s.pos = t.pos) (h5 : s.todo = t.todo)
    (h6 : s.dstat = t.dstat) (h7 : s.ctype = t.ctype) (h8 : s.dmast = t.dmast) (h9 : s.atc = t.atc) (h10 : s.tmr = t.tmr) (h11 : s.cs = t.cs)
    (h12 : s.speed = t.speed) (h13 : s.job = t.job) (h14 : s.mem = t.mem) (h15 : s.trace = t.trace) (h16 : s.taken = t.taken)
    (h17 : s.env = t.env) (h18 : s.sched = t.sched) : s = t := by
  cases s; cases t; simp_all

end Sys2Proof.Machine
end

