-- ==== Sys2Proof/Laws/Invariant.lean ====
section
/-! SUPPORT. Laws/Invariant.lean: the invariant of Safety.lean, piece by piece: each kind of step inside an operation keeps it. -/

namespace Sys2Proof.Machine

/-! ### Steps inside a micro-operation -/

theorem negotiating_of {s t : State} (h : s.negotiating) (h1 : t.dmast = s.dmast) (h2 : t.atc = s.atc) (h3 : t.dstat = s.dstat) :
    t.negotiating := by
  unfold State.negotiating at *; rw [h1, h2, h3]; exact h

theorem statusOk_of {s t : State} (h : s.statusOk) (h1 : t.dstat = s.dstat) (h2 : t.ctype = s.ctype) (h3 : t.speed = s.speed) :
    t.statusOk := by
  unfold State.statusOk at *; rw [h1, h2, h3]; exact h

/-- The registers a place of a host operation is about, the same in both states. -/
structure SameControl (s t : State) : Prop where
  dstat : t.dstat = s.dstat
  ctype : t.ctype = s.ctype
  dmast : t.dmast = s.dmast
  atc : t.atc = s.atc
  ty : t.wk.ty = s.wk.ty

/-- What is left to do after one entry: what the entry pushed before what was behind it. -/
structure Pushed (s t : State) (m : Micro) (k : List Micro) : Prop where
  before : s.todo = m :: k
  same : SameControl s t
  todo : ∃ p, t.todo = p ++ k ∧ p.all Micro.keepsSpeed = true ∧ (m.keepsCs = true → p.all Micro.keepsCs = true)
  speed : m.keepsSpeed = true → t.speed = s.speed
  cs : m.keepsCs = true → t.cs = s.cs

theorem transferring_pushed {s t : State} {m k live} (p : Pushed s t m k) (h : s.transferring live) : t.transferring live := by
  obtain ⟨h1, h2, h3, h4⟩ := h
  rw [p.before, List.all_cons, Bool.and_eq_true] at h4
  obtain ⟨q, hq, hs, -⟩ := p.todo
  refine ⟨statusOk_of h1 p.same.dstat p.same.ctype (p.speed h4.1), by rw [p.same.dmast, h2], by rw [p.same.atc, h3], ?_⟩
  rw [hq, List.all_append, hs, h4.2]; rfl

theorem followingUp_pushed {s t : State} {m k} (p : Pushed s t m k) (h : s.followingUp) : t.followingUp := by
  obtain ⟨h1, h2, h3, h4⟩ := h
  rw [p.before, List.all_cons, Bool.and_eq_true] at h4
  obtain ⟨q, hq, hs, -⟩ := p.todo
  refine ⟨statusOk_of h1 p.same.dstat p.same.ctype (p.speed h4.1), by unfold State.terminal; rw [p.same.dmast]; exact h2,
    by rw [p.same.atc, h3], ?_⟩
  rw [hq, List.all_append, hs, h4.2]; rfl

theorem keepsCs_pushed {s t : State} {m k} (p : Pushed s t m k) (h : s.cs = false ∧ s.todo.all Micro.keepsCs = true) :
    t.cs = false ∧ t.todo.all Micro.keepsCs = true := by
  obtain ⟨h1, h2⟩ := h
  rw [p.before, List.all_cons, Bool.and_eq_true] at h2
  obtain ⟨q, hq, -, hc⟩ := p.todo
  refine ⟨by rw [p.cs h2.1, h1], ?_⟩
  rw [hq, List.all_append, hc h2.1, h2.2]; rfl

theorem negotiating_pushed {s t : State} {m k} (p : Pushed s t m k) (h : s.negotiating) : t.negotiating :=
  negotiating_of h p.same.dmast p.same.atc p.same.dstat

/-- A step inside a micro-operation keeps what the test behind it needs, if it keeps the three conditions that look at the entries
themselves. -/
theorem testInv_pushed {s t : State} {m k} (u : Test) (p : Pushed s t m k)
    (hc : s.closing → t.closing)
    (hh : handshake s.todo s.cs s.wk.r1 → handshake t.todo t.cs t.wk.r1)
    (hf : s.todo = [.act (.setSpeed .high)] → t.todo = [] ∧ t.speed = .high ∧ t.cs = s.cs)
    (h : testInv u s) : testInv u t := by
  cases u <;> simp only [testInv] at h ⊢
  case closed => exact ⟨negotiating_pushed p h.1, hc h.2.1, by rw [p.same.ctype, p.same.ty]; exact h.2.2⟩
  case fast =>
    obtain ⟨h1, h2, h3, h4 | h4⟩ := h
    · obtain ⟨e1, e2, e3⟩ := hf h4
      exact ⟨negotiating_pushed p h1, by rw [e3, h2], by rw [p.same.ctype]; exact h3, .inr ⟨e1, e2⟩⟩
    · rw [p.before] at h4; simp at h4
  all_goals first
    | exact negotiating_pushed p h
    | exact transferring_pushed p h
    | exact followingUp_pushed p h
    | exact ⟨transferring_pushed p h.1, hc h.2⟩
    | exact ⟨followingUp_pushed p h.1, hc h.2⟩
    | exact ⟨transferring_pushed p h.1, hh h.2⟩
    | exact ⟨transferring_pushed p h.1, keepsCs_pushed p h.2⟩

/-- One exchange, whatever byte comes back. -/
theorem testInv_received (u : Test) (x : Exchange) (k : List Micro) (rx : Byte) (it : WireItem) (s : State)
    (hs : s.todo = .exchange x :: k) (h : testInv u s) : testInv u (received x rx ((s.withTodo k).log it)) := by
  have p : Pushed s (received x rx ((s.withTodo k).log it)) (.exchange x) k := by
    refine ⟨hs, ⟨by simp [State.log], by simp [State.log], by simp [State.log], by simp [State.log], by simp [State.log]⟩,
      ?_, by simp [State.log], by simp [State.log]⟩
    obtain ⟨q, hq, h1, h2⟩ := received_todo x rx ((s.withTodo k).log it)
    exact ⟨q, hq, h1, fun _ => h2⟩
  refine testInv_pushed u p ?_ ?_ ?_ h
  · intro hc
    rcases hc with hc | ⟨hc, hc2 | hc2⟩ <;> rw [hs] at *
    · simp [deselect] at hc
    · simp only [List.cons.injEq, Micro.exchange.injEq] at hc2
      obtain ⟨rfl, rfl⟩ := hc2
      exact .inr ⟨by simp [State.log, hc], .inr rfl⟩
    · simp at hc2
  · rw [hs]
    cases x <;> simp only [handshake, received, State.log] <;> intro hh <;> try exact hh.elim
    · exact hh
    · simp only [readyByte]; split <;> simpa [handshake, State.returnFlag, State.push] using hh
    · simp only [pollByte]; split <;> simp [handshake, State.push, hh]
  · intro hf; rw [hs] at hf; simp at hf

/-- One primitive action that is no exchange. -/
theorem testInv_doLocal (u : Test) (l : Local) (k : List Micro) (s : State)
    (hs : s.todo = .act l :: k) (h : testInv u s) : testInv u (doLocal l (s.withTodo k)) := by
  have p : Pushed s (doLocal l (s.withTodo k)) (.act l) k := by
    refine ⟨hs, ⟨by simp, by simp, by simp, by simp, by simp⟩, ?_, fun e => by rw [doLocal_speed l _ e]; simp,
      fun e => by rw [doLocal_cs l _ e]; simp⟩
    obtain ⟨q, hq, h1, h2⟩ := doLocal_todo l (s.withTodo k)
    exact ⟨q, hq, h1, fun _ => h2⟩
  refine testInv_pushed u p ?_ ?_ ?_ h
  · intro hc
    rcases hc with hc | ⟨hc, hc2 | hc2⟩ <;> rw [hs] at *
    · simp only [deselect, List.cons.injEq, Micro.act.injEq] at hc
      obtain ⟨rfl, rfl⟩ := hc
      exact .inr ⟨rfl, .inl rfl⟩
    · simp at hc2
    · simp at hc2
  · rw [hs]
    cases l <;> simp only [handshake, doLocal, State.writeCs, State.log, State.armTimer] <;> intro hh <;> try exact hh.elim
    · simpa using hh
    · simpa using hh
    · simp only [readyTimer]; split <;> simpa [handshake, State.returnFlag, State.push] using hh
  · intro hf; rw [hs] at hf
    simp only [List.cons.injEq, Micro.act.injEq] at hf
    obtain ⟨rfl, rfl⟩ := hf
    exact ⟨rfl, rfl, rfl⟩

theorem frame_handshake (cmd : Byte) (arg : Word) (r1 : Byte) : handshake (frame cmd arg) false r1 := by
  unfold frame; split <;> simp [handshake, frameBytes, argBytes]

/-- One test or assignment between primitive actions. -/
theorem testInv_doJoin (u : Test) (j : Join) (k : List Micro) (s : State)
    (hs : s.todo = .join j :: k) (h : testInv u s) : testInv u (doJoin j (s.withTodo k)) := by
  have p : Pushed s (doJoin j (s.withTodo k)) (.join j) k := by
    refine ⟨hs, ⟨by simp, by simp, by simp, by simp, by simp⟩, ?_, by simp, by simp⟩
    exact doJoin_todo j (s.withTodo k)
  refine testInv_pushed u p ?_ ?_ ?_ h
  · intro hc
    rcases hc with hc | ⟨hc, hc2 | hc2⟩ <;> rw [hs] at * <;> simp [deselect] at *
  · rw [hs]
    cases j <;> simp only [handshake, doJoin] <;> intro hh <;> try exact hh.elim
    · obtain ⟨h1, rfl⟩ := hh
      simp only [afterSelect]; split
      · simpa [State.push, h1] using frame_handshake _ _ _
      · simp [State.push, deselect, handshake]
    · simp [noResponse, handshake, hh]
    · obtain ⟨h1, rfl⟩ := hh
      simp [startPoll, State.push, handshake, h1]
  · intro hf; rw [hs] at hf; simp at hf

/-- The call of `send_command`, unfolded. -/
theorem testInv_sendCommand (u : Test) (cmd : Byte) (arg : Word) (k : List Micro) (s : State)
    (hs : s.todo = .command cmd arg :: k) (h : testInv u s) : testInv u (sendCommand cmd arg (s.withTodo k)) := by
  have p : Pushed s (sendCommand cmd arg (s.withTodo k)) (.command cmd arg) k := by
    refine ⟨hs, ⟨by simp, by simp, by simp, by simp, by simp⟩, ?_, by simp, by simp⟩
    obtain ⟨q, hq, h1⟩ := sendCommand_todo cmd arg (s.withTodo k)
    exact ⟨q, hq, h1, fun e => by simp [Micro.keepsCs] at e⟩
  refine testInv_pushed u p ?_ ?_ ?_ h
  · intro hc
    rcases hc with hc | ⟨hc, hc2 | hc2⟩ <;> rw [hs] at * <;> simp [deselect] at *
  · rw [hs]; simp only [handshake]
    rintro ⟨h1, h2, rfl⟩
    simp [sendCommand, h2, plainCommand, h1, State.push, State.noteCommand, deselect, select, waitReady, handshake]
  · intro hf; rw [hs] at hf; simp at hf


/-! ### The tests of the host operations -/

theorem blockCommand_plain (d : DmaDir) (n : Word) : blockCommand d n ≠ cmdStop ∧ isApp (blockCommand d n) = false := by
  cases d <;> simp only [blockCommand] <;> split <;> decide

theorem handshake_command (d : DmaDir) (n a : Word) (cs : Bool) (r1 : Byte) : handshake [.command (blockCommand d n) a] cs r1 :=
  ⟨(blockCommand_plain d n).1, (blockCommand_plain d n).2, rfl⟩

/-- A call inside a block operation. -/
theorem transferring_call {s : State} {live : Bool} {ms : List Micro} {u : Test} (h : s.transferring live)
    (hm : ms.all Micro.keepsSpeed = true) : (s.call ms u).transferring live := by
  obtain ⟨h1, h2, h3, h4⟩ := h
  refine ⟨h1, h2, h3, ?_⟩
  show (ms ++ s.todo).all Micro.keepsSpeed = true
  rw [List.all_append, hm, h4]; rfl

/-- A call inside the follow-up of POLL_STATUS. -/
theorem followingUp_call {s : State} {ms : List Micro} {u : Test} (h : s.followingUp)
    (hm : ms.all Micro.keepsSpeed = true) : (s.call ms u).followingUp := by
  obtain ⟨h1, h2, h3, h4⟩ := h
  refine ⟨h1, h2, h3, ?_⟩
  show (ms ++ s.todo).all Micro.keepsSpeed = true
  rw [List.all_append, hm, h4]; rfl

/-- The call of `deselect()` where nothing else is left to do. -/
theorem closing_call {s : State} {u : Test} (h : s.todo = []) : (s.call deselect u).closing := by
  refine .inl ?_
  show deselect ++ s.todo = deselect
  rw [h, List.append_nil]

theorem quiet_closed {s : State} (h : s.transferring false) (hc : s.cs = true) : s.quiet := by
  obtain ⟨h1, h2, h3, -⟩ := h
  exact ⟨h1, by simp [h2, h3], by simp [h2, hc]⟩

theorem cs_of_closing {s : State} (h : s.closing) (hp : s.todo = []) : s.cs = true := by
  rcases h with h | h
  · rw [hp] at h; simp [deselect] at h
  · exact h.1

/-- The tests of INITIALIZE. -/
theorem doTest_negotiating (u : Test) (s : State) (hp : s.todo = []) (h : testInv u s)
    (hu : (match u with
      | .poweredUp | .cmd0 | .cmd8 | .trailer | .v2Loop | .ocrCmd | .ocr | .probe | .legacyLoop | .blockLen | .closed | .fast => true
      | _ => false) = true) : (doTest u s).phaseInv := by
  cases u <;> try (simp only [Bool.false_eq_true] at hu)
  case closed =>
    obtain ⟨h1, h2, h3⟩ := h
    have hc := cs_of_closing h2 hp
    simp only [doTest, negoClosed]; split
    · exact ⟨hp, h1, hc⟩
    · next hne => exact ⟨hp, h1, hc, by show s.ctype ≠ .noCard; rw [h3]; exact hne⟩
  case fast =>
    obtain ⟨⟨h1, h2, h3⟩, h4, h5, h6⟩ := h
    rw [hp] at h6
    simp only [reduceCtorEq, true_and, false_or] at h6
    refine ⟨hp, ⟨⟨fun e => ?_, fun _ => ⟨h5, h6⟩⟩, ?_, ?_⟩⟩
    · have : s.dstat.noDisk = true := e
      simp [h3] at this
    · show s.atc.live = true ↔ s.dmast ≠ .idle; simp [h1, h2]
    · show s.cs = true ↔ s.dmast = .idle; simp [h1, h4]
  all_goals simp only [testInv] at h
  all_goals simp only [doTest, negoPoweredUp, negoCmd0, negoCmd8, negoTrailer, negoV2Loop, negoOcrCmd, negoOcr, negoProbe, negoLegacyLoop,
      negoBlockLen, negoFail, negoFinish, State.setTy]
  all_goals (repeat' split)
  all_goals first
    | exact h
    | exact ⟨hp, h⟩

/-- The tests of READ, WRITE and IOCTL. -/
theorem doTest_transferring (u : Test) (s : State) (hp : s.todo = []) (h : testInv u s)
    (hu : (match u with
      | .readOne | .readOneData | .readMany | .readManyData | .readStop | .writeOne | .writeOneData | .writeHint | .writeMany
      | .writeManyData | .writeStop | .blockClosed | .csdCmd | .csdData | .csdClosed => true
      | _ => false) = true) : (doTest u s).phaseInv := by
  cases u <;> try (simp only [Bool.false_eq_true] at hu)
  case blockClosed => exact ⟨hp, quiet_closed h.1 (cs_of_closing h.2 hp)⟩
  case csdClosed => exact ⟨hp, quiet_closed h.1 (cs_of_closing h.2 hp)⟩
  all_goals simp only [testInv] at h
  all_goals simp only [doTest, readOne, readOneData, readMany, readManyData, readStopNow,
      readStop, blockClose, writeOne, writeOneData, writeHint, writeManyNow, writeMany, writeStopNow, writeManyData, writeStop,
      csdClose, csdCmd, csdData]
  all_goals (repeat' split)
  all_goals first
    | exact transferring_call h rfl
    | exact ⟨transferring_call h rfl, closing_call hp⟩

/-- The tests of the start operations. -/
theorem doTest_starting (u : Test) (s : State) (hp : s.todo = []) (h : testInv u s)
    (hu : (match u with
      | .dmaReadCmd | .dmaReadToken | .dmaWriteHint | .dmaWriteCmd | .dmaWriteReady | .dmaWriteToken | .dmaStopped | .dmaClosed => true
      | _ => false) = true) : (doTest u s).phaseInv := by
  cases u <;> try (simp only [Bool.false_eq_true] at hu)
  case dmaReadCmd =>
    obtain ⟨h1, h2⟩ := h
    rw [hp] at h2
    simp only [doTest, dmaReadCmd, dmaFail]; split
    · next hr => exact ⟨transferring_call h1 rfl, h2 (by simpa [r1Ready] using hr), by show (_ ++ s.todo).all _ = true; rw [hp]; rfl⟩
    · exact ⟨transferring_call h1 rfl, closing_call hp⟩
  case dmaWriteCmd =>
    obtain ⟨h1, h2⟩ := h
    rw [hp] at h2
    simp only [doTest, dmaWriteCmd, dmaFail]; split
    · next hr => exact ⟨transferring_call h1 rfl, h2 (by simpa [r1Ready] using hr), by show (_ ++ s.todo).all _ = true; rw [hp]; rfl⟩
    · exact ⟨transferring_call h1 rfl, closing_call hp⟩
  case dmaReadToken =>
    obtain ⟨h1, h2, -⟩ := h
    simp only [doTest, dmaReadToken]; split
    · exact ⟨hp, h1, h2⟩
    · exact ⟨hp, h1⟩
  case dmaWriteReady =>
    obtain ⟨h1, h2, -⟩ := h
    simp only [doTest, dmaWriteReady]; split
    · exact ⟨transferring_call h1 rfl, h2, by show (_ ++ s.todo).all _ = true; rw [hp]; rfl⟩
    · exact ⟨hp, h1⟩
  case dmaWriteToken => exact ⟨hp, h.1, h.2.1⟩
  case dmaWriteHint =>
    refine ⟨transferring_call h rfl, ?_⟩
    show handshake (_ ++ s.todo) _ _
    rw [hp]; exact handshake_command _ _ _ _ _
  case dmaStopped => exact ⟨transferring_call h rfl, closing_call hp⟩
  case dmaClosed => exact ⟨hp, h.1, cs_of_closing h.2 hp⟩

/-- Every test keeps the invariant of its place. -/
theorem doTest_phaseInv (u : Test) (s : State) (hp : s.todo = []) (h : testInv u s) : (doTest u s).phaseInv := by
  cases u
  case pollStopToken =>
    simp only [doTest, pollStopToken, pollClose]
    split <;> exact ⟨followingUp_call h rfl, closing_call hp⟩
  case pollStopCmd => exact ⟨followingUp_call h rfl, closing_call hp⟩
  case pollClosed => exact ⟨hp, h.1.1, h.1.2.1, cs_of_closing h.2 hp⟩
  all_goals first
    | exact doTest_negotiating _ s hp h rfl
    | exact doTest_transferring _ s hp h rfl
    | exact doTest_starting _ s hp h rfl

/-! ### Settling -/

/-- A state in which PHASE may stand at a test: the invariant of its place. -/
theorem settleWithin_phaseInv (n : Nat) : ∀ s : State, s.phaseInv → (settleWithin n s).phaseInv := by
  induction n with
  | zero => intro s h; exact h
  | succ n ih =>
    intro s h
    unfold settleWithin
    split
    · next j k hs =>
      refine ih _ ?_
      unfold State.phaseInv at h ⊢
      rw [doJoin_pos, State.withTodo_pos]
      cases hp : s.pos with
      | idle => rw [hp] at h; have := h.1; rw [hs] at this; cases this
      | act a => rw [hp] at h; have := h.1; rw [hs] at this; cases this
      | test u => rw [hp] at h; exact testInv_doJoin u j k s hs h
    · exact h
    · exact h
    · exact h
    · next hs =>
      split
      · next u hp =>
        refine ih _ (doTest_phaseInv u s hs ?_)
        unfold State.phaseInv at h; rw [hp] at h; exact h
      · exact h
      · exact h

theorem settle_phaseInv (s : State) (h : s.phaseInv) : (settle s).phaseInv := settleWithin_phaseInv 8 s h

/-- One exchange of ENGINE, whatever the card answers. -/
theorem exchanged_phaseInv (x : Exchange) (k : List Micro) (rx : Byte) (s : State) (hs : s.todo = .exchange x :: k)
    (h : s.phaseInv) : (exchanged x k rx s).phaseInv := by
  refine settle_phaseInv _ ?_
  unfold State.phaseInv at h ⊢
  rw [received_pos]
  show match s.pos with | .idle => _ | .act a => _ | .test u => _
  cases hp : s.pos with
  | idle => rw [hp] at h; have := h.1; rw [hs] at this; cases this
  | act a => rw [hp] at h; have := h.1; rw [hs] at this; cases this
  | test u => rw [hp] at h; exact testInv_received u x k rx _ s hs h

theorem doAction_phaseInv (l : Local) (k : List Micro) (s : State) (hs : s.todo = .act l :: k)
    (h : s.phaseInv) : (doAction l k s).phaseInv := by
  refine settle_phaseInv _ ?_
  unfold State.phaseInv at h ⊢
  have e : (doLocal l (s.withTodo k)).pos = s.pos := by simp
  rw [e]
  cases hp : s.pos with
  | idle => rw [hp] at h; have := h.1; rw [hs] at this; cases this
  | act a => rw [hp] at h; have := h.1; rw [hs] at this; cases this
  | test u => rw [hp] at h; exact testInv_doLocal u l k s hs h

/-- The latches, the results, the counters, memory, the wire and the outside are no part of the invariant of a place. -/
theorem phaseInv_aside (s : State) (lat : Latches) (out : Results) (tmr : Timers) (job : Option DmaJob) (mem : Memory)
    (trace : List WireItem) (taken : List Taken) (env : Outside) (sched : List Turn) (h : s.phaseInv) :
    State.phaseInv { s with lat := lat, out := out, tmr := tmr, job := job, mem := mem, trace := trace, taken := taken, env := env,
                            sched := sched } := by
  rcases s with ⟨_, _, _, pos, _, _, _, _, _, _, _, _, _, _, _, _, _, _⟩
  cases pos with
  | idle => exact h
  | act a => cases a <;> exact h
  | test u => cases u <;> exact h

theorem phaseInv_withEnv (s : State) (e : Outside) (h : s.phaseInv) : (s.withEnv e).phaseInv :=
  phaseInv_aside s s.lat s.out s.tmr s.job s.mem s.trace s.taken e s.sched h

theorem nextCard_withEnv {s t : State} {rx : Byte} (h : s.nextCard = some (rx, t)) : ∃ e, t = s.withEnv e := by
  unfold State.nextCard at h
  split at h
  · simp only [Option.some.injEq, Prod.mk.injEq] at h; exact ⟨_, h.2.symm⟩
  · split at h
    · simp only [Option.some.injEq, Prod.mk.injEq] at h; exact ⟨_, h.2.symm⟩
    · cases h

theorem doExchange_phaseInv (x : Exchange) (k : List Micro) (s : State) (hs : s.todo = .exchange x :: k)
    (h : s.phaseInv) : (doExchange x k s).phaseInv := by
  unfold doExchange
  split
  · next rx t hn =>
    obtain ⟨e, rfl⟩ := nextCard_withEnv hn
    exact exchanged_phaseInv x k rx _ hs (phaseInv_withEnv s e h)
  · exact h

theorem doCommand_phaseInv (cmd : Byte) (arg : Word) (k : List Micro) (s : State) (hs : s.todo = .command cmd arg :: k)
    (h : s.phaseInv) : (doCommand cmd arg k s).phaseInv := by
  have h1 : (sendCommand cmd arg (s.withTodo k)).phaseInv := by
    unfold State.phaseInv at h ⊢
    have e : (sendCommand cmd arg (s.withTodo k)).pos = s.pos := by simp
    rw [e]
    cases hp : s.pos with
    | idle => rw [hp] at h; have := h.1; rw [hs] at this; cases this
    | act a => rw [hp] at h; have := h.1; rw [hs] at this; cases this
    | test u => rw [hp] at h; exact testInv_sendCommand u cmd arg k s hs h
  simp only [doCommand]
  split
  · next x k' ht => exact doExchange_phaseInv x k' _ ht h1
  · next l k' ht => exact doAction_phaseInv l k' _ ht h1
  · exact h1
  · exact h1
  · exact h1

/-! ### The primitive actions of the host operations -/

theorem doAct_phaseInv (a : Act) (s t : State) (hp : s.todo = []) (h : actInv a s) (ht : doAct a s = .next t) :
    t.phaseInv := by
  have e : ∀ u : State, (Host.Outcome.next u : Answer) = .next t → u.phaseInv → t.phaseInv := by
    intro u hu hi; cases hu; exact hi
  cases a
  case readMulti =>
    simp only [doAct, pollMulti] at ht
    split at ht
    · refine e _ ht ?_
      split
      · exact ⟨hp, h⟩
      · exact ⟨followingUp_call (s := s) ⟨h.1, h.2.1, h.2.2, by rw [hp]; rfl⟩ rfl, closing_call hp⟩
    · cases ht
  case readDir =>
    simp only [doAct, pollDir] at ht
    split at ht
    · refine e _ ht ?_
      have hf : s.followingUp := ⟨h.1, h.2.1, h.2.2, by rw [hp]; rfl⟩
      split
      · exact followingUp_call hf rfl
      · exact followingUp_call hf rfl
    · cases ht
  case ioctlGate =>
    simp only [doAct, ioctlGate] at ht
    have hl : s.atc.live = false := by
      have := h.1.2.1; have h2 := h.2; cases hl : s.atc.live <;> simp_all
    have hT : s.transferring false := ⟨h.1.1, h.2, hl, by rw [hp]; rfl⟩
    split at ht
    · exact e _ ht ⟨hp, h.1⟩
    · split at ht
      · exact e _ ht ⟨hp, h.1⟩
      · split at ht
        · exact e _ ht (transferring_call hT rfl)
        · split at ht
          · cases ht
          · exact e _ ht ⟨hp, h.1⟩
  case ret r => exact e _ ht ⟨hp, h⟩
  case retStatus => exact e _ ht ⟨hp, h⟩
  case readStatus =>
    refine e _ ht ?_
    simp only [pollRead]
    have hlive : s.dmast ≠ .idle → s.atc.live = true := h.2.1.2
    cases hd : s.dmast <;> simp only [State.withWk_wk] <;> rw [hd] at hlive
    · exact ⟨hp, h⟩
    · exact ⟨hp, h⟩
    · exact ⟨hp, h.1, .inl hd, hlive (by decide)⟩
    · exact ⟨hp, h.1, .inr hd, hlive (by decide)⟩
  case senseMedium =>
    refine e _ ht ?_
    have hl : s.atc.live = false := by
      have := h.1.2.1; have h2 := h.2; cases hl : s.atc.live <;> simp_all
    exact ⟨hp, h.2, hl, h.1.2.2.2 h.2⟩
  case senseProtect => exact e _ ht ⟨hp, h⟩
  case testMedium =>
    refine e _ ht ?_
    simp only [negoTestMedium]
    cases hd : s.dstat.noDisk
    · exact ⟨h.1, h.2.1, hd⟩
    · exact ⟨hp, h⟩
  case absentInit => exact e _ ht ⟨hp, h.1, h.2.1, h.2.2, rfl⟩
  case absentType =>
    refine e _ ht ⟨hp, ⟨⟨fun _ => h.2.2.2, fun hn => ?_⟩, ?_, ?_⟩⟩
    · have : s.dstat.noInit = false := hn
      rw [h.2.2.2] at this; cases this
    · show s.atc.live = true ↔ s.dmast ≠ .idle; simp [h.1, h.2.1]
    · show s.cs = true ↔ s.dmast = .idle; simp [h.1, h.2.2.1]
  case windowExpired v =>
    refine e _ ht ?_
    simp only [negoWindow, negoFail, negoFinish, State.setTy]
    split
    · exact ⟨hp, h⟩
    · split <;> exact h
  case setType => exact e _ ht ⟨h, closing_call hp, rfl⟩
  case setReady =>
    refine e _ ht ⟨h.1, h.2.1, h.2.2, .inl ?_⟩
    show _ ++ s.todo = _; rw [hp]; rfl
  case setFailed =>
    refine e _ ht ⟨hp, ⟨⟨fun _ => rfl, fun hn => by cases hn⟩, ?_, ?_⟩⟩
    · show s.atc.live = true ↔ s.dmast ≠ .idle; simp [h.1.1, h.1.2.1]
    · show s.cs = true ↔ s.dmast = .idle; simp [h.1.1, h.2]
  case gateInit o =>
    refine e _ ht ?_
    simp only [gateInit, gatePassed]
    have hT : s.dmast = .idle → s.transferring false := fun hd => by
      refine ⟨h.1.1, hd, ?_, by rw [hp]; rfl⟩
      have := h.1.2.1; cases hl : s.atc.live <;> simp_all
    split
    · exact ⟨hp, h.1⟩
    · split
      · exact ⟨hp, h⟩
      · split
        · next ho => exact ⟨hp, h.1, ho⟩
        · next ho =>
          have ho : o.isDma = false := by simpa using ho
          exact ⟨hp, by show s.transferring o.isDma; rw [ho]; exact hT (h.2 ho)⟩
  case gateProtect o =>
    refine e _ ht ?_
    simp only [gateProtect, gatePassed]
    have hT : s.dmast = .idle → s.transferring false := fun hd => by
      refine ⟨h.1.1, hd, ?_, by rw [hp]; rfl⟩
      have := h.1.2.1; cases hl : s.atc.live <;> simp_all
    split
    · exact ⟨hp, h.1⟩
    · split
      · next ho => exact ⟨hp, h.1, ho⟩
      · next ho =>
        have ho : o.isDma = false := by simpa using ho
        exact ⟨hp, by show s.transferring o.isDma; rw [ho]; exact hT (h.2 ho)⟩
  case guardDma o =>
    refine e _ ht ?_
    simp only [guardDma]
    split
    · next hd => exact ⟨hp, h.1, hd, h.2⟩
    · exact ⟨hp, h.1⟩
  case guardContext o =>
    refine e _ ht ?_
    simp only [guardContext]
    split
    · exact ⟨hp, h.1⟩
    · exact ⟨hp, h⟩
  case newContext o => exact e _ ht ⟨hp, ⟨h.1.1, h.2.1, rfl, by show s.todo.all _ = true; rw [hp]; rfl⟩, h.2.2⟩
  case newDir o => exact e _ ht ⟨hp, h⟩
  case newMulti o => exact e _ ht ⟨hp, by show s.transferring o.isDma; rw [h.2]; exact h.1⟩
  case scale o =>
    refine e _ ?_ (?_ : State.phaseInv (match o with
      | .read => readBegin s.noteAddr | .write => writeBegin s.noteAddr
      | .startRead => dmaReadBegin s.noteAddr | .startWrite => dmaWriteBegin s.noteAddr))
    · cases o <;> exact ht
    · cases o
      · simp only [readBegin]; split <;> exact transferring_call (s := s.noteAddr) h rfl
      · simp only [writeBegin]; split
        · exact transferring_call (s := s.noteAddr) h rfl
        · exact ⟨hp, h⟩
      · refine ⟨transferring_call (s := s.noteAddr) h rfl, ?_⟩
        show handshake (_ ++ s.todo) _ _
        rw [hp]; exact handshake_command _ _ _ _ _
      · simp only [dmaWriteBegin]; split
        · refine ⟨transferring_call (s := s.noteAddr) h rfl, ?_⟩
          show handshake (_ ++ s.todo) _ _
          rw [hp]; exact handshake_command _ _ _ _ _
        · exact ⟨hp, h⟩
  case testSdc dma =>
    cases dma
    · refine e (writeTestSdc s) ht ?_
      simp only [writeTestSdc, writeManyNow]
      split <;> exact transferring_call h rfl
    · refine e (dmaWriteTestSdc s) ht ?_
      simp only [dmaWriteTestSdc, dmaWriteManyNow]
      split
      · exact transferring_call h rfl
      · refine ⟨transferring_call h rfl, ?_⟩
        show handshake (_ ++ s.todo) _ _
        rw [hp]; exact handshake_command _ _ _ _ _
  case dmaGo d =>
    refine e _ ht ⟨hp, ⟨h.1.1, ?_, ?_⟩⟩
    · show s.atc.live = true ↔ DmaStatus.busy ≠ .idle; simp [h.1.2.2.1]
    · show s.cs = true ↔ DmaStatus.busy = .idle; simp [h.2]
  case testMulti d =>
    refine e _ ht ?_
    simp only [dmaTestMulti, dmaFail]
    split
    · cases d <;> exact transferring_call h rfl
    · exact ⟨transferring_call h rfl, closing_call hp⟩
  case dropContext =>
    refine e _ ht ⟨hp, ⟨h.1.1, ?_, ?_⟩⟩
    · show false = true ↔ s.dmast ≠ .idle; simp [h.1.2.1]
    · show s.cs = true ↔ s.dmast = .idle; simp [h.1.2.1, h.2]
  case clearContext => exact e _ ht ⟨hp, h.1, h.2.1, h.2.2, rfl⟩
  case statusIdle =>
    refine e _ ht ⟨hp, ⟨h.1, ?_, ?_⟩⟩
    · show s.atc.live = true ↔ DmaStatus.idle ≠ .idle; simp [h.2.2.2]
    · show s.cs = true ↔ DmaStatus.idle = .idle; simp [h.2.2.1]

/-- One step of ENGINE keeps the invariant of its place. -/
theorem engineStep_phaseInv (s t : State) (h : s.phaseInv) (ht : engineStep s = .next t) : t.phaseInv := by
  have e : ∀ u : State, (Host.Outcome.next u : Answer) = .next t → u.phaseInv → t.phaseInv := by
    intro u hu hi; cases hu; exact hi
  unfold engineStep at ht
  split at ht
  · next x k hs => exact e _ ht (doExchange_phaseInv x k s hs h)
  · next l k hs => exact e _ ht (doAction_phaseInv l k s hs h)
  · next c a k hs => exact e _ ht (doCommand_phaseInv c a k s hs h)
  · exact e _ ht (settle_phaseInv s h)
  · next hs =>
    split at ht
    · exact e _ ht h
    · next a hp =>
      unfold State.phaseInv at h; rw [hp] at h
      cases hd : doAct a s with
      | next u =>
        rw [hd] at ht
        exact e _ ht (settle_phaseInv u (doAct_phaseInv a s u hs h.2 hd))
      | fault r => rw [hd] at ht; cases ht
      | refused r => rw [hd] at ht; cases ht
    · exact e _ ht (settle_phaseInv s h)

end Sys2Proof.Machine
end

