-- ==== Sys2Proof/Laws/Operations.lean ====
section
/-! SUPPORT. Laws/Operations.lean: the common head of the block operations (the gate, the guard, the command) and their common end, and
the loops over several blocks and several rounds. -/

namespace Sys2Proof.Machine

/-! ### The head of a block operation -/

/-- The state behind the issue of a block operation. -/
def State.latched (s : State) (o : BlockOp) (sel : Byte) (buf sector count : Word) : State :=
  (s.clearResults.latchWord o.code sel).latchBlock buf sector count

theorem isIdle_iff (s : State) : s.isIdle = true ↔ s.pos = .idle ∧ s.todo = [] := by simp [State.isIdle]

theorem latched_lat (s : State) (o : BlockOp) (sel : Byte) (buf sector count : Word) :
    (s.latched o sel buf sector count).lat = { op := o.code, sel := sel, sector := sector, count := count, buf := buf } := rfl

/-- A zero count ends the operation at its issue (44_polling_block_io.md R230). -/
theorem blockStart_zero {o : BlockOp} {s : State} {sel : Byte} {buf sector count : Word} (hc : count = 0) :
    blockStart o buf sector count (s.clearResults.latchWord o.code sel) =
      (s.latched o sel buf sector count).endWith .invalidParameter := by
  unfold blockStart gateCount
  rw [if_pos (show (State.latchBlock _ buf sector count).lat.count = 0 from hc)]; rfl

/-- Else NOINIT is asked. -/
theorem blockStart_nonzero {o : BlockOp} {s : State} {sel : Byte} {buf sector count : Word} (hc : count ≠ 0) :
    blockStart o buf sector count (s.clearResults.latchWord o.code sel) = (s.latched o sel buf sector count).goAct (.gateInit o) := by
  unfold blockStart gateCount
  rw [if_neg (show ¬ (State.latchBlock _ buf sector count).lat.count = 0 from hc)]; rfl

/-- The place behind the gate: the guard of a start operation, or the address. -/
def behindGate (o : BlockOp) : Act := if o.isDma then .guardDma o else .scale o

theorem gatePassed_eq (o : BlockOp) (s : State) : gatePassed o s = s.goAct (behindGate o) := by
  unfold gatePassed behindGate; split <;> rfl

/-- A gate that fires nowhere. -/
theorem reaches_gate {o : BlockOp} {s : State} {sel : Byte} {buf sector count : Word} (ht : s.todo = []) (hc : count ≠ 0)
    (hn : s.dstat.noInit = false) (hp : o.isWrite = true → s.dstat.protect = false) :
    ∃ n, Reaches n (blockStart o buf sector count (s.clearResults.latchWord o.code sel))
      ((s.latched o sel buf sector count).goAct (behindGate o)) := by
  let v := s.latched o sel buf sector count
  have htv : v.todo = [] := ht
  have hnv : ¬ (v.goAct (.gateInit o)).dstat.noInit = true := by
    show ¬ s.dstat.noInit = true; simp [hn]
  rw [blockStart_nonzero hc]
  cases hw : o.isWrite
  · refine ⟨1, reaches_act_act htv rfl (b := behindGate o) ?_ htv rfl⟩
    show Host.Outcome.next (gateInit o (v.goAct (.gateInit o))) = _
    unfold gateInit
    rw [if_neg hnv, if_neg (by simp [hw]), gatePassed_eq]; rfl
  · have hpv : ¬ (v.goAct (.gateProtect o)).dstat.protect = true := by
      show ¬ s.dstat.protect = true; simp [hp hw]
    refine ⟨1 + 1, (reaches_act_act (s := v.goAct (.gateInit o)) (t := v.goAct (.gateProtect o)) htv rfl (b := .gateProtect o) ?_ htv
      rfl).trans (reaches_act_act (s := v.goAct (.gateProtect o)) (t := v.goAct (behindGate o)) htv rfl (b := behindGate o) ?_ htv rfl)⟩
    · show Host.Outcome.next (gateInit o (v.goAct (.gateInit o))) = _
      unfold gateInit
      rw [if_neg hnv, if_pos hw]; rfl
    · show Host.Outcome.next (gateProtect o (v.goAct (.gateProtect o))) = _
      unfold gateProtect
      rw [if_neg hpv, gatePassed_eq]; rfl

/-- A guard that does not fire, and the three writes of the new context (45_dma_completion.md R261, R263). -/
theorem reaches_guard {o : BlockOp} {v : State} (ht : v.todo = []) (hd : v.dmast = .idle) (ha : v.atc.live = false) :
    Reaches 5 (v.goAct (.guardDma o))
      ((v.withAtc { live := true, dir := o.dir, multi := decide (v.lat.count > 1) }).goAct (.scale o)) := by
  have r1 : Reaches 1 (v.goAct (.guardDma o)) (v.goAct (.guardContext o)) := by
    refine reaches_act_act ht rfl (b := .guardContext o) ?_ ht rfl
    show Host.Outcome.next (guardDma o (v.goAct (.guardDma o))) = _
    unfold guardDma
    rw [if_pos (show (v.goAct (.guardDma o)).dmast = .idle from hd)]; rfl
  have r2 : Reaches 1 (v.goAct (.guardContext o)) (v.goAct (.newContext o)) := by
    refine reaches_act_act ht rfl (b := .newContext o) ?_ ht rfl
    show Host.Outcome.next (guardContext o (v.goAct (.guardContext o))) = _
    unfold guardContext
    rw [if_neg (show ¬ (v.goAct (.guardContext o)).atc.live = true by show ¬ v.atc.live = true; simp [ha])]; rfl
  have r3 : Reaches 1 (v.goAct (.newContext o)) (newContext o v) := reaches_act_act ht rfl (b := .newDir o) rfl ht rfl
  have r4 : Reaches 1 (newContext o v) (newDir o (newContext o v)) := reaches_act_act ht rfl (b := .newMulti o) rfl ht rfl
  have r5 : Reaches 1 (newDir o (newContext o v)) (newMulti o (newDir o (newContext o v))) :=
    reaches_act_act ht rfl (b := .scale o) rfl ht rfl
  exact r1.trans (r2.trans (r3.trans (r4.trans r5)))

/-- The address of a READ, and its command (20_memory.md R68; 44_polling_block_io.md R234). -/
theorem reaches_read {v : State} (ht : v.todo = []) :
    Reaches 1 (v.goAct (.scale .read)) (v.noteAddr.call [.command (blockCommand .read v.lat.count) (scaledAddr v.ctype v.lat.sector)]
      (if v.lat.count = 1 then .readOne else .readMany)) := by
  refine reaches_act_to ht rfl ?_ trivial
  show Host.Outcome.next (readBegin _) = _
  unfold readBegin
  by_cases h : v.lat.count = 1
  · rw [if_pos h]; exact congrArg _ (if_pos h)
  · rw [if_neg h]; exact congrArg _ (if_neg h)

/-- A state reaches nothing new along an empty stretch. -/
theorem Along.refl {s : State} {m : List Byte} (h : s.env.card = m) : Along s s [] m :=
  ⟨rfl, rfl, rfl, rfl, rfl, rfl, rfl, rfl, rfl, (List.append_nil _).symm, by rw [← h], rfl, rfl, rfl, rfl, rfl⟩

/-- The address of a WRITE of one block, and its command (R235). -/
theorem reaches_writeSingle {v : State} (ht : v.todo = []) (h : v.lat.count = 1) :
    Reaches 1 (v.goAct (.scale .write)) (v.noteAddr.call [.command 0x18 (scaledAddr v.ctype v.lat.sector)] .writeOne) := by
  refine reaches_act_to ht rfl ?_ trivial
  show Host.Outcome.next (writeBegin _) = _
  unfold writeBegin
  rw [if_pos (show (v.goAct (.scale .write)).noteAddr.lat.count = 1 from h)]
  show Host.Outcome.next (State.call _ [.command (if v.lat.count = 1 then 0x18 else 0x19) _] _) = _
  rw [if_pos h]; rfl

/-- The address of a WRITE of several blocks; the test for the hint is next (R235). -/
theorem reaches_writeSeveral {v : State} (ht : v.todo = []) (h : v.lat.count ≠ 1) :
    Reaches 1 (v.goAct (.scale .write)) (v.noteAddr.goAct (.testSdc false)) := by
  refine reaches_act_act ht rfl (b := .testSdc false) ?_ ht rfl
  show Host.Outcome.next (writeBegin _) = _
  unfold writeBegin
  rw [if_neg (show ¬ (v.goAct (.scale .write)).noteAddr.lat.count = 1 from h)]; rfl

/-- The pre-erase hint where the card is SDC, and the command of a multi-block write (44_polling_block_io.md R235,
45_dma_completion.md R262). -/
theorem passes_hint {dma : Bool} {s : State} {p : AppReply} {more : List Byte} (ht : s.todo = []) (hp : p.ok) (h1 : s.lat.count ≠ 1)
    (hc : s.env.card = hintBytes s.ctype s.lat.count p ++ more) :
    ∃ t, Passes (hintTicks s.ctype s.lat.count p) (s.goAct (.testSdc dma))
        (t.call [.command 0x19 s.wk.addr] (if dma then .dmaWriteCmd else .writeMany)) ∧ t.todo = [] ∧
      Along s t (hintTrace s.ctype s.lat.count p) more ∧ t.lat = s.lat ∧ t.mem = s.mem ∧
      s.tmr.ranDown t.tmr (hintTicks s.ctype s.lat.count p) := by
  have cmd : ∀ t : State, t.lat = s.lat → t.wk.addr = s.wk.addr →
      t.call [.command (blockCommand .write t.lat.count) t.wk.addr] (if dma then .dmaWriteCmd else .writeMany) =
        t.call [.command 0x19 s.wk.addr] (if dma then .dmaWriteCmd else .writeMany) := by
    intro t hl ha
    rw [ha, hl, show blockCommand .write s.lat.count = 0x19 from if_neg h1]
  by_cases hs : s.ctype.isSdc = true
  · have hh : sendsHint s.ctype s.lat.count = true := by
      rw [sendsHint, hs, Bool.and_true]; exact bne_iff_ne.2 h1
    unfold hintBytes at hc
    rw [if_pos hh] at hc
    have r1 : Reaches 1 (s.goAct (.testSdc dma))
        (s.call [.command acmdErase s.lat.count] (if dma then .dmaWriteHint else .writeHint)) := by
      refine reaches_act_to ht rfl ?_ trivial
      cases dma
      · exact congrArg Host.Outcome.next (if_pos hs)
      · exact congrArg Host.Outcome.next (if_pos hs)
    obtain ⟨t, r, g1, g2, g3, g5, g6, -⟩ := call_app (s := s) (idx := 0x17) (arg := s.lat.count)
      (u := if dma then .dmaWriteHint else .writeHint) (by decide) (by decide) (by decide) (by decide) ht hp hc
    have e : doTest (if dma then .dmaWriteHint else .writeHint) t =
        t.call [.command 0x19 s.wk.addr] (if dma then .dmaWriteCmd else .writeMany) := by
      rw [← cmd t g3 g2.addr]
      cases dma <;> rfl
    rw [e] at r
    have ek : hintTicks s.ctype s.lat.count p = p.ticks := if_pos hh
    rw [ek]
    refine ⟨t, r1.into r, g1, ?_, g3, g5, g6 ▸ p.ranDown s.tmr⟩
    unfold hintTrace; rw [if_pos hh]; exact g2
  · have hh : ¬ sendsHint s.ctype s.lat.count = true := by simp [sendsHint, hs]
    unfold hintBytes at hc
    rw [if_neg hh] at hc
    have ek : hintTicks s.ctype s.lat.count p = 0 := if_neg hh
    rw [ek]
    refine ⟨s, Reaches.passes (n := 1) ?_, ht, ?_, rfl, rfl, Timers.ranDown_refl _⟩
    · rw [← cmd s rfl rfl]
      refine reaches_act_to ht rfl ?_ trivial
      cases dma
      · exact congrArg Host.Outcome.next (if_neg hs)
      · exact congrArg Host.Outcome.next (if_neg hs)
    · unfold hintTrace; rw [if_neg hh]; exact Along.refl hc

/-! ### The end of the operations -/

/-- `deselect()` and the result of READ and WRITE (44_polling_block_io.md R234, R235). -/
theorem reaches_blockClose {s : State} {d : Byte} {more : List Byte} (ht : s.todo = []) (hc : s.env.card = d :: more) :
    ∃ t, Reaches 3 (blockClose s) (t.returnWith (if s.lat.count = 0 then .ok else .error)) ∧ t.todo = [] ∧
      Along s t [.cs true, .xchg Config.filler d] more ∧ t.lat = s.lat ∧ t.cs = true ∧ t.mem = s.mem ∧ t.tmr = s.tmr ∧
      t.wk = s.wk := by
  obtain ⟨t, r, h1, h2, h3, h4, h5, h6, h7⟩ := call_deselect (u := .blockClosed) ht hc
  have e : doTest .blockClosed t = t.endWith (if s.lat.count = 0 then .ok else .error) := by
    show t.endWith (if t.lat.count = 0 then .ok else .error) = _
    rw [h3]
  rw [e] at r
  refine ⟨t.endWith (if s.lat.count = 0 then .ok else .error), r.trans (reaches_ret h1 rfl), h1, h2.aside _ _ _ _ _, h3, h4, h5, h6, h7⟩

/-- What one operation without a context leaves: from the state behind its issue and its run, the whole next state. -/
theorem Along.result {s v t : State} {i : List WireItem} {m : List Byte} (h : Along v t i m)
    (hv : ∃ l w p q, v = { s with lat := l, wk := w, out := s.clearResults.out, pos := p, todo := q }) (hi : s.isIdle = true)
    (ht : t.todo = []) (r : TransferResult) (rest : List Turn) :
    (t.returnWith r).withSched rest = { s with
      lat := t.lat, wk := t.wk, out := s.out.onlyRes r, cs := t.cs, tmr := t.tmr, mem := t.mem, trace := s.trace ++ i,
      env := { s.env with card := m }, sched := rest } := by
  obtain ⟨l, w, p, q, rfl⟩ := hv
  obtain ⟨hp, hq⟩ := (isIdle_iff s).1 hi
  refine State.eq_of rfl rfl ?_ hp.symm (ht.trans hq.symm) h.dstat h.ctype h.dmast h.atc rfl rfl h.speed h.job rfl h.trace h.taken h.env rfl
  show ({ t.out with res := r, resValid := true } : Results) = _
  rw [h.out]; rfl

/-- READ and WRITE from the issue on: if the run behind the gate ends at a `return`, the operation completes under every schedule that
begins with the turns of that run. -/
theorem polling_ends {o : BlockOp} {s t : State} {sel : Byte} {buf sector count : Word} {r : TransferResult} {i : List WireItem}
    {m : List Byte} {turns : List Turn} (ho : o.isDma = false) (hi : s.isIdle = true)
    (hd : s.dmast = .idle) (hc : count ≠ 0) (hn : s.dstat.noInit = false) (hp : o.isWrite = true → s.dstat.protect = false)
    (h1 : Gets turns ((s.latched o sel buf sector count).goAct (.scale o)) (t.returnWith r)) (h2 : t.todo = [])
    (h3 : Along ((s.latched o sel buf sector count).noteAddr) t i m) :
    ∃ k, ∀ rest, exec (o.instr sel buf sector count) (s.withSched ((engineTurns k ++ turns) ++ rest)) = .next { s with
      lat := t.lat, wk := t.wk, out := s.out.onlyRes r, cs := t.cs, tmr := t.tmr, mem := t.mem, trace := s.trace ++ i,
      env := { s.env with card := m }, sched := rest } := by
  obtain ⟨k, g⟩ := reaches_gate (sel := sel) (buf := buf) (sector := sector) ((isIdle_iff s).1 hi).2 hc hn hp
  rw [show behindGate o = .scale o by simp [behindGate, ho]] at g
  refine ⟨k, fun rest => ?_⟩
  rw [exec_block hi (fun _ => hd) (g.gets.trans h1) (returnWith_idle h2) rest,
    h3.result ⟨(s.latched o sel buf sector count).lat, (s.latched o sel buf sector count).noteAddr.wk, s.pos, s.todo, rfl⟩ hi h2]

/-- The same for a run without TICK events. -/
theorem polling_completes {o : BlockOp} {s : State} {sel : Byte} {buf sector count : Word} {r : TransferResult} {i : List WireItem}
    {m : List Byte} {l : Latches} {c : Bool} {x : Timers} {z : Memory} (ho : o.isDma = false) (hi : s.isIdle = true)
    (hd : s.dmast = .idle) (hc : count ≠ 0) (hn : s.dstat.noInit = false) (hp : o.isWrite = true → s.dstat.protect = false)
    (h : ∃ n t, Reaches n ((s.latched o sel buf sector count).goAct (.scale o)) (t.returnWith r) ∧ t.todo = [] ∧
      Along (s.latched o sel buf sector count).noteAddr t i m ∧ t.lat = l ∧ t.cs = c ∧ t.mem = z ∧ t.tmr = x) :
    ∃ n w, ∀ rest, exec (o.instr sel buf sector count) (s.withSched (engineTurns n ++ rest)) = .next { s with
      lat := l, wk := w, out := s.out.onlyRes r, cs := c, tmr := x, mem := z, trace := s.trace ++ i,
      env := { s.env with card := m }, sched := rest } := by
  obtain ⟨n, t, h1, h2, h3, rfl, rfl, rfl, rfl⟩ := h
  obtain ⟨k, g⟩ := polling_ends ho hi hd hc hn hp h1.gets h2 h3
  exact ⟨k + n, t.wk, by rw [engineTurns_add]; exact g⟩

/-- The same for a run with TICK events between ENGINE's steps. -/
theorem polling_passes {o : BlockOp} {s : State} {sel : Byte} {buf sector count : Word} {r : TransferResult} {i : List WireItem}
    {m : List Byte} {l : Latches} {c : Bool} {x : Timers} {z : Memory} {k : Nat} (ho : o.isDma = false) (hi : s.isIdle = true)
    (hd : s.dmast = .idle) (hc : count ≠ 0) (hn : s.dstat.noInit = false) (hp : o.isWrite = true → s.dstat.protect = false)
    (h : ∃ t, Passes k ((s.latched o sel buf sector count).goAct (.scale o)) (t.returnWith r) ∧ t.todo = [] ∧
      Along ((s.latched o sel buf sector count).noteAddr) t i m ∧ t.lat = l ∧ t.cs = c ∧ t.mem = z ∧ t.tmr = x) :
    ∃ turns w, Timed k turns ∧ ∀ rest, exec (o.instr sel buf sector count) (s.withSched (turns ++ rest)) = .next { s with
      lat := l, wk := w, out := s.out.onlyRes r, cs := c, tmr := x, mem := z, trace := s.trace ++ i,
      env := { s.env with card := m }, sched := rest } := by
  obtain ⟨t, ⟨turns, g1, g2⟩, h2, h3, rfl, rfl, rfl, rfl⟩ := h
  obtain ⟨n, g⟩ := polling_ends ho hi hd hc hn hp g2 h2 h3
  exact ⟨_, t.wk, g1.engine n, g⟩

/-- The end of a multi-block READ: CMD12, deselect, the result (44_polling_block_io.md R234). -/
theorem reaches_readStop {s : State} {p : StopReply} {d : Byte} {more : List Byte} (ht : s.todo = []) (hp : p.ok)
    (hc : s.env.card = p.bytes ++ d :: more) :
    ∃ n t, Reaches n (readStopNow s) (t.returnWith (if s.lat.count = 0 then .ok else .error)) ∧ t.todo = [] ∧
      Along s t (p.trace ++ [.cs true, .xchg Config.filler d]) more ∧ t.lat = s.lat ∧ t.cs = true ∧ t.mem = s.mem ∧ t.tmr = s.tmr := by
  obtain ⟨n, t, r, h1, h2, h3, -, h5, h6⟩ := call_stop (u := .readStop) ht hp hc
  obtain ⟨v, g, g1, g2, g3, g4, g5, g6, -⟩ := reaches_blockClose h1 h2.card
  rw [h3] at g
  exact ⟨n + 3, v, r.trans g, g1, h2.trans g2, g3.trans h3, g4, g5.trans h5, g6.trans h6⟩

/-- The end of a multi-block WRITE: the stop token, deselect, the result. Where the token cannot go out, `COUNT <- 1` makes it Error (R235). -/
theorem passes_writeStop {s : State} {p : StopAttempt} {d : Byte} {more : List Byte} (ht : s.todo = []) (hp : p.ok)
    (hc : s.env.card = p.bytes ++ d :: more) :
    ∃ t, Passes p.ticks (writeStopNow s) (t.returnWith (if s.lat.count = 0 ∧ p.goesOut = true then .ok else .error)) ∧ t.todo = [] ∧
      Along s t (p.trace ++ [.cs true, .xchg Config.filler d]) more ∧
      t.lat = { s.lat with count := if p.goesOut then s.lat.count else 1 } ∧ t.cs = true ∧ t.mem = s.mem ∧
      t.tmr = p.timers s.tmr := by
  obtain ⟨t, r, h1, h2, h3, -, h5, h6, h7⟩ := call_stopAttempt (u := .writeStop) ht hp hc
  let v := if p.goesOut then t else t.setCount 1
  have e : doTest .writeStop t = blockClose v := by
    show blockClose _ = _
    rw [h7]
  have hv : v.todo = [] ∧ v.env.card = d :: more ∧ v.mem = s.mem ∧ v.tmr = p.timers s.tmr ∧
      v.lat = { s.lat with count := if p.goesOut then s.lat.count else 1 } ∧
      Along s v p.trace (d :: more) := by
    cases hg : p.goesOut <;> simp only [v, hg]
    · exact ⟨h1, h2.card, h5, h6, by show ({ t.lat with count := 1 } : Latches) = _; rw [h3]; rfl,
        h2.aside { t.lat with count := 1 } t.pos t.todo t.cs t.mem⟩
    · exact ⟨h1, h2.card, h5, h6, h3, h2⟩
  obtain ⟨v1, v2, v3, v4, v5, v6⟩ := hv
  obtain ⟨w, g, g1, g2, g3, g4, g5, g6, -⟩ := reaches_blockClose v1 v2
  have er : (if v.lat.count = 0 then TransferResult.ok else .error) = if s.lat.count = 0 ∧ p.goesOut = true then .ok else .error := by
    rw [v5]
    cases p.goesOut <;> simp
  rw [e] at r
  rw [er] at g
  exact ⟨w, r.on g, g1, v6.trans g2, g3.trans v5, g4, g5.trans v3, g6.trans v4⟩

/-- The same for an operation that ends by writing the registers of a transfer. -/
theorem Along.transferResult {s v t : State} {i : List WireItem} {m : List Byte} (h : Along v t i m)
    (hv : ∃ l w p q a, v = { s with lat := l, wk := w, out := s.clearResults.out, pos := p, todo := q, atc := a })
    (hi : s.isIdle = true)
    (ht : t.todo = []) (r : TransferResult) (rest : List Turn) (d : DmaStatus) (a : Context) (j : Option DmaJob) (e : List WireItem) :
    (({ t with dmast := d, atc := a, job := j, trace := t.trace ++ e } : State).returnWith r).withSched rest = { s with
      lat := t.lat, wk := t.wk, out := s.out.onlyRes r, dmast := d, atc := a, job := j, cs := t.cs, tmr := t.tmr, mem := t.mem,
      trace := s.trace ++ i ++ e, env := { s.env with card := m }, sched := rest } := by
  obtain ⟨l, w, p, q, a', rfl⟩ := hv
  obtain ⟨hp, hq⟩ := (isIdle_iff s).1 hi
  refine State.eq_of rfl rfl ?_ hp.symm (ht.trans hq.symm) h.dstat h.ctype rfl rfl rfl rfl h.speed rfl rfl ?_ h.taken h.env rfl
  · show ({ t.out with res := r, resValid := true } : Results) = _
    rw [h.out]; rfl
  · exact congrArg (· ++ e) h.trace

/-- The state of a start operation behind its new context. -/
def State.started (s : State) (o : BlockOp) (sel : Byte) (buf sector count : Word) : State :=
  (s.latched o sel buf sector count).withAtc { live := true, dir := o.dir, multi := decide (count > 1) }

/-- START_READ_DMA and START_WRITE_DMA from the issue on (45_dma_completion.md R261, R262). -/
theorem starting_ends {o : BlockOp} {s t : State} {sel : Byte} {buf sector count : Word} {r : TransferResult} {i e : List WireItem}
    {m : List Byte} {d : DmaStatus} {a : Context} {j : Option DmaJob} {turns : List Turn}
    (ho : o.isDma = true) (hi : s.isIdle = true) (hd : s.dmast = .idle) (ha : s.atc.live = false) (hc : count ≠ 0)
    (hn : s.dstat.noInit = false) (hp : o.isWrite = true → s.dstat.protect = false)
    (h1 : Gets turns ((s.started o sel buf sector count).goAct (.scale o))
      (({ t with dmast := d, atc := a, job := j, trace := t.trace ++ e } : State).returnWith r)) (h2 : t.todo = [])
    (h3 : Along ((s.started o sel buf sector count).noteAddr) t i m) :
    ∃ k, ∀ rest, exec (o.instr sel buf sector count) (s.withSched ((engineTurns k ++ turns) ++ rest)) = .next { s with
      lat := t.lat, wk := t.wk, out := s.out.onlyRes r, dmast := d, atc := a, job := j, cs := t.cs, tmr := t.tmr, mem := t.mem,
      trace := s.trace ++ i ++ e, env := { s.env with card := m }, sched := rest } := by
  obtain ⟨k, g⟩ := reaches_gate (sel := sel) (buf := buf) (sector := sector) ((isIdle_iff s).1 hi).2 hc hn hp
  rw [show behindGate o = .guardDma o by simp [behindGate, ho]] at g
  have g' := reaches_guard (o := o) (v := s.latched o sel buf sector count) ((isIdle_iff s).1 hi).2 hd ha
  refine ⟨k + 5, fun rest => ?_⟩
  rw [exec_block hi (by simp [ho]) ((g.trans g').gets.trans h1) (returnWith_idle h2) rest,
    h3.transferResult ⟨(s.latched o sel buf sector count).lat, (s.started o sel buf sector count).noteAddr.wk, s.pos, s.todo,
      (s.started o sel buf sector count).atc, rfl⟩ hi h2]

/-- The same for a run without TICK events. -/
theorem starting_completes {o : BlockOp} {s : State} {sel : Byte} {buf sector count : Word} {r : TransferResult} {i e : List WireItem}
    {m : List Byte} {l : Latches} {c : Bool} {x : Timers} {z : Memory} {d : DmaStatus} {a : Context} {j : Option DmaJob}
    (ho : o.isDma = true) (hi : s.isIdle = true) (hd : s.dmast = .idle) (ha : s.atc.live = false) (hc : count ≠ 0)
    (hn : s.dstat.noInit = false) (hp : o.isWrite = true → s.dstat.protect = false)
    (h : ∃ n t, Reaches n ((s.started o sel buf sector count).goAct (.scale o))
        (({ t with dmast := d, atc := a, job := j, trace := t.trace ++ e } : State).returnWith r) ∧ t.todo = [] ∧
      Along (s.started o sel buf sector count).noteAddr t i m ∧ t.lat = l ∧ t.cs = c ∧ t.mem = z ∧ t.tmr = x) :
    ∃ n w, ∀ rest, exec (o.instr sel buf sector count) (s.withSched (engineTurns n ++ rest)) = .next { s with
      lat := l, wk := w, out := s.out.onlyRes r, dmast := d, atc := a, job := j, cs := c, tmr := x, mem := z, trace := s.trace ++ i ++ e,
      env := { s.env with card := m }, sched := rest } := by
  obtain ⟨n, t, h1, h2, h3, rfl, rfl, rfl, rfl⟩ := h
  obtain ⟨k, g⟩ := starting_ends ho hi hd ha hc hn hp h1.gets h2 h3
  exact ⟨k + n, t.wk, by rw [engineTurns_add]; exact g⟩

/-- The same for a run with TICK events between ENGINE's steps. -/
theorem starting_passes {o : BlockOp} {s : State} {sel : Byte} {buf sector count : Word} {r : TransferResult} {i e : List WireItem}
    {m : List Byte} {l : Latches} {c : Bool} {x : Timers} {z : Memory} {d : DmaStatus} {a : Context} {j : Option DmaJob} {k : Nat}
    (ho : o.isDma = true) (hi : s.isIdle = true) (hd : s.dmast = .idle) (ha : s.atc.live = false) (hc : count ≠ 0)
    (hn : s.dstat.noInit = false) (hp : o.isWrite = true → s.dstat.protect = false)
    (h : ∃ t, Passes k ((s.started o sel buf sector count).goAct (.scale o))
        (({ t with dmast := d, atc := a, job := j, trace := t.trace ++ e } : State).returnWith r) ∧ t.todo = [] ∧
      Along ((s.started o sel buf sector count).noteAddr) t i m ∧ t.lat = l ∧ t.cs = c ∧ t.mem = z ∧ t.tmr = x) :
    ∃ turns w, Timed k turns ∧ ∀ rest, exec (o.instr sel buf sector count) (s.withSched (turns ++ rest)) = .next { s with
      lat := l, wk := w, out := s.out.onlyRes r, dmast := d, atc := a, job := j, cs := c, tmr := x, mem := z, trace := s.trace ++ i ++ e,
      env := { s.env with card := m }, sched := rest } := by
  obtain ⟨t, ⟨turns, g1, g2⟩, h2, h3, rfl, rfl, rfl, rfl⟩ := h
  obtain ⟨n, g⟩ := starting_ends ho hi hd ha hc hn hp g2 h2 h3
  exact ⟨_, t.wk, g1.engine n, g⟩

/-- The failure path of a start operation: deselect, the context cleared, Error (R261, R262). -/
theorem reaches_dmaFail {s : State} {d : Byte} {more : List Byte} (ht : s.todo = []) (hc : s.env.card = d :: more) :
    ∃ n t, Reaches n (dmaFail s)
        (({ t with dmast := s.dmast, atc := { s.atc with live := false }, job := s.job, trace := t.trace ++ [] } : State).returnWith .error) ∧
      t.todo = [] ∧ Along s t [.cs true, .xchg Config.filler d] more ∧ t.lat = s.lat ∧ t.cs = true ∧ t.mem = s.mem ∧ t.tmr = s.tmr := by
  obtain ⟨t, r, h1, h2, h3, h4, h5, h6, -⟩ := call_deselect (u := .dmaClosed) ht hc
  let v := (t.withAtc { t.atc with live := false }).endWith .error
  have r2 : Reaches 1 (t.goAct .dropContext) v :=
    reaches_act_act (s := t.goAct .dropContext) (t := v) (b := .ret .error) h1 rfl rfl h1 rfl
  have r3 : Reaches 1 v (v.returnWith .error) := reaches_ret h1 rfl
  refine ⟨2 + (1 + 1), t, ?_, h1, h2, h3, h4, h5, h6⟩
  have e : ({ t with dmast := s.dmast, atc := { s.atc with live := false }, job := s.job, trace := t.trace ++ [] } : State).returnWith .error =
      v.returnWith .error := by
    refine State.eq_of rfl rfl rfl rfl rfl rfl rfl h2.dmast.symm ?_ rfl rfl rfl h2.job.symm rfl (List.append_nil _) rfl rfl rfl
    show ({ s.atc with live := false } : Context) = { t.atc with live := false }
    rw [h2.atc]
  rw [e]
  exact r.trans (r2.trans r3)

/-- Sixteen bytes stored in CSDR are CSDR. -/
theorem fillCsd_toList (v c : Vector Byte 16) : fillCsd 0 v.toList c = v := by
  have key : ∀ (l : List Byte) (i : Nat) (x : Vector Byte 16) (j : Nat) (hj : j < 16),
      (fillCsd i l x)[j] = if h : i ≤ j ∧ j - i < l.length then l[j - i] else x[j] := by
    intro l
    induction l with
    | nil => intro i x j hj; simp [fillCsd]
    | cons b bs ih =>
      intro i x j hj
      rw [fillCsd, ih]
      by_cases h1 : i + 1 ≤ j ∧ j - (i + 1) < bs.length
      · have h2 : i ≤ j ∧ j - i < (b :: bs).length := ⟨by omega, by rw [List.length_cons]; omega⟩
        rw [dif_pos h1, dif_pos h2]
        have : j - i = (j - (i + 1)) + 1 := by omega
        simp only [this, List.getElem_cons_succ]
      · rw [dif_neg h1]
        by_cases h3 : i = j
        · subst h3
          rw [dif_pos ⟨Nat.le_refl _, by simp⟩]
          simp
        · rw [dif_neg (by rw [List.length_cons]; omega), Vector.getElem_setIfInBounds_ne _ h3]
  apply Vector.ext
  intro j hj
  rw [key, dif_pos ⟨Nat.zero_le _, by simpa using hj⟩]
  simp

/-! ### Loops -/

/-- BUF and COUNT after so many blocks (R236). -/
def Latches.advance (l : Latches) (n : Nat) : Latches :=
  { l with buf := l.buf + BitVec.ofNat 32 (512 * n), count := l.count - BitVec.ofNat 32 n }

theorem advance_zero (l : Latches) : l.advance 0 = l := by cases l; simp [Latches.advance]

theorem advance_succ (l : Latches) (n : Nat) :
    (({ l with buf := l.buf + 512, count := l.count - 1 } : Latches).advance n) = l.advance (n + 1) := by
  cases l with
  | mk op sel sector count buf =>
    simp only [Latches.advance, Latches.mk.injEq, true_and]
    have h1 : (1 : Word).toNat = 1 := rfl
    have h2 : (512 : Word).toNat = 512 := rfl
    constructor
    · apply BitVec.eq_of_toNat_eq; simp only [BitVec.toNat_sub, BitVec.toNat_ofNat, h1]; omega
    · apply BitVec.eq_of_toNat_eq; simp only [BitVec.toNat_add, BitVec.toNat_ofNat, h2]; omega

/-- What a transmission puts on the wire depends on memory alone. -/
theorem receiptTrace_mem {s t : State} (h : t.mem = s.mem) (tok : Byte) (base : Word) (qs : List Receipt) :
    receiptTrace t tok base qs = receiptTrace s tok base qs := by
  induction qs generalizing base with
  | nil => rfl
  | cons q qs ih => rw [receiptTrace, receiptTrace, ih, bufferBytes_mem h]

/-- The blocks behind the first lie 512 bytes further on. -/
theorem storePackets_cons (base : Word) (q : Packet) (qs : List Packet) (m : Memory) :
    storePackets m base (q :: qs) = storePackets (storeBytes base 0 q.data m) (base + 512) qs := by
  rw [storePackets]

/-- Going on by one block and by `n` more. -/
theorem next_block (b : Word) (n : Nat) : b + 512 + BitVec.ofNat 32 (512 * n) = b + BitVec.ofNat 32 (512 * (n + 1)) := by
  have h : (512 : Word).toNat = 512 := rfl
  apply BitVec.eq_of_toNat_eq
  simp only [BitVec.toNat_add, BitVec.toNat_ofNat, h]; omega

/-- The last block lies behind the others. -/
theorem storePackets_append (m : Memory) (b : Word) (l : List Packet) (q : Packet) :
    storePackets m b (l ++ [q]) = storeBytes (b + BitVec.ofNat 32 (512 * l.length)) 0 q.data (storePackets m b l) := by
  induction l generalizing m b with
  | nil => rw [List.nil_append, storePackets_cons]; simp [storePackets]
  | cons a l ih => rw [List.cons_append, storePackets_cons, ih, storePackets_cons, next_block]; rfl

theorem packetBytes_append (l : List Packet) (q : Packet) : packetBytes (l ++ [q]) = packetBytes l ++ q.bytes := by
  induction l with
  | nil => simp [packetBytes]
  | cons a l ih => simp [packetBytes, ih]

theorem receiptBytes_append (l : List Receipt) (q : Receipt) : receiptBytes (l ++ [q]) = receiptBytes l ++ q.bytes := by
  induction l with
  | nil => simp [receiptBytes]
  | cons a l ih => simp [receiptBytes, ih]

theorem receiptTrace_append (s : State) (tok : Byte) (b : Word) (l : List Receipt) (q : Receipt) :
    receiptTrace s tok b (l ++ [q]) =
      receiptTrace s tok b l ++ q.trace tok (bufferBytes s (b + BitVec.ofNat 32 (512 * l.length)) 0 Config.blockLen) := by
  induction l generalizing b with
  | nil => simp [receiptTrace]
  | cons a l ih => rw [List.cons_append, receiptTrace, ih, receiptTrace, next_block, List.append_assoc]; rfl

/-- Packets received by the loop of a multi-block READ, each but the last of the command: BUF and COUNT move on and the loop goes on
(44_polling_block_io.md R234). -/
theorem reaches_packets {more : List Byte} : ∀ (qs : List Packet) (s : State), s.todo = [] → wholeBlocks qs →
    qs.length < s.lat.count.toNat → s.env.card = packetBytes qs ++ more →
    ∃ n t, Reaches n (s.call (receiveBlock .buffer) .readManyData) (t.call (receiveBlock .buffer) .readManyData) ∧ t.todo = [] ∧
      Along s t (fillers (packetBytes qs)) more ∧ t.lat = s.lat.advance qs.length ∧ t.cs = s.cs ∧
      t.mem = storePackets s.mem s.lat.buf qs ∧ ∀ x, ({ t.tmr with tok := x } : Timers) = { s.tmr with tok := x } := by
  intro qs
  induction qs with
  | nil =>
    intro s ht _ _ hc
    exact ⟨0, s, .refl _, ht, Along.refl hc, (advance_zero _).symm, rfl, rfl, fun _ => rfl⟩
  | cons q qs ih =>
    intro s ht hw hl hc
    have hq : q.data.length = Dest.buffer.len := hw q (List.mem_cons_self ..)
    obtain ⟨n, t, r, h1, h2, h3, h4, h5, h6, h7, -⟩ := call_receive (u := .readManyData) (d := .buffer) (more := packetBytes qs ++ more) ht hq
      (by rw [hc, packetBytes, List.append_assoc])
    have hcount : (s.lat.count - 1).toNat = s.lat.count.toNat - 1 := by
      have : (1 : Word).toNat = 1 := rfl
      rw [List.length_cons] at hl
      rw [BitVec.toNat_sub_of_le (by rw [BitVec.le_def, this]; omega), this]
    have hne : ¬ t.blockDone.lat.count = 0 := by
      show ¬ t.lat.count - 1 = 0
      rw [h3]; intro h0
      have := congrArg BitVec.toNat h0
      rw [hcount] at this
      rw [List.length_cons] at hl
      have z : (0 : Word).toNat = 0 := rfl
      omega
    have e : doTest .readManyData t = t.blockDone.call (receiveBlock .buffer) .readManyData := by
      show readManyData t = _
      unfold readManyData
      rw [if_pos h7]; exact if_neg hne
    rw [e] at r
    obtain ⟨m, v, r', g1, g2, g3, g4, g5, g6⟩ := ih t.blockDone h1 (fun p hp => hw p (List.mem_cons_of_mem _ hp))
      (by show qs.length < (t.lat.count - 1).toNat; rw [h3, hcount]; rw [List.length_cons] at hl; omega) h2.card
    refine ⟨n + m, v, r.trans r', g1, ?_, ?_, g4.trans h4, ?_, ?_⟩
    · have := (h2.aside t.blockDone.lat t.pos t.todo t.cs t.mem).trans g2
      rwa [show fillers (packetBytes (q :: qs)) = fillers q.bytes ++ fillers (packetBytes qs) by simp [packetBytes, fillers]]
    · rw [g3]
      show Latches.advance { t.lat with buf := t.lat.buf + 512, count := t.lat.count - 1 } qs.length = _
      rw [h3, advance_succ]; rfl
    · have b : t.blockDone.lat.buf = s.lat.buf + 512 := congrArg (fun l => Latches.buf l + 512) h3
      have m : t.blockDone.mem = storeBytes s.lat.buf 0 q.data s.mem := h5
      rw [g5, b, m, storePackets_cons]
    · intro x
      rw [g6 x]
      show ({ t.tmr with tok := x } : Timers) = _
      rw [h6]

/-- Blocks sent and accepted by the loop of a multi-block WRITE, each but the last of the command (44_polling_block_io.md R235). -/
theorem reaches_receipts {more : List Byte} : ∀ (qs : List Receipt) (s : State), s.todo = [] →
    (∀ q ∈ qs, q.ok ∧ q.response &&& 0x1F = 0x05) → qs.length < s.lat.count.toNat → s.env.card = receiptBytes qs ++ more →
    ∃ n t, Reaches n (s.call (transmitBlock Config.tokMulti) .writeManyData) (t.call (transmitBlock Config.tokMulti) .writeManyData) ∧
      t.todo = [] ∧ Along s t (receiptTrace s Config.tokMulti s.lat.buf qs) more ∧ t.lat = s.lat.advance qs.length ∧ t.cs = s.cs ∧
      t.mem = s.mem ∧ ∀ x, ({ t.tmr with rdy := x } : Timers) = { s.tmr with rdy := x } := by
  intro qs
  induction qs with
  | nil =>
    intro s ht _ _ hc
    exact ⟨0, s, .refl _, ht, Along.refl hc, (advance_zero _).symm, rfl, rfl, fun _ => rfl⟩
  | cons q qs ih =>
    intro s ht hw hl hc
    obtain ⟨hq, hacc⟩ := hw q (List.mem_cons_self ..)
    obtain ⟨n, t, r, h1, h2, h3, h4, h5, h6, h7⟩ := call_transmit (u := .writeManyData) (tok := Config.tokMulti)
      (more := receiptBytes qs ++ more) (by decide) ht hq (by rw [hc, receiptBytes, List.append_assoc])
    have hcount : (s.lat.count - 1).toNat = s.lat.count.toNat - 1 := by
      have : (1 : Word).toNat = 1 := rfl
      rw [List.length_cons] at hl
      rw [BitVec.toNat_sub_of_le (by rw [BitVec.le_def, this]; omega), this]
    have hne : ¬ t.blockDone.lat.count = 0 := by
      show ¬ t.lat.count - 1 = 0
      rw [h3]; intro h0
      have := congrArg BitVec.toNat h0
      rw [hcount] at this
      rw [List.length_cons] at hl
      have z : (0 : Word).toNat = 0 := rfl
      omega
    have e : doTest .writeManyData t = t.blockDone.call (transmitBlock Config.tokMulti) .writeManyData := by
      show writeManyData t = _
      unfold writeManyData
      rw [if_pos (h7.trans (show (q.response &&& 0x1F == 0x05) = true by rw [hacc]; rfl))]; exact if_neg hne
    rw [e] at r
    obtain ⟨m, v, r', g1, g2, g3, g4, g5, g6⟩ := ih t.blockDone h1 (fun p hp => hw p (List.mem_cons_of_mem _ hp))
      (by show qs.length < (t.lat.count - 1).toNat; rw [h3, hcount]; rw [List.length_cons] at hl; omega) h2.card
    refine ⟨n + m, v, r.trans r', g1, ?_, ?_, g4.trans h4, g5.trans h5, ?_⟩
    · have := (h2.aside t.blockDone.lat t.pos t.todo t.cs t.mem).trans g2
      have e2 : receiptTrace t.blockDone Config.tokMulti t.blockDone.lat.buf qs = receiptTrace s Config.tokMulti (s.lat.buf + 512) qs := by
        rw [receiptTrace_mem (s := s) (t := t.blockDone) h5]
        show receiptTrace s _ (t.lat.buf + 512) qs = _
        rw [h3]
      rw [e2] at this
      exact this
    · rw [g3]
      show Latches.advance { t.lat with buf := t.lat.buf + 512, count := t.lat.count - 1 } qs.length = _
      rw [h3, advance_succ]; rfl
    · intro x
      rw [g6 x]
      show ({ t.tmr with rdy := x } : Timers) = _
      rw [h6]

end Sys2Proof.Machine
end

