-- ==== Sys2Proof/Laws/Negotiate.lean ====
section
/-! SUPPORT. Laws/Negotiate.lean: the stretches INITIALIZE is made of (43_negotiation.md R201 to R207): the head with the sense inputs and
the power-up clocks, one command, the ready loops, and the two ends. -/

namespace Sys2Proof.Machine

/-- What no stretch of the negotiation between the power-up clocks and step 5 writes, and what went over the wire. -/
structure Negotiates (s t : State) (items : List WireItem) (more : List Byte) : Prop where
  lat : t.lat = s.lat
  out : t.out = s.out
  dstat : t.dstat = s.dstat
  ctype : t.ctype = s.ctype
  dmast : t.dmast = s.dmast
  atc : t.atc = s.atc
  speed : t.speed = s.speed
  job : t.job = s.job
  mem : t.mem = s.mem
  taken : t.taken = s.taken
  trace : t.trace = s.trace ++ items
  env : t.env = { s.env with card := more }

theorem Along.negotiates {s t : State} {i : List WireItem} {m : List Byte} (h : Along s t i m) (hl : t.lat = s.lat) (hm : t.mem = s.mem) :
    Negotiates s t i m :=
  ⟨hl, h.out, h.dstat, h.ctype, h.dmast, h.atc, h.speed, h.job, hm, h.taken, h.trace, h.env⟩

theorem Negotiates.trans {s t u : State} {i j : List WireItem} {m n : List Byte} (h : Negotiates s t i m) (g : Negotiates t u j n) :
    Negotiates s u (i ++ j) n :=
  ⟨g.lat.trans h.lat, g.out.trans h.out, g.dstat.trans h.dstat, g.ctype.trans h.ctype, g.dmast.trans h.dmast, g.atc.trans h.atc,
    g.speed.trans h.speed, g.job.trans h.job, g.mem.trans h.mem, g.taken.trans h.taken,
    by rw [g.trace, h.trace, List.append_assoc], by rw [g.env, h.env]⟩

theorem Negotiates.refl {s : State} {m : List Byte} (h : s.env.card = m) : Negotiates s s [] m :=
  ⟨rfl, rfl, rfl, rfl, rfl, rfl, rfl, rfl, rfl, rfl, (List.append_nil _).symm, by rw [← h]⟩

/-- Working registers, PHASE, CS and the counters are not part of it. -/
theorem Negotiates.aside {s t : State} {i : List WireItem} {m : List Byte} (h : Negotiates s t i m) (w : Work) (p : Pos) (td : List Micro)
    (c : Bool) (x : Timers) : Negotiates s { t with wk := w, pos := p, todo := td, cs := c, tmr := x } i m :=
  ⟨h.lat, h.out, h.dstat, h.ctype, h.dmast, h.atc, h.speed, h.job, h.mem, h.taken, h.trace, h.env⟩

/-! ### One command of the negotiation -/

/-- A command without a prefix that the card answers. -/
theorem nego_plain {s : State} {cmd : Byte} {arg : Word} {u : Test} {p : Reply} {more : List Byte} (hcmd : cmd ≠ cmdStop)
    (happ : isApp cmd = false) (ht : s.todo = []) (hp : p.ok) (hc : s.env.card = p.bytes ++ more) :
    ∃ n t, Reaches n (s.call [.command cmd arg] u) (doTest u t) ∧ t.todo = [] ∧ Negotiates s t (p.trace cmd arg) more ∧
      t.tmr = { s.tmr with rdy := Config.tRdyMs } ∧ t.wk.r1 = p.r1 ∧ t.wk.ty = s.wk.ty := by
  obtain ⟨n, t, r, h1, h2, h3, -, h5, h6, h7⟩ := call_plain (u := u) (arg := arg) hcmd happ ht hp hc
  exact ⟨n, t, r, h1, h2.negotiates h3 h5, h6, h7, h2.ty⟩

/-- A command without a prefix, answered or not. -/
theorem nego_attempt {s : State} {cmd : Byte} {arg : Word} {u : Test} {p : Attempt} {more : List Byte} (hcmd : cmd ≠ cmdStop)
    (happ : isApp cmd = false) (ht : s.todo = []) (hp : p.ok) (hc : s.env.card = p.bytes ++ more) :
    ∃ t, Passes p.ticks (s.call [.command cmd arg] u) (doTest u t) ∧ t.todo = [] ∧ Negotiates s t (p.trace cmd arg) more ∧
      t.tmr = p.timers s.tmr ∧ t.wk.r1 = p.r1 ∧ t.wk.ty = s.wk.ty ∧ t.wk.icmd = s.wk.icmd := by
  obtain ⟨t, r, h1, h2, h3, h5, h6, h7⟩ := call_attempt (u := u) (arg := arg) hcmd happ ht hp hc
  exact ⟨t, r, h1, h2.negotiates h3 h5, h6, h7, h2.ty, h2.icmd⟩

/-- An application command. -/
theorem nego_app {s : State} {idx : Byte} {arg : Word} {u : Test} {p : AppReply} {more : List Byte} (happ : isApp (0x80 ||| idx) = true)
    (hidx : (0x80 ||| idx) &&& 0x7F = idx) (hsub : idx ≠ cmdStop) (hplain : isApp idx = false) (ht : s.todo = []) (hp : p.ok)
    (hc : s.env.card = p.bytes ++ more) :
    ∃ t, Passes p.ticks (s.call [.command (0x80 ||| idx) arg] u) (doTest u t) ∧ t.todo = [] ∧ Negotiates s t (p.trace idx arg) more ∧
      t.tmr = p.timers s.tmr ∧ t.wk.r1 = p.r1 ∧ t.wk.ty = s.wk.ty ∧ t.wk.icmd = s.wk.icmd := by
  obtain ⟨t, r, h1, h2, h3, h5, h6, h7⟩ := call_app (u := u) (arg := arg) happ hidx hsub hplain ht hp hc
  exact ⟨t, r, h1, h2.negotiates h3 h5, h6, h7, h2.ty, h2.icmd⟩

/-- The trailer of a response. -/
theorem nego_trailer {s : State} {u : Test} {a b c d : Byte} {more : List Byte} (ht : s.todo = [])
    (hc : s.env.card = a :: b :: c :: d :: more) :
    ∃ t, Reaches 4 (s.call readTrailer u) (doTest u t) ∧ t.todo = [] ∧ Negotiates s t (fillers [a, b, c, d]) more ∧
      t.tmr = s.tmr ∧ t.wk.trail = #v[a, b, c, d] ∧ t.wk.ty = s.wk.ty := by
  obtain ⟨t, r, h1, h2, h3, h4, h5, h6, h7⟩ := call_trailer (u := u) ht hc
  exact ⟨t, r, h1, h2.negotiates h3 h5, h6, by rw [h7], h2.ty⟩

/-- A negative answer is not 0x00. -/
theorem not_ready_of_ne {r : Byte} (h : r ≠ 0x00) : ¬ r1Ready r = true := by rw [r1Ready, beq_iff_eq]; exact h

theorem not_idle_of_ne {r : Byte} (h : r ≠ 0x01) : ¬ r1Idle r = true := by rw [r1Idle, beq_iff_eq]; exact h

/-! ### The ready loops -/

/-- The loop's command: the v2 loop's ACMD41, or the retry command of the legacy path. -/
def loopCommand (v2 : Bool) (icmd : Byte) : List Micro := if v2 then [.command acmdInitSd Config.argHcs] else [.command icmd 0]

/-- Where the loop tests the answer. -/
def loopTest (v2 : Bool) : Test := if v2 then .v2Loop else .legacyLoop

/-- A round that was answered "not yet" while the window is open leads to another round (R205, R206). -/
theorem reaches_again {v2 : Bool} {t : State} (ht : t.todo = []) (hr : t.wk.r1 ≠ 0x00) (hn : t.tmr.neg ≠ 0) :
    Reaches 1 (doTest (loopTest v2) t) (t.call (loopCommand v2 t.wk.icmd) (loopTest v2)) := by
  have e : doTest (loopTest v2) t = t.goAct (.windowExpired v2) := by
    cases v2 <;> exact if_neg (not_ready_of_ne hr)
  have hx : ¬ (t.goAct (.windowExpired v2)).expired .neg = true := by
    show ¬ (t.tmr.neg == 0) = true
    rw [beq_iff_eq]; exact hn
  rw [e]
  refine reaches_act_to ht rfl ?_ (by cases v2 <;> trivial)
  show Host.Outcome.next (negoWindow v2 (t.goAct (.windowExpired v2))) = _
  unfold negoWindow
  cases v2
  · exact congrArg _ ((if_neg hx).trans (if_neg (by decide)))
  · exact congrArg _ ((if_neg hx).trans (if_pos rfl))

theorem neg_ne_zero {v : BitVec 16} {k n : Nat} (h : v.toNat = n - k) (hk : k < n) : v ≠ 0 := by
  rintro rfl
  have : (0 : BitVec 16).toNat = 0 := rfl
  omega

/-- Any number of rounds of ACMD41 on either path, the window open behind each. -/
theorem passes_appRounds {v2 : Bool} {arg : Word} {more : List Byte} : ∀ (ps : List AppReply) (s : State), s.todo = [] → notYet ps →
    (ps ≠ [] → appTicks ps < s.tmr.neg.toNat) → loopCommand v2 s.wk.icmd = [.command acmdInitSd arg] →
    s.env.card = appBytes ps ++ more →
    ∃ t, Passes (appTicks ps) (s.call (loopCommand v2 s.wk.icmd) (loopTest v2)) (t.call (loopCommand v2 s.wk.icmd) (loopTest v2)) ∧
      t.todo = [] ∧ Negotiates s t (appTrace 0x29 arg ps) more ∧ s.tmr.ranDown t.tmr (appTicks ps) ∧ t.wk.ty = s.wk.ty := by
  intro ps
  induction ps with
  | nil =>
    intro s ht _ _ _ hc
    exact ⟨s, (Reaches.refl _).passes, ht, Negotiates.refl hc, Timers.ranDown_refl _, rfl⟩
  | cons p ps ih =>
    intro s ht hp hn hl hc
    obtain ⟨hok, hr⟩ := hp p (List.mem_cons_self ..)
    have hk : p.ticks + appTicks ps < s.tmr.neg.toNat := hn (List.cons_ne_nil _ _)
    obtain ⟨t, r, h1, h2, h4, h6, h7, h8⟩ := nego_app (idx := 0x29) (arg := arg) (u := loopTest v2) (more := appBytes ps ++ more)
      (by decide) (by decide) (by decide) (by decide) ht hok (by rw [hc, appBytes, List.append_assoc])
    have d := p.ranDown s.tmr
    rw [← h4] at d
    have a := reaches_again (v2 := v2) h1 (by rw [h6]; exact hr) (neg_ne_zero d.neg (by omega))
    rw [h8] at a
    obtain ⟨v, r', g1, g2, g3, g4⟩ := ih t h1 (fun q hq => hp q (List.mem_cons_of_mem _ hq)) (fun _ => by rw [d.neg]; omega)
      (by rw [h8]; exact hl) (by rw [h2.env])
    rw [h8] at r'
    rw [← show loopCommand v2 s.wk.icmd = [.command (0x80 ||| 0x29) arg] from hl] at r
    exact ⟨v, r.trans (a.into r'), g1, h2.trans g2, d.trans g3, g4.trans h7⟩

/-- Any number of rounds of a command without a prefix, which only the legacy path sends. -/
theorem passes_plainRounds {more : List Byte} : ∀ (ps : List Attempt) (s : State), s.todo = [] → notYetPlain ps →
    (ps ≠ [] → attemptTicks ps < s.tmr.neg.toNat) → s.wk.icmd = cmdInitMmc → s.env.card = attemptBytes ps ++ more →
    ∃ t, Passes (attemptTicks ps) (s.call [.command cmdInitMmc 0] .legacyLoop) (t.call [.command cmdInitMmc 0] .legacyLoop) ∧ t.todo = [] ∧
      Negotiates s t (attemptTrace cmdInitMmc 0 ps) more ∧ s.tmr.ranDown t.tmr (attemptTicks ps) ∧ t.wk.ty = s.wk.ty := by
  intro ps
  induction ps with
  | nil =>
    intro s ht _ _ _ hc
    exact ⟨s, (Reaches.refl _).passes, ht, Negotiates.refl hc, Timers.ranDown_refl _, rfl⟩
  | cons p ps ih =>
    intro s ht hp hn hi hc
    obtain ⟨hok, hr⟩ := hp p (List.mem_cons_self ..)
    have hk : p.ticks + attemptTicks ps < s.tmr.neg.toNat := hn (List.cons_ne_nil _ _)
    obtain ⟨t, r, h1, h2, h4, h6, h7, h8⟩ := nego_attempt (cmd := cmdInitMmc) (arg := 0) (u := .legacyLoop)
      (more := attemptBytes ps ++ more) (by decide) (by decide) ht hok (by rw [hc, attemptBytes, List.append_assoc])
    have d := p.ranDown s.tmr
    rw [← h4] at d
    have a := reaches_again (v2 := false) h1 (by rw [h6]; exact hr) (neg_ne_zero d.neg (by omega))
    rw [show loopCommand false t.wk.icmd = [.command cmdInitMmc 0] by rw [h8, hi]; rfl] at a
    obtain ⟨v, r', g1, g2, g3, g4⟩ := ih t h1 (fun q hq => hp q (List.mem_cons_of_mem _ hq)) (fun _ => by rw [d.neg]; omega)
      (by rw [h8]; exact hi) (by rw [h2.env])
    exact ⟨v, r.trans (a.into r'), g1, h2.trans g2, d.trans g3, g4.trans h7⟩

/-- The window closes behind an answer "not yet" (R205, R206, R209). -/
theorem passes_windowClosed {v2 : Bool} {t : State} {n : Nat} (ht : t.todo = []) (hr : t.wk.r1 ≠ 0x00) (hn : t.tmr.neg.toNat ≤ n) :
    Passes n (doTest (loopTest v2) t) (negoFinish ((t.withTmr (t.tmr.after n)).setTy .noCard)) := by
  have e : doTest (loopTest v2) t = t.goAct (.windowExpired v2) := by
    cases v2 <;> exact if_neg (not_ready_of_ne hr)
  rw [e]
  let w := t.goAct (.windowExpired v2)
  refine (Passes.ticks n (by show w.isIdle = false; simp [w, State.isIdle, State.goAct])).on (n := 1) (reaches_act_to ht rfl ?_ ?_)
  · show Host.Outcome.next (negoWindow v2 _) = _
    unfold negoWindow
    rw [if_pos (show (w.withTmr (w.tmr.after n)).expired .neg = true from after_expired hn)]; rfl
  · show (negoFinish _).atRest
    unfold State.atRest
    rw [show (negoFinish ((t.withTmr (t.tmr.after n)).setTy .noCard)).todo = [] from ht]; trivial

/-! ### The head -/

/-- INITIALIZE with a medium, up to CMD0 (R201 to R203): the sense inputs are in DSTAT, the power-up clocks went out, TY is cleared. -/
def State.poweredUp (s : State) (sel : Byte) (clocks more : List Byte) : State :=
  { s with
    lat := { s.lat with op := 0x00, sel := sel },
    wk := { s.wk with ty := .noCard },
    out := s.clearResults.out,
    dstat := { noInit := s.dstat.noInit, noDisk := false, protect := s.env.senseWrProt },
    pos := .test .poweredUp,
    todo := [],
    cs := true,
    speed := .low,
    trace := s.trace ++ [.speed .low, .cs true] ++ fillers clocks,
    env := { s.env with card := more } }

theorem xchgs_fillers (n : Nat) (rx : List Byte) (h : rx.length = n) :
    List.zipWith WireItem.xchg (List.replicate n Config.filler) rx = fillers rx := by
  subst h
  induction rx with
  | nil => rfl
  | cons b rx ih => exact congrArg (WireItem.xchg Config.filler b :: ·) ih

theorem reaches_poweredUp {s : State} {sel : Byte} {clocks more : List Byte} (hi : s.isIdle = true)
    (hm : s.env.senseNoMedium = false) (hl : clocks.length = 74 + s.env.extraDummies) (hc : s.env.card = clocks ++ more) :
    ∃ n, Reaches n ((s.clearResults.latchWord 0x00 sel).goAct .senseMedium)
      ((s.poweredUp sel clocks more).call [.command cmdGoIdle 0] .cmd0) := by
  have ht := ((isIdle_iff s).1 hi).2
  let v := s.clearResults.latchWord 0x00 sel
  have htv : v.todo = [] := ht
  let v1 := (v.setNoDisk false).goAct .senseProtect
  let v2 := (v1.setProtect s.env.senseWrProt).goAct .testMedium
  have r1 : Reaches 1 (v.goAct .senseMedium) v1 := reaches_act_act (s := v.goAct .senseMedium) (t := v1) (b := .senseProtect) htv rfl (by
    show Host.Outcome.next (negoSenseMedium _) = _
    unfold negoSenseMedium
    rw [show (v.goAct .senseMedium).env.senseNoMedium = false from hm]; rfl) htv rfl
  have r2 : Reaches 1 v1 v2 := reaches_act_act (s := v1) (t := v2) (b := .testMedium) htv rfl rfl htv rfl
  let ps : List Micro := List.replicate s.env.initDummies (.exchange (.send Config.filler))
  let w : State := (v2.withPos (.test .poweredUp)).withTodo (powerUpClocks s.env.initDummies)
  have r3 : Reaches 1 v2 w := by
    refine reaches_act_to (s := v2) (t := w) (a := .testMedium) htv rfl ?_ trivial
    show Host.Outcome.next (negoTestMedium v2) = _
    unfold negoTestMedium
    rw [if_neg (show ¬ v2.dstat.noDisk = true from (by decide : ¬ false = true))]
    refine congrArg _ ?_
    refine State.eq_of rfl rfl rfl rfl ?_ rfl rfl rfl rfl rfl rfl rfl rfl rfl rfl rfl rfl rfl
    show powerUpClocks _ ++ s.todo = powerUpClocks _
    rw [ht, List.append_nil]; rfl
  let w1 : State := (w.withTodo (.act (.setCs true) :: ps)).writeSpeed .low
  have r4 : Reaches 1 w w1 := by
    have := reaches_action_to (s := w) (u := w1) (l := .setSpeed .low) (k := .act (.setCs true) :: ps) rfl rfl
    rwa [show settle w1 = w1 from settle_act rfl] at this
  let w2 : State := (w1.withTodo ps).writeCs true
  have hps : s.env.initDummies = (73 + s.env.extraDummies) + 1 := by show 74 + _ = _; omega
  have r5 : Reaches 1 w1 w2 := by
    have := reaches_action_to (s := w1) (u := w2) (l := .setCs true) (k := ps) rfl rfl
    rwa [show settle w2 = w2 from settle_exchange (x := .send Config.filler)
      (k := List.replicate (73 + s.env.extraDummies) (.exchange (.send Config.filler))) (by
        show List.replicate s.env.initDummies _ = _; rw [hps]; rfl)] at this
  have hlen : clocks.length = (List.replicate s.env.initDummies Config.filler).length := by
    rw [List.length_replicate, hl]; rfl
  obtain ⟨t, r6, r7, r8, r9⟩ := runs_sends (List.replicate s.env.initDummies Config.filler) clocks w2 [] more (by rw [hps]; simp [List.replicate_succ])
    hlen (by show List.replicate _ _ = List.map _ _ ++ []; rw [List.map_replicate, List.append_nil]) hc
  have e : settle t = doTest .poweredUp t := settle_test r7.todo (by rw [r7.pos]; rfl)
  rw [e] at r6
  have et : (t.setTy .noCard).call [.command cmdGoIdle 0] .cmd0 = (s.poweredUp sel clocks more).call [.command cmdGoIdle 0] .cmd0 := by
    refine State.eq_of r7.lat ?_ r7.out rfl ?_ ?_ r7.ctype r7.dmast r7.atc r8.tmr r8.cs r7.speed r7.job r8.mem ?_ r7.taken r7.env r7.sched
    · show ({ t.wk with ty := .noCard } : Work) = _
      rw [r9]; rfl
    · show [.command cmdGoIdle 0] ++ t.todo = [.command cmdGoIdle 0] ++ []
      rw [r7.todo]
    · exact r7.dstat
    · show t.trace = _
      rw [r7.trace, xchgs_fillers _ _ (by rw [hlen, List.length_replicate])]
      show s.trace ++ [_] ++ [_] ++ _ = s.trace ++ [_, _] ++ _
      simp
  have r6' : Reaches _ w2 ((t.setTy .noCard).call [.command cmdGoIdle 0] .cmd0) := r6
  rw [et] at r6'
  exact ⟨_, ((r1.trans r2).trans (r3.trans (r4.trans r5))).trans r6'⟩

/-- The window is armed in front of CMD8 (R204). -/
theorem reaches_armed (t : State) :
    Reaches 1 (t.call [.act (.arm .neg Config.tNegMs), .command cmdIfCond Config.argCmd8] .cmd8)
      ((t.armTimer .neg Config.tNegMs).call [.command cmdIfCond Config.argCmd8] .cmd8) := by
  have := reaches_action_to (s := t.call [.act (.arm .neg Config.tNegMs), .command cmdIfCond Config.argCmd8] .cmd8)
    (u := (t.armTimer .neg Config.tNegMs).call [.command cmdIfCond Config.argCmd8] .cmd8) (l := .arm .neg Config.tNegMs)
    (k := .command cmdIfCond Config.argCmd8 :: t.todo) rfl rfl
  rwa [settle_command (c := cmdIfCond) (a := Config.argCmd8) (k := t.todo) rfl] at this

/-! ### The ends (R207) -/

/-- Step 5 on success. -/
theorem reaches_success {s : State} {d : Byte} {more : List Byte} (ht : s.todo = []) (hty : s.wk.ty ≠ .noCard) (hc : s.env.card = d :: more) :
    ∃ n t, Reaches n (negoFinish s) (State.returnStatus { t with
        ctype := s.wk.ty, dstat := { s.dstat with noInit := false }, speed := .high, trace := t.trace ++ [.speed .high] }) ∧
      t.todo = [] ∧ Negotiates s t [.cs true, .xchg Config.filler d] more ∧ t.cs = true ∧ t.tmr = s.tmr := by
  let v := s.withCtype s.wk.ty
  have r0 : Reaches 1 (negoFinish s) (v.call deselect .closed) := reaches_act_to (s := s.goAct .setType) ht rfl rfl trivial
  obtain ⟨t, r1, h1, h2, h3, h4, h5, h6, h7⟩ := call_deselect (s := v) (u := .closed) ht hc
  have hw : ¬ t.wk.ty = .noCard := by rw [h7]; exact hty
  have e : doTest .closed t = t.goAct .setReady := if_neg hw
  rw [e] at r1
  let x := (t.setNoInit false).call [.act (.setSpeed .high)] .fast
  have r2 : Reaches 1 (t.goAct .setReady) x := reaches_act_to (s := t.goAct .setReady) (t := x) h1 rfl rfl trivial
  let y := ((t.setNoInit false).writeSpeed .high).withPos (.test .fast)
  have r3 : Reaches 1 x (y.goAct .retStatus) := by
    have := reaches_action_to (s := x) (u := y) (l := .setSpeed .high) (k := t.todo) rfl rfl
    rwa [settle_test (s := y) (u := .fast) h1 rfl] at this
  have r4 : Reaches 1 (y.goAct .retStatus) (y.goAct .retStatus).returnStatus := reaches_retStatus h1 rfl
  have run := (r0.trans r1).trans (r2.trans (r3.trans r4))
  have ez : (y.goAct .retStatus).returnStatus = State.returnStatus { ({ t with ctype := s.ctype } : State) with
        ctype := s.wk.ty, dstat := { s.dstat with noInit := false }, speed := .high, trace := t.trace ++ [.speed .high] } := by
    refine State.eq_of rfl rfl ?_ rfl rfl ?_ h2.ctype rfl rfl rfl rfl rfl rfl rfl rfl rfl rfl rfl
    · show ({ t.out with sval := { t.dstat with noInit := false }, svalValid := true } : Results) = { t.out with sval := { s.dstat with noInit := false }, svalValid := true }
      rw [h2.dstat]; rfl
    · show ({ t.dstat with noInit := false } : DriveStatus) = _
      rw [h2.dstat]; rfl
  rw [ez] at run
  exact ⟨_, { t with ctype := s.ctype }, run, h1, ⟨h3, h2.out, h2.dstat, rfl, h2.dmast, h2.atc, h2.speed, h2.job, h5, h2.taken,
    h2.trace, h2.env⟩, h4, h6⟩

/-- Step 5 on failure. -/
theorem reaches_failure {s : State} {d : Byte} {more : List Byte} (ht : s.todo = []) (hty : s.wk.ty = .noCard) (hc : s.env.card = d :: more) :
    ∃ n t, Reaches n (negoFinish s) (State.returnStatus { t with
        ctype := .noCard, dstat := { s.dstat with noInit := true } }) ∧
      t.todo = [] ∧ Negotiates s t [.cs true, .xchg Config.filler d] more ∧ t.cs = true ∧ t.tmr = s.tmr := by
  let v := s.withCtype s.wk.ty
  have r0 : Reaches 1 (negoFinish s) (v.call deselect .closed) := reaches_act_to (s := s.goAct .setType) ht rfl rfl trivial
  obtain ⟨t, r1, h1, h2, h3, h4, h5, h6, h7⟩ := call_deselect (s := v) (u := .closed) ht hc
  have hw : t.wk.ty = .noCard := by rw [h7]; exact hty
  have e : doTest .closed t = t.goAct .setFailed := if_pos hw
  rw [e] at r1
  let y := (t.setNoInit true).goAct .retStatus
  have r2 : Reaches 1 (t.goAct .setFailed) y := reaches_act_act (s := t.goAct .setFailed) (t := y) (b := .retStatus) h1 rfl rfl h1 rfl
  have r4 : Reaches 1 y y.returnStatus := reaches_retStatus h1 rfl
  have run := (r0.trans r1).trans (r2.trans r4)
  have ez : y.returnStatus = State.returnStatus { ({ t with ctype := s.ctype } : State) with
        ctype := .noCard, dstat := { s.dstat with noInit := true } } := by
    refine State.eq_of rfl rfl ?_ rfl rfl ?_ (h2.ctype.trans hty) rfl rfl rfl rfl rfl rfl rfl rfl rfl rfl rfl
    · show ({ t.out with sval := { t.dstat with noInit := true }, svalValid := true } : Results) = { t.out with sval := { s.dstat with noInit := true }, svalValid := true }
      rw [h2.dstat]; rfl
    · show ({ t.dstat with noInit := true } : DriveStatus) = _
      rw [h2.dstat]; rfl
  rw [ez] at run
  exact ⟨_, { t with ctype := s.ctype }, run, h1, ⟨h3, h2.out, h2.dstat, rfl, h2.dmast, h2.atc, h2.speed, h2.job, h5, h2.taken,
    h2.trace, h2.env⟩, h4, h6⟩

end Sys2Proof.Machine
end

