-- ==== Sys2Proof/Laws/Completions.lean ====
section
/-! SUPPORT. Laws/Completions.lean: the heads and the tails of the host operations and of the command rows, as runs of ENGINE, which the
proofs of their results put together. -/

namespace Sys2Proof.Machine

/-- START_READ_DMA computes the address and sends its block command. -/
theorem reaches_scaleStartRead {v : State} (ht : v.todo = []) :
    Reaches 1 (v.goAct (.scale .startRead)) (v.noteAddr.call [.command (blockCommand .read v.lat.count) (scaledAddr v.ctype v.lat.sector)] .dmaReadCmd) :=
  reaches_act_to ht rfl rfl trivial

/-- The handing over of a transfer to DMAENG, and the return (45_dma_completion.md R261). -/
theorem reaches_dmaGo {t : State} {d : DmaDir} (ht : t.todo = []) :
    Reaches 2 (t.goAct (.dmaGo d)) (({ t with
      dmast := .busy, atc := t.atc, job := some { dir := d, buf := t.lat.buf, n := t.lat.count, fetched := [] },
      trace := t.trace ++ [.dmaStart d t.lat.buf t.lat.count] } : State).returnWith .ok) := by
  let v := (t.dmaStart d).endWith .ok
  have r2 : Reaches 1 (t.goAct (.dmaGo d)) v :=
    reaches_act_act (s := t.goAct (.dmaGo d)) (t := v) (b := .ret .ok) ht rfl rfl ht rfl
  have r3 : Reaches 1 v (v.returnWith .ok) := reaches_ret ht rfl
  exact r2.trans r3

/-- START_WRITE_DMA of several blocks asks whether the card is SDC. -/
theorem reaches_scaleStartWriteSeveral {v : State} (ht : v.todo = []) (h : v.lat.count ≠ 1) :
    Reaches 1 (v.goAct (.scale .startWrite)) (v.noteAddr.goAct (.testSdc true)) := by
  refine reaches_act_act ht rfl (b := .testSdc true) ?_ ht rfl
  show Host.Outcome.next (dmaWriteBegin _) = _
  unfold dmaWriteBegin
  rw [if_neg (show ¬ (v.goAct (.scale .startWrite)).noteAddr.lat.count = 1 from h)]; rfl

/-- START_WRITE_DMA of one block sends its block command. -/
theorem reaches_scaleStartWriteSingle {v : State} (ht : v.todo = []) (h : v.lat.count = 1) :
    Reaches 1 (v.goAct (.scale .startWrite)) (v.noteAddr.call [.command 0x18 (scaledAddr v.ctype v.lat.sector)] .dmaWriteCmd) := by
  refine reaches_act_to ht rfl ?_ trivial
  show Host.Outcome.next (dmaWriteBegin _) = _
  unfold dmaWriteBegin
  rw [if_pos (show (v.goAct (.scale .startWrite)).noteAddr.lat.count = 1 from h)]
  show Host.Outcome.next (State.call _ [.command (if v.lat.count = 1 then 0x18 else 0x19) _] _) = _
  rw [if_pos h]; rfl

/-- START_WRITE_DMA up to its block command, the hint included. -/
theorem passes_startWriteCommand {s : State} {sel : Byte} {buf sector N : Word} {h : AppReply} {more : List Byte} (ht : s.todo = [])
    (hh : h.ok) (hc : s.env.card = hintBytes s.ctype N h ++ more) :
    ∃ t, Passes (hintTicks s.ctype N h) ((s.started .startWrite sel buf sector N).goAct (.scale .startWrite))
        (t.call [.command (blockCommand .write N) (scaledAddr s.ctype sector)] .dmaWriteCmd) ∧ t.todo = [] ∧
      Along (s.started .startWrite sel buf sector N).noteAddr t (hintTrace s.ctype N h) more ∧
      t.lat = (s.started .startWrite sel buf sector N).lat ∧ t.mem = s.mem ∧ s.tmr.ranDown t.tmr (hintTicks s.ctype N h) := by
  let v := s.started .startWrite sel buf sector N
  by_cases h1 : N = 1
  · subst h1
    have hx : hintBytes s.ctype 1 h = [] := by simp [hintBytes, sendsHint]
    have hy : hintTrace s.ctype 1 h = [] := by simp [hintTrace, sendsHint]
    have hz : hintTicks s.ctype 1 h = 0 := by simp [hintTicks, sendsHint]
    rw [hx] at hc
    rw [hy, hz]
    exact ⟨v.noteAddr, (reaches_scaleStartWriteSingle (v := v) ht rfl).passes, ht, Along.refl hc, rfl, rfl, Timers.ranDown_refl _⟩
  · obtain ⟨t, g1, g2, g3, g4, g5, g6⟩ := passes_hint (dma := true) (s := v.noteAddr) (p := h) (more := more) ht hh h1 hc
    have hb : blockCommand .write N = 0x19 := if_neg h1
    rw [← hb] at g1
    exact ⟨t, (reaches_scaleStartWriteSeveral (v := v) ht h1).into g1, g2, g3, g4, g5, g6⟩

/-- What POLL_STATUS knows behind its read of a terminal DMAST, and later when the stop token went out or did not (R265). -/
def State.polled (s : State) (sel : Byte) (ok : Bool) : State :=
  (s.clearResults.latchWord 0x06 sel).withWk { s.wk with pst := s.dmast, okf := ok }

/-- The result of the follow-up. -/
def pollResult (d : DmaStatus) (ok : Bool) : TransferResult := if d = .success && ok then .ok else .error

/-- The cleanup of POLL_STATUS, whatever came before it (R265), with the turns of that. -/
theorem pollStatus_ends {s u : State} {sel d : Byte} {ok : Bool} {more : List Byte} {i : List WireItem} {turns : List Turn}
    (hi : s.isIdle = true) (hu : u.todo = []) (al : Along (s.polled sel ok) u i (d :: more))
    (hl : u.lat = (s.polled sel ok).lat) (hm : u.mem = s.mem)
    (r : Gets turns ((s.clearResults.latchWord 0x06 sel).goAct .readStatus) (pollClose u)) :
    ∃ w a, a.live = false ∧ ∀ rest, exec (.pollStatus sel) (s.withSched ((turns ++ engineTurns 5) ++ rest)) = .next { s with
      lat := { s.lat with op := 0x06, sel := sel }, wk := w, out := s.out.onlyRes (pollResult s.dmast ok),
      dmast := .idle, atc := a, job := none, cs := true, tmr := u.tmr, trace := s.trace ++ i ++ [.cs true, .xchg 0xFF d],
      env := { s.env with card := more }, sched := rest } := by
  obtain ⟨t, r1, h1, h2, h3, h4, h5, h6, h7⟩ := call_deselect (u := .pollClosed) hu al.card
  let w1 := (t.withAtc { t.atc with live := false }).goAct .statusIdle
  have r2 : Reaches 1 (t.goAct .clearContext) w1 := reaches_act_act (s := t.goAct .clearContext) (t := w1) (b := .statusIdle) h1 rfl rfl h1 rfl
  have hp : t.wk.pst = s.dmast := by rw [h2.pst, al.pst]; rfl
  have hk : t.wk.okf = ok := by rw [h2.okf, al.okf]; rfl
  have er : (if w1.wk.pst = .success && w1.wk.okf then TransferResult.ok else .error) = pollResult s.dmast ok := by
    show (if t.wk.pst = .success && t.wk.okf then TransferResult.ok else .error) = _
    rw [hp, hk]; rfl
  let w2 := ((w1.withDmast .idle).withJob none).endWith (pollResult s.dmast ok)
  have r3 : Reaches 1 w1 w2 := reaches_act_act (s := w1) (t := w2) (b := .ret (pollResult s.dmast ok)) h1 rfl (by
    show Host.Outcome.next (statusIdle w1) = _
    unfold statusIdle
    rw [er]) h1 rfl
  have r4 : Reaches 1 w2 (w2.returnWith (pollResult s.dmast ok)) := reaches_ret h1 rfl
  have run := r.trans (r1.trans (r2.trans (r3.trans r4))).gets
  refine ⟨t.wk, { t.atc with live := false }, rfl, fun rest => (exec_poll hi run (returnWith_idle h1) rest).trans ?_⟩
  have key := (al.trans h2).transferResult (s := s)
    ⟨(s.polled sel ok).lat, (s.polled sel ok).wk, s.pos, s.todo, s.atc, rfl⟩ hi h1 (pollResult s.dmast ok) rest .idle
    { t.atc with live := false } none []
  have e : w2.returnWith (pollResult s.dmast ok) = ({ t with
      dmast := .idle, atc := { t.atc with live := false }, job := none, trace := t.trace ++ [] } : State).returnWith
      (pollResult s.dmast ok) := by
    rw [List.append_nil]; rfl
  rw [e]
  refine (congrArg _ key).trans ?_
  rw [h3, hl, h4, h5, hm, h6, List.append_nil]
  simp only [← List.append_assoc]; rfl

/-- POLL_STATUS up to the follow-up that the context asks for (R265). -/
theorem reaches_pollFollowUp {s : State} {sel : Byte} (hi : s.isIdle = true) (hd : s.dmast = .success ∨ s.dmast = .error)
    (ha : s.atc.live = true) (u : State) (hu : u.atRest)
    (hx : (if s.atc.multi then
      match s.atc.dir with
      | .write => (s.polled sel true).call (transmitBlock Config.tokStop) .pollStopToken
      | .read => (s.polled sel true).call [.command cmdStop 0] .pollStopCmd
    else pollClose (s.polled sel true)) = u) :
    ∃ n, Reaches n ((s.clearResults.latchWord 0x06 sel).goAct .readStatus) u := by
  have ht := ((isIdle_iff s).1 hi).2
  let v := s.polled sel true
  have r1 : Reaches 1 ((s.clearResults.latchWord 0x06 sel).goAct .readStatus) (v.goAct .readMulti) :=
    reaches_act_act (t := v.goAct .readMulti) (b := .readMulti) ht rfl (by
    show Host.Outcome.next (pollRead _) = _
    obtain ⟨a1, a2, a3, a4, a5, a6, a7, dm, a8, a9, a10, a11, a12, a13, a14, a15, a16, a17⟩ := s
    change dm = _ ∨ dm = _ at hd
    rcases hd with rfl | rfl <;> rfl) ht rfl
  cases hm : s.atc.multi
  · rw [hm] at hx
    refine ⟨1 + 1, r1.trans (reaches_act_to (a := .readMulti) ht rfl ?_ hu)⟩
    show pollMulti (v.goAct .readMulti) = _
    unfold pollMulti
    rw [if_pos (show (v.goAct .readMulti).atc.live = true from ha), if_neg (show ¬ (v.goAct .readMulti).atc.multi = true by
      show ¬ s.atc.multi = true; simp [hm]), ← hx]
    rfl
  · rw [hm] at hx
    have r2 : Reaches 1 (v.goAct .readMulti) (v.goAct .readDir) := by
      refine reaches_act_act (b := .readDir) ht rfl ?_ ht rfl
      show pollMulti (v.goAct .readMulti) = _
      unfold pollMulti
      rw [if_pos (show (v.goAct .readMulti).atc.live = true from ha), if_pos (show (v.goAct .readMulti).atc.multi = true from hm)]
      rfl
    refine ⟨_, (r1.trans r2).trans (reaches_act_to (a := .readDir) ht rfl ?_ hu)⟩
    show pollDir (v.goAct .readDir) = _
    unfold pollDir
    rw [if_pos (show (v.goAct .readDir).atc.live = true from ha), ← hx]
    rfl

/-- The result of INITIALIZE, field by field. -/
theorem initCard_result {s b t : State} {sel clocks m0 items more rest} (hi : s.isIdle = true) (N : Negotiates (s.poweredUp sel clocks m0) t items more) (ht : t.todo = [])
   (c : CardType) (f : Bool) (sp : Speed) (e : List WireItem) :
   (State.returnStatus { t with ctype := c, dstat := { b.dstat with noInit := f }, speed := sp, trace := t.trace ++ e }).withSched rest = { s with
      lat := { s.lat with op := 0x00, sel := sel }, wk := t.wk,
      out := s.out.onlySval { b.dstat with noInit := f },
      dstat := { b.dstat with noInit := f },
      ctype := c, tmr := t.tmr, cs := t.cs, speed := sp,
      trace := s.trace ++ [.speed .low, .cs true] ++ fillers clocks ++ items ++ e,
      env := { s.env with card := more }, sched := rest } := by
  obtain ⟨hp, hq⟩ := (isIdle_iff s).1 hi
  refine State.eq_of N.lat rfl ?_ hp.symm (ht.trans hq.symm) rfl rfl N.dmast N.atc rfl rfl rfl N.job N.mem ?_ N.taken N.env rfl
  · show ({ t.out with sval := _, svalValid := true } : Results) = _
    rw [N.out]; rfl
  · show t.trace ++ e = _
    rw [N.trace]; rfl

/-- INITIALIZE up to the answer to CMD0 (R202, R203). -/
theorem reaches_cmd0 {s : State} {sel : Byte} {clocks more : List Byte} {p0 : Reply} (hi : s.isIdle = true)
    (hm : s.env.senseNoMedium = false) (hl : clocks.length = 74 + s.env.extraDummies) (h0 : p0.ok)
    (hc : s.env.card = clocks ++ (p0.bytes ++ more)) :
    ∃ n t, Reaches n ((s.clearResults.latchWord 0x00 sel).goAct .senseMedium) (doTest .cmd0 t) ∧ t.todo = [] ∧
      Negotiates (s.poweredUp sel clocks (p0.bytes ++ more)) t (p0.trace 0x00 0) more ∧ t.tmr = { s.tmr with rdy := 500 } ∧
      t.wk.r1 = p0.r1 ∧ t.wk.ty = .noCard := by
  obtain ⟨n, r⟩ := reaches_poweredUp (sel := sel) hi hm hl hc
  obtain ⟨m, t, g1, g2, g3, g4, g5, g6⟩ := nego_plain (s := s.poweredUp sel clocks (p0.bytes ++ more)) (cmd := cmdGoIdle) (arg := 0)
    (u := .cmd0) (by decide) (by decide) rfl h0 (more := more) rfl
  exact ⟨_, t, r.trans g1, g2, g3, g4, g5, g6⟩

/-- INITIALIZE up to the end of CMD8: CMD0 is answered idle, the window armed (R203, R204). -/
theorem passes_cmd8 {s : State} {sel : Byte} {clocks more : List Byte} {p0 : Reply} {p8 : Attempt} (hi : s.isIdle = true)
    (hm : s.env.senseNoMedium = false) (hl : clocks.length = 74 + s.env.extraDummies) (h0 : p0.ok) (h8 : p8.ok) (hr : p0.r1 = 0x01)
    (hc : s.env.card = clocks ++ (p0.bytes ++ (p8.bytes ++ more))) :
    ∃ t, Passes p8.ticks ((s.clearResults.latchWord 0x00 sel).goAct .senseMedium) (doTest .cmd8 t) ∧ t.todo = [] ∧
      Negotiates (s.poweredUp sel clocks (p0.bytes ++ (p8.bytes ++ more))) t (p0.trace 0x00 0 ++ p8.trace 0x08 0x1AA) more ∧
      t.tmr = s.tmr.negotiated 0 p8.ticks ∧ t.wk.r1 = p8.r1 ∧ t.wk.ty = .noCard := by
  obtain ⟨n, t, r, a, N, t1, t2, t3⟩ := reaches_cmd0 (sel := sel) hi hm hl h0 hc
  have e : doTest .cmd0 t = t.call [.act (.arm .neg Config.tNegMs), .command cmdIfCond Config.argCmd8] .cmd8 := if_pos (by rw [t2, hr]; rfl)
  rw [e] at r
  let v := t.armTimer .neg Config.tNegMs
  obtain ⟨u, g1, g2, g3, g4, g5, g6, -⟩ := nego_attempt (s := v) (cmd := cmdIfCond) (arg := Config.argCmd8) (u := .cmd8) (more := more)
    (by decide) (by decide) a h8 (by show t.env.card = _; rw [N.env])
  refine ⟨u, (r.trans (reaches_armed t)).into g1, g2, (N.aside t.wk t.pos t.todo t.cs v.tmr).trans g3, ?_, g5, g6.trans t3⟩
  rw [g4, Timers.negotiated, after_zero]
  show p8.timers { t.tmr with neg := 1000 } = _
  rw [t1]; rfl

/-- The end of INITIALIZE: whatever was decided on the way is what it leaves (R207). -/
theorem initCard_ends {s u b : State} {sel : Byte} {clocks m0 more : List Byte} {items e : List WireItem} {k : Nat} {c : CardType} {f : Bool}
    {sp : Speed} (hi : s.isIdle = true) (hd : s.dmast = .idle) (a : u.todo = []) (N : Negotiates (s.poweredUp sel clocks m0) u items more)
    (hb : b.dstat = (s.poweredUp sel clocks m0).dstat) (hcs : u.cs = true)
    (r : Passes k ((s.clearResults.latchWord 0x00 sel).goAct .senseMedium) (State.returnStatus { u with
      ctype := c, dstat := { b.dstat with noInit := f }, speed := sp, trace := u.trace ++ e })) :
    ∃ turns w, Timed k turns ∧ ∀ rest, exec (.initCard sel) (s.withSched (turns ++ rest)) = .next { s with
      lat := { s.lat with op := 0x00, sel := sel }, wk := w,
      out := s.out.onlySval { noInit := f, noDisk := false, protect := s.env.senseWrProt },
      dstat := { noInit := f, noDisk := false, protect := s.env.senseWrProt },
      ctype := c, tmr := u.tmr, cs := true, speed := sp,
      trace := s.trace ++ [.speed .low, .cs true] ++ fillers clocks ++ items ++ e, env := { s.env with card := more }, sched := rest } := by
  obtain ⟨turns, ht, run⟩ := r
  refine ⟨turns, u.wk, ht, fun rest => (exec_initCard hi hd run (by exact returnStatus_idle a) rest).trans (congrArg _ ?_)⟩
  refine (initCard_result hi N a c f sp e).trans ?_
  rw [hb, hcs]; rfl

/-- The end of a successful INITIALIZE (R207). -/
theorem initCard_completes {s v : State} {sel d : Byte} {clocks m0 more : List Byte} {items : List WireItem} {k : Nat}
    (hi : s.isIdle = true) (hd : s.dmast = .idle) (a : v.todo = []) (N : Negotiates (s.poweredUp sel clocks m0) v items (d :: more))
    (hty : v.wk.ty ≠ .noCard) (r : Passes k ((s.clearResults.latchWord 0x00 sel).goAct .senseMedium) (negoFinish v)) :
    ∃ turns w, Timed k turns ∧ ∀ rest, exec (.initCard sel) (s.withSched (turns ++ rest)) = .next { s with
      lat := { s.lat with op := 0x00, sel := sel }, wk := w,
      out := s.out.onlySval { noInit := false, noDisk := false, protect := s.env.senseWrProt },
      dstat := { noInit := false, noDisk := false, protect := s.env.senseWrProt },
      ctype := v.wk.ty, tmr := v.tmr, cs := true, speed := .high,
      trace := s.trace ++ [.speed .low, .cs true] ++ fillers clocks ++ items ++ [.cs true, .xchg 0xFF d, .speed .high],
      env := { s.env with card := more }, sched := rest } := by
  obtain ⟨m, u, g, h1, h2, h3, h4⟩ := reaches_success a hty (by rw [N.env] : v.env.card = d :: more)
  obtain ⟨turns, w, q1, q2⟩ := initCard_ends hi hd h1 (N.trans h2) N.dstat h3 (r.on g)
  refine ⟨turns, w, q1, fun rest => (q2 rest).trans ?_⟩
  rw [h4]
  simp only [List.append_assoc]; rfl

/-- The end of a failed INITIALIZE (R207, R209). -/
theorem initCard_fails {s v : State} {sel d : Byte} {clocks m0 more : List Byte} {items : List WireItem} {k : Nat}
    (hi : s.isIdle = true) (hd : s.dmast = .idle) (a : v.todo = []) (N : Negotiates (s.poweredUp sel clocks m0) v items (d :: more))
    (hty : v.wk.ty = .noCard) (r : Passes k ((s.clearResults.latchWord 0x00 sel).goAct .senseMedium) (negoFinish v)) :
    ∃ turns w, Timed k turns ∧ ∀ rest, exec (.initCard sel) (s.withSched (turns ++ rest)) = .next { s with
      lat := { s.lat with op := 0x00, sel := sel }, wk := w,
      out := s.out.onlySval { noInit := true, noDisk := false, protect := s.env.senseWrProt },
      dstat := { noInit := true, noDisk := false, protect := s.env.senseWrProt },
      ctype := .noCard, tmr := v.tmr, cs := true, speed := .low,
      trace := s.trace ++ [.speed .low, .cs true] ++ fillers clocks ++ items ++ [.cs true, .xchg 0xFF d],
      env := { s.env with card := more }, sched := rest } := by
  obtain ⟨m, u, g, h1, h2, h3, h4⟩ := reaches_failure a hty (by rw [N.env] : v.env.card = d :: more)
  have es : u.speed = .low := (N.trans h2).speed
  have e : State.returnStatus { u with ctype := .noCard, dstat := { v.dstat with noInit := true } } = State.returnStatus { u with
      ctype := .noCard, dstat := { v.dstat with noInit := true }, speed := .low, trace := u.trace ++ [] } := by
    rw [List.append_nil, ← es]
  rw [e] at g
  obtain ⟨turns, w, q1, q2⟩ := initCard_ends hi hd h1 (N.trans h2) N.dstat h3 (r.on g)
  refine ⟨turns, w, q1, fun rest => (q2 rest).trans ?_⟩
  rw [h4, List.append_nil]
  simp only [List.append_assoc]; rfl

theorem r1Accepted_of_le {r : Byte} (h : r ≤ 1) : r1Accepted r = true := decide_eq_true h

/-- A command that says "ready" was answered. -/
theorem Attempt.ticks_ready {p : Attempt} (h : p.r1 = 0x00) : p.ticks = 0 := by
  cases p with
  | answered q => rfl
  | unselected q => exact absurd h (by decide : ¬ (0xFF : Byte) = 0x00)

theorem AppReply.ticks_ready {p : AppReply} (h : p.r1 = 0x00) : p.ticks = 0 := Attempt.ticks_ready h

/-- The counters behind one more command of a negotiation. -/
theorem Timers.negotiated_attempt {t u : Timers} {j : Nat} (p : Attempt) (h : ({ t with neg := 1000 } : Timers).ranDown u j) :
    p.timers u = t.negotiated j p.ticks := congrArg (Timers.after · p.ticks) (h 500)

theorem Timers.ranDown_negotiated (t : Timers) (j k : Nat) : ({ t with neg := 1000 } : Timers).ranDown (t.negotiated j k) (j + k) :=
  fun x => by
    rw [← Timers.after_add]; rfl

/-- The end of the window, behind them. -/
theorem Timers.negotiated_after (t : Timers) (j k n : Nat) : (t.negotiated j k).after n = t.negotiated j (k + n) := Timers.after_add _ k n

/-- INITIALIZE up to the end of the probe ACMD41 (R206). -/
theorem passes_probe {s : State} {sel : Byte} {clocks more : List Byte} {p0 : Reply} {p8 : Attempt} {probe : AppReply} (hi : s.isIdle = true)
    (hm : s.env.senseNoMedium = false) (hl : clocks.length = 74 + s.env.extraDummies) (h : onLegacyPath p0 p8 probe)
    (hc : s.env.card = clocks ++ (p0.bytes ++ (p8.bytes ++ (probe.bytes ++ more)))) :
    ∃ m t, Passes (p8.ticks + probe.ticks) ((s.clearResults.latchWord 0x00 sel).goAct .senseMedium) (doTest .probe t) ∧ t.todo = [] ∧
      Negotiates (s.poweredUp sel clocks m) t (p0.trace 0x00 0 ++ p8.trace 0x08 0x1AA ++ probe.trace 0x29 0) more ∧
      ({ s.tmr with neg := 1000 } : Timers).ranDown t.tmr (p8.ticks + probe.ticks) ∧ t.wk.r1 = probe.r1 := by
  obtain ⟨h0, hr0, h8, hr8, hpr⟩ := h
  obtain ⟨s1, r1, a1, N1, tm1, x1, ty1⟩ := passes_cmd8 (sel := sel) hi hm hl h0 h8 hr0 hc
  have e1 : doTest .cmd8 s1 = s1.call [.command acmdInitSd 0] .probe := if_neg (not_idle_of_ne (by rw [x1]; exact hr8))
  rw [e1] at r1
  obtain ⟨s4, r4, a4, N4, tm4, x4, -⟩ := nego_app (s := s1) (idx := 0x29) (arg := 0) (u := .probe) (p := probe) (by decide) (by decide)
    (by decide) (by decide) a1 hpr (by rw [N1.env])
  have d := (Timers.ranDown_negotiated s.tmr 0 p8.ticks).trans (tm1 ▸ probe.ranDown s1.tmr)
  rw [Nat.zero_add, ← tm1, ← tm4] at d
  exact ⟨_, s4, r1.trans r4, a4, N1.trans N4, d, x4⟩

/-- INITIALIZE up to the trailer of CMD8 (R204). -/
theorem passes_trailer {s : State} {sel : Byte} {clocks more : List Byte} {p0 p8 : Reply} {t0 t1 t2 t3 : Byte} (hi : s.isIdle = true)
    (hm : s.env.senseNoMedium = false) (hl : clocks.length = 74 + s.env.extraDummies) (h : onV2Path p0 p8)
    (hc : s.env.card = clocks ++ (p0.bytes ++ (p8.bytes ++ t0 :: t1 :: t2 :: t3 :: more))) :
    ∃ m t, Passes 0 ((s.clearResults.latchWord 0x00 sel).goAct .senseMedium) (doTest .trailer t) ∧ t.todo = [] ∧
      Negotiates (s.poweredUp sel clocks m) t (p0.trace 0x00 0 ++ p8.trace 0x08 0x1AA ++ fillers [t0, t1, t2, t3]) more ∧
      t.tmr = s.tmr.negotiated 0 0 ∧ t.wk.ty = .noCard ∧ t.wk.trail = #v[t0, t1, t2, t3] := by
  obtain ⟨h0, hr0, h8, hr8⟩ := h
  obtain ⟨s1, r1, a1, N1, tm1, x1, ty1⟩ := passes_cmd8 (p8 := .answered p8) (sel := sel) hi hm hl h0 h8 hr0 hc
  have e1 : doTest .cmd8 s1 = s1.call readTrailer .trailer := if_pos (by rw [x1, Attempt.r1, hr8]; rfl)
  rw [e1] at r1
  obtain ⟨s2, r2, a2, N2, tm2, x2, ty2⟩ := nego_trailer (s := s1) (u := .trailer) a1 (by rw [N1.env])
  exact ⟨_, s2, r1.on r2, a2, N1.trans N2, tm2.trans tm1, ty2.trans ty1, x2⟩

/-- T_NEG in a loop whose window is open. -/
theorem ticks_of_windowOpen {α : Type} {ps : List α} {j k : Nat} {v : BitVec 16} (h : windowOpen ps.length (j + k))
    (hv : v.toNat = 1000 - j) : ps ≠ [] → k < v.toNat := fun hp => by
  have := h (fun e => hp (List.eq_nil_of_length_eq_zero e))
  omega

/-- INITIALIZE on the v2 path, behind an answer of its ready loop (R205). -/
theorem passes_v2Loop {s : State} {sel : Byte} {clocks more : List Byte} {p0 p8 : Reply} {t0 t1 : Byte} {rounds : List AppReply}
    {last : AppReply} (hi : s.isIdle = true) (hm : s.env.senseNoMedium = false) (hl : clocks.length = 74 + s.env.extraDummies)
    (h : onV2Path p0 p8) (hr : notYet rounds) (hw : windowOpen rounds.length (appTicks rounds)) (hq : last.ok)
    (hc : s.env.card = clocks ++ (p0.bytes ++ (p8.bytes ++ t0 :: t1 :: 0x01 :: 0xAA :: (appBytes rounds ++ (last.bytes ++ more))))) :
    ∃ m t, Passes (appTicks rounds + last.ticks) ((s.clearResults.latchWord 0x00 sel).goAct .senseMedium) (doTest .v2Loop t) ∧
      t.todo = [] ∧
      Negotiates (s.poweredUp sel clocks m) t (p0.trace 0x00 0 ++ p8.trace 0x08 0x1AA ++ fillers [t0, t1, 0x01, 0xAA]
        ++ appTrace 0x29 0x40000000 rounds ++ last.trace 0x29 0x40000000) more ∧
      t.tmr = s.tmr.negotiated (appTicks rounds) last.ticks ∧ t.wk.r1 = last.r1 ∧ t.wk.ty = .noCard := by
  obtain ⟨m2, s2, r2, a2, N2, tm2, ty2, x2⟩ := passes_trailer (sel := sel) hi hm hl h hc
  have e2 : doTest .trailer s2 = s2.call (loopCommand true s2.wk.icmd) (loopTest true) := if_pos (by rw [x2]; rfl)
  rw [e2] at r2
  have d2 := Timers.ranDown_negotiated s.tmr 0 0
  rw [← tm2] at d2
  obtain ⟨s3, r3, a3, N3, d3, ty3⟩ := passes_appRounds (v2 := true) (arg := Config.argHcs) (more := last.bytes ++ more) rounds s2 a2 hr
    (ticks_of_windowOpen (j := 0) (by rwa [Nat.zero_add]) d2.neg) rfl (by rw [N2.env])
  obtain ⟨s4, r4, a4, N4, tm4, x4, ty4, -⟩ := nego_app (s := s3) (idx := 0x29) (arg := Config.argHcs) (u := .v2Loop) (p := last)
    (by decide) (by decide) (by decide) (by decide) a3 hq (by rw [N3.env])
  have d := d2.trans d3
  rw [Nat.add_zero, Nat.zero_add] at d
  have r := r2.trans (r3.trans r4)
  rw [Nat.zero_add] at r
  exact ⟨_, s4, r, a4, (N2.trans N3).trans N4, tm4.trans (Timers.negotiated_attempt last.last d), x4, ty4.trans (ty3.trans ty2)⟩

/-- INITIALIZE on the legacy path of an SD-v1 card, behind an answer of its ready loop (R206). -/
theorem passes_sd1Loop {s : State} {sel : Byte} {clocks more : List Byte} {p0 : Reply} {p8 : Attempt} {probe : AppReply}
    {rounds : List AppReply} {last : AppReply} (hi : s.isIdle = true) (hm : s.env.senseNoMedium = false)
    (hl : clocks.length = 74 + s.env.extraDummies) (h : onLegacyPath p0 p8 probe) (hp : probe.r1 ≤ 1) (hr : notYet rounds)
    (hw : windowOpen rounds.length (p8.ticks + probe.ticks + appTicks rounds)) (hq : last.ok)
    (hc : s.env.card = clocks ++ (p0.bytes ++ (p8.bytes ++ (probe.bytes ++ (appBytes rounds ++ (last.bytes ++ more)))))) :
    ∃ m t, Passes (p8.ticks + probe.ticks + appTicks rounds + last.ticks) ((s.clearResults.latchWord 0x00 sel).goAct .senseMedium)
        (doTest .legacyLoop t) ∧ t.todo = [] ∧
      Negotiates (s.poweredUp sel clocks m) t (p0.trace 0x00 0 ++ p8.trace 0x08 0x1AA ++ probe.trace 0x29 0 ++ appTrace 0x29 0 rounds
        ++ last.trace 0x29 0) more ∧
      t.tmr = s.tmr.negotiated (p8.ticks + probe.ticks + appTicks rounds) last.ticks ∧ t.wk.r1 = last.r1 ∧ t.wk.ty = .sd1 := by
  obtain ⟨m1, s1, r1, a1, N1, d1, x1⟩ := passes_probe (sel := sel) hi hm hl h hc
  let v := s1.withWk { s1.wk with ty := .sd1, icmd := acmdInitSd }
  have e1 : doTest .probe s1 = v.call (loopCommand false v.wk.icmd) (loopTest false) := by
    show negoProbe s1 = _
    unfold negoProbe
    rw [if_pos (show r1Accepted s1.wk.r1 = true by rw [x1]; exact r1Accepted_of_le hp)]; rfl
  rw [e1] at r1
  obtain ⟨s3, r3, a3, N3, d3, ty3⟩ := passes_appRounds (v2 := false) (arg := 0) (more := last.bytes ++ more) rounds v a1 hr
    (ticks_of_windowOpen hw d1.neg) rfl (by show s1.env.card = _; rw [N1.env])
  obtain ⟨s4, r4, a4, N4, tm4, x4, ty4, -⟩ := nego_app (s := s3) (idx := 0x29) (arg := 0) (u := .legacyLoop) (p := last) (by decide)
    (by decide) (by decide) (by decide) a3 hq (by rw [N3.env])
  exact ⟨_, s4, (r1.trans r3).trans r4, a4, ((N1.aside v.wk v.pos v.todo v.cs v.tmr).trans N3).trans N4,
    tm4.trans (Timers.negotiated_attempt last.last (d1.trans d3)), x4, ty4.trans ty3⟩

/-- INITIALIZE on the legacy path of an MMC card, behind an answer of its ready loop (R206). -/
theorem passes_mmcLoop {s : State} {sel : Byte} {clocks more : List Byte} {p0 : Reply} {p8 : Attempt} {probe : AppReply}
    {rounds : List Attempt} {last : Attempt} (hi : s.isIdle = true) (hm : s.env.senseNoMedium = false)
    (hl : clocks.length = 74 + s.env.extraDummies) (h : onLegacyPath p0 p8 probe) (hp : 1 < probe.r1) (hr : notYetPlain rounds)
    (hw : windowOpen rounds.length (p8.ticks + probe.ticks + attemptTicks rounds)) (hq : last.ok)
    (hc : s.env.card = clocks ++ (p0.bytes ++ (p8.bytes ++ (probe.bytes ++ (attemptBytes rounds ++ (last.bytes ++ more)))))) :
    ∃ m t, Passes (p8.ticks + probe.ticks + attemptTicks rounds + last.ticks) ((s.clearResults.latchWord 0x00 sel).goAct .senseMedium)
        (doTest .legacyLoop t) ∧ t.todo = [] ∧
      Negotiates (s.poweredUp sel clocks m) t (p0.trace 0x00 0 ++ p8.trace 0x08 0x1AA ++ probe.trace 0x29 0 ++ attemptTrace 0x01 0 rounds
        ++ last.trace 0x01 0) more ∧
      t.tmr = s.tmr.negotiated (p8.ticks + probe.ticks + attemptTicks rounds) last.ticks ∧ t.wk.r1 = last.r1 ∧ t.wk.ty = .mmc := by
  obtain ⟨m1, s1, r1, a1, N1, d1, x1⟩ := passes_probe (sel := sel) hi hm hl h hc
  let v := s1.withWk { s1.wk with ty := .mmc, icmd := cmdInitMmc }
  have e1 : doTest .probe s1 = v.call [.command cmdInitMmc 0] .legacyLoop := by
    show negoProbe s1 = _
    unfold negoProbe
    rw [if_neg (show ¬ r1Accepted s1.wk.r1 = true by rw [x1, r1Accepted, decide_eq_true_eq, BitVec.not_le]; exact hp)]; rfl
  rw [e1] at r1
  obtain ⟨s3, r3, a3, N3, d3, ty3⟩ := passes_plainRounds (more := last.bytes ++ more) rounds v a1 hr (ticks_of_windowOpen hw d1.neg) rfl
    (by show s1.env.card = _; rw [N1.env])
  obtain ⟨s4, r4, a4, N4, tm4, x4, ty4, -⟩ := nego_attempt (s := s3) (cmd := cmdInitMmc) (arg := 0) (u := .legacyLoop) (p := last)
    (by decide) (by decide) a3 hq (by rw [N3.env])
  exact ⟨_, s4, (r1.trans r3).trans r4, a4, ((N1.aside v.wk v.pos v.todo v.cs v.tmr).trans N3).trans N4,
    tm4.trans (Timers.negotiated_attempt last (d1.trans d3)), x4, ty4.trans ty3⟩

/-- CMD16 and the end of INITIALIZE on the legacy path (R206, R207). -/
theorem initCard_legacy_completes {s t : State} {sel d : Byte} {clocks m0 more : List Byte} {items : List WireItem} {k : Nat} {p16 : Reply}
    (hi : s.isIdle = true) (hd : s.dmast = .idle) (a : t.todo = [])
    (N : Negotiates (s.poweredUp sel clocks m0) t items (p16.bytes ++ d :: more)) (htm : t.tmr = s.tmr.negotiated k 0)
    (hty : t.wk.ty ≠ .noCard) (hr : t.wk.r1 = 0x00) (h16 : p16.ok) (hr16 : p16.r1 = 0x00)
    (r : Passes k ((s.clearResults.latchWord 0x00 sel).goAct .senseMedium) (doTest .legacyLoop t)) :
    ∃ turns w, Timed k turns ∧ ∀ rest, exec (.initCard sel) (s.withSched (turns ++ rest)) = .next { s with
      lat := { s.lat with op := 0x00, sel := sel }, wk := w,
      out := s.out.onlySval { noInit := false, noDisk := false, protect := s.env.senseWrProt },
      dstat := { noInit := false, noDisk := false, protect := s.env.senseWrProt },
      ctype := t.wk.ty, tmr := s.tmr.negotiated k 0, cs := true, speed := .high,
      trace := s.trace ++ [.speed .low, .cs true] ++ fillers clocks ++ (items ++ p16.trace 0x10 512) ++ [.cs true, .xchg 0xFF d, .speed .high],
      env := { s.env with card := more }, sched := rest } := by
  have e4 : doTest .legacyLoop t = t.call [.command cmdBlockLen 512] .blockLen := if_pos (by rw [hr]; rfl)
  rw [e4] at r
  obtain ⟨n5, s5, r5, a5, N5, tm5, x5, ty5⟩ := nego_plain (s := t) (cmd := cmdBlockLen) (arg := 512) (u := .blockLen) (p := p16) (by decide)
    (by decide) a h16 (by rw [N.env])
  have e5 : doTest .blockLen s5 = negoFinish s5 := if_pos (by rw [x5, hr16]; rfl)
  rw [e5] at r5
  have tm : s5.tmr = s.tmr.negotiated k 0 := by rw [tm5, htm, Timers.negotiated, after_zero]; rfl
  have := initCard_completes (v := s5) hi hd a5 (N.trans N5) (by rw [ty5]; exact hty) (r.on r5)
  rwa [tm, ty5] at this

/-- CMD16 not answered 0x00 (R206). -/
theorem passes_lengthRejected {t : State} {q : Attempt} {more : List Byte} (a : t.todo = []) (hr : t.wk.r1 = 0x00) (hq : q.ok)
    (h0 : q.r1 ≠ 0x00) (hc : t.env.card = q.bytes ++ more) :
    ∃ v, Passes q.ticks (doTest .legacyLoop t) (negoFinish v) ∧ v.todo = [] ∧ v.wk.ty = .noCard ∧
      Negotiates t v (q.trace 0x10 512) more ∧ v.tmr = q.timers t.tmr := by
  have e : doTest .legacyLoop t = t.call [.command cmdBlockLen 512] .blockLen := if_pos (by rw [hr]; rfl)
  obtain ⟨u, r, h1, N, h2, h3, -⟩ := nego_attempt (s := t) (arg := 512) (u := .blockLen) (cmd := cmdBlockLen) (by decide) (by decide) a hq hc
  have e' : doTest .blockLen u = negoFail u := if_neg (not_ready_of_ne (by rw [h3]; exact h0))
  rw [e'] at r
  exact ⟨u.setTy .noCard, e ▸ r, h1, rfl, N.aside { u.wk with ty := .noCard } u.pos u.todo u.cs u.tmr, h2⟩

/-- INITIALIZE whose window closes behind an answer "not yet". -/
theorem initCard_windowClosed {v2 : Bool} {s t : State} {sel d : Byte} {clocks m0 more : List Byte} {items : List WireItem} {k j l : Nat}
    (hi : s.isIdle = true) (hd : s.dmast = .idle) (a : t.todo = []) (N : Negotiates (s.poweredUp sel clocks m0) t items (d :: more))
    (htm : t.tmr = s.tmr.negotiated j l) (hr : t.wk.r1 ≠ 0x00)
    (r : Passes k ((s.clearResults.latchWord 0x00 sel).goAct .senseMedium) (doTest (loopTest v2) t)) :
    ∃ turns w, Timed (k + (1000 - (j + l))) turns ∧ ∀ rest, exec (.initCard sel) (s.withSched (turns ++ rest)) = .next { s with
      lat := { s.lat with op := 0x00, sel := sel }, wk := w,
      out := s.out.onlySval { noInit := true, noDisk := false, protect := s.env.senseWrProt },
      dstat := { noInit := true, noDisk := false, protect := s.env.senseWrProt },
      ctype := .noCard, tmr := s.tmr.negotiated j (l + (1000 - (j + l))), cs := true, speed := .low,
      trace := s.trace ++ [.speed .low, .cs true] ++ fillers clocks ++ items ++ [.cs true, .xchg 0xFF d],
      env := { s.env with card := more }, sched := rest } := by
  have hn : t.tmr.neg.toNat = 1000 - (j + l) := by rw [htm]; exact (Timers.ranDown_negotiated s.tmr j l).neg
  have := initCard_fails (v := (t.withTmr (t.tmr.after (1000 - (j + l)))).setTy .noCard) hi hd a
    (N.aside { t.wk with ty := .noCard } t.pos t.todo t.cs (t.tmr.after (1000 - (j + l)))) rfl (r.trans (passes_windowClosed a hr hn.le))
  rwa [← Timers.negotiated_after, ← htm]

/-- A command row where ENGINE calls it: its run is the run of the call, with whatever turns come behind ENGINE's first steps. -/
theorem exec_command_gets {cmd : Byte} {arg : Word} {k : List Micro} {s t u : State} {m : Nat} {turns : List Turn}
    (h : s.todo = .command cmd arg :: k) (r : Reaches (m + 1) s u) (g : Gets turns u t) :
    execCommand cmd arg (s.withSched (engineTurns m ++ turns)) = .next (t.withSched []) := by
  unfold execCommand
  rw [show (s.withSched (engineTurns m ++ turns)).todo = .command cmd arg :: k from h]
  refine (if_pos ⟨rfl, rfl⟩).trans ?_
  cases r with
  | step hi he rr =>
    next v =>
    rw [engineStep_withSched, he, withSchedule_next]
    show runTurns (engineTurns m ++ turns) (v.withSched _) = _
    rw [rr.gets _ turns]
    have := g (engineTurns m ++ turns) []
    rw [List.append_nil] at this
    rw [this]; rfl

/-- The same with ENGINE's turns alone. -/
theorem exec_command_run {cmd : Byte} {arg : Word} {k : List Micro} {s t : State} {m : Nat} (h : s.todo = .command cmd arg :: k)
    (r : Reaches (m + 1) s t) : execCommand cmd arg (s.withSched (engineTurns m)) = .next (t.withSched []) := by
  have := exec_command_gets (turns := []) h r (Reaches.refl t).gets
  rwa [List.append_nil] at this

/-- A command row without a CMD55 before it: its meaning is the call of its code with its argument. -/
def CalledPlain (row : Instr × Byte × Word) : Prop :=
  (∀ s, exec row.1 s = execCommand row.2.1 row.2.2 s) ∧ row.2.1 ≠ cmdStop ∧ isApp row.2.1 = false

theorem plainRows_called : ∀ row ∈ plainRows, CalledPlain row := by
  repeat' first
    | exact List.forall_mem_nil _
    | refine List.forall_mem_cons.2 ⟨⟨fun _ => rfl, by decide, by decide⟩, ?_⟩

theorem blockRows_called (addr : Word) : ∀ row ∈ blockRows addr, CalledPlain row := by
  repeat' first
    | exact List.forall_mem_nil _
    | refine List.forall_mem_cons.2 ⟨⟨fun _ => rfl, by dsimp only; decide, by dsimp only; decide⟩, ?_⟩

/-- The meaning of every command row without a CMD55 before it. -/
theorem plain_exec {addr i cmd arg} (h : (i, cmd, arg) ∈ plainRows ++ blockRows addr) (s : State) :
    exec i s = execCommand cmd arg s ∧ cmd ≠ cmdStop ∧ isApp cmd = false := by
  have g : CalledPlain (i, cmd, arg) := (List.mem_append.1 h).elim (plainRows_called _) (blockRows_called addr _)
  exact ⟨g.1 s, g.2⟩

/-- An application command row: its meaning is the call of its index with the prefix flag. -/
def CalledApp (row : Instr × Byte × Word) : Prop :=
  (∀ s, exec row.1 s = execCommand (0x80 ||| row.2.1) row.2.2 s) ∧ isApp (0x80 ||| row.2.1) = true ∧
    (0x80 ||| row.2.1) &&& 0x7F = row.2.1 ∧ row.2.1 ≠ cmdStop ∧ isApp row.2.1 = false

theorem appRows_called (count : Word) : ∀ row ∈ appRows count, CalledApp row := by
  repeat' first
    | exact List.forall_mem_nil _
    | refine List.forall_mem_cons.2 ⟨⟨fun _ => by dsimp only; rfl, by dsimp only; decide⟩, ?_⟩

/-- The meaning of every application command row. -/
theorem app_exec {count i idx arg} (h : (i, idx, arg) ∈ appRows count) (s : State) :
    exec i s = execCommand (0x80 ||| idx) arg s ∧ isApp (0x80 ||| idx) = true ∧ (0x80 ||| idx) &&& 0x7F = idx ∧ idx ≠ cmdStop ∧
      isApp idx = false :=
  ⟨(appRows_called count _ h).1 s, (appRows_called count _ h).2⟩

/-- Whether ENGINE stands at an exchange. -/
theorem atExchange_iff {s : State} {x y : Exchange} {k} (h : s.todo = .exchange x :: k) : s.atExchange y = decide (x = y) := by
  unfold State.atExchange; rw [h]
  show (some (Micro.exchange x) == some (Micro.exchange y)) = _
  rw [Bool.eq_iff_iff]; simp

/-- A byte sent where ENGINE stands at its exchange. -/
theorem sentAt_next {s u : State} {x : Exchange} {k rx} (h : s.todo = .exchange x :: k) (hn : s.nextCard = some (rx, u)) : sentAt x s = .next (exchanged x k rx u) := by
  unfold sentAt; rw [h]
  refine (if_pos rfl).trans ?_
  unfold doExchange; rw [hn]

/-- Drawing an answer does not log. -/
theorem nextCard_trace {s u : State} {rx} (h : s.nextCard = some (rx, u)) : u.trace = s.trace := by
  unfold State.nextCard at h
  split at h
  · cases h; rfl
  · split at h
    · cases h; rfl
    · cases h

/-- A responsive bus answers every exchange. -/
theorem nextCard_responsive {s : State} (h : s.env.responsive = true) :
    ∃ rx e, s.nextCard = some (rx, s.withEnv e) ∧ e.responsive = true := by
  unfold State.nextCard
  split
  · exact ⟨_, _, rfl, h⟩
  · rw [if_pos h]; exact ⟨_, _, rfl, h⟩

/-- One exchange of the readiness wait: it ends with true, or its counter is asked next (40_bus_transport.md R139). -/
theorem engineStep_ready {s : State} {k : List Micro} (h : s.todo = .exchange .ready :: k) (hr : s.env.responsive = true) :
    (∃ e, engineStep s = .next (settle { s with todo := k, wk := { s.wk with rdy := 0xFF, flag := true }, trace := s.trace ++ [.xchg 0xFF 0xFF], env := e })) ∨
    (∃ rx e, rx ≠ 0xFF ∧ e.responsive = true ∧ engineStep s = .next { s with todo := .act .readyExpired :: k, wk := { s.wk with rdy := rx }, trace := s.trace ++ [.xchg 0xFF rx], env := e }) := by
  obtain ⟨rx, e, hn, he⟩ := nextCard_responsive hr
  unfold engineStep; rw [h]; simp only [doExchange, hn, exchanged, received, readyByte]
  by_cases c : rx = 0xFF
  · subst c; left; exact ⟨e, rfl⟩
  · right
    refine ⟨rx, e, c, he, ?_⟩
    rw [show cardIsReady rx = false by simp [cardIsReady, Config.filler]; exact c]
    exact congrArg _ (settle_act rfl)

end Sys2Proof.Machine
end

