-- ==== Sys2Proof/Laws/Encoding.lean ====
section
/-! SUPPORT. Laws/Encoding.lean: the lemmas about the decoder and the encoder, one for each piece of an encoding (30_encoding.md R91 to
R104). -/

open Sys2Proof.Machine

namespace Sys2Proof

/-- A word from its four bytes. -/
theorem latch_join (w : Word) : wordOfBytes (w.extractLsb' 24 8) (w.extractLsb' 16 8) (w.extractLsb' 8 8) (w.extractLsb' 0 8) = w := by
  unfold wordOfBytes
  apply BitVec.eq_of_getLsbD_eq
  intro i hi
  simp only [BitVec.getLsbD_append, BitVec.getLsbD_extractLsb']
  by_cases h1 : i < 8
  · simp [h1]
  · by_cases h2 : i < 16
    · have : i - 8 < 8 := by omega
      simp [h1, this]; congr 1; omega
    · by_cases h3 : i < 24
      · have a : ¬ (i - 8 < 8) := by omega
        have b : i - 8 - 8 < 8 := by omega
        simp [h1, a, b]; congr 1; omega
      · have a : ¬ (i - 8 < 8) := by omega
        have b : ¬ (i - 8 - 8 < 8) := by omega
        have c : i - 8 - 8 - 8 < 8 := by omega
        simp [h1, a, b, c]; congr 1; omega

/-- The sixth byte of a frame depends on byte 0 through the index alone (R95). -/
theorem crcByte_of_index : ∀ cmd : Byte, crcByte (0x40 ||| (cmd &&& 0x3F)) = crcByte cmd := by decide

/-- A frame whose command decodes is decoded. -/
theorem frame_roundtrip (cmd : Byte) (arg : Word) (rest : List Byte) (i : Instr)
   (h : decodeCommand (0x40 ||| (cmd &&& 0x3F)) arg = .ok i) :
   decodeFrame (frameBytes cmd arg ++ rest) = .ok (i, rest) := by
  simp only [frameBytes, argBytes, List.cons_append, List.nil_append, decodeFrame, latch_join, h, crcByte_of_index, if_true]

/-- The three latches are read back. -/
theorem latches_roundtrip (mk) (a b c : Word) (rest : List Byte) :
  decodeLatches mk (latchBytes a ++ (latchBytes b ++ (latchBytes c ++ rest))) = .ok (mk a b c, rest) := by
  simp only [latchBytes, List.cons_append, List.nil_append, decodeLatches, latch_join]

/-- Each malformed selector lies in its row (R104). -/
theorem decodeSelector_row : ∀ sel : Byte,
  (matchesPattern sel 0xFC 0x04 = true → decodeSelector sel = .ioctlMalformed4to7 sel) ∧
  (matchesPattern sel 0xF8 0x08 = true → decodeSelector sel = .ioctlMalformedBit3 sel) ∧
  (matchesPattern sel 0xF0 0x10 = true → decodeSelector sel = .ioctlMalformedBit4 sel) ∧
  (matchesPattern sel 0xE0 0x20 = true → decodeSelector sel = .ioctlMalformedBit5 sel) ∧
  (matchesPattern sel 0xC0 0x40 = true → decodeSelector sel = .ioctlMalformedBit6 sel) ∧
  (matchesPattern sel 0x80 0x80 = true → decodeSelector sel = .ioctlMalformedBit7 sel) := by decide +revert

/-- An operation code from 0x08 on is a reserved one (R104). -/
theorem decodeHostop_reserved (rest : List Byte) (sel : Byte) : ∀ op : Byte, 0x08 ≤ op → decodeHostop (op :: sel :: rest) = .ok (decodeReserved sel op, rest) := by
  intro op h
  have : ∀ c : Byte, c < 8 → op ≠ c := by intro c hc he; subst he; bv_omega
  simp only [decodeHostop]
  simp [this]

/-- The reserved rows lie from 0x08 on. -/
theorem reserved_ge : ∀ op : Byte, (matchesPattern op 0xF8 0x08 = true ∨ matchesPattern op 0xF0 0x10 = true ∨ matchesPattern op 0xE0 0x20 = true ∨ matchesPattern op 0xC0 0x40 = true ∨ matchesPattern op 0x80 0x80 = true) → 0x08 ≤ op := by decide

/-- The reserved rows do not overlap. -/
theorem reserved_disjoint : ∀ op : Byte,
  (matchesPattern op 0xF0 0x10 = true → matchesPattern op 0xF8 0x08 = false) ∧
  (matchesPattern op 0xE0 0x20 = true → matchesPattern op 0xF8 0x08 = false ∧ matchesPattern op 0xF0 0x10 = false) ∧
  (matchesPattern op 0xC0 0x40 = true → matchesPattern op 0xF8 0x08 = false ∧ matchesPattern op 0xF0 0x10 = false ∧ matchesPattern op 0xE0 0x20 = false) ∧
  (matchesPattern op 0x80 0x80 = true → matchesPattern op 0xF8 0x08 = false ∧ matchesPattern op 0xF0 0x10 = false ∧ matchesPattern op 0xE0 0x20 = false ∧ matchesPattern op 0xC0 0x40 = false) := by decide

/-- The bytes of a word put together from bytes. -/
theorem latch_split (b3 b2 b1 b0 : Byte) : latchBytes (wordOfBytes b3 b2 b1 b0) = [b0, b1, b2, b3] := by
  simp only [latchBytes, wordOfBytes, List.cons.injEq, and_true]
  refine ⟨?_, ?_, ?_, ?_⟩
  · apply BitVec.eq_of_getLsbD_eq; intro i hi
    simp only [BitVec.getLsbD_append, BitVec.getLsbD_extractLsb', hi, decide_true, Bool.true_and, Nat.zero_add, if_true]
  · apply BitVec.eq_of_getLsbD_eq; intro i hi
    have a : ¬ (8 + i < 8) := by omega
    have d : 8 + i - 8 = i := by omega
    simp only [BitVec.getLsbD_append, BitVec.getLsbD_extractLsb', hi, decide_true, Bool.true_and, a, d, ↓reduceIte]
  · apply BitVec.eq_of_getLsbD_eq; intro i hi
    have a : ¬ (16 + i < 8) := by omega
    have d : 16 + i - 8 = 8 + i := by omega
    have a2 : ¬ (8 + i < 8) := by omega
    have d2 : 8 + i - 8 = i := by omega
    simp only [BitVec.getLsbD_append, BitVec.getLsbD_extractLsb', hi, decide_true, Bool.true_and, a, d, a2, d2, ↓reduceIte]
  · apply BitVec.eq_of_getLsbD_eq; intro i hi
    have a0 : ¬ (24 + i < 8) := by omega
    have d0 : 24 + i - 8 = 16 + i := by omega
    have a : ¬ (16 + i < 8) := by omega
    have d : 16 + i - 8 = 8 + i := by omega
    have a2 : ¬ (8 + i < 8) := by omega
    have d2 : 8 + i - 8 = i := by omega
    simp only [BitVec.getLsbD_append, BitVec.getLsbD_extractLsb', hi, decide_true, Bool.true_and, a0, d0, a, d, a2, d2, ↓reduceIte]

/-- The argument bytes of a word put together from bytes. -/
theorem arg_split (b3 b2 b1 b0 : Byte) : argBytes (wordOfBytes b3 b2 b1 b0) = [b3, b2, b1, b0] := by
  have := latch_split b3 b2 b1 b0
  simp only [latchBytes, List.cons.injEq, and_true] at this
  obtain ⟨h0, h1, h2, h3⟩ := this
  simp only [argBytes, h0, h1, h2, h3]

/-- What decodes as three latches is their encoding. -/
theorem decodeLatches_inv (mk) (bs rest : List Byte) (i : Instr) (h : decodeLatches mk bs = .ok (i, rest)) :
   ∃ a b c, i = mk a b c ∧ bs = latchBytes a ++ (latchBytes b ++ (latchBytes c ++ rest)) := by
  unfold decodeLatches at h
  split at h
  · next b0 b1 b2 b3 s0 s1 s2 s3 c0 c1 c2 c3 r =>
    simp only [Except.ok.injEq, Prod.mk.injEq] at h
    obtain ⟨rfl, rfl⟩ := h
    exact ⟨_, _, _, rfl, by simp only [latch_split, List.cons_append, List.nil_append]⟩
  · cases h

/-- The row of every selector (R91, R104). -/
theorem decodeSelector_inv : ∀ sel : Byte, (decodeSelector sel).wellFormed = true ∧ (decodeSelector sel).format = .hostop ∧ encode (decodeSelector sel) = [0x07, sel] ∧ ((sel = 0x00 ∨ 0x04 ≤ sel) → decodeSelector sel ∈ malformedRows sel) ∧
      (sel ≠ 0x00 → sel < 0x04 → (decodeSelector sel, sel) ∈ queryRows) := by decide

/-- The reserved rows cover the codes from 0x08 on. -/
theorem reserved_cover : ∀ op : Byte, 0x08 ≤ op → (matchesPattern op 0xF8 0x08 = true ∨ matchesPattern op 0xF0 0x10 = true ∨ matchesPattern op 0xE0 0x20 = true ∨ matchesPattern op 0xC0 0x40 = true ∨ matchesPattern op 0x80 0x80 = true) := by decide

/-- The row of every reserved code. -/
theorem decodeReserved_inv (sel op : Byte) (h8 : 0x08 ≤ op) : (decodeReserved sel op).wellFormed = true ∧ (decodeReserved sel op).format = .hostop ∧ encode (decodeReserved sel op) = [op, sel] ∧ decodeReserved sel op ∈ reservedRows sel op := by
  have := reserved_cover op h8
  unfold decodeReserved
  (repeat' split) <;> refine ⟨?_, rfl, rfl, by simp [reservedRows]⟩ <;> simp only [Instr.wellFormed] <;> simp_all

/-- A command with one legal argument. -/
theorem fixedArgument_inv {arg want : Word} {i0 i : Instr} (h : (if arg = want then (.ok i0 : Except DecodeError Instr) else .error .badArgument) = .ok i) : arg = want ∧ i = i0 := by
  split at h
  · next e => cases h; exact ⟨e, rfl⟩
  · cases h

/-- A frame that decodes is the encoding of its command (R93, R96). -/
theorem decodeCommand_inv (b0 : Byte) (arg : Word) (i : Instr) (h : decodeCommand b0 arg = .ok i) :
    i.format = .cmdframe ∧ i.wellFormed = true ∧ ∃ cmd, encode i = frameBytes cmd arg ∧ 0x40 ||| (cmd &&& 0x3F) = b0 := by
  simp only [decodeCommand] at h
  by_cases h0x40 : b0 = 0x40
  · rw [if_pos h0x40] at h; subst h0x40
    obtain ⟨rfl, rfl⟩ := fixedArgument_inv h; exact ⟨rfl, rfl, 0x00, rfl, by decide⟩
  rw [if_neg h0x40] at h
  by_cases h0x41 : b0 = 0x41
  · rw [if_pos h0x41] at h; subst h0x41
    obtain ⟨rfl, rfl⟩ := fixedArgument_inv h; exact ⟨rfl, rfl, 0x01, rfl, by decide⟩
  rw [if_neg h0x41] at h
  by_cases h0x48 : b0 = 0x48
  · rw [if_pos h0x48] at h; subst h0x48
    obtain ⟨rfl, rfl⟩ := fixedArgument_inv h; exact ⟨rfl, rfl, 0x08, rfl, by decide⟩
  rw [if_neg h0x48] at h
  by_cases h0x49 : b0 = 0x49
  · rw [if_pos h0x49] at h; subst h0x49
    obtain ⟨rfl, rfl⟩ := fixedArgument_inv h; exact ⟨rfl, rfl, 0x09, rfl, by decide⟩
  rw [if_neg h0x49] at h
  by_cases h0x4C : b0 = 0x4C
  · rw [if_pos h0x4C] at h; subst h0x4C
    obtain ⟨rfl, rfl⟩ := fixedArgument_inv h; exact ⟨rfl, rfl, 0x0C, rfl, by decide⟩
  rw [if_neg h0x4C] at h
  by_cases h0x50 : b0 = 0x50
  · rw [if_pos h0x50] at h; subst h0x50
    obtain ⟨rfl, rfl⟩ := fixedArgument_inv h; exact ⟨rfl, rfl, 0x10, rfl, by decide⟩
  rw [if_neg h0x50] at h
  by_cases h0x51 : b0 = 0x51
  · rw [if_pos h0x51] at h; subst h0x51
    cases h; exact ⟨rfl, rfl, 0x11, rfl, by decide⟩
  rw [if_neg h0x51] at h
  by_cases h0x52 : b0 = 0x52
  · rw [if_pos h0x52] at h; subst h0x52
    cases h; exact ⟨rfl, rfl, 0x12, rfl, by decide⟩
  rw [if_neg h0x52] at h
  by_cases h0x57 : b0 = 0x57
  · rw [if_pos h0x57] at h; subst h0x57
    cases h; exact ⟨rfl, rfl, 0x97, rfl, by decide⟩
  rw [if_neg h0x57] at h
  by_cases h0x58 : b0 = 0x58
  · rw [if_pos h0x58] at h; subst h0x58
    cases h; exact ⟨rfl, rfl, 0x18, rfl, by decide⟩
  rw [if_neg h0x58] at h
  by_cases h0x59 : b0 = 0x59
  · rw [if_pos h0x59] at h; subst h0x59
    cases h; exact ⟨rfl, rfl, 0x19, rfl, by decide⟩
  rw [if_neg h0x59] at h
  by_cases h0x69 : b0 = 0x69
  · rw [if_pos h0x69] at h; subst h0x69
    by_cases hh : arg = Config.argHcs
    · rw [if_pos hh] at h; subst hh; cases h; exact ⟨rfl, rfl, 0xA9, rfl, by decide⟩
    · rw [if_neg hh] at h; obtain ⟨rfl, rfl⟩ := fixedArgument_inv h; exact ⟨rfl, rfl, 0xA9, rfl, by decide⟩
  rw [if_neg h0x69] at h
  by_cases h0x77 : b0 = 0x77
  · rw [if_pos h0x77] at h; subst h0x77
    obtain ⟨rfl, rfl⟩ := fixedArgument_inv h; exact ⟨rfl, rfl, 0x37, rfl, by decide⟩
  rw [if_neg h0x77] at h
  by_cases h0x7A : b0 = 0x7A
  · rw [if_pos h0x7A] at h; subst h0x7A
    obtain ⟨rfl, rfl⟩ := fixedArgument_inv h; exact ⟨rfl, rfl, 0x3A, rfl, by decide⟩
  rw [if_neg h0x7A] at h
  cases h

/-- Six bytes that decode are the encoding of what they decode to (R92, R95). -/
theorem decodeFrame_inv (bs rest : List Byte) (i : Instr) (h : decodeFrame bs = .ok (i, rest)) :
   i.format = .cmdframe ∧ i.wellFormed = true ∧ bs = encode i ++ rest := by
  unfold decodeFrame at h
  split at h
  · next b0 a3 a2 a1 a0 crc r =>
    split at h
    · next j hj =>
      split at h
      · next hcrc =>
        simp only [Except.ok.injEq, Prod.mk.injEq] at h
        obtain ⟨rfl, rfl⟩ := h
        obtain ⟨a, b, cmd, c, d⟩ := decodeCommand_inv _ _ _ hj
        refine ⟨a, b, ?_⟩
        rw [c, hcrc, ← d, crcByte_of_index, frameBytes, arg_split]; rfl
      · cases h
    · cases h
  · cases h

/-- A decoder gives one result. -/
theorem decoded_inj {i j : Instr} {r q : List Byte} (h : (Except.ok (i, r) : Except DecodeError (Instr × List Byte)) = .ok (j, q)) : i = j ∧ r = q := by
  simpa using h

/-- An operation code that is none of the eight. -/
theorem ge_of_ne (op : Byte) (h0 : op ≠ 0) (h1 : op ≠ 1) (h2 : op ≠ 2) (h3 : op ≠ 3) (h4 : op ≠ 4) (h5 : op ≠ 5) (h6 : op ≠ 6) (h7 : op ≠ 7) : 0x08 ≤ op := by
  have : op ∈ [0,1,2,3,4,5,6,7] ∨ 0x08 ≤ op := by clear h0 h1 h2 h3 h4 h5 h6 h7; revert op; decide
  rcases this with h | h
  · simp only [List.mem_cons, List.not_mem_nil, or_false] at h
    rcases h with h|h|h|h|h|h|h|h <;> contradiction
  · exact h

/-- HOSTOP bytes that decode are the encoding of what they decode to (R91). -/
theorem decodeHostop_inv (bs rest : List Byte) (i : Instr) (h : decodeHostop bs = .ok (i, rest)) :
   i.format = .hostop ∧ i.wellFormed = true ∧ bs = encode i ++ rest := by
  unfold decodeHostop at h
  split at h
  · next op sel r =>
    by_cases h0 : op = 0
    · subst h0; obtain ⟨rfl, rfl⟩ := decoded_inj h; exact ⟨rfl, rfl, rfl⟩
    by_cases h1 : op = 1
    · subst h1; obtain ⟨rfl, rfl⟩ := decoded_inj h; exact ⟨rfl, rfl, rfl⟩
    by_cases h2 : op = 2
    · subst h2; obtain ⟨a, b, c, rfl, rfl⟩ := decodeLatches_inv _ _ _ _ h; exact ⟨rfl, rfl, by simp [encode, blockWord, hostWord]⟩
    by_cases h3 : op = 3
    · subst h3; obtain ⟨a, b, c, rfl, rfl⟩ := decodeLatches_inv _ _ _ _ h; exact ⟨rfl, rfl, by simp [encode, blockWord, hostWord]⟩
    by_cases h4 : op = 4
    · subst h4; obtain ⟨a, b, c, rfl, rfl⟩ := decodeLatches_inv _ _ _ _ h; exact ⟨rfl, rfl, by simp [encode, blockWord, hostWord]⟩
    by_cases h5 : op = 5
    · subst h5; obtain ⟨a, b, c, rfl, rfl⟩ := decodeLatches_inv _ _ _ _ h; exact ⟨rfl, rfl, by simp [encode, blockWord, hostWord]⟩
    by_cases h6 : op = 6
    · subst h6; obtain ⟨rfl, rfl⟩ := decoded_inj h; exact ⟨rfl, rfl, rfl⟩
    by_cases h7 : op = 7
    · subst h7; obtain ⟨rfl, rfl⟩ := decoded_inj h
      obtain ⟨a, b, c, _⟩ := decodeSelector_inv sel
      exact ⟨b, a, by rw [c]; rfl⟩
    rw [if_neg h0, if_neg h1, if_neg h2, if_neg h3, if_neg h4, if_neg h5, if_neg h6, if_neg h7] at h
    obtain ⟨rfl, rfl⟩ := decoded_inj h
    obtain ⟨a, b, c, _⟩ := decodeReserved_inv sel op (ge_of_ne op h0 h1 h2 h3 h4 h5 h6 h7)
    exact ⟨b, a, by rw [c]; rfl⟩
  · cases h

end Sys2Proof
end

