-- ==== Sys2Proof/Laws/InvariantStep.lean ====
section
/-! SUPPORT. Laws/InvariantStep.lean: the invariant of Safety.lean kept by each kind of step: ENGINE's, DMA_DONE, DMAENG's, a run of
them, and the issue of an operation. -/

namespace Sys2Proof.Machine

/-- The part of the invariant that does not depend on the phase: memory and its owner. -/
def State.shared (s : State) : Prop := Memory.wf s.mem = true ∧ (s.job.isSome = true ↔ s.dmast ≠ .idle)

/-- It depends on three fields. -/
theorem shared_of {s t : State} (h : State.shared s) (h1 : t.mem = s.mem) (h2 : t.job = s.job) (h3 : t.dmast = s.dmast) : State.shared t := by
  unfold State.shared at *; rw [h1, h2, h3]; exact h

/-- A step that keeps the registers keeps it. -/
theorem shared_same {s t : State} (h : State.shared s) (g : SameRegisters s t) : State.shared t := shared_of h g.mem g.job g.dmast

/-- Every primitive action of a micro-operation keeps it. -/
theorem doLocal_shared (l : Local) (s : State) (h : State.shared s) : State.shared (doLocal l s) := by
  refine ⟨?_, by simpa using h.2⟩
  cases l
  case store =>
    simp only [doLocal, storeData, State.storeAt]
    have := writeByte_wf s (bufferAddr s.lat.buf s.wk.idx.toNat) s.wk.dat (bufferAddr_lt _ _) h.1
    split <;> exact this
  all_goals simp only [doLocal, readyTimer, tokenTimer, loadData]
  all_goals (repeat' split)
  all_goals exact h.1

/-- An exchange keeps it. -/
theorem doExchange_shared (x k s) (h : State.shared s) : State.shared (doExchange x k s) := by
  unfold doExchange exchanged
  split
  · next rx t hn =>
    obtain ⟨e, rfl⟩ := nextCard_withEnv hn
    refine shared_same ?_ (settle_same _)
    exact shared_of h (by simp [State.log]) (by simp [State.log]) (by simp [State.log])
  · exact h

theorem doAction_shared (l k s) (h : State.shared s) : State.shared (doAction l k s) := by
  unfold doAction
  have h' : State.shared (s.withTodo k) := h
  exact shared_same (doLocal_shared l _ h') (settle_same _)

theorem doCommand_shared (c a k s) (h : State.shared s) : State.shared (doCommand c a k s) := by
  have h1 : State.shared (sendCommand c a (s.withTodo k)) := shared_of h (by simp) (by simp) (by simp)
  simp only [doCommand]
  split
  · exact doExchange_shared _ _ _ h1
  · exact doAction_shared _ _ _ h1
  · exact h1
  · exact h1
  · exact h1

/-- Every primitive action of a host operation keeps it. -/
theorem doAct_shared (a : Act) (s t : State) (h : State.shared s) (hi : s.todo = [] ∧ actInv a s) (ht : doAct a s = .next t) : State.shared t := by
  have e : ∀ u : State, (Host.Outcome.next u : Answer) = .next t → State.shared u → State.shared t := by
    intro u hu hi; cases hu; exact hi
  cases a
  case dmaGo d => exact e _ ht ⟨h.1, by show (some _).isSome = true ↔ DmaStatus.busy ≠ .idle; simp⟩
  case statusIdle => exact e _ ht ⟨h.1, by show (none : Option DmaJob).isSome = true ↔ DmaStatus.idle ≠ .idle; simp⟩
  case readMulti =>
    simp only [doAct, pollMulti] at ht
    split at ht
    · refine e _ ht ?_
      split <;> exact h
    · cases ht
  case readDir =>
    simp only [doAct, pollDir] at ht
    split at ht
    · refine e _ ht ?_
      split <;> exact h
    · cases ht
  case ioctlGate =>
    simp only [doAct, ioctlGate] at ht
    (repeat' split at ht) <;> first | exact e _ ht h | cases ht
  case scale o =>
    cases o <;> simp only [doAct, readBegin, writeBegin, dmaWriteBegin] at ht <;> first | exact e _ ht h | (refine e _ ht ?_; split <;> exact h)
  case testSdc d =>
    cases d <;> simp only [doAct, writeTestSdc, dmaWriteTestSdc] at ht <;> (refine e _ ht ?_; split <;> exact h)
  case readStatus =>
    refine e _ ht ?_
    simp only [pollRead]
    cases s.dmast <;> exact h
  case testMulti d =>
    refine e _ ht ?_
    cases d <;> simp only [dmaTestMulti] <;> split <;> exact h
  case windowExpired v =>
    refine e _ ht ?_
    simp only [negoWindow]; (repeat' split) <;> exact h
  case gateInit o =>
    refine e _ ht ?_
    simp only [gateInit, gatePassed]; (repeat' split) <;> exact h
  case gateProtect o =>
    refine e _ ht ?_
    simp only [gateProtect, gatePassed]; (repeat' split) <;> exact h
  case guardDma o =>
    refine e _ ht ?_
    simp only [guardDma]; (repeat' split) <;> exact h
  case guardContext o =>
    refine e _ ht ?_
    simp only [guardContext]; (repeat' split) <;> exact h
  case testMedium =>
    refine e _ ht ?_
    simp only [negoTestMedium]; (repeat' split) <;> exact h
  all_goals exact e _ ht h

theorem shared_of_inv {s : State} (h : s.Inv) : State.shared s ∧ s.phaseInv := ⟨⟨h.memory, h.owned⟩, h.phase⟩

theorem inv_of_shared {s : State} (h : State.shared s ∧ s.phaseInv) : s.Inv := ⟨h.1.1, h.1.2, h.2⟩

/-- A step of ENGINE keeps the invariant. -/
theorem engineStep_inv (s t : State) (h : s.Inv) (ht : engineStep s = .next t) : t.Inv := by
  have e : ∀ u : State, (Host.Outcome.next u : Answer) = .next t → State.shared u → State.shared t := by
    intro u hu hi; cases hu; exact hi
  have hp := engineStep_phaseInv s t h.phase ht
  obtain ⟨hg, hph⟩ := shared_of_inv h
  refine inv_of_shared ⟨?_, hp⟩
  unfold engineStep at ht
  split at ht
  · exact e _ ht (doExchange_shared _ _ _ hg)
  · exact e _ ht (doAction_shared _ _ _ hg)
  · exact e _ ht (doCommand_shared _ _ _ _ hg)
  · exact e _ ht (shared_same hg (settle_same _))
  · next hs =>
    split at ht
    · exact e _ ht hg
    · next a hpos =>
      unfold State.phaseInv at hph; rw [hpos] at hph
      cases hd : doAct a s with
      | next u =>
        rw [hd] at ht
        exact e _ ht (shared_same (doAct_shared a s u hg hph hd) (settle_same _))
      | fault r => rw [hd] at ht; cases ht
      | refused r => rw [hd] at ht; cases ht
    · exact e _ ht (shared_same hg (settle_same _))

/-- Fields of which the invariant says nothing. -/
theorem inv_aside (s : State) (lat : Latches) (out : Results) (tmr : Timers) (mem : Memory)
    (trace : List WireItem) (taken : List Taken) (env : Outside) (sched : List Turn) (h : s.Inv) (hm : Memory.wf mem = true) :
    State.Inv { s with lat := lat, out := out, tmr := tmr, mem := mem, trace := trace, taken := taken, env := env, sched := sched } :=
  ⟨hm, h.owned, phaseInv_aside s lat out tmr s.job mem trace taken env sched h.phase⟩

/-- DMA_DONE keeps the invariant. -/
theorem dmaComplete_inv (ok : Bool) (s t : State) (h : s.Inv) (ht : dmaComplete ok s = .next t) : t.Inv := by
  unfold dmaComplete at ht
  split at ht
  · next hb =>
    cases ht
    have hj := h.owned
    rw [hb] at hj
    refine ⟨h.memory, ?_, ?_⟩
    · show s.job.isSome = true ↔ (if ok then DmaStatus.success else DmaStatus.error) ≠ .idle
      rw [hj]; cases ok <;> decide
    · have hph := h.phase
      rcases s with ⟨lat, wk, out, pos, todo, dstat, ctype, dmast, atc, tmr, cs, speed, job, mem, trace, taken, env, sched⟩
      cases hb
      have q : ∀ b : DmaStatus, b ≠ .idle → State.quiet ⟨lat, wk, out, pos, todo, dstat, ctype, .busy, atc, tmr, cs, speed, job, mem, trace, taken, env, sched⟩ →
        (State.statusOk ⟨lat, wk, out, pos, todo, dstat, ctype, .busy, atc, tmr, cs, speed, job, mem, trace, taken, env, sched⟩ ∧ (atc.live = true ↔ b ≠ .idle) ∧ (cs = true ↔ b = .idle)) := by
        intro b hb h
        obtain ⟨h1, h2, h3⟩ := h
        refine ⟨h1, ?_, ?_⟩
        · simp only [ne_eq, reduceCtorEq, not_false_eq_true, iff_true] at h2; simp [h2, hb]
        · simp only [reduceCtorEq, iff_false] at h3; simp [h3, hb]
      have hne : (if ok = true then DmaStatus.success else DmaStatus.error) ≠ .idle := by cases ok <;> decide
      cases pos with
      | idle => exact ⟨hph.1, q _ hne hph.2⟩
      | act a =>
        obtain ⟨h1, h2⟩ := hph
        refine ⟨h1, ?_⟩
        cases a
        case ret => exact q _ hne h2
        case retStatus => exact q _ hne h2
        case readStatus => exact q _ hne h2
        case gateInit o => exact ⟨q _ hne h2.1, fun ho => by cases h2.2 ho⟩
        case gateProtect o => exact ⟨q _ hne h2.1, fun ho => by cases h2.2 ho⟩
        case guardDma o => exact ⟨q _ hne h2.1, h2.2⟩
        all_goals simp [actInv, State.negotiating, State.transferring, State.terminal] at h2
      | test u =>
        cases u <;> simp [State.phaseInv, testInv, State.negotiating, State.transferring, State.followingUp, State.terminal] at hph
  · cases ht

/-- A step of DMAENG keeps the invariant: of the fields it speaks of it writes memory in the transfer's range, and the transfer's bytes. -/
theorem dmaStep_inv (a : DmaAct) (s t : State) (h : s.Inv) (ht : dmaStep a s = .next t) : t.Inv := by
  unfold dmaStep at ht
  split at ht
  · next j hb hj =>
    have held : ∀ k : DmaJob, (s.withJob (some k)).Inv := fun k =>
      ⟨h.memory, by show (some k).isSome = true ↔ s.dmast ≠ .idle; rw [hb]; simp,
        phaseInv_aside s s.lat s.out s.tmr (some k) s.mem s.trace s.taken s.env s.sched h.phase⟩
    have sent : ∀ (tx : Byte) (k : DmaJob), (dmaExchange tx k s).Inv := by
      intro tx k
      unfold dmaExchange
      split
      · next rx v hn =>
        obtain ⟨e, rfl⟩ := nextCard_withEnv hn
        exact inv_aside (s.withJob (some k)) s.lat s.out s.tmr s.mem _ s.taken e s.sched (held k) h.memory
      · exact h
    cases a <;> simp only [dmaAction] at ht
    · cases ht; exact sent _ _
    · split at ht
      · cases ht; exact sent _ _
      · cases ht
    · split at ht
      · cases ht
        exact inv_aside s s.lat s.out s.tmr _ s.trace s.taken s.env s.sched h (writeByte_wf s _ _ (bufferAddr_lt _ _) h.memory)
      · cases ht
    · split at ht
      · cases ht; exact held _
      · cases ht
  · cases ht

/-- A run under a schedule keeps the invariant. -/
theorem runTurns_inv (l : List Turn) : ∀ s t : State, s.Inv → runTurns l s = .next t → t.Inv := by
  induction l with
  | nil =>
    intro s t h ht; cases ht
    exact inv_aside s s.lat s.out s.tmr s.mem s.trace s.taken s.env _ h h.memory
  | cons u l ih =>
    intro s t h ht
    unfold runTurns at ht
    split at ht
    · cases ht; exact inv_aside s s.lat s.out s.tmr s.mem s.trace s.taken s.env _ h h.memory
    · cases u
      case engine =>
        simp only at ht
        cases hd : engineStep s with
        | next v => rw [hd] at ht; exact ih v t (engineStep_inv s v h hd) ht
        | fault r => rw [hd] at ht; cases ht
        | refused r => rw [hd] at ht; cases ht
      case tick =>
        exact ih _ t (inv_aside s s.lat s.out _ s.mem s.trace s.taken s.env s.sched h h.memory) ht
      case dmaDone ok =>
        simp only at ht
        cases hd : dmaComplete ok s with
        | next v => rw [hd] at ht; exact ih v t (dmaComplete_inv ok s v h hd) ht
        | fault r => rw [hd] at ht; cases ht
        | refused r => rw [hd] at ht; cases ht
      case dma a =>
        simp only at ht
        cases hd : dmaStep a s with
        | next v => rw [hd] at ht; exact ih v t (dmaStep_inv a s v h hd) ht
        | fault r => rw [hd] at ht; cases ht
        | refused r => rw [hd] at ht; cases ht
      all_goals
        cases ht; exact inv_aside s s.lat s.out s.tmr s.mem s.trace s.taken s.env _ h h.memory

/-- The issue of an operation keeps the invariant, if the state it begins in meets it. -/
theorem issue_inv (op sel start) (s t : State) (h : s.Inv)
   (hs : ∀ u : State, u.Inv → u.todo = [] → u.quiet → u.dmast = s.dmast → (start u).Inv) (ht : issue op sel start s = .next t) : t.Inv := by
  unfold issue at ht
  split at ht
  · next hi =>
    rw [isIdle_iff] at hi
    have hq : s.quiet := by have := h.phase; unfold State.phaseInv at this; rw [hi.1] at this; exact this.2
    unfold resume at ht
    refine runTurns_inv _ _ t (hs (s.clearResults.latchWord op sel) ?_ hi.2 hq rfl) ht
    exact inv_aside s _ _ s.tmr s.mem s.trace s.taken s.env s.sched h h.memory
  · cases ht

theorem goAct_inv (s : State) (a : Act) (h : s.Inv) (hp : s.todo = []) (ha : actInv a s) : (s.goAct a).Inv :=
  ⟨h.memory, h.owned, hp, by cases a <;> exact ha⟩

/-- The gate of a block operation begins in a state that meets the invariant. -/
theorem blockStart_inv (o b sec c) (s : State) (h : s.Inv) (hp : s.todo = []) (hq : s.quiet) (hd : o.isDma = false → s.dmast = .idle) :
    (blockStart o b sec c s).Inv := by
  have h' : (s.latchBlock b sec c).Inv := inv_aside s _ s.out s.tmr s.mem s.trace s.taken s.env s.sched h h.memory
  unfold blockStart gateCount
  split
  · exact goAct_inv _ _ h' hp hq
  · exact goAct_inv _ _ h' hp ⟨hq, hd⟩

/-- The same as issue_inv, for an operation that needs the bus. -/
theorem issueOnBus_inv (op sel start) (s t : State) (h : s.Inv)
   (hs : ∀ u : State, u.Inv → u.todo = [] → u.quiet → u.dmast = .idle → (start u).Inv) (ht : issueOnBus op sel start s = .next t) : t.Inv := by
  unfold issueOnBus at ht
  split at ht
  · next hd => exact issue_inv op sel start s t h (fun u a b c d => hs u a b c (d.trans hd)) ht
  · cases ht

end Sys2Proof.Machine
end

