-- ==== Sys2Proof/Laws/PerInstr.lean ====
section
/-! SUPPORT. Laws/PerInstr.lean: the family F, one lemma for each constructor of Instr: how many bytes the port image of an instruction
has (30_encoding.md R91, R92, R97, R98, R102, R103, R105). -/

namespace Sys2Proof.Laws.F

/-- The operand latches travel with these operations (R91; 10_state.md R22). -/
def withLatches : Instr → Bool
  | .initCard _ => false
  | .status _ => false
  | .read _ _ _ _ => true
  | .write _ _ _ _ => true
  | .startReadDma _ _ _ _ => true
  | .startWriteDma _ _ _ _ => true
  | .pollStatus _ => false
  | .ioctlGetSectorCount => false
  | .ioctlGetSectorSize => false
  | .ioctlGetEraseBlockSize => false
  | .ioctlMalformed0 => false
  | .ioctlMalformed4to7 _ => false
  | .ioctlMalformedBit3 _ => false
  | .ioctlMalformedBit4 _ => false
  | .ioctlMalformedBit5 _ => false
  | .ioctlMalformedBit6 _ => false
  | .ioctlMalformedBit7 _ => false
  | .reservedOpBit3 _ _ => false
  | .reservedOpBit4 _ _ => false
  | .reservedOpBit5 _ _ => false
  | .reservedOpBit6 _ _ => false
  | .reservedOpBit7 _ _ => false
  | .tick => false
  | .dmaDone _ => false
  | .cmd0 => false
  | .cmd1 => false
  | .cmd8 => false
  | .cmd9 => false
  | .cmd12 => false
  | .cmd16 => false
  | .cmd17 _ => false
  | .cmd18 _ => false
  | .acmd23 _ => false
  | .cmd24 _ => false
  | .cmd25 _ => false
  | .acmd41 _ => false
  | .cmd55 => false
  | .cmd58 => false
  | .tokStart => false
  | .tokMulti => false
  | .tokStop => false
  | .filler => false
  | .r1Response _ => false
  | .r1NotResponse _ => false
  | .dataAccepted _ => false
  | .resultOk => false
  | .resultError => false
  | .resultWriteProtected => false
  | .resultNotReady => false
  | .resultInvalidParameter => false

/-- The bytes of a format's port image: the word {SEL, OP} with or without three latches, a frame of six bytes, one byte. -/
def imageLength : Format → Bool → Nat
  | .hostop, true => 14
  | .hostop, false => 2
  | .cmdframe, _ => 6
  | .event, _ => 1
  | .token, _ => 1
  | .r1, _ => 1
  | .dataresp, _ => 1
  | .result, _ => 1

/-- The image is as long as the instruction's format and latches ask for. -/
def Statement (i : Instr) : Prop := (encode i).length = imageLength i.format (withLatches i)

theorem initCard (sel : Byte) : Statement (.initCard sel) := rfl

theorem status (sel : Byte) : Statement (.status sel) := rfl

theorem read (sel : Byte) (buf sector count : Word) : Statement (.read sel buf sector count) := rfl

theorem write (sel : Byte) (buf sector count : Word) : Statement (.write sel buf sector count) := rfl

theorem startReadDma (sel : Byte) (buf sector count : Word) : Statement (.startReadDma sel buf sector count) := rfl

theorem startWriteDma (sel : Byte) (buf sector count : Word) : Statement (.startWriteDma sel buf sector count) := rfl

theorem pollStatus (sel : Byte) : Statement (.pollStatus sel) := rfl

theorem ioctlGetSectorCount : Statement .ioctlGetSectorCount := rfl

theorem ioctlGetSectorSize : Statement .ioctlGetSectorSize := rfl

theorem ioctlGetEraseBlockSize : Statement .ioctlGetEraseBlockSize := rfl

theorem ioctlMalformed0 : Statement .ioctlMalformed0 := rfl

theorem ioctlMalformed4to7 (sel : Byte) : Statement (.ioctlMalformed4to7 sel) := rfl

theorem ioctlMalformedBit3 (sel : Byte) : Statement (.ioctlMalformedBit3 sel) := rfl

theorem ioctlMalformedBit4 (sel : Byte) : Statement (.ioctlMalformedBit4 sel) := rfl

theorem ioctlMalformedBit5 (sel : Byte) : Statement (.ioctlMalformedBit5 sel) := rfl

theorem ioctlMalformedBit6 (sel : Byte) : Statement (.ioctlMalformedBit6 sel) := rfl

theorem ioctlMalformedBit7 (sel : Byte) : Statement (.ioctlMalformedBit7 sel) := rfl

theorem reservedOpBit3 (sel op : Byte) : Statement (.reservedOpBit3 sel op) := rfl

theorem reservedOpBit4 (sel op : Byte) : Statement (.reservedOpBit4 sel op) := rfl

theorem reservedOpBit5 (sel op : Byte) : Statement (.reservedOpBit5 sel op) := rfl

theorem reservedOpBit6 (sel op : Byte) : Statement (.reservedOpBit6 sel op) := rfl

theorem reservedOpBit7 (sel op : Byte) : Statement (.reservedOpBit7 sel op) := rfl

theorem tick : Statement .tick := rfl

theorem dmaDone (ok : Bool) : Statement (.dmaDone ok) := rfl

theorem cmd0 : Statement .cmd0 := rfl

theorem cmd1 : Statement .cmd1 := rfl

theorem cmd8 : Statement .cmd8 := rfl

theorem cmd9 : Statement .cmd9 := rfl

theorem cmd12 : Statement .cmd12 := rfl

theorem cmd16 : Statement .cmd16 := rfl

theorem cmd17 (addr : Word) : Statement (.cmd17 addr) := rfl

theorem cmd18 (addr : Word) : Statement (.cmd18 addr) := rfl

theorem acmd23 (count : Word) : Statement (.acmd23 count) := rfl

theorem cmd24 (addr : Word) : Statement (.cmd24 addr) := rfl

theorem cmd25 (addr : Word) : Statement (.cmd25 addr) := rfl

theorem acmd41 (hcs : Bool) : Statement (.acmd41 hcs) := rfl

theorem cmd55 : Statement .cmd55 := rfl

theorem cmd58 : Statement .cmd58 := rfl

theorem tokStart : Statement .tokStart := rfl

theorem tokMulti : Statement .tokMulti := rfl

theorem tokStop : Statement .tokStop := rfl

theorem filler : Statement .filler := rfl

theorem r1Response (r : Byte) : Statement (.r1Response r) := rfl

theorem r1NotResponse (x : Byte) : Statement (.r1NotResponse x) := rfl

theorem dataAccepted (d : Byte) : Statement (.dataAccepted d) := rfl

theorem resultOk : Statement .resultOk := rfl

theorem resultError : Statement .resultError := rfl

theorem resultWriteProtected : Statement .resultWriteProtected := rfl

theorem resultNotReady : Statement .resultNotReady := rfl

theorem resultInvalidParameter : Statement .resultInvalidParameter := rfl

end Sys2Proof.Laws.F
end

