-- ==== Sys2Proof/Laws/Whole.lean ====
section
/-! SUPPORT. Laws/Whole.lean: a group of places of PHASE that no step leaves but to IDLE (a region), and what no step inside it writes: the
frame of whole host operations under any schedule (60_exceptions.md R313, R314). -/

namespace Sys2Proof.Machine

/-- A group of places of PHASE. -/
structure Region where
  pos : Pos → Bool
  micro : Micro → Bool

/-- PHASE stands inside the region. -/
def State.inside (s : State) (r : Region) : Prop := r.pos s.pos = true ∧ s.todo.all r.micro = true

/-- What ENGINE does inside the region leads to places inside it. -/
structure Region.Closed (r : Region) : Prop where
  received : ∀ x rx (s : State), r.micro (.exchange x) = true → ∃ p, (received x rx s).todo = p ++ s.todo ∧ p.all r.micro = true
  doLocal : ∀ l (s : State), r.micro (.act l) = true → ∃ p, (doLocal l s).todo = p ++ s.todo ∧ p.all r.micro = true
  doJoin : ∀ j (s : State), r.micro (.join j) = true → ∃ p, (doJoin j s).todo = p ++ s.todo ∧ p.all r.micro = true
  sendCommand : ∀ c a (s : State), ∃ p, (sendCommand c a s).todo = p ++ s.todo ∧ p.all r.micro = true
  doTest : ∀ u (s : State), r.pos (.test u) = true → s.todo = [] → (doTest u s).inside r
  doAct : ∀ a (s t : State), r.pos (.act a) = true → s.todo = [] → doAct a s = .next t → t.inside r

theorem inside_pushed {r : Region} {s t : State} {p : List Micro} (h : s.inside r) (hp : t.pos = s.pos) (ht : t.todo = p ++ s.todo)
    (ha : p.all r.micro = true) : t.inside r :=
  ⟨by rw [hp]; exact h.1, by rw [ht, List.all_append, ha, h.2]; rfl⟩

theorem settleWithin_inside {r : Region} (hr : r.Closed) (n : Nat) : ∀ s : State, s.inside r → (settleWithin n s).inside r := by
  induction n with
  | zero => exact fun s h => h
  | succ n ih =>
    intro s h
    unfold settleWithin
    split
    · next j k hs =>
      have h2 := h.2
      rw [hs, List.all_cons, Bool.and_eq_true] at h2
      obtain ⟨p, e, hp⟩ := hr.doJoin j (s.withTodo k) h2.1
      exact ih _ (inside_pushed (s := s.withTodo k) ⟨h.1, h2.2⟩ (by simp) e hp)
    · exact h
    · exact h
    · exact h
    · next hs =>
      split
      · next u hp => exact ih _ (hr.doTest u s (by rw [← hp]; exact h.1) hs)
      · exact h
      · exact h

theorem settle_inside {r : Region} (hr : r.Closed) {s : State} (h : s.inside r) : (settle s).inside r := settleWithin_inside hr 8 s h

theorem doExchange_inside {r : Region} (hr : r.Closed) {x : Exchange} {k : List Micro} {s : State} (h : s.inside r)
    (hx : r.micro (.exchange x) = true) (hk : k.all r.micro = true) : (doExchange x k s).inside r := by
  unfold doExchange
  split
  · next rx t hn =>
    obtain ⟨e, rfl⟩ := nextCard_withEnv hn
    unfold exchanged
    obtain ⟨p, e1, hp⟩ := hr.received x rx ((((s.withEnv e).withTodo k)).log (.xchg (x.tx (s.withEnv e)) rx)) hx
    exact settle_inside hr (inside_pushed (s := (((s.withEnv e).withTodo k)).log (.xchg (x.tx (s.withEnv e)) rx)) ⟨h.1, hk⟩ (by simp) e1 hp)
  · exact h

theorem doAction_inside {r : Region} (hr : r.Closed) {l : Local} {k : List Micro} {s : State} (h : s.inside r)
    (hl : r.micro (.act l) = true) (hk : k.all r.micro = true) : (doAction l k s).inside r := by
  obtain ⟨p, e1, hp⟩ := hr.doLocal l (s.withTodo k) hl
  exact settle_inside hr (inside_pushed (s := s.withTodo k) ⟨h.1, hk⟩ (by simp) e1 hp)

theorem engineStep_inside {r : Region} (hr : r.Closed) {s t : State} (h : s.inside r) (ht : engineStep s = .next t) : t.inside r := by
  unfold engineStep at ht
  split at ht
  · next x k hs =>
    have h2 := h.2
    rw [hs, List.all_cons, Bool.and_eq_true] at h2
    cases ht; exact doExchange_inside hr h h2.1 h2.2
  · next l k hs =>
    have h2 := h.2
    rw [hs, List.all_cons, Bool.and_eq_true] at h2
    cases ht; exact doAction_inside hr h h2.1 h2.2
  · next c a k hs =>
    have h2 := h.2
    rw [hs, List.all_cons, Bool.and_eq_true] at h2
    cases ht
    obtain ⟨p, e1, hp⟩ := hr.sendCommand c a (s.withTodo k)
    have hc : (sendCommand c a (s.withTodo k)).inside r := inside_pushed (s := s.withTodo k) ⟨h.1, h2.2⟩ (by simp) e1 hp
    have hc2 := hc.2
    unfold doCommand
    simp only
    split
    · next hs2 => rw [hs2, List.all_cons, Bool.and_eq_true] at hc2; exact doExchange_inside hr hc hc2.1 hc2.2
    · next hs2 => rw [hs2, List.all_cons, Bool.and_eq_true] at hc2; exact doAction_inside hr hc hc2.1 hc2.2
    · exact hc
    · exact hc
    · exact hc
  · cases ht; exact settle_inside hr h
  · next hs =>
    split at ht
    · cases ht; exact h
    · next a hp =>
      cases hd : doAct a s with
      | next u =>
        rw [hd] at ht; cases ht
        exact settle_inside hr (hr.doAct a s u (by rw [← hp]; exact h.1) hs hd)
      | fault f => rw [hd] at ht; cases ht
      | refused f => rw [hd] at ht; cases ht
    · cases ht; exact settle_inside hr h

/-! ### What is kept -/

/-- The registers INITIALIZE alone writes, and memory. -/
structure Held where
  dstat : DriveStatus
  ctype : CardType
  speed : Speed
  mem : Memory

def State.held (s : State) : Held := ⟨s.dstat, s.ctype, s.speed, s.mem⟩

theorem SameRegisters.held {s t : State} (h : SameRegisters s t) : t.held = s.held := by
  unfold State.held; rw [h.dstat, h.ctype, h.speed, h.mem]

theorem doExchange_held (x : Exchange) (k : List Micro) (s : State) : (doExchange x k s).held = s.held := by
  unfold doExchange
  split
  · next rx t hn =>
    obtain ⟨e, rfl⟩ := nextCard_withEnv hn
    unfold exchanged
    rw [(settle_same _).held]
    simp [State.held, State.log]
  · rfl

/-- What a step inside the region leaves alone, if its primitive actions do. -/
theorem engineStep_keeps {r : Region} (hr : r.Closed) {α : Type} (g : Held → α)
    (hl : ∀ l (s : State), r.micro (.act l) = true → g (doLocal l s).held = g s.held)
    (ha : ∀ a (s t : State), r.pos (.act a) = true → doAct a s = .next t → g t.held = g s.held) {s t : State} (h : s.inside r)
    (ht : engineStep s = .next t) : g t.held = g s.held := by
  have action : ∀ l k (s : State), r.micro (.act l) = true → g (doAction l k s).held = g s.held := by
    intro l k s h
    unfold doAction
    rw [(settle_same _).held, hl l _ h]; rfl
  unfold engineStep at ht
  split at ht
  · cases ht; rw [doExchange_held]
  · next l k hs =>
    have h2 := h.2
    rw [hs, List.all_cons, Bool.and_eq_true] at h2
    cases ht; exact action _ _ _ h2.1
  · next c a k hs =>
    have h2 := h.2
    rw [hs, List.all_cons, Bool.and_eq_true] at h2
    cases ht
    obtain ⟨p, e1, hp⟩ := hr.sendCommand c a (s.withTodo k)
    have hc : (sendCommand c a (s.withTodo k)).inside r := inside_pushed (s := s.withTodo k) ⟨h.1, h2.2⟩ (by simp) e1 hp
    have hc2 := hc.2
    have hh : (sendCommand c a (s.withTodo k)).held = s.held := by simp [State.held]
    unfold doCommand
    simp only
    split
    · rw [doExchange_held, hh]
    · next hs2 => rw [hs2, List.all_cons, Bool.and_eq_true] at hc2; rw [action _ _ _ hc2.1, hh]
    · rw [hh]
    · rw [hh]
    · rw [hh]
  · cases ht; rw [(settle_same _).held]
  · split at ht
    · cases ht; rfl
    · next a hp =>
      cases hd : doAct a s with
      | next u =>
        rw [hd] at ht; cases ht
        rw [(settle_same _).held, ha a s u (by rw [← hp]; exact h.1) hd]
      | fault f => rw [hd] at ht; cases ht
      | refused f => rw [hd] at ht; cases ht
    · cases ht; rw [(settle_same _).held]

theorem dmaComplete_held {ok : Bool} {s t : State} (h : dmaComplete ok s = .next t) : t.held = s.held ∧ t.pos = s.pos ∧ t.todo = s.todo := by
  unfold dmaComplete at h
  split at h
  · cases h; exact ⟨rfl, rfl, rfl⟩
  · cases h

/-- An exchange of DMAENG writes what it holds, the record of the boundary and the card's script at most. -/
theorem dmaExchange_same (tx : Byte) (j : DmaJob) (s : State) :
    dmaExchange tx j s = { s with job := (dmaExchange tx j s).job, trace := (dmaExchange tx j s).trace, env := (dmaExchange tx j s).env } := by
  unfold dmaExchange
  split
  · next rx u hn =>
    obtain ⟨e, rfl⟩ := nextCard_withEnv hn
    rfl
  · rfl

/-- A step of DMAENG writes memory, the transfer's bytes, the record of the boundary and the card's script at most. -/
theorem dmaStep_same {a : DmaAct} {s t : State} (h : dmaStep a s = .next t) :
    s.dmast = .busy ∧ t = { s with mem := t.mem, job := t.job, trace := t.trace, env := t.env } := by
  unfold dmaStep at h
  split at h
  · next j hb hj =>
    refine ⟨hb, ?_⟩
    cases a <;> simp only [dmaAction] at h
    · cases h; rw [dmaExchange_same]
    · split at h
      · cases h; rw [dmaExchange_same]
      · cases h
    · split at h
      · cases h; rfl
      · cases h
    · split at h
      · cases h; rfl
      · cases h
  · cases h

/-- Under any schedule in which DMAENG's steps keep it too. -/
theorem runTurns_keeps {r : Region} (hr : r.Closed) {α : Type} (g : Held → α)
    (hl : ∀ l (s : State), r.micro (.act l) = true → g (doLocal l s).held = g s.held)
    (ha : ∀ a (s t : State), r.pos (.act a) = true → doAct a s = .next t → g t.held = g s.held) :
    ∀ (l : List Turn) (s t : State), (∀ a ∈ l, ∀ d, a = .dma d → ∀ u v : State, dmaStep d u = .next v → g v.held = g u.held) →
      s.inside r → runTurns l s = .next t → g t.held = g s.held := by
  intro l
  induction l with
  | nil => intro s t _ _ h; cases h; rfl
  | cons x l ih =>
    intro s t hd hi h
    have hd' := fun a ha => hd a (List.mem_cons_of_mem _ ha)
    unfold runTurns at h
    split at h
    · cases h; rfl
    · cases x
      case engine =>
        simp only at h
        cases he : engineStep s with
        | next u =>
          rw [he] at h
          rw [ih u t hd' (engineStep_inside hr hi he) h, engineStep_keeps hr g hl ha hi he]
        | fault f => rw [he] at h; cases h
        | refused f => rw [he] at h; cases h
      case tick => exact (ih s.tickDown t hd' hi h).trans rfl
      case dmaDone ok =>
        simp only at h
        cases he : dmaComplete ok s with
        | next u =>
          rw [he] at h
          obtain ⟨e1, e2, e3⟩ := dmaComplete_held he
          rw [ih u t hd' ⟨by rw [e2]; exact hi.1, by rw [e3]; exact hi.2⟩ h, e1]
        | fault f => rw [he] at h; cases h
        | refused f => rw [he] at h; cases h
      case dma d =>
        simp only at h
        cases he : dmaStep d s with
        | next u =>
          rw [he] at h
          have e : u.pos = s.pos ∧ u.todo = s.todo := by rw [(dmaStep_same he).2]; exact ⟨rfl, rfl⟩
          rw [ih u t hd' ⟨by rw [e.1]; exact hi.1, by rw [e.2]; exact hi.2⟩ h, hd _ (List.mem_cons_self ..) d rfl s u he]
        | fault f => rw [he] at h; cases h
        | refused f => rw [he] at h; cases h
      case host a => cases h; rfl
      case port f b => cases h; rfl

/-! ### The operations other than INITIALIZE -/

/-- The places no other operation than INITIALIZE has. -/
def Act.isNego : Act → Bool
  | .senseMedium | .senseProtect | .testMedium | .absentInit | .absentType | .windowExpired _ | .setType | .setReady | .setFailed => true
  | .ret _ | .retStatus | .gateInit _ | .gateProtect _ | .guardDma _ | .guardContext _ | .newContext _ | .newDir _ | .newMulti _ | .scale _ | .testSdc _ | .dmaGo _
  | .testMulti _ | .dropContext | .readStatus | .readMulti | .readDir | .clearContext | .statusIdle | .ioctlGate => false

def Test.isNego : Test → Bool
  | .poweredUp | .cmd0 | .cmd8 | .trailer | .v2Loop | .ocrCmd | .ocr | .probe | .legacyLoop | .blockLen | .closed | .fast => true
  | .readOne | .readOneData | .readMany | .readManyData | .readStop | .writeOne | .writeOneData | .writeHint | .writeMany | .writeManyData
  | .writeStop | .blockClosed | .dmaReadCmd | .dmaReadToken | .dmaWriteHint | .dmaWriteCmd | .dmaWriteReady | .dmaWriteToken | .dmaStopped
  | .dmaClosed | .pollStopToken | .pollStopCmd | .pollClosed | .csdCmd | .csdData | .csdClosed => false

/-- The region of every operation but INITIALIZE. -/
def afterInit : Region where
  pos | .idle => true | .act a => !a.isNego | .test u => !u.isNego
  micro := Micro.keepsSpeed

/-- A call inside the region. -/
theorem call_inside {r : Region} {s : State} {ms : List Micro} {u : Test} (ht : s.todo = []) (hu : r.pos (.test u) = true)
    (hm : ms.all r.micro = true) : (s.call ms u).inside r :=
  ⟨hu, by show (ms ++ s.todo).all r.micro = true; rw [ht, List.append_nil]; exact hm⟩

/-- An action inside it. -/
theorem goAct_inside {r : Region} {s : State} {a : Act} (ht : s.todo = []) (ha : r.pos (.act a) = true) : (s.goAct a).inside r :=
  ⟨ha, by show s.todo.all r.micro = true; rw [ht]; rfl⟩

theorem afterInit_closed : afterInit.Closed where
  received x rx s _ := by obtain ⟨p, h1, h2, -⟩ := received_todo x rx s; exact ⟨p, h1, h2⟩
  doLocal l s _ := by obtain ⟨p, h1, h2, -⟩ := doLocal_todo l s; exact ⟨p, h1, h2⟩
  doJoin j s _ := by obtain ⟨p, h1, h2, -⟩ := doJoin_todo j s; exact ⟨p, h1, h2⟩
  sendCommand c a s := sendCommand_todo c a s
  doTest u s h ht := by
    cases u <;> first
      | exact absurd h (by decide)
      | (simp only [doTest, readOne, readOneData, readMany, readManyData, readStopNow, readStop, blockClose, blockClosed, writeOne,
          writeOneData, writeHint, writeManyNow, writeMany, writeStopNow, writeManyData, writeStop, dmaReadCmd, dmaReadToken, dmaFail,
          dmaWriteHint, dmaWriteManyNow, dmaWriteCmd, dmaWriteReady, dmaWriteToken, dmaStopped, dmaClosed, pollStopToken, pollStopCmd,
          pollClose, pollClosed, csdCmd, csdData, csdClose, csdClosed]
         (repeat' split) <;> first | exact call_inside ht rfl rfl | exact goAct_inside ht rfl)
  doAct a s t h ht hd := by
    have e : ∀ u : State, (Host.Outcome.next u : Answer) = .next t → u.inside afterInit → t.inside afterInit := by
      intro u hu hi; cases hu; exact hi
    have done : ∀ u : State, u.pos = .idle → u.todo = [] → u.inside afterInit := by
      intro u h1 h2; exact ⟨by rw [h1]; rfl, by rw [h2]; rfl⟩
    cases a
    case ret r => exact e _ hd (done _ rfl ht)
    case retStatus => exact e _ hd (done _ rfl ht)
    case readMulti =>
      simp only [doAct, pollMulti] at hd
      split at hd
      · refine e _ hd ?_
        split <;> first | exact call_inside ht rfl rfl | exact goAct_inside ht rfl
      · cases hd
    case readDir =>
      simp only [doAct, pollDir] at hd
      split at hd
      · refine e _ hd ?_
        split <;> exact call_inside ht rfl rfl
      · cases hd
    case ioctlGate =>
      simp only [doAct, ioctlGate] at hd
      (repeat' split at hd) <;> first
        | (refine e _ hd ?_; first | exact call_inside ht rfl rfl | exact goAct_inside ht rfl)
        | cases hd
    case scale o =>
      cases o <;> simp only [doAct, readBegin, writeBegin, dmaReadBegin, dmaWriteBegin] at hd <;> (refine e _ hd ?_) <;>
        (try split) <;> first | exact call_inside ht rfl rfl | exact goAct_inside ht rfl
    case testSdc d =>
      cases d <;> simp only [doAct, writeTestSdc, dmaWriteTestSdc] at hd <;> (refine e _ hd ?_) <;> split <;> exact call_inside ht rfl rfl
    case readStatus =>
      refine e _ hd ?_
      simp only [pollRead]
      split <;> exact goAct_inside ht rfl
    case testMulti d =>
      refine e _ hd ?_
      cases d <;> simp only [dmaTestMulti] <;> split <;> exact call_inside ht rfl rfl
    case gateInit o =>
      refine e _ hd ?_
      simp only [gateInit, gatePassed]; (repeat' split) <;> exact goAct_inside ht rfl
    case gateProtect o =>
      refine e _ hd ?_
      simp only [gateProtect, gatePassed]; (repeat' split) <;> exact goAct_inside ht rfl
    case guardDma o =>
      refine e _ hd ?_
      simp only [guardDma]; (repeat' split) <;> exact goAct_inside ht rfl
    case guardContext o =>
      refine e _ hd ?_
      simp only [guardContext]; (repeat' split) <;> exact goAct_inside ht rfl
    case newContext o => exact e _ hd (goAct_inside ht rfl)
    case newDir o => exact e _ hd (goAct_inside ht rfl)
    case newMulti o => exact e _ hd (goAct_inside ht rfl)
    case dmaGo d => exact e _ hd (goAct_inside ht rfl)
    case dropContext => exact e _ hd (goAct_inside ht rfl)
    case clearContext => exact e _ hd (goAct_inside ht rfl)
    case statusIdle => exact e _ hd (goAct_inside ht rfl)
    all_goals exact absurd h (by simp [afterInit, Act.isNego])

/-- Outside INITIALIZE no action writes DSTAT, CTYPE, SPEED or memory. -/
theorem doAct_held {a : Act} {s t : State} (h : a.isNego = false) (hd : doAct a s = .next t) : t.held = s.held := by
  have e : ∀ u : State, (Host.Outcome.next u : Answer) = .next t → u.held = s.held → t.held = s.held := by
    intro u hu hi; cases hu; exact hi
  cases a
  case readMulti =>
    simp only [doAct, pollMulti] at hd
    split at hd
    · refine e _ hd ?_
      split <;> rfl
    · cases hd
  case readDir =>
    simp only [doAct, pollDir] at hd
    split at hd
    · refine e _ hd ?_
      split <;> rfl
    · cases hd
  case ioctlGate =>
    simp only [doAct, ioctlGate] at hd
    (repeat' split at hd) <;> first | exact e _ hd rfl | cases hd
  case scale o =>
    cases o <;> simp only [doAct, readBegin, writeBegin, dmaWriteBegin] at hd <;> (refine e _ hd ?_) <;> (try split) <;> rfl
  case testSdc d => cases d <;> simp only [doAct, writeTestSdc, dmaWriteTestSdc] at hd <;> (refine e _ hd ?_) <;> split <;> rfl
  case readStatus => refine e _ hd ?_; simp only [pollRead]; split <;> rfl
  case testMulti d => refine e _ hd ?_; cases d <;> simp only [dmaTestMulti] <;> split <;> rfl
  case gateInit o => refine e _ hd ?_; simp only [gateInit, gatePassed]; (repeat' split) <;> rfl
  case gateProtect o => refine e _ hd ?_; simp only [gateProtect, gatePassed]; (repeat' split) <;> rfl
  case guardDma o => refine e _ hd ?_; simp only [guardDma]; (repeat' split) <;> rfl
  case guardContext o => refine e _ hd ?_; simp only [guardContext]; (repeat' split) <;> rfl
  case ret r => exact e _ hd rfl
  case retStatus => exact e _ hd rfl
  case newContext o => exact e _ hd rfl
  case newDir o => exact e _ hd rfl
  case newMulti o => exact e _ hd rfl
  case dmaGo d => exact e _ hd rfl
  case dropContext => exact e _ hd rfl
  case clearContext => exact e _ hd rfl
  case statusIdle => exact e _ hd rfl
  all_goals cases h

/-! ### The operations other than READ -/

/-- The entry stores nothing in the buffer, and nor does what it unfolds to. -/
def Micro.keepsMemory : Micro → Bool
  | .act .store => false
  | .exchange (.data d) => d == .csd
  | .join (.tokenSeen d) => d == .csd
  | .act (.setCs _) | .act (.setSpeed _) | .act (.arm _ _) | .act .readyExpired | .act .tokenExpired | .act .load => true
  | .exchange (.send _) | .exchange .ready | .exchange .token | .exchange .poll | .exchange (.trail _) | .exchange (.sendToken _)
  | .exchange .sendData | .exchange .response => true
  | .join (.selected _ _) | .join .noResponse | .join (.prefixed _ _) | .join .startPoll | .join (.cardReady _) | .join .returnTrue => true
  | .command _ _ => true

/-- The places of READ alone. -/
def Act.isRead : Act → Bool
  | .gateInit o | .gateProtect o | .guardDma o | .guardContext o | .newContext o | .newDir o | .newMulti o | .scale o => o == .read
  | .senseMedium | .senseProtect | .testMedium | .absentInit | .absentType | .windowExpired _ | .setType | .setReady | .setFailed
  | .ret _ | .retStatus | .testSdc _ | .dmaGo _ | .testMulti _ | .dropContext | .readStatus | .readMulti | .readDir | .clearContext | .statusIdle
  | .ioctlGate => false

def Test.isRead : Test → Bool
  | .readOne | .readOneData | .readMany | .readManyData | .readStop => true
  | .poweredUp | .cmd0 | .cmd8 | .trailer | .v2Loop | .ocrCmd | .ocr | .probe | .legacyLoop | .blockLen | .closed | .fast
  | .writeOne | .writeOneData | .writeHint | .writeMany | .writeManyData
  | .writeStop | .blockClosed | .dmaReadCmd | .dmaReadToken | .dmaWriteHint | .dmaWriteCmd | .dmaWriteReady | .dmaWriteToken | .dmaStopped
  | .dmaClosed | .pollStopToken | .pollStopCmd | .pollClosed | .csdCmd | .csdData | .csdClosed => false

/-- The region of every operation but READ. -/
def outsideRead : Region where
  pos | .idle => true | .act a => !a.isRead | .test u => !u.isRead
  micro := Micro.keepsMemory

theorem frame_keepsMemory (cmd : Byte) (arg : Word) : (frame cmd arg).all Micro.keepsMemory = true := by
  unfold frame; split <;> rfl

theorem plainCommand_keepsMemory (cmd : Byte) (arg : Word) : (plainCommand cmd arg).all Micro.keepsMemory = true := by
  unfold plainCommand; split
  · exact frame_keepsMemory cmd arg
  · rfl

theorem sendCommand_keepsMemory (cmd : Byte) (arg : Word) (s : State) :
    ∃ p, (sendCommand cmd arg s).todo = p ++ s.todo ∧ p.all Micro.keepsMemory = true := by
  unfold sendCommand; split
  · exact ⟨plainCommand cmdApp 0 ++ [.join (.prefixed (cmd &&& 0x7F) arg)], by simp [State.push, State.noteCommand], by
      simp only [List.all_append, plainCommand_keepsMemory]; rfl⟩
  · exact ⟨plainCommand cmd arg, by simp [State.push, State.noteCommand], plainCommand_keepsMemory cmd arg⟩

theorem powerUp_keepsMemory (n : Nat) : (powerUpClocks n).all Micro.keepsMemory = true := by
  show (List.replicate n _).all Micro.keepsMemory = true
  induction n with
  | zero => rfl
  | succ n ih => exact ih

theorem outsideRead_closed : outsideRead.Closed where
  received x rx s h := by
    cases x <;> simp only [received, readyByte, tokenByte, pollByte, trailByte, dataByte, storeData, State.storeAt, dataSent,
      responseByte, State.returnFlag, State.push] <;> (repeat' split) <;>
      first
        | exact ⟨[], rfl, rfl⟩
        | exact ⟨[_], rfl, rfl⟩
        | exact ⟨[_, _, _], rfl, rfl⟩
        | exact absurd h (by decide)
  doLocal l s h := by
    cases l <;> simp only [doLocal, readyTimer, tokenTimer, storeData, loadData, State.storeAt, State.writeByte, State.writeCs,
      State.writeSpeed, State.armTimer, State.returnFlag, State.push, State.log] <;> (repeat' split) <;>
      first
        | exact ⟨[], rfl, rfl⟩
        | exact ⟨[_], rfl, rfl⟩
        | exact ⟨[_, _, _], rfl, rfl⟩
        | exact absurd h (by decide)
  doJoin j s h := by
    cases j <;> simp only [doJoin, afterSelect, noResponse, afterPrefix, startPoll, afterToken, afterReady,
      State.returnFlag, State.push] <;> (repeat' split) <;>
      first
        | exact ⟨[], rfl, rfl⟩
        | exact ⟨frame _ _, rfl, frame_keepsMemory _ _⟩
        | exact ⟨deselect ++ [_], rfl, rfl⟩
        | exact ⟨[_], rfl, rfl⟩
        | exact ⟨[_, _], rfl, rfl⟩
        | exact ⟨[_], rfl, by rw [List.all_cons]; simpa [outsideRead, Micro.keepsMemory] using h⟩
  sendCommand c a s := sendCommand_keepsMemory c a s
  doTest u s h ht := by
    cases u <;> first
      | exact absurd h (by decide)
      | (simp only [doTest, negoPoweredUp, negoCmd0, negoCmd8, negoTrailer, negoV2Loop, negoOcrCmd, negoOcr, negoProbe, negoLegacyLoop,
          negoBlockLen, negoClosed, negoFast, negoFail, negoFinish, blockClose, blockClosed, writeOne,
          writeOneData, writeHint, writeManyNow, writeMany, writeStopNow, writeManyData, writeStop, dmaReadCmd, dmaReadToken, dmaFail,
          dmaWriteHint, dmaWriteManyNow, dmaWriteCmd, dmaWriteReady, dmaWriteToken, dmaStopped, dmaClosed, pollStopToken, pollStopCmd,
          pollClose, pollClosed, csdCmd, csdData, csdClose, csdClosed]
         (repeat' split) <;> first | exact call_inside ht rfl rfl | exact goAct_inside ht rfl)
  doAct a s t h ht hd := by
    have e : ∀ u : State, (Host.Outcome.next u : Answer) = .next t → u.inside outsideRead → t.inside outsideRead := by
      intro u hu hi; cases hu; exact hi
    have done : ∀ u : State, u.pos = .idle → u.todo = [] → u.inside outsideRead := by
      intro u h1 h2; exact ⟨by rw [h1]; rfl, by rw [h2]; rfl⟩
    cases a
    case ret r => exact e _ hd (done _ rfl ht)
    case retStatus => exact e _ hd (done _ rfl ht)
    case readMulti =>
      simp only [doAct, pollMulti] at hd
      split at hd
      · refine e _ hd ?_
        split <;> first | exact call_inside ht rfl rfl | exact goAct_inside ht rfl
      · cases hd
    case readDir =>
      simp only [doAct, pollDir] at hd
      split at hd
      · refine e _ hd ?_
        split <;> exact call_inside ht rfl rfl
      · cases hd
    case ioctlGate =>
      simp only [doAct, ioctlGate] at hd
      (repeat' split at hd) <;> first
        | (refine e _ hd ?_; first | exact call_inside ht rfl rfl | exact goAct_inside ht rfl)
        | cases hd
    case scale o =>
      cases o
      · exact absurd h (by decide)
      all_goals
        simp only [doAct, writeBegin, dmaReadBegin, dmaWriteBegin] at hd
        refine e _ hd ?_
        (try split) <;> first | exact call_inside ht rfl rfl | exact goAct_inside ht rfl
    case testSdc d =>
      cases d <;> simp only [doAct, writeTestSdc, dmaWriteTestSdc] at hd <;> (refine e _ hd ?_) <;> split <;> exact call_inside ht rfl rfl
    case readStatus =>
      refine e _ hd ?_
      simp only [pollRead]
      split <;> exact goAct_inside ht rfl
    case testMulti d =>
      refine e _ hd ?_
      cases d <;> simp only [dmaTestMulti] <;> split <;> exact call_inside ht rfl rfl
    case gateInit o =>
      refine e _ hd ?_
      cases o <;> first
        | exact absurd h (by decide)
        | (simp only [gateInit, gatePassed]; (repeat' split) <;> exact goAct_inside ht rfl)
    case gateProtect o =>
      refine e _ hd ?_
      cases o <;> first
        | exact absurd h (by decide)
        | (simp only [gateProtect, gatePassed]; (repeat' split) <;> exact goAct_inside ht rfl)
    case guardDma o =>
      refine e _ hd ?_
      cases o <;> first
        | exact absurd h (by decide)
        | (simp only [guardDma]; (repeat' split) <;> exact goAct_inside ht rfl)
    case guardContext o =>
      refine e _ hd ?_
      cases o <;> first
        | exact absurd h (by decide)
        | (simp only [guardContext]; (repeat' split) <;> exact goAct_inside ht rfl)
    case newContext o =>
      cases o <;> first
        | exact absurd h (by decide)
        | exact e _ hd (goAct_inside ht rfl)
    case newDir o =>
      cases o <;> first
        | exact absurd h (by decide)
        | exact e _ hd (goAct_inside ht rfl)
    case newMulti o =>
      cases o <;> first
        | exact absurd h (by decide)
        | exact e _ hd (goAct_inside ht rfl)
    case testMedium =>
      refine e _ hd ?_
      simp only [negoTestMedium]
      split
      · exact goAct_inside ht rfl
      · exact call_inside ht rfl (powerUp_keepsMemory _)
    case windowExpired v =>
      refine e _ hd ?_
      simp only [negoWindow]
      (repeat' split) <;> first | exact call_inside ht rfl rfl | exact goAct_inside ht rfl
    case setType => exact e _ hd (call_inside ht rfl rfl)
    case setReady => exact e _ hd (call_inside ht rfl rfl)
    all_goals exact e _ hd (goAct_inside ht rfl)

/-- No action stores in memory. -/
theorem doAct_mem {a : Act} {s t : State} (hd : doAct a s = .next t) : t.mem = s.mem := by
  by_cases h : a.isNego = true
  · have e : ∀ u : State, (Host.Outcome.next u : Answer) = .next t → u.mem = s.mem → t.mem = s.mem := by
      intro u hu hi; cases hu; exact hi
    cases a
    case testMedium => refine e _ hd ?_; simp only [negoTestMedium]; split <;> rfl
    case windowExpired v => refine e _ hd ?_; simp only [negoWindow]; (repeat' split) <;> rfl
    all_goals first | exact e _ hd rfl | cases h
  · exact congrArg Held.mem (doAct_held (by simpa using h) hd)

/-- Nor does any other primitive action but the store into the buffer. -/
theorem doLocal_mem {l : Local} (s : State) (h : (Micro.act l).keepsMemory = true) : (doLocal l s).mem = s.mem := by
  cases l <;> simp only [doLocal, readyTimer, tokenTimer, storeData, loadData, State.storeAt, State.writeByte, State.writeCs,
    State.writeSpeed, State.armTimer, State.returnFlag, State.push, State.log] <;> (repeat' split) <;> first | rfl | exact absurd h (by decide)

/-! ### The issue -/

/-- A host operation that answers a next state was issued at IDLE, and is a run under the schedule from its first action. -/
theorem exec_hostop_run {i : Instr} {s t : State} (hf : i.format = .hostop) (h : exec i s = .next t) :
    ∃ (u : State) (a : Act), runTurns s.sched u = .next t ∧ u.todo = [] ∧ u.pos = .act a ∧ u.held = s.held ∧
      ((∀ sel, i ≠ .initCard sel) → a.isNego = false) ∧ ((∀ sel buf sector count, i ≠ .read sel buf sector count) → a.isRead = false) := by
  have iss : ∀ op sel start, issue op sel start s = .next t →
      runTurns (start (s.clearResults.latchWord op sel)).sched (start (s.clearResults.latchWord op sel)) = .next t ∧ s.todo = [] := by
    intro op sel start h
    unfold issue at h
    split at h
    · next hi => exact ⟨h, by simp [State.isIdle] at hi; exact hi.2⟩
    · cases h
  have bus : ∀ op sel start, issueOnBus op sel start s = .next t → issue op sel start s = .next t := by
    intro op sel start h
    unfold issueOnBus at h
    split at h
    · exact h
    · cases h
  have act : ∀ op sel a, issue op sel (fun t => t.goAct a) s = .next t → ∃ (u : State), runTurns s.sched u = .next t ∧ u.todo = [] ∧
      u.pos = .act a ∧ u.held = s.held := by
    intro op sel a h
    obtain ⟨h1, h2⟩ := iss op sel _ h
    exact ⟨_, h1, h2, rfl, rfl⟩
  have block : ∀ op sel o b c n, issue op sel (blockStart o b c n) s = .next t → ∃ (u : State) (a : Act), runTurns s.sched u = .next t ∧
      u.todo = [] ∧ u.pos = .act a ∧ u.held = s.held ∧ a.isNego = false ∧ (o ≠ .read → a.isRead = false) := by
    intro op sel o b c n h
    obtain ⟨h1, h2⟩ := iss op sel _ h
    unfold blockStart gateCount at h1
    split at h1
    · exact ⟨_, _, h1, h2, rfl, rfl, rfl, fun _ => rfl⟩
    · exact ⟨_, _, h1, h2, rfl, rfl, rfl, fun ho => by cases o <;> first | exact absurd rfl ho | rfl⟩
  have io : ∀ sel, issueIoctl sel s = .next t → ∃ (u : State), runTurns s.sched u = .next t ∧ u.todo = [] ∧
      u.pos = .act .ioctlGate ∧ u.held = s.held := fun sel h => act _ _ _ (bus _ _ _ h)
  have res : ∀ op sel, issueReserved op sel s = .next t → ∃ (u : State), runTurns s.sched u = .next t ∧ u.todo = [] ∧
      u.pos = .act (.ret .invalidParameter) ∧ u.held = s.held := fun op sel h => act _ _ _ h
  cases i
  case initCard sel =>
    obtain ⟨u, h1, h2, h3, h4⟩ := act _ _ _ (bus _ _ _ h)
    exact ⟨u, _, h1, h2, h3, h4, fun hx => absurd rfl (hx sel), fun _ => rfl⟩
  case status sel => obtain ⟨u, h1, h2, h3, h4⟩ := act _ _ _ h; exact ⟨u, _, h1, h2, h3, h4, fun _ => rfl, fun _ => rfl⟩
  case pollStatus sel => obtain ⟨u, h1, h2, h3, h4⟩ := act _ _ _ h; exact ⟨u, _, h1, h2, h3, h4, fun _ => rfl, fun _ => rfl⟩
  case read sel b c n =>
    obtain ⟨u, a, h1, h2, h3, h4, h5, h6⟩ := block _ _ _ _ _ _ (bus _ _ _ h)
    exact ⟨u, a, h1, h2, h3, h4, fun _ => h5, fun hx => absurd rfl (hx sel b c n)⟩
  case write sel b c n =>
    obtain ⟨u, a, h1, h2, h3, h4, h5, h6⟩ := block _ _ _ _ _ _ (bus _ _ _ h)
    exact ⟨u, a, h1, h2, h3, h4, fun _ => h5, fun _ => h6 (by decide)⟩
  case startReadDma sel b c n =>
    obtain ⟨u, a, h1, h2, h3, h4, h5, h6⟩ := block _ _ _ _ _ _ h
    exact ⟨u, a, h1, h2, h3, h4, fun _ => h5, fun _ => h6 (by decide)⟩
  case startWriteDma sel b c n =>
    obtain ⟨u, a, h1, h2, h3, h4, h5, h6⟩ := block _ _ _ _ _ _ h
    exact ⟨u, a, h1, h2, h3, h4, fun _ => h5, fun _ => h6 (by decide)⟩
  case ioctlGetEraseBlockSize =>
    simp only [exec, execIoctlGetEraseBlockSize] at h
    split at h
    · cases h
    · obtain ⟨u, h1, h2, h3, h4⟩ := io _ h; exact ⟨u, _, h1, h2, h3, h4, fun _ => rfl, fun _ => rfl⟩
  case reservedOpBit3 | reservedOpBit4 | reservedOpBit5 | reservedOpBit6 | reservedOpBit7 =>
    obtain ⟨u, h1, h2, h3, h4⟩ := res _ _ h; exact ⟨u, _, h1, h2, h3, h4, fun _ => rfl, fun _ => rfl⟩
  case ioctlGetSectorCount | ioctlGetSectorSize | ioctlMalformed0 | ioctlMalformed4to7 | ioctlMalformedBit3 | ioctlMalformedBit4
    | ioctlMalformedBit5 | ioctlMalformedBit6 | ioctlMalformedBit7 =>
    obtain ⟨u, h1, h2, h3, h4⟩ := io _ h; exact ⟨u, _, h1, h2, h3, h4, fun _ => rfl, fun _ => rfl⟩
  all_goals cases hf

/-- The two events keep the registers of the negotiation and memory. -/
theorem exec_event_held {i : Instr} {s t : State} (hf : i.format = .event) (h : exec i s = .next t) : t.held = s.held := by
  cases i
  case tick => cases h; rfl
  case dmaDone ok => exact (dmaComplete_held h).1
  all_goals cases hf

end Sys2Proof.Machine
end

