-- ==== Sys2Proof/Laws/ReadRange.lean ====
section
/-! SUPPORT. Laws/ReadRange.lean: what READ keeps at each of its places, and where it stores (10_state.md R35; 20_memory.md R62;
44_polling_block_io.md R234). -/

namespace Sys2Proof.Machine

/-- The places at which a block is still to be received, or is being received. -/
def Pos.awaits : Pos → Bool
  | .act (.gateInit _) | .act (.gateProtect _) | .act (.scale _) | .test .readOne | .test .readMany | .test .readOneData
  | .test .readManyData => true
  | _ => false

/-- The places of READ. -/
def Pos.ofRead : Pos → Bool
  | .idle | .act (.ret _) | .act (.gateInit .read) | .act (.scale .read) | .test .readOne | .test .readMany | .test .readOneData
  | .test .readManyData | .test .readStop | .test .blockClosed => true
  | _ => false

/-- An entry READ may have, and for those of the data loop the index inside the block. -/
def Micro.ofRead (i : BitVec 10) : Micro → Bool
  | .exchange (.data .buffer) | .act .store => decide (i.toNat < 512)
  | .exchange (.data .csd) | .join (.tokenSeen .csd) | .exchange (.sendToken _) | .exchange .sendData
  | .exchange .response | .act .load | .join (.cardReady _) => false
  | _ => true

/-- What holds at every place of a READ of `n` blocks from `b` on. -/
structure ReadInv (b n : Word) (s : State) : Prop where
  dmast : s.dmast = .idle
  block : ∃ j, s.lat.buf.toNat = (b.toNat + 512 * j) % 2 ^ 32 ∧
    (s.pos.awaits = true → 1 ≤ s.lat.count.toNat ∧ j + s.lat.count.toNat = n.toNat)
  place : s.pos.ofRead = true
  todo : s.todo.all (Micro.ofRead s.wk.idx) = true
  data : s.pos.awaits = false → s.todo.all Micro.keepsMemory = true

/-- Memory in canonical form stays so, and nothing outside the range of the READ is stored. -/
def StoresWithin (b n : Word) (s t : State) : Prop :=
  Memory.wf s.mem = true → Memory.wf t.mem = true ∧
    ∀ a, (∀ k, k < 512 * n.toNat → a ≠ (b.toNat + k) % 2 ^ 32) → t.readByte a = s.readByte a

theorem StoresWithin.of_mem {b n : Word} {s t : State} (h : t.mem = s.mem) : StoresWithin b n s t := by
  intro hw; unfold State.readByte; rw [h]; exact ⟨hw, fun _ _ => rfl⟩

theorem StoresWithin.trans {b n : Word} {s t u : State} (h : StoresWithin b n s t) (g : StoresWithin b n t u) : StoresWithin b n s u := by
  intro hw
  obtain ⟨h1, h2⟩ := h hw
  obtain ⟨g1, g2⟩ := g h1
  exact ⟨g1, fun a ha => (g2 a ha).trans (h2 a ha)⟩

/-- Another PHASE at the same place of READ, other working registers, nothing else. -/
theorem ReadInv.push {b n : Word} {s t : State} (h : ReadInv b n s) (p : List Micro) (k : List Micro) (h1 : t.dmast = s.dmast)
    (h2 : t.lat = s.lat) (h3 : t.pos = s.pos) (h4 : t.todo = p ++ k) (hk : k.all (Micro.ofRead t.wk.idx) = true)
    (hp : p.all (Micro.ofRead t.wk.idx) = true) (hd : s.pos.awaits = false → p.all Micro.keepsMemory = true ∧ k.all Micro.keepsMemory = true) :
    ReadInv b n t where
  dmast := h1.trans h.dmast
  block := by rw [h2, h3]; exact h.block
  place := by rw [h3]; exact h.place
  todo := by rw [h4, List.all_append, hp, hk]; rfl
  data := by
    intro ha
    rw [h3] at ha
    rw [h4, List.all_append, (hd ha).1, (hd ha).2]; rfl

theorem ofRead_tail {i : BitVec 10} {m : Micro} {k : List Micro} (h : (m :: k).all (Micro.ofRead i) = true) :
    Micro.ofRead i m = true ∧ k.all (Micro.ofRead i) = true := by
  rwa [List.all_cons, Bool.and_eq_true] at h

theorem keepsMemory_tail {m : Micro} {k : List Micro} (h : (m :: k).all Micro.keepsMemory = true) :
    m.keepsMemory = true ∧ k.all Micro.keepsMemory = true := by
  rwa [List.all_cons, Bool.and_eq_true] at h

/-- The index of the data loop is a block offset, whatever else is left. -/
theorem ofRead_index {i j : BitVec 10} (hj : j.toNat < 512) {k : List Micro} (h : k.all (Micro.ofRead i) = true) :
    k.all (Micro.ofRead j) = true := by
  rw [List.all_eq_true] at h ⊢
  intro m hm
  have := h m hm
  unfold Micro.ofRead at this ⊢
  split at this <;> first | exact decide_eq_true hj | exact this

theorem received_read {b n : Word} {s : State} {x : Exchange} {k : List Micro} {rx : Byte} {it : WireItem} (h : ReadInv b n s)
    (hs : s.todo = .exchange x :: k) : ReadInv b n (received x rx ((s.withTodo k).log it)) := by
  have ht := h.todo
  rw [hs] at ht
  obtain ⟨hx, hk⟩ := ofRead_tail ht
  have hm : s.pos.awaits = false → (Micro.exchange x).keepsMemory = true ∧ k.all Micro.keepsMemory = true := by
    intro ha; have := h.data ha; rw [hs] at this; exact keepsMemory_tail this
  have base : ∀ (t : State) (p : List Micro), t.dmast = s.dmast → t.lat = s.lat → t.pos = s.pos → t.todo = p ++ k → t.wk.idx = s.wk.idx →
      p.all (Micro.ofRead s.wk.idx) = true → (s.pos.awaits = false → p.all Micro.keepsMemory = true) → ReadInv b n t := by
    intro t p h1 h2 h3 h4 h5 h6 h7
    exact h.push p k h1 h2 h3 h4 (by rw [h5]; exact hk) (by rw [h5]; exact h6) (fun ha => ⟨h7 ha, (hm ha).2⟩)
  cases x with
  | send tx => exact base _ [] rfl rfl rfl rfl rfl rfl (fun _ => rfl)
  | ready =>
    simp only [received, readyByte]
    split
    · exact base _ [] rfl rfl rfl rfl rfl rfl (fun _ => rfl)
    · exact base _ [.act .readyExpired] rfl rfl rfl rfl rfl rfl (fun _ => rfl)
  | token =>
    simp only [received, tokenByte]
    split
    · exact base _ [.act .tokenExpired] rfl rfl rfl rfl rfl rfl (fun _ => rfl)
    · exact base _ [] rfl rfl rfl rfl rfl rfl (fun _ => rfl)
  | poll =>
    simp only [received, pollByte]
    split
    · exact base _ [] rfl rfl rfl rfl rfl rfl (fun _ => rfl)
    · exact base _ [.exchange .poll] rfl rfl rfl rfl rfl rfl (fun _ => rfl)
  | trail i => exact base _ [] rfl rfl rfl rfl rfl rfl (fun _ => rfl)
  | data d =>
    cases d with
    | buffer => exact base _ [.act .store] rfl rfl rfl rfl rfl (by rw [List.all_cons, Bool.and_eq_true]; exact ⟨hx, rfl⟩)
                  (fun ha => absurd (hm ha).1 (by decide))
    | csd => cases hx
  | sendToken t => cases hx
  | sendData => cases hx
  | response => cases hx

theorem doJoin_read {b n : Word} {s : State} {j : Join} {k : List Micro} (h : ReadInv b n s) (hs : s.todo = .join j :: k) :
    ReadInv b n (doJoin j (s.withTodo k)) := by
  have ht := h.todo
  rw [hs] at ht
  obtain ⟨hx, hk⟩ := ofRead_tail ht
  have hm : s.pos.awaits = false → (Micro.join j).keepsMemory = true ∧ k.all Micro.keepsMemory = true := by
    intro ha; have := h.data ha; rw [hs] at this; exact keepsMemory_tail this
  have base : ∀ (t : State) (p : List Micro), t.dmast = s.dmast → t.lat = s.lat → t.pos = s.pos → t.todo = p ++ k → t.wk.idx = s.wk.idx →
      p.all (Micro.ofRead s.wk.idx) = true → (s.pos.awaits = false → p.all Micro.keepsMemory = true) → ReadInv b n t := by
    intro t p h1 h2 h3 h4 h5 h6 h7
    exact h.push p k h1 h2 h3 h4 (by rw [h5]; exact hk) (by rw [h5]; exact h6) (fun ha => ⟨h7 ha, (hm ha).2⟩)
  have fr : ∀ c a i, (frame c a).all (Micro.ofRead i) = true := by
    intro c a i; unfold frame; split <;> rfl
  cases j with
  | selected c a =>
    simp only [doJoin, afterSelect]
    split
    · exact base _ (frame c a) rfl rfl rfl rfl rfl (fr _ _ _) (fun _ => frame_keepsMemory _ _)
    · exact base _ (deselect ++ [.join .noResponse]) rfl rfl rfl rfl rfl rfl (fun _ => rfl)
  | noResponse => exact base _ [] rfl rfl rfl rfl rfl rfl (fun _ => rfl)
  | prefixed c a =>
    simp only [doJoin, afterPrefix]
    split
    · exact base _ [.command c a] rfl rfl rfl rfl rfl rfl (fun _ => rfl)
    · exact base _ [] rfl rfl rfl rfl rfl rfl (fun _ => rfl)
  | startPoll => exact base _ [.exchange .poll] rfl rfl rfl rfl rfl rfl (fun _ => rfl)
  | tokenSeen d =>
    cases d with
    | csd => cases hx
    | buffer =>
      simp only [doJoin, afterToken]
      split
      · refine h.push [.exchange (.data .buffer)] k rfl rfl rfl rfl (ofRead_index (show (0 : BitVec 10).toNat < 512 by decide) hk) rfl ?_
        intro ha; exact absurd (hm ha).1 (by decide)
      · exact base _ [] rfl rfl rfl rfl rfl rfl (fun _ => rfl)
  | cardReady t => cases hx
  | returnTrue => exact base _ [] rfl rfl rfl rfl rfl rfl (fun _ => rfl)

theorem sendCommand_read {b n : Word} {s : State} {c : Byte} {a : Word} {k : List Micro} (h : ReadInv b n s)
    (hs : s.todo = .command c a :: k) : ReadInv b n (sendCommand c a (s.withTodo k)) := by
  have ht := h.todo
  rw [hs] at ht
  obtain ⟨hx, hk⟩ := ofRead_tail ht
  have fr : ∀ c a i, (frame c a).all (Micro.ofRead i) = true := by
    intro c a i; unfold frame; split <;> rfl
  have pl : ∀ c a i, (plainCommand c a).all (Micro.ofRead i) = true := by
    intro c a i; unfold plainCommand; split
    · exact fr _ _ _
    · rfl
  have hm : s.pos.awaits = false → k.all Micro.keepsMemory = true := by
    intro ha; have := h.data ha; rw [hs] at this; exact (keepsMemory_tail this).2
  unfold sendCommand
  split
  · refine h.push (plainCommand cmdApp 0 ++ [.join (.prefixed (c &&& 0x7F) a)]) k rfl rfl rfl rfl hk ?_ (fun ha => ⟨?_, hm ha⟩)
    · rw [List.all_append, pl]; rfl
    · rw [List.all_append, plainCommand_keepsMemory]; rfl
  · exact h.push (plainCommand c a) k rfl rfl rfl rfl hk (pl _ _ _) (fun ha => ⟨plainCommand_keepsMemory _ _, hm ha⟩)

/-- The one primitive action that stores. -/
theorem doLocal_read {b n : Word} {s : State} {l : Local} {k : List Micro} (h : ReadInv b n s) (hs : s.todo = .act l :: k) :
    ReadInv b n (doLocal l (s.withTodo k)) ∧ StoresWithin b n s (doLocal l (s.withTodo k)) := by
  have ht := h.todo
  rw [hs] at ht
  obtain ⟨hx, hk⟩ := ofRead_tail ht
  have hm : s.pos.awaits = false → (Micro.act l).keepsMemory = true ∧ k.all Micro.keepsMemory = true := by
    intro ha; have := h.data ha; rw [hs] at this; exact keepsMemory_tail this
  have base : ∀ (t : State) (p : List Micro), t.dmast = s.dmast → t.lat = s.lat → t.pos = s.pos → t.todo = p ++ k → t.wk.idx = s.wk.idx →
      p.all (Micro.ofRead s.wk.idx) = true → (s.pos.awaits = false → p.all Micro.keepsMemory = true) → ReadInv b n t := by
    intro t p h1 h2 h3 h4 h5 h6 h7
    exact h.push p k h1 h2 h3 h4 (by rw [h5]; exact hk) (by rw [h5]; exact h6) (fun ha => ⟨h7 ha, (hm ha).2⟩)
  cases l with
  | setCs v => exact ⟨base _ [] rfl rfl rfl rfl rfl rfl (fun _ => rfl), .of_mem rfl⟩
  | setSpeed v => exact ⟨base _ [] rfl rfl rfl rfl rfl rfl (fun _ => rfl), .of_mem rfl⟩
  | arm t ms => exact ⟨base _ [] rfl rfl rfl rfl rfl rfl (fun _ => rfl), .of_mem rfl⟩
  | readyExpired =>
    simp only [doLocal, readyTimer]
    split
    · exact ⟨base _ [] rfl rfl rfl rfl rfl rfl (fun _ => rfl), .of_mem rfl⟩
    · exact ⟨base _ [.exchange .ready] rfl rfl rfl rfl rfl rfl (fun _ => rfl), .of_mem rfl⟩
  | tokenExpired =>
    simp only [doLocal, tokenTimer]
    split
    · exact ⟨base _ [] rfl rfl rfl rfl rfl rfl (fun _ => rfl), .of_mem rfl⟩
    · exact ⟨base _ [.exchange .token] rfl rfl rfl rfl rfl rfl (fun _ => rfl), .of_mem rfl⟩
  | load => cases hx
  | store =>
    have hi : s.wk.idx.toNat < 512 := of_decide_eq_true hx
    have haw : s.pos.awaits = true := by
      cases hc : s.pos.awaits
      · exact absurd (hm hc).1 (by decide)
      · rfl
    have hmem : ∀ t : State, t.mem = memWrite s.mem (bufferAddr s.lat.buf s.wk.idx.toNat) s.wk.dat → StoresWithin b n s t := by
      intro t e hw
      unfold State.readByte
      rw [e]
      refine ⟨memWrite_wf hw _ _ _, fun a ha => ?_⟩
      rw [memRead_memWrite hw, if_neg]
      obtain ⟨j, hj, hc⟩ := h.block
      obtain ⟨c1, c2⟩ := hc haw
      rw [bufferAddr_eq, hj]
      have := ha (512 * j + s.wk.idx.toNat) (by omega)
      intro e; apply this; rw [e]; omega
    simp only [doLocal, storeData, State.storeAt]
    split
    · exact ⟨base _ [.exchange (.send Config.filler), .exchange (.send Config.filler), .join .returnTrue] rfl rfl rfl rfl rfl rfl (fun _ => rfl),
        hmem _ rfl⟩
    · next hne =>
      have hlt : s.wk.idx.toNat + 1 < 512 := by
        have : s.wk.idx.toNat + 1 ≠ 512 := hne
        omega
      have hi1 : (s.wk.idx + 1).toNat < 512 := by
        have : (1 : BitVec 10).toNat = 1 := rfl
        rw [BitVec.toNat_add, this]; omega
      refine ⟨h.push [.exchange (.data .buffer)] k rfl rfl rfl rfl (ofRead_index hi1 hk) ?_ ?_, hmem _ rfl⟩
      · rw [List.all_cons, Bool.and_eq_true]; exact ⟨decide_eq_true hi1, rfl⟩
      · intro ha; exact absurd (hm ha).1 (by decide)

theorem call_read {b n : Word} {s : State} {ms : List Micro} {u : Test} {j : Nat} (hd : s.dmast = .idle) (ht : s.todo = [])
    (hj : s.lat.buf.toNat = (b.toNat + 512 * j) % 2 ^ 32)
    (hc : (Pos.test u).awaits = true → 1 ≤ s.lat.count.toNat ∧ j + s.lat.count.toNat = n.toNat) (hu : (Pos.test u).ofRead = true)
    (hm : ms.all (Micro.ofRead s.wk.idx) = true) (hk : (Pos.test u).awaits = false → ms.all Micro.keepsMemory = true) :
    ReadInv b n (s.call ms u) where
  dmast := hd
  block := ⟨j, hj, hc⟩
  place := hu
  todo := by show (ms ++ s.todo).all _ = true; rw [ht, List.append_nil]; exact hm
  data := fun ha => by show (ms ++ s.todo).all _ = true; rw [ht, List.append_nil]; exact hk ha

theorem goAct_read {b n : Word} {s : State} {a : Act} {j : Nat} (hd : s.dmast = .idle) (ht : s.todo = [])
    (hj : s.lat.buf.toNat = (b.toNat + 512 * j) % 2 ^ 32)
    (hc : (Pos.act a).awaits = true → 1 ≤ s.lat.count.toNat ∧ j + s.lat.count.toNat = n.toNat) (ha : (Pos.act a).ofRead = true) :
    ReadInv b n (s.goAct a) where
  dmast := hd
  block := ⟨j, hj, hc⟩
  place := ha
  todo := by show s.todo.all _ = true; rw [ht]; rfl
  data := fun _ => by show s.todo.all _ = true; rw [ht]; rfl

theorem doTest_read {b n : Word} {s : State} {u : Test} (h : ReadInv b n s) (hp : s.pos = .test u) (ht : s.todo = []) :
    ReadInv b n (doTest u s) := by
  obtain ⟨j, hj, hc⟩ := h.block
  have hd := h.dmast
  have hpl := h.place
  rw [hp] at hpl hc
  have close : ∀ t : State, t.dmast = .idle → t.todo = [] → (∃ i, t.lat.buf.toNat = (b.toNat + 512 * i) % 2 ^ 32) → ReadInv b n (blockClose t) := by
    rintro t h1 h2 ⟨i, h3⟩
    exact call_read (j := i) h1 h2 h3 (fun h => by cases h) rfl rfl (fun _ => rfl)
  have stop : ∀ t : State, t.dmast = .idle → t.todo = [] → (∃ i, t.lat.buf.toNat = (b.toNat + 512 * i) % 2 ^ 32) → ReadInv b n (readStopNow t) := by
    rintro t h1 h2 ⟨i, h3⟩
    exact call_read (j := i) h1 h2 h3 (fun h => by cases h) rfl rfl (fun _ => rfl)
  cases u <;> first | exact absurd hpl (by decide) | skip
  case readOne =>
    simp only [doTest, readOne]
    split
    · exact call_read hd ht hj (fun _ => hc rfl) rfl rfl (fun h => by cases h)
    · exact close s hd ht ⟨j, hj⟩
  case readOneData =>
    simp only [doTest, readOneData]
    split
    · exact close _ hd ht ⟨j, hj⟩
    · exact close s hd ht ⟨j, hj⟩
  case readMany =>
    simp only [doTest, readMany]
    split
    · exact call_read hd ht hj (fun _ => hc rfl) rfl rfl (fun h => by cases h)
    · exact close s hd ht ⟨j, hj⟩
  case readManyData =>
    obtain ⟨c1, c2⟩ := hc rfl
    have o : (512 : Word).toNat = 512 := rfl
    have o1 : (1 : Word).toNat = 1 := rfl
    have hj' : s.blockDone.lat.buf.toNat = (b.toNat + 512 * (j + 1)) % 2 ^ 32 := by
      show (s.lat.buf + 512).toNat = _
      rw [BitVec.toNat_add, hj, o]; omega
    have hc' : s.blockDone.lat.count.toNat = s.lat.count.toNat - 1 := by
      show (s.lat.count - 1).toNat = _
      rw [BitVec.toNat_sub, o1]; omega
    simp only [doTest, readManyData]
    split
    · split
      · exact stop _ hd ht ⟨j + 1, hj'⟩
      · next hne =>
        have : s.blockDone.lat.count.toNat ≠ 0 := fun e => hne (BitVec.eq_of_toNat_eq e)
        exact call_read (j := j + 1) hd ht hj' (fun _ => ⟨by omega, by omega⟩) rfl rfl (fun h => by cases h)
    · exact stop s hd ht ⟨j, hj⟩
  case readStop => exact close s hd ht ⟨j, hj⟩
  case blockClosed => exact goAct_read hd ht hj (fun h => by cases h) rfl

theorem doAct_read {b n : Word} {s t : State} {a : Act} (h : ReadInv b n s) (hp : s.pos = .act a) (ht : s.todo = [])
    (hx : doAct a s = .next t) : ReadInv b n t := by
  obtain ⟨j, hj, hc⟩ := h.block
  have hd := h.dmast
  have hpl := h.place
  rw [hp] at hpl hc
  have e : ∀ u : State, (Host.Outcome.next u : Answer) = .next t → ReadInv b n u → ReadInv b n t := by
    intro u hu hi; cases hu; exact hi
  cases a
  case ret r =>
    exact e _ hx ⟨hd, ⟨j, hj, fun h => by cases h⟩, rfl, by show s.todo.all _ = true; rw [ht]; rfl, fun _ => by show s.todo.all _ = true; rw [ht]; rfl⟩
  case gateInit o =>
    cases o <;> first | exact absurd hpl (by decide) | skip
    refine e _ hx ?_
    unfold gateInit
    split
    · exact goAct_read hd ht hj (fun h => by cases h) rfl
    · exact goAct_read (a := .scale .read) hd ht hj (fun _ => hc rfl) rfl
  case scale o =>
    cases o <;> first | exact absurd hpl (by decide) | skip
    refine e _ hx ?_
    unfold readBegin
    split
    · exact call_read hd ht hj (fun _ => hc rfl) rfl rfl (fun h => by cases h)
    · exact call_read hd ht hj (fun _ => hc rfl) rfl rfl (fun h => by cases h)
  all_goals exact absurd hpl (by simp [Pos.ofRead])

theorem settleWithin_read {b n : Word} (f : Nat) : ∀ s : State, ReadInv b n s → ReadInv b n (settleWithin f s) := by
  induction f with
  | zero => exact fun s h => h
  | succ f ih =>
    intro s h
    unfold settleWithin
    split
    · next hs => exact ih _ (doJoin_read h hs)
    · exact h
    · exact h
    · exact h
    · next hs =>
      split
      · next hp => exact ih _ (doTest_read h hp hs)
      · exact h
      · exact h

theorem doExchange_read {b n : Word} {s : State} {x : Exchange} {k : List Micro} (h : ReadInv b n s) (hs : s.todo = .exchange x :: k) :
    ReadInv b n (doExchange x k s) := by
  unfold doExchange
  split
  · next rx t hn =>
    obtain ⟨e, rfl⟩ := nextCard_withEnv hn
    have h' : ReadInv b n (s.withEnv e) := ⟨h.dmast, h.block, h.place, h.todo, h.data⟩
    exact settleWithin_read 8 _ (received_read h' hs)
  · exact h

/-- One step of ENGINE inside READ. -/
theorem engineStep_read {b n : Word} {s t : State} (h : ReadInv b n s) (ht : engineStep s = .next t) :
    ReadInv b n t ∧ StoresWithin b n s t := by
  have settled : ∀ u : State, ReadInv b n u → StoresWithin b n s u → ReadInv b n (settle u) ∧ StoresWithin b n s (settle u) :=
    fun u h1 h2 => ⟨settleWithin_read 8 u h1, h2.trans (.of_mem (settle_same u).mem)⟩
  unfold engineStep at ht
  split at ht
  · next hs =>
    cases ht; exact ⟨doExchange_read h hs, .of_mem (congrArg Held.mem (doExchange_held _ _ _))⟩
  · next l k hs =>
    cases ht; obtain ⟨h1, h2⟩ := doLocal_read h hs; exact settled _ h1 h2
  · next c a k hs =>
    cases ht
    have h1 := sendCommand_read h hs
    have h0 : StoresWithin b n s (sendCommand c a (s.withTodo k)) := .of_mem (by simp)
    unfold doCommand
    simp only
    split
    · next hs2 => exact ⟨doExchange_read h1 hs2, h0.trans (.of_mem (congrArg Held.mem (doExchange_held _ _ _)))⟩
    · next l k' hs2 =>
      obtain ⟨g1, g2⟩ := doLocal_read h1 hs2
      exact settled _ g1 (h0.trans g2)
    · exact ⟨h1, h0⟩
    · exact ⟨h1, h0⟩
    · exact ⟨h1, h0⟩
  · cases ht; exact settled s h (.of_mem rfl)
  · next hs =>
    split at ht
    · cases ht; exact ⟨h, .of_mem rfl⟩
    · next a hp =>
      cases hd : doAct a s with
      | next u => rw [hd] at ht; cases ht; exact settled u (doAct_read h hp hs hd) (.of_mem (doAct_mem hd))
      | fault f => rw [hd] at ht; cases ht
      | refused f => rw [hd] at ht; cases ht
    · cases ht; exact settled s h (.of_mem rfl)

/-- READ under any schedule. -/
theorem runTurns_read {b n : Word} : ∀ (l : List Turn) (s t : State), ReadInv b n s → runTurns l s = .next t → StoresWithin b n s t := by
  intro l
  induction l with
  | nil => intro s t _ h; cases h; exact .of_mem rfl
  | cons x l ih =>
    intro s t hi h
    unfold runTurns at h
    split at h
    · cases h; exact .of_mem rfl
    · cases x
      case engine =>
        simp only at h
        cases he : engineStep s with
        | next u =>
          rw [he] at h
          obtain ⟨h1, h2⟩ := engineStep_read hi he
          exact h2.trans (ih u t h1 h)
        | fault f => rw [he] at h; cases h
        | refused f => rw [he] at h; cases h
      case tick => exact StoresWithin.trans (t := s.tickDown) (.of_mem rfl) (ih s.tickDown t ⟨hi.dmast, hi.block, hi.place, hi.todo, hi.data⟩ h)
      case dmaDone ok =>
        simp only [dmaComplete, hi.dmast] at h
        rw [if_neg (by decide)] at h; cases h
      case dma d =>
        simp only at h
        cases he : dmaStep d s with
        | next u => have := (dmaStep_same he).1; rw [hi.dmast] at this; cases this
        | fault f => rw [he] at h; cases h
        | refused f => rw [he] at h; cases h
      case host a => cases h; exact .of_mem rfl
      case port f b => cases h; exact .of_mem rfl

end Sys2Proof.Machine
end

