-- ==== Sys2Proof/Laws/Termination.lean ====
section
/-! SUPPORT. Laws/Termination.lean: how much of an operation is left, as numbers, and what a step of ENGINE does to them
(70_reset_and_hazards.md R359, R360, R366): it comes down, or ENGINE waits for a counter that only TICK moves. -/

namespace Sys2Proof.Machine

/-! ### The place in the operation -/

/-- More than any COUNT: the blocks of a transfer are counted below it. -/
def manyBlocks : Nat := 2 ^ 32

/-- How far an action is from the end of its operation. -/
def Act.rank : Act → Nat
  | .ret _ => 1
  | .retStatus => 1
  | .senseMedium => 15
  | .senseProtect => 14
  | .testMedium => 13
  | .absentInit => 3
  | .absentType => 2
  | .windowExpired _ => 8
  | .setType => 5
  | .setReady => 3
  | .setFailed => 3
  | .gateInit _ => manyBlocks + 30
  | .gateProtect _ => manyBlocks + 29
  | .guardDma _ => manyBlocks + 28
  | .guardContext _ => manyBlocks + 27
  | .newContext _ => manyBlocks + 26
  | .newDir _ => manyBlocks + 25
  | .newMulti _ => manyBlocks + 24
  | .scale _ => manyBlocks + 23
  | .testSdc _ => manyBlocks + 22
  | .dmaGo _ => 2
  | .testMulti _ => 14
  | .dropContext => 11
  | .readStatus => 20
  | .readMulti => 19
  | .readDir => 18
  | .clearContext => 15
  | .statusIdle => 14
  | .ioctlGate => 20

/-- How far a test is from the end, with the blocks that COUNT still asks for. -/
def Test.rank (count : Word) : Test → Nat
  | .poweredUp => 12
  | .cmd0 => 11
  | .cmd8 => 10
  | .trailer => 9
  | .v2Loop => 8
  | .ocrCmd => 7
  | .ocr => 6
  | .probe => 9
  | .legacyLoop => 8
  | .blockLen => 6
  | .closed => 4
  | .fast => 2
  | .readOne => manyBlocks + 20
  | .readOneData => 12
  | .readMany => manyBlocks + 20
  | .readManyData => 12 + (count - 1).toNat
  | .readStop => 11
  | .writeOne => manyBlocks + 20
  | .writeOneData => 12
  | .writeHint => manyBlocks + 21
  | .writeMany => manyBlocks + 20
  | .writeManyData => 12 + (count - 1).toNat
  | .writeStop => 11
  | .blockClosed => 10
  | .dmaReadCmd => manyBlocks + 20
  | .dmaReadToken => 15
  | .dmaWriteHint => manyBlocks + 21
  | .dmaWriteCmd => manyBlocks + 20
  | .dmaWriteReady => 16
  | .dmaWriteToken => 15
  | .dmaStopped => 13
  | .dmaClosed => 12
  | .pollStopToken => 17
  | .pollStopCmd => 17
  | .pollClosed => 16
  | .csdCmd => 18
  | .csdData => 17
  | .csdClosed => 16

/-- How far PHASE's place is from the end of the operation. -/
def Pos.rank (count : Word) : Pos → Nat
  | .idle => 0
  | .act a => a.rank
  | .test u => u.rank count

/-- The same of a state. -/
def State.opRank (s : State) : Nat := s.pos.rank s.lat.count

/-- A block fewer. -/
theorem count_less {c : Word} (h : c - 1 ≠ 0) : (c - 1 - 1).toNat < (c - 1).toNat := by
  have : (c - 1).toNat ≠ 0 := fun e => h (BitVec.eq_of_toNat_eq e)
  bv_omega

/-- A test leads nearer to the end, or to the question whether the window is still open. -/
theorem doTest_rank (u : Test) (s : State) : (doTest u s).opRank < u.rank s.lat.count ∨
    (∃ v, (doTest u s).pos = .act (.windowExpired v) ∧ u.rank s.lat.count = 8 ∧ (doTest u s).todo = s.todo) := by
  have hc := s.lat.count.isLt
  have hm : (s.lat.count - 1).toNat < 4294967296 := (s.lat.count - 1).isLt
  cases u
  case v2Loop =>
    show (negoV2Loop s).opRank < _ ∨ _
    show _ ∨ ∃ v, (negoV2Loop s).pos = _ ∧ _ ∧ (negoV2Loop s).todo = _
    unfold negoV2Loop
    split
    · exact .inl (show 7 < 8 by decide)
    · exact .inr ⟨true, rfl, rfl, rfl⟩
  case legacyLoop =>
    show (negoLegacyLoop s).opRank < _ ∨ ∃ v, (negoLegacyLoop s).pos = _ ∧ _ ∧ (negoLegacyLoop s).todo = _
    unfold negoLegacyLoop
    split
    · exact .inl (show 6 < 8 by decide)
    · exact .inr ⟨false, rfl, rfl, rfl⟩
  case readManyData =>
    left
    show (readManyData s).opRank < 12 + (s.lat.count - 1).toNat
    unfold readManyData
    split
    · show State.opRank (if s.blockDone.lat.count = 0 then _ else _) < _
      split
      · show 11 < _; omega
      · next h => exact Nat.add_lt_add_left (count_less h) 12
    · show 11 < _; omega
  case writeManyData =>
    left
    show (writeManyData s).opRank < 12 + (s.lat.count - 1).toNat
    unfold writeManyData
    split
    · show State.opRank (if s.blockDone.lat.count = 0 then _ else _) < _
      split
      · show 11 < _; omega
      · next h => exact Nat.add_lt_add_left (count_less h) 12
    · show 11 < _; omega
  all_goals
    left
    simp only [doTest, negoPoweredUp, negoCmd0, negoCmd8, negoTrailer, negoOcrCmd, negoOcr, negoProbe,
      negoBlockLen, negoClosed, negoFast, negoFail, negoFinish, readOne, readOneData, readMany,
      readStop, blockClose, blockClosed, writeOne, writeOneData, writeHint, writeManyNow, writeMany,
      writeStop, dmaReadCmd, dmaReadToken, dmaFail, dmaWriteHint, dmaWriteManyNow, dmaWriteCmd, dmaWriteReady, dmaWriteToken,
      dmaStopped, dmaClosed, pollStopToken, pollStopCmd, pollClose, pollClosed, csdCmd, csdData, csdClose, csdClosed]
    repeat' split
  all_goals
    simp only [State.opRank, State.call, State.goAct, State.endWith, State.withPos_pos, Pos.rank, Act.rank, Test.rank, manyBlocks,
      State.withPos_lat, State.push, State.withTodo_lat, State.setCount, State.setTy, State.writeVal, State.setOkf]
    omega

/-- An action leads nearer to the end, or it is a window that is still open. -/
theorem doAct_rank {a : Act} {s t : State} (h : doAct a s = .next t) : t.opRank < a.rank ∨
    (∃ v cmd arg, a = .windowExpired v ∧ s.expired .neg = false ∧ t.opRank = 8 ∧ t.todo = .command cmd arg :: s.todo ∧ t.tmr = s.tmr) := by
  cases a
  case windowExpired v =>
    obtain rfl := Host.Outcome.next.inj h
    unfold negoWindow
    split
    · exact .inl (show 5 < 8 by decide)
    · next hx =>
      right
      split
      · exact ⟨v, _, _, rfl, by simpa using hx, rfl, rfl, rfl⟩
      · exact ⟨v, _, _, rfl, by simpa using hx, rfl, rfl, rfl⟩
  case scale o =>
    left
    cases o <;> obtain rfl := Host.Outcome.next.inj h <;> simp only [readBegin, writeBegin, dmaReadBegin, dmaWriteBegin] <;> (repeat' split) <;>
      simp only [State.opRank, State.call, State.goAct, State.withPos_pos, Pos.rank, Act.rank, Test.rank] <;> omega
  case testSdc d =>
    left
    cases d <;> obtain rfl := Host.Outcome.next.inj h <;>
      simp only [writeTestSdc, dmaWriteTestSdc, writeManyNow, dmaWriteManyNow] <;> (repeat' split) <;>
      simp only [State.opRank, State.call, State.withPos_pos, Pos.rank, Act.rank, Test.rank] <;> omega
  case readMulti =>
    left
    simp only [doAct, pollMulti] at h
    split at h
    · obtain rfl := Host.Outcome.next.inj h
      split
      · exact (show 18 < 19 by decide)
      · exact (show 16 < 19 by decide)
    · cases h
  case readDir =>
    left
    simp only [doAct, pollDir] at h
    split at h
    · obtain rfl := Host.Outcome.next.inj h
      split <;> exact (show 17 < 18 by decide)
    · cases h
  case readStatus =>
    left
    obtain rfl := Host.Outcome.next.inj h
    unfold pollRead
    simp only
    split
    · exact (show 1 < 20 by decide)
    · exact (show 1 < 20 by decide)
    · exact (show 19 < 20 by decide)
    · exact (show 19 < 20 by decide)
  case ioctlGate =>
    left
    simp only [doAct, ioctlGate] at h
    split at h
    · obtain rfl := Host.Outcome.next.inj h; exact (show 1 < 20 by decide)
    · split at h
      · obtain rfl := Host.Outcome.next.inj h; exact (show 1 < 20 by decide)
      · split at h
        · obtain rfl := Host.Outcome.next.inj h; exact (show 18 < 20 by decide)
        · split at h
          · cases h
          · obtain rfl := Host.Outcome.next.inj h; exact (show 1 < 20 by decide)
  all_goals
    left
    obtain rfl := Host.Outcome.next.inj h
    simp only [negoSenseMedium, negoSenseProtect, negoTestMedium, negoAbsentInit, negoAbsentType, negoSetType, negoSetReady,
      negoSetFailed, gateInit, gateProtect, gatePassed, guardDma, guardContext, newContext, newDir, newMulti, dmaGo, dmaTestMulti, dmaFail,
      dropContext, clearContext, statusIdle, State.returnWith, State.returnStatus]
    repeat' split
  all_goals
    simp only [State.opRank, State.call, State.goAct, State.endWith, State.withPos_pos, Pos.rank, Act.rank, Test.rank]
    omega

/-! ### What is left of a micro-operation -/

/-- The bytes of a packet behind this one. -/
def bytesLeft (d : Dest) (i : BitVec 10) : Nat := (BitVec.ofNat 10 (d.len - 1) - i).toNat

/-- More steps than a command has. -/
def callWeight (cmd : Byte) : Nat := if isApp cmd then 64 else 31

/-- More steps than an entry has, wherever it stands. -/
def Micro.weight : Micro → Nat
  | .exchange x =>
    match x with
    | .send _ => 1
    | .ready => 1
    | .token => 1
    | .poll => 16
    | .trail _ => 1
    | .data _ => 2051
    | .sendToken _ => 1
    | .sendData => 2051
    | .response => 1
  | .act l =>
    match l with
    | .setCs _ => 1
    | .setSpeed _ => 1
    | .arm _ _ => 1
    | .readyExpired => 1
    | .tokenExpired => 1
    | .store => 2051
    | .load => 2051
  | .join j =>
    match j with
    | .selected _ _ => 25
    | .noResponse => 1
    | .prefixed cmd _ => callWeight cmd + 1
    | .startPoll => 17
    | .tokenSeen _ => 2052
    | .cardReady _ => 2053
    | .returnTrue => 1
  | .command cmd _ => callWeight cmd

/-- The steps of the entry that is being executed: a loop knows how far it is. -/
def Micro.weightNow (w : Work) (m : Micro) : Nat :=
  match m with
  | .exchange .poll => (w.ntry - 1).toNat + 1
  | .exchange (.data d) => 2 * bytesLeft d w.idx + 5
  | .exchange .sendData => 2 * bytesLeft .buffer w.idx + 4
  | .act .store => 2 * bytesLeft .buffer w.idx + 4
  | .act .load => 2 * bytesLeft .buffer w.idx + 5
  | m => m.weight

/-- The weight of entries that wait. -/
def weights (ms : List Micro) : Nat := (ms.map Micro.weight).sum

/-- The steps left of a micro-operation. -/
def microRank (w : Work) : List Micro → Nat
  | [] => 0
  | m :: k => m.weightNow w + weights k

/-- Whether the entry arms T_NEG. -/
def Micro.armsWindow : Micro → Nat
  | .act (.arm .neg _) => 1
  | _ => 0

/-- How often T_NEG is still armed. -/
def windowArms (ms : List Micro) : Nat := (ms.map Micro.armsWindow).sum

theorem weights_cons (m : Micro) (k : List Micro) : weights (m :: k) = m.weight + weights k := rfl

theorem weights_append (a b : List Micro) : weights (a ++ b) = weights a + weights b := by
  unfold weights; rw [List.map_append, List.sum_append]

theorem windowArms_append (a b : List Micro) : windowArms (a ++ b) = windowArms a + windowArms b := by
  unfold windowArms; rw [List.map_append, List.sum_append]

theorem weightNow_le (w : Work) (m : Micro) : m.weightNow w ≤ m.weight := by
  have hb : ∀ d i, bytesLeft d i < 1024 := fun d i => (BitVec.ofNat 10 (d.len - 1) - i).isLt
  have hn : (w.ntry - 1).toNat < 16 := (w.ntry - 1).isLt
  have loop : ∀ d j, j ≤ 5 → 2 * bytesLeft d w.idx + j ≤ 2051 := fun d j hj => by have := hb d w.idx; omega
  rcases m with x | l | j | ⟨c, a⟩
  · cases x
    case poll => exact hn
    case data d => exact loop d 5 (by decide)
    case sendData => exact loop .buffer 4 (by decide)
    all_goals exact Nat.le_refl 1
  · cases l
    case store => exact loop .buffer 4 (by decide)
    case load => exact loop .buffer 5 (by decide)
    all_goals exact Nat.le_refl 1
  · exact Nat.le_refl _
  · exact Nat.le_refl _

theorem weightNow_pos (w : Work) (m : Micro) : 0 < m.weightNow w := by
  have hc : ∀ c, 0 < callWeight c := by intro c; unfold callWeight; split <;> decide
  rcases m with x | l | j | ⟨c, a⟩
  · cases x <;> first | exact Nat.one_pos | exact Nat.succ_pos _
  · cases l <;> first | exact Nat.one_pos | exact Nat.succ_pos _
  · cases j <;> exact Nat.succ_pos _
  · exact hc c

theorem microRank_le (w : Work) (ms : List Micro) : microRank w ms ≤ weights ms := by
  cases ms with
  | nil => exact Nat.le_refl 0
  | cons m k => exact Nat.add_le_add_right (weightNow_le w m) _

/-- One byte fewer. -/
theorem bytesLeft_next {d : Dest} {i : BitVec 10} (h : i.toNat + 1 ≠ d.len) : bytesLeft d (i + 1) + 1 = bytesLeft d i := by
  unfold bytesLeft
  cases d
  · have h' : i.toNat + 1 ≠ 512 := h
    show (BitVec.ofNat 10 511 - (i + 1)).toNat + 1 = (BitVec.ofNat 10 511 - i).toNat
    bv_omega
  · have h' : i.toNat + 1 ≠ 16 := h
    show (BitVec.ofNat 10 15 - (i + 1)).toNat + 1 = (BitVec.ofNat 10 15 - i).toNat
    bv_omega

/-- Behind the byte of an entry: less is left, and T_NEG is armed no oftener. -/
structure Lighter (n : Nat) (k : List Micro) (t : State) : Prop where
  rank : microRank t.wk t.todo < n + weights k
  arms : windowArms t.todo ≤ windowArms k

theorem Lighter.gone {n : Nat} {k : List Micro} {t : State} (hn : 0 < n) (h : t.todo = k) : Lighter n k t :=
  ⟨by rw [h]; have := microRank_le t.wk k; omega, Nat.le_of_eq (congrArg windowArms h)⟩

theorem Lighter.pushed {n : Nat} {k : List Micro} {t : State} (ms : List Micro) (h : t.todo = ms ++ k) (hn : weights ms < n)
    (ha : windowArms ms = 0) : Lighter n k t :=
  ⟨by rw [h]; have := microRank_le t.wk (ms ++ k); rw [weights_append] at this; omega, by rw [h, windowArms_append, ha]; omega⟩

theorem Lighter.head {n : Nat} {k : List Micro} {t : State} (m : Micro) (h : t.todo = m :: k) (hn : m.weightNow t.wk < n)
    (ha : m.armsWindow = 0) : Lighter n k t :=
  ⟨by rw [h]; exact Nat.add_lt_add_right hn _, by
    rw [h]; exact Nat.le_of_eq (show m.armsWindow + windowArms k = windowArms k by simp [ha])⟩

/-- The store of a received byte, and what follows it. -/
theorem storeData_lighter {d : Dest} {s : State} {k : List Micro} (h : s.todo = k) {n : Nat} (hn : 2 * bytesLeft d s.wk.idx + 4 ≤ n) :
    Lighter n k (storeData d s) := by
  have e : ∀ t : State, t = s.storeAt d s.wk.idx.toNat s.wk.dat → t.todo = k ∧ t.wk.idx = s.wk.idx := by
    rintro t rfl; cases d <;> exact ⟨h, rfl⟩
  obtain ⟨e1, e2⟩ := e _ rfl
  unfold storeData
  simp only
  split
  · refine .pushed [.exchange (.send Config.filler), .exchange (.send Config.filler), .join .returnTrue] ?_ ?_ rfl
    · show _ ++ (s.storeAt d _ _).todo = _
      rw [e1]
    · show 3 < n
      omega
  · next hne =>
    refine .head (.exchange (.data d)) ?_ ?_ rfl
    · show _ :: (s.storeAt d _ _).todo = _
      rw [e1]
    · have := bytesLeft_next hne
      show 2 * bytesLeft d ((s.storeAt d _ _).wk.idx + 1) + 5 < n
      rw [e2]; omega

/-- An exchange takes its entry further, or ENGINE is to ask a counter. -/
theorem received_rank {x : Exchange} {rx : Byte} {s : State} {k : List Micro} (h : s.todo = k) :
    Lighter ((Micro.exchange x).weightNow s.wk) k (received x rx s) ∨ (x = .ready ∧ (received x rx s).todo = .act .readyExpired :: k) ∨
      (x = .token ∧ (received x rx s).todo = .act .tokenExpired :: k) := by
  cases x with
  | send b => exact .inl (.gone Nat.one_pos h)
  | ready =>
    unfold received readyByte
    simp only
    split
    · exact .inl (.gone Nat.one_pos h)
    · exact .inr (.inl ⟨trivial, congrArg (Micro.act .readyExpired :: ·) h⟩)
  | token =>
    unfold received tokenByte
    simp only
    split
    · exact .inr (.inr ⟨trivial, congrArg (Micro.act .tokenExpired :: ·) h⟩)
    · exact .inl (.gone Nat.one_pos h)
  | poll =>
    left
    unfold received pollByte
    simp only
    split
    · exact .gone (Nat.succ_pos _) h
    · next hx =>
      refine .head (.exchange .poll) (congrArg (Micro.exchange .poll :: ·) h) ?_ rfl
      show (s.wk.ntry - 1 - 1).toNat + 1 < (s.wk.ntry - 1).toNat + 1
      have h0 : s.wk.ntry - 1 ≠ 0 := by intro e; apply hx; rw [e]; simp
      have : (s.wk.ntry - 1).toNat ≠ 0 := fun e => h0 (BitVec.eq_of_toNat_eq e)
      bv_omega
  | trail i => exact .inl (.gone Nat.one_pos h)
  | data d =>
    left
    cases d with
    | buffer =>
      refine .head (.act .store) (congrArg (Micro.act .store :: ·) h) ?_ rfl
      show 2 * bytesLeft .buffer s.wk.idx + 4 < 2 * bytesLeft .buffer s.wk.idx + 5
      omega
    | csd => exact storeData_lighter (d := .csd) (s := s.withWk { s.wk with dat := rx }) h (Nat.le_succ _)
  | sendToken b => exact .inl (.gone Nat.one_pos h)
  | sendData =>
    left
    unfold received dataSent
    simp only
    split
    · exact .pushed [.exchange (.send Config.filler), .exchange (.send Config.filler), .exchange .response] (congrArg (_ ++ ·) h)
        (show 3 < 2 * bytesLeft .buffer s.wk.idx + 4 by omega) rfl
    · next hne =>
      refine .head (.act .load) (congrArg (Micro.act .load :: ·) h) ?_ rfl
      have := bytesLeft_next (d := .buffer) hne
      show 2 * bytesLeft .buffer (s.wk.idx + 1) + 5 < 2 * bytesLeft .buffer s.wk.idx + 4
      omega
  | response => exact .inl (.gone Nat.one_pos h)

/-- An action of a micro-operation takes its entry further, or the counter that was asked has not expired. -/
theorem doLocal_rank {l : Local} {s : State} {k : List Micro} (h : s.todo = k) :
    Lighter ((Micro.act l).weightNow s.wk) k (doLocal l s) ∨
      (l = .readyExpired ∧ s.expired .rdy = false ∧ (doLocal l s).todo = .exchange .ready :: k) ∨
      (l = .tokenExpired ∧ s.expired .tok = false ∧ (doLocal l s).todo = .exchange .token :: k) := by
  cases l with
  | setCs v => exact .inl (.gone Nat.one_pos h)
  | setSpeed v => exact .inl (.gone Nat.one_pos h)
  | arm i ms => exact .inl (.gone Nat.one_pos h)
  | readyExpired =>
    unfold doLocal readyTimer
    simp only
    split
    · exact .inl (.gone Nat.one_pos h)
    · next hx => exact .inr (.inl ⟨trivial, by simpa using hx, congrArg (Micro.exchange .ready :: ·) h⟩)
  | tokenExpired =>
    unfold doLocal tokenTimer
    simp only
    split
    · exact .inl (.gone Nat.one_pos h)
    · next hx => exact .inr (.inr ⟨trivial, by simpa using hx, congrArg (Micro.exchange .token :: ·) h⟩)
  | store => exact .inl (storeData_lighter h (Nat.le_refl _))
  | load =>
    left
    refine .head (.exchange .sendData) (congrArg (Micro.exchange .sendData :: ·) h) ?_ rfl
    show 2 * bytesLeft .buffer s.wk.idx + 4 < 2 * bytesLeft .buffer s.wk.idx + 5
    omega

/-- The frame of a command is shorter than the call. -/
theorem frame_weights (cmd : Byte) (arg : Word) : weights (frame cmd arg) ≤ 24 ∧ windowArms (frame cmd arg) = 0 := by
  unfold frame
  rw [weights_append, weights_append, windowArms_append, windowArms_append]
  by_cases h : cmd = cmdStop
  · rw [if_pos h]; exact ⟨Nat.le_refl 24, rfl⟩
  · rw [if_neg h]; exact ⟨Nat.le_succ 23, rfl⟩

/-- A test inside a micro-operation takes it further. -/
theorem doJoin_rank {j : Join} {s : State} {k : List Micro} (h : s.todo = k) : Lighter (Micro.join j).weight k (doJoin j s) := by
  cases j with
  | selected cmd arg =>
    show Lighter 25 k (afterSelect cmd arg s)
    unfold afterSelect
    split
    · exact .pushed _ (congrArg (_ ++ ·) h) (Nat.lt_of_le_of_lt (frame_weights cmd arg).1 (by decide)) (frame_weights cmd arg).2
    · exact .pushed (deselect ++ [.join .noResponse]) (congrArg (_ ++ ·) h) (show weights (deselect ++ [.join .noResponse]) < 25 by decide) rfl
  | noResponse => exact .gone Nat.one_pos h
  | prefixed cmd arg =>
    show Lighter (callWeight cmd + 1) k (afterPrefix cmd arg s)
    unfold afterPrefix
    split
    · exact .pushed [.command cmd arg] (congrArg (_ ++ ·) h) (show callWeight cmd + 0 < callWeight cmd + 1 by omega) rfl
    · exact .gone (Nat.succ_pos _) h
  | startPoll => exact .pushed [.exchange .poll] (congrArg (_ ++ ·) h) (show 16 < 17 by decide) rfl
  | tokenSeen d =>
    show Lighter 2052 k (afterToken d s)
    unfold afterToken
    split
    · exact .pushed [.exchange (.data d)] (congrArg (_ ++ ·) h) (show 2051 < 2052 by decide) rfl
    · exact .gone (by decide) h
  | cardReady tok =>
    show Lighter 2053 k (afterReady tok s)
    unfold afterReady
    split
    · split
      · exact .pushed [.exchange (.sendToken tok), .join .returnTrue] (congrArg (_ ++ ·) h) (show 2 < 2053 by decide) rfl
      · exact .pushed [.exchange (.sendToken tok), .act .load] (congrArg (_ ++ ·) h) (show 2052 < 2053 by decide) rfl
    · exact .gone (by decide) h
  | returnTrue => exact .gone Nat.one_pos h

/-! ### A step of ENGINE -/

/-- The steps left before the next test of the operation, that test counted. -/
def State.leftRank (s : State) : Nat :=
  microRank s.wk s.todo + match s.pos with
    | .idle => 0
    | .act _ => 0
    | .test _ => 1

/-- How often PHASE's entries still arm T_NEG. -/
def State.arms (s : State) : Nat := windowArms s.todo

/-- Nearer to the end of the operation, or at the same place with no more left of the micro-operation. -/
def Under (s t : State) : Prop := t.opRank < s.opRank ∨ (t.opRank = s.opRank ∧ t.leftRank ≤ s.leftRank ∧ t.arms ≤ s.arms)

/-- The same with less left. -/
def Below (s t : State) : Prop := t.opRank < s.opRank ∨ (t.opRank = s.opRank ∧ t.leftRank < s.leftRank ∧ t.arms ≤ s.arms)

theorem Under.refl (s : State) : Under s s := .inr ⟨rfl, Nat.le_refl _, Nat.le_refl _⟩

theorem Below.under {s t u : State} (h : Below s t) (g : Under t u) : Below s u := by
  rcases h with h | ⟨h1, h2, h3⟩
  · rcases g with g | ⟨g1, _, _⟩
    · exact .inl (Nat.lt_trans g h)
    · exact .inl (g1 ▸ h)
  · rcases g with g | ⟨g1, g2, g3⟩
    · exact .inl (h1 ▸ g)
    · exact .inr ⟨g1.trans h1, Nat.lt_of_le_of_lt g2 h2, Nat.le_trans g3 h3⟩

theorem Below.weak {s t : State} (h : Below s t) : Under s t := by
  rcases h with h | ⟨h1, h2, h3⟩
  · exact .inl h
  · exact .inr ⟨h1, Nat.le_of_lt h2, h3⟩

/-- An entry that was taken further, PHASE's place and the latches as before. -/
theorem Lighter.below {s t : State} {m : Micro} {k : List Micro} (h : Lighter (m.weightNow s.wk) k t) (hs : s.todo = m :: k)
    (hp : t.pos = s.pos) (hl : t.lat = s.lat) : Below s t := by
  right
  refine ⟨by unfold State.opRank; rw [hp, hl], ?_, ?_⟩
  · unfold State.leftRank; rw [hp, hs]
    exact Nat.add_lt_add_right h.rank _
  · unfold State.arms; rw [hs]
    exact Nat.le_trans h.arms (Nat.le_add_left _ _)

theorem doTest_below {u : Test} {s : State} (ht : s.todo = []) (hp : s.pos = .test u) : Below s (doTest u s) := by
  have e : s.opRank = u.rank s.lat.count := by unfold State.opRank; rw [hp]; rfl
  rcases doTest_rank u s with h | ⟨v, h1, h2, h3⟩
  · exact .inl (e ▸ h)
  · right
    refine ⟨?_, ?_, ?_⟩
    · rw [e, h2]; unfold State.opRank; rw [h1]; rfl
    · unfold State.leftRank; rw [h1, h3, hp, ht]; exact Nat.one_pos
    · unfold State.arms; rw [h3]

theorem doJoin_below {j : Join} {s : State} {k : List Micro} (ht : s.todo = .join j :: k) : Below s (doJoin j (s.withTodo k)) :=
  Lighter.below (m := .join j) (doJoin_rank (s := s.withTodo k) (k := k) rfl) ht (by simp) (by simp)

theorem settleWithin_under (n : Nat) : ∀ s : State, Under s (settleWithin n s) := by
  induction n with
  | zero => exact Under.refl
  | succ n ih =>
    intro s
    unfold settleWithin
    split
    · next j k hs => exact ((doJoin_below hs).under (ih _)).weak
    · exact .refl s
    · exact .refl s
    · exact .refl s
    · next ht =>
      split
      · next u hp => exact ((doTest_below ht hp).under (ih _)).weak
      · exact .refl s
      · exact .refl s

theorem settle_under (s : State) : Under s (settle s) := settleWithin_under 8 s

/-- The counter a wait asks, with the exchange and the action of its loop. -/
def waitLoops : List (Exchange × Local × Timer) := [(.ready, .readyExpired, .rdy), (.token, .tokenExpired, .tok)]

/-- What a step of ENGINE does to what is left: it comes down; or ENGINE goes round a wait whose counter has not expired; or the window of
a ready loop is still open and the loop's command goes out again. -/
inductive Moves (s t : State) : Prop where
  | down (h : t.opRank < s.opRank)
  | on (h1 : t.opRank = s.opRank) (h2 : t.leftRank < s.leftRank) (h3 : t.arms ≤ s.arms) (h4 : t.arms = s.arms → t.tmr.neg = s.tmr.neg)
  | asks (x : Exchange) (l : Local) (i : Timer) (k : List Micro) (hx : (x, l, i) ∈ waitLoops) (h1 : s.todo = .exchange x :: k)
      (h2 : t.todo = .act l :: k) (hp : t.pos = s.pos) (hl : t.lat = s.lat) (ht : t.tmr = s.tmr)
  | waits (x : Exchange) (l : Local) (i : Timer) (k : List Micro) (hx : (x, l, i) ∈ waitLoops) (h1 : s.todo = .act l :: k)
      (he : s.expired i = false) (h2 : t.todo = .exchange x :: k) (hp : t.pos = s.pos) (hl : t.lat = s.lat) (ht : t.tmr = s.tmr)
  | window (h1 : t.opRank = s.opRank) (he : s.expired .neg = false) (h2 : s.todo = []) (h3 : t.arms = 0) (ht : t.tmr = s.tmr)

theorem Below.moves {s t : State} (h : Below s t) (hn : t.arms = s.arms → t.tmr.neg = s.tmr.neg) : Moves s t := by
  rcases h with h | ⟨h1, h2, h3⟩
  · exact .down h
  · exact .on h1 h2 h3 hn

theorem exchange_moves {s : State} {x : Exchange} {k : List Micro} (h : s.todo = .exchange x :: k) (hr : s.env.responsive = true) :
    Moves s (doExchange x k s) := by
  obtain ⟨rx, e, hn, -⟩ := nextCard_responsive hr
  unfold doExchange
  rw [hn]
  show Moves s (settle (received x rx (((s.withEnv e).withTodo k).log (.xchg _ rx))))
  generalize hv : ((s.withEnv e).withTodo k).log (.xchg (x.tx (s.withEnv e)) rx) = v
  have e1 : v.todo = k := by rw [← hv]; rfl
  have e2 : v.wk = s.wk := by rw [← hv]; rfl
  have e3 : v.pos = s.pos := by rw [← hv]; rfl
  have e4 : v.lat = s.lat := by rw [← hv]; rfl
  have e5 : v.tmr = s.tmr := by rw [← hv]; rfl
  rcases received_rank (x := x) (rx := rx) e1 with g | ⟨rfl, g⟩ | ⟨rfl, g⟩
  · rw [e2] at g
    exact ((g.below h (by simp [e3]) (by simp [e4])).under (settle_under _)).moves (fun _ => by simp [e5])
  · exact .asks .ready .readyExpired .rdy k (by simp [waitLoops]) h (by rw [settle_act g]; exact g) (by rw [settle_act g]; simp [e3])
      (by rw [settle_act g]; simp [e4]) (by simp [e5])
  · exact .asks .token .tokenExpired .tok k (by simp [waitLoops]) h (by rw [settle_act g]; exact g) (by rw [settle_act g]; simp [e3])
      (by rw [settle_act g]; simp [e4]) (by simp [e5])

theorem readyTimer_tmr (s : State) : (readyTimer s).tmr = s.tmr := by unfold readyTimer; split <;> rfl

theorem tokenTimer_tmr (s : State) : (tokenTimer s).tmr = s.tmr := by unfold tokenTimer; split <;> rfl

theorem storeData_tmr (d : Dest) (s : State) : (storeData d s).tmr = s.tmr := by
  unfold storeData; cases d <;> simp only <;> split <;> rfl

theorem action_moves {s : State} {l : Local} {k : List Micro} (h : s.todo = .act l :: k) : Moves s (doAction l k s) := by
  unfold doAction
  have hw : (s.withTodo k).wk = s.wk := rfl
  generalize hv : s.withTodo k = v
  have e1 : v.todo = k := by rw [← hv]; rfl
  have e2 : v.wk = s.wk := by rw [← hv]; rfl
  have e3 : v.pos = s.pos := by rw [← hv]; rfl
  have e4 : v.lat = s.lat := by rw [← hv]; rfl
  have e5 : v.tmr = s.tmr := by rw [← hv]; rfl
  rcases doLocal_rank (l := l) e1 with g | ⟨rfl, he, g⟩ | ⟨rfl, he, g⟩
  · rw [e2] at g
    have b := g.below h (by simp [e3]) (by simp [e4])
    by_cases hn : (doLocal l v).tmr.neg = s.tmr.neg
    · exact (b.under (settle_under _)).moves (fun _ => by rw [settle_tmr]; exact hn)
    · have ha : (doLocal l v).arms < s.arms := by
        cases l with
        | arm i ms =>
          cases i with
          | neg =>
            unfold State.arms
            rw [h, show (doLocal (.arm .neg ms) v).todo = k from e1]
            show windowArms k < 1 + windowArms k
            omega
          | tok => exact absurd (congrArg Timers.neg e5) hn
          | rdy => exact absurd (congrArg Timers.neg e5) hn
        | setCs c => exact absurd (congrArg Timers.neg e5) hn
        | setSpeed c => exact absurd (congrArg Timers.neg e5) hn
        | readyExpired => exact absurd (congrArg Timers.neg ((readyTimer_tmr v).trans e5)) hn
        | tokenExpired => exact absurd (congrArg Timers.neg ((tokenTimer_tmr v).trans e5)) hn
        | store => exact absurd (congrArg Timers.neg ((storeData_tmr .buffer v).trans e5)) hn
        | load => exact absurd (congrArg Timers.neg e5) hn
      rcases b.under (settle_under _) with c | ⟨c1, c2, c3⟩
      · exact .down c
      · refine .on c1 c2 c3 fun c4 => ?_
        exfalso
        rcases settle_under (doLocal l v) with d | ⟨_, _, d⟩
        · have : (doLocal l v).opRank = s.opRank := by unfold State.opRank; simp [e3, e4]
          omega
        · omega
  · exact .waits .ready .readyExpired .rdy k (by simp [waitLoops]) h (by unfold State.expired at he ⊢; rw [← e5]; exact he)
      (by rw [settle_exchange g]; exact g) (by rw [settle_exchange g]; simp [e3]) (by rw [settle_exchange g]; simp [e4])
      ((settle_tmr _).trans ((readyTimer_tmr v).trans e5))
  · exact .waits .token .tokenExpired .tok k (by simp [waitLoops]) h (by unfold State.expired at he ⊢; rw [← e5]; exact he)
      (by rw [settle_exchange g]; exact g) (by rw [settle_exchange g]; simp [e3]) (by rw [settle_exchange g]; simp [e4])
      ((settle_tmr _).trans ((tokenTimer_tmr v).trans e5))

/-- What a command unfolds to is less than the call, and its first entry is no wait. -/
theorem sendCommand_unfolds (cmd : Byte) (arg : Word) (s : State) :
    ∃ m ms, (sendCommand cmd arg s).todo = m :: (ms ++ s.todo) ∧ weights ms < callWeight cmd ∧ windowArms ms = 0 ∧
      ((∃ b, m = .exchange (.send b)) ∨ m = .act (.setCs true)) := by
  have sub : ∀ c : Byte, isApp (c &&& 0x7F) = false := by decide
  unfold sendCommand callWeight
  by_cases ha : isApp cmd = true
  · rw [if_pos ha, if_pos ha]
    refine ⟨.act (.setCs true), .exchange (.send Config.filler) :: select ++ [.join (.selected cmdApp 0), .join (.prefixed (cmd &&& 0x7F) arg)],
      rfl, ?_, rfl, .inr rfl⟩
    show 1 + (1 + (1 + (1 + (25 + (callWeight (cmd &&& 0x7F) + 1 + 0))))) < 64
    unfold callWeight
    rw [if_neg (by rw [sub]; simp)]
    decide
  · rw [if_neg ha, if_neg ha]
    by_cases h : cmd = cmdStop
    · subst h
      have hf := frame_weights cmdStop arg
      obtain ⟨f, hf'⟩ : ∃ f, frame cmdStop arg = .exchange (.send (frameBytes cmdStop arg).head!) :: f := ⟨_, rfl⟩
      rw [hf', weights_cons] at hf
      refine ⟨.exchange (.send (frameBytes cmdStop arg).head!), f, ?_, ?_, ?_, .inl ⟨_, rfl⟩⟩
      · show plainCommand cmdStop arg ++ s.todo = _
        unfold plainCommand
        rw [if_pos rfl, hf']; rfl
      · have : weights f ≤ 24 := Nat.le_trans (Nat.le_add_left _ _) hf.1
        omega
      · exact (Nat.add_eq_zero_iff.1 hf.2).2
    · refine ⟨.act (.setCs true), .exchange (.send Config.filler) :: select ++ [.join (.selected cmd arg)], ?_, ?_, rfl, .inr rfl⟩
      · show plainCommand cmd arg ++ s.todo = _
        unfold plainCommand
        rw [if_neg h]; rfl
      · show 1 + (1 + (1 + (1 + (25 + 0)))) < 31
        decide

theorem command_moves {s : State} {cmd : Byte} {arg : Word} {k : List Micro} (h : s.todo = .command cmd arg :: k)
    (hr : s.env.responsive = true) : Moves s (doCommand cmd arg k s) := by
  have done : ∀ (w : State) (ms : List Micro), w.todo = ms ++ k → weights ms < callWeight cmd → windowArms ms = 0 → w.pos = s.pos →
      w.lat = s.lat → w.tmr = s.tmr → Moves s (settle w) := by
    intro w ms h1 h2 h3 h4 h5 h6
    have g : Lighter ((Micro.command cmd arg).weightNow s.wk) k w := .pushed ms h1 h2 h3
    exact ((g.below h h4 h5).under (settle_under w)).moves (fun _ => by rw [settle_tmr, h6])
  obtain ⟨m, ms, h1, h2, h3, h4⟩ := sendCommand_unfolds cmd arg (s.withTodo k)
  have p1 : (sendCommand cmd arg (s.withTodo k)).pos = s.pos := by simp
  have p2 : (sendCommand cmd arg (s.withTodo k)).lat = s.lat := by simp
  have p3 : (sendCommand cmd arg (s.withTodo k)).tmr = s.tmr := by simp
  unfold doCommand
  simp only
  rw [h1]
  rcases h4 with ⟨b, rfl⟩ | rfl
  · obtain ⟨rx, e, hn, -⟩ := nextCard_responsive (s := sendCommand cmd arg (s.withTodo k)) (by simpa using hr)
    show Moves s (doExchange _ _ _)
    unfold doExchange
    rw [hn]
    exact done _ ms rfl h2 h3 p1 p2 p3
  · exact done _ ms rfl h2 h3 p1 p2 p3

/-- What ENGINE's step does to what is left, on a bus that answers. -/
theorem engineStep_moves {s t : State} (hi : s.isIdle = false) (hr : s.env.responsive = true) (h : engineStep s = .next t) : Moves s t := by
  unfold engineStep at h
  split at h
  · next x k hs => obtain rfl := Host.Outcome.next.inj h; exact exchange_moves hs hr
  · next l k hs => obtain rfl := Host.Outcome.next.inj h; exact action_moves hs
  · next c a k hs => obtain rfl := Host.Outcome.next.inj h; exact command_moves hs hr
  · next j k hs =>
    obtain rfl := Host.Outcome.next.inj h
    have b : Below s (settle s) := by
      show Below s (settleWithin 8 s)
      rw [settleWithin, hs]
      exact (doJoin_below hs).under (settleWithin_under 7 _)
    exact b.moves (fun _ => by simp)
  · next hs =>
    split at h
    · next hp => rw [State.isIdle, hs, hp] at hi; cases hi
    · next a hp =>
      cases hd : doAct a s with
      | fault f => rw [hd] at h; cases h
      | refused r => rw [hd] at h; cases h
      | next u =>
        rw [hd] at h
        obtain rfl := Host.Outcome.next.inj h
        have e : s.opRank = a.rank := by unfold State.opRank; rw [hp]; rfl
        rcases doAct_rank hd with g | ⟨v, c, w, rfl, g1, g2, g3, g4⟩
        · rcases settle_under u with d | ⟨d, _⟩
          · exact .down (by omega)
          · exact .down (by omega)
        · rw [hs] at g3
          rw [settle_command g3]
          exact .window (by rw [e, g2]; rfl) g1 hs (by unfold State.arms; rw [g3]; rfl) g4
    · next u hp =>
      obtain rfl := Host.Outcome.next.inj h
      have b : Below s (settle s) := by
        show Below s (settleWithin 8 s)
        rw [settleWithin, hs, hp]
        exact (doTest_below hs hp).under (settleWithin_under 7 _)
      exact b.moves (fun _ => by simp)

/-! ### Executions without end (70_reset_and_hazards.md R366)

Where an operation never ended, `opRank` would settle first, then `arms`; then T_NEG runs down, so no window is open; then `leftRank` settles,
so ENGINE only goes round a wait; then the counter of that wait runs down, and the wait ends. -/

/-- A number that never grows stays what it is in the end. -/
theorem settles_down {f : Nat → Nat} {m : Nat} (h : ∀ n, m ≤ n → f (n + 1) ≤ f n) : ∃ k, m ≤ k ∧ ∀ n, k ≤ n → f n = f k := by
  by_contra hc
  push Not at hc
  have below : ∀ j, ∃ k, m ≤ k ∧ f k + j ≤ f m := by
    intro j
    induction j with
    | zero => exact ⟨m, Nat.le_refl _, Nat.le_refl _⟩
    | succ j ih =>
      obtain ⟨k, h1, h2⟩ := ih
      obtain ⟨n, h3, h4⟩ := hc k h1
      have le : ∀ d, f (k + d) ≤ f k := by
        intro d
        induction d with
        | zero => exact Nat.le_refl _
        | succ d ihd => exact Nat.le_trans (h _ (Nat.le_trans h1 (Nat.le_add_right _ _))) ihd
      have := le (n - k)
      rw [Nat.add_sub_cancel' h3] at this
      exact ⟨n, Nat.le_trans h1 h3, by omega⟩
  obtain ⟨k, _, h2⟩ := below (f m + 1)
  omega

theorem countDown_toNat (v : BitVec 16) : (countDown v).toNat = v.toNat - 1 := by
  unfold countDown
  split
  · next h => subst h; rfl
  · next h =>
    have : v.toNat ≠ 0 := fun e => h (BitVec.eq_of_toNat_eq e)
    bv_omega

/-- A counter that nothing arms any more runs down, since TICK goes on. -/
theorem runs_down {f : Nat → BitVec 16} {turn : Nat → Turn} {m : Nat} (live : TickLive turn)
    (h : ∀ n, m ≤ n → ((turn n).ticks = false ∧ f (n + 1) = f n) ∨ f (n + 1) = countDown (f n)) : ∃ k, m ≤ k ∧ ∀ n, k ≤ n → f n = 0 := by
  obtain ⟨k, h1, h2⟩ := settles_down (f := fun n => (f n).toNat) (m := m) (fun n hn => by
    rcases h n hn with ⟨_, e⟩ | e
    · exact Nat.le_of_eq (congrArg BitVec.toNat e)
    · show (f (n + 1)).toNat ≤ _
      rw [e, countDown_toNat]; exact Nat.sub_le _ _)
  obtain ⟨j, h3, h4⟩ := live k
  have z : (f j).toNat = 0 := by
    rcases h j (Nat.le_trans h1 h3) with ⟨e, _⟩ | e
    · rw [h4] at e; cases e
    · have a := h2 j h3
      have b := h2 (j + 1) (Nat.le_succ_of_le h3)
      have c : (f (j + 1)).toNat = (f j).toNat - 1 := by rw [e, countDown_toNat]
      omega
  exact ⟨k, h1, fun n hn => BitVec.eq_of_toNat_eq (by
    have a := h2 j h3
    have b := h2 n hn
    show (f n).toNat = 0
    omega)⟩

/-- A step that is not ENGINE's leaves PHASE alone; TICK takes the counters down. -/
structure Quiet (a : Turn) (s t : State) : Prop where
  pos : t.pos = s.pos
  todo : t.todo = s.todo
  wk : t.wk = s.wk
  lat : t.lat = s.lat
  tmr : (a.ticks = false ∧ t.tmr = s.tmr) ∨ t.tmr = s.tickDown.tmr

theorem Moves.base {s t : State} {l : List Turn} (h : Moves (s.withSched l) t) : Moves s t := by
  cases h with
  | down h => exact .down h
  | on h1 h2 h3 h4 => exact .on h1 h2 h3 h4
  | asks x l i k hx h1 h2 hp hl ht => exact .asks x l i k hx h1 h2 hp hl ht
  | waits x l i k hx h1 he h2 hp hl ht => exact .waits x l i k hx h1 he h2 hp hl ht
  | window h1 he h2 h3 ht => exact .window h1 he h2 h3 ht

/-- What an event port shows when its step is taken: TICK's strobe, DMA_DONE's, or both (30_encoding.md R105). -/
theorem runPort_event {bytes : List Byte} {s t : State} (h : runPort .event bytes s = .next t) :
    (bytes = [0b001] ∧ execTick s = .next t) ∨ (∃ ok, bytes = [if ok then 0b110 else 0b010] ∧ dmaComplete ok s = .next t) ∨
      ∃ ok, bytes = [if ok then 0b111 else 0b011] ∧ dmaComplete ok s.tickDown = .next t := by
  unfold runPort at h
  split at h
  · next i hd =>
    cases bytes with
    | nil => cases hd
    | cons b l =>
      change decodeEvent (b :: l) = _ at hd
      unfold decodeEvent at hd
      simp only at hd
      split at hd
      · next e => cases hd; exact .inl ⟨by rw [e], h⟩
      · split at hd
        · next e => cases hd; exact .inr (.inl ⟨false, by rw [e]; rfl, h⟩)
        · split at hd
          · next e => cases hd; exact .inr (.inl ⟨true, by rw [e]; rfl, h⟩)
          · split at hd <;> cases hd
  · cases h
  · unfold runOther at h
    split at h
    · split at h
      · next e => exact .inr (.inr ⟨false, by rw [e]; rfl, h⟩)
      · split at h
        · next e => exact .inr (.inr ⟨true, by rw [e]; rfl, h⟩)
        · cases h
    · next hf _ => cases hf
    · next hf _ => cases hf
    · cases h

/-- A step while an operation runs: ENGINE's, or a quiet one. -/
theorem step_moves {s t : State} {a : Turn} (hi : s.isIdle = false) (hr : s.env.responsive = true)
    (hp : ∀ f bytes, a = .port f bytes → f = .hostop ∨ f = .event) (h : step (s.withSched [a]) = .next t) :
    (a.ticks = false ∧ Moves s t) ∨ (a.steps s = false ∧ Quiet a s t) := by
  have eng : ∀ l, engineStep (s.withSched l) = .next t → Moves s t := fun l e =>
    Moves.base (l := l) (engineStep_moves (s := s.withSched l) hi hr e)
  have done : ∀ {ok : Bool} {u : State}, dmaComplete ok u = .next t → u.pos = s.pos → u.todo = s.todo → u.wk = s.wk → u.lat = s.lat →
      t.pos = s.pos ∧ t.todo = s.todo ∧ t.wk = s.wk ∧ t.lat = s.lat ∧ t.tmr = u.tmr := by
    intro ok u e h1 h2 h3 h4
    unfold dmaComplete at e
    split at e
    · obtain rfl := Host.Outcome.next.inj e; exact ⟨h1, h2, h3, h4, rfl⟩
    · cases e
  change takeTurn a [] (s.withSched [a]) = .next t at h
  cases a with
  | engine => exact .inl ⟨rfl, eng [] h⟩
  | tick =>
    obtain rfl := Host.Outcome.next.inj h
    exact .inr ⟨rfl, rfl, rfl, rfl, rfl, .inr rfl⟩
  | dmaDone ok =>
    obtain ⟨h1, h2, h3, h4, h5⟩ := done (u := (s.withSched [.dmaDone ok]).withSched []) h rfl rfl rfl rfl
    exact .inr ⟨rfl, h1, h2, h3, h4, .inl ⟨rfl, h5⟩⟩
  | dma b =>
    have e := (dmaStep_same h).2
    exact .inr ⟨rfl, by rw [e]; rfl, by rw [e]; rfl, by rw [e]; rfl, by rw [e]; rfl, .inl ⟨rfl, by rw [e]; rfl⟩⟩
  | host b =>
    have h' : (if s.isIdle then hostStep b ((s.withSched [.host b]).withSched []) else engineStep (s.withSched [.host b])) = .next t := h
    rw [hi] at h'
    exact .inl ⟨rfl, eng _ h'⟩
  | port f bytes =>
    have h' : (if f = .hostop ∧ s.isIdle = false then engineStep (s.withSched [.port f bytes]) else
      runPort f bytes ((s.withSched [.port f bytes]).withSched [])) = .next t := h
    rcases hp f bytes rfl with rfl | rfl
    · rw [if_pos ⟨rfl, hi⟩] at h'
      exact .inl ⟨rfl, eng _ h'⟩
    · rw [if_neg (by simp)] at h'
      right
      refine ⟨rfl, ?_⟩
      rcases runPort_event h' with ⟨rfl, e⟩ | ⟨ok, rfl, e⟩ | ⟨ok, rfl, e⟩
      · obtain rfl := Host.Outcome.next.inj e
        exact ⟨rfl, rfl, rfl, rfl, .inr rfl⟩
      · obtain ⟨h1, h2, h3, h4, h5⟩ := done (u := _) e rfl rfl rfl rfl
        exact ⟨h1, h2, h3, h4, .inl ⟨by cases ok <;> rfl, h5⟩⟩
      · obtain ⟨h1, h2, h3, h4, h5⟩ := done (u := _) e rfl rfl rfl rfl
        exact ⟨h1, h2, h3, h4, .inr h5⟩

theorem Moves.opRank_le {s t : State} (h : Moves s t) : t.opRank ≤ s.opRank := by
  cases h with
  | down h => exact Nat.le_of_lt h
  | on h1 _ _ _ => exact Nat.le_of_eq h1
  | asks x l i k hx h1 h2 hp hl ht => unfold State.opRank; rw [hp, hl]
  | waits x l i k hx h1 he h2 hp hl ht => unfold State.opRank; rw [hp, hl]
  | window h1 _ _ _ _ => exact Nat.le_of_eq h1

/-- Going round a wait changes nothing of what is left. -/
theorem wait_ranks {s t : State} {m n : Micro} {k : List Micro} {x : Exchange} {l : Local} {i : Timer} (hx : (x, l, i) ∈ waitLoops)
    (hm : (m = .exchange x ∧ n = .act l) ∨ (m = .act l ∧ n = .exchange x)) (h1 : s.todo = m :: k) (h2 : t.todo = n :: k)
    (hp : t.pos = s.pos) : t.leftRank = s.leftRank ∧ t.arms = s.arms := by
  unfold State.leftRank State.arms
  rw [h1, h2, hp]
  simp only [waitLoops, List.mem_cons, Prod.mk.injEq, List.not_mem_nil, or_false] at hx
  rcases hx with ⟨rfl, rfl, rfl⟩ | ⟨rfl, rfl, rfl⟩ <;> rcases hm with ⟨rfl, rfl⟩ | ⟨rfl, rfl⟩ <;> exact ⟨rfl, rfl⟩

theorem Quiet.ranks {a : Turn} {s t : State} (h : Quiet a s t) : t.opRank = s.opRank ∧ t.leftRank = s.leftRank ∧ t.arms = s.arms := by
  unfold State.opRank State.leftRank State.arms
  rw [h.pos, h.lat, h.wk, h.todo]
  exact ⟨rfl, rfl, rfl⟩

theorem Quiet.counts {a : Turn} {s t : State} (h : Quiet a s t) (i : Timer) :
    (a.ticks = false ∧ t.tmr.get i = s.tmr.get i) ∨ t.tmr.get i = countDown (s.tmr.get i) := by
  rcases h.tmr with ⟨h1, h2⟩ | h2
  · exact .inl ⟨h1, by rw [h2]⟩
  · right; rw [h2]; cases i <;> rfl

end Sys2Proof.Machine
end

