-- ==== Sys2Proof/Tests/Slice0.lean ====
section
/-! SUPPORT. Tests/Slice0.lean: the model's own tests. Expected words, results and wire items are worked out by hand from spec/: the
encodings of 30_encoding.md and the worked vectors of 95_test_vectors.md, whose names (V41.2, ...) stand before each test. The second
half gives, for each statement with hypotheses, a state and operands that meet all of them. -/

namespace Sys2Proof.Tests

open Sys2Proof Sys2Proof.Machine

/-! ### Well-formedness: one ill-formed term for each check -/

theorem test_illformed_malformed4to7 : (Instr.ioctlMalformed4to7 0x08).wellFormed = false := by decide
theorem test_illformed_malformedBit3 : (Instr.ioctlMalformedBit3 0x07).wellFormed = false := by decide
theorem test_illformed_malformedBit4 : (Instr.ioctlMalformedBit4 0x20).wellFormed = false := by decide
theorem test_illformed_malformedBit5 : (Instr.ioctlMalformedBit5 0x1F).wellFormed = false := by decide
theorem test_illformed_malformedBit6 : (Instr.ioctlMalformedBit6 0x80).wellFormed = false := by decide
theorem test_illformed_malformedBit7 : (Instr.ioctlMalformedBit7 0x7F).wellFormed = false := by decide
theorem test_illformed_reservedBit3 : (Instr.reservedOpBit3 0 0x07).wellFormed = false := by decide
theorem test_illformed_reservedBit4 : (Instr.reservedOpBit4 0 0x0F).wellFormed = false := by decide
theorem test_illformed_reservedBit5 : (Instr.reservedOpBit5 0 0x40).wellFormed = false := by decide
theorem test_illformed_reservedBit6 : (Instr.reservedOpBit6 0 0x3F).wellFormed = false := by decide
theorem test_illformed_reservedBit7 : (Instr.reservedOpBit7 0 0x00).wellFormed = false := by decide
theorem test_illformed_response : (Instr.r1Response 0x80).wellFormed = false := by decide
theorem test_illformed_notResponse : (Instr.r1NotResponse 0x7F).wellFormed = false := by decide
theorem test_illformed_accepted : (Instr.dataAccepted 0x0B).wellFormed = false := by decide

/-! ### Decoding: every constructor from a word written out from the spec's encoding -/

/-- R91: the words `0x0000`, `0x0001`, `0x0006` with any selector. -/
theorem test_decode_plain_operations :
    decodedInstr .hostop [0b00000000, 0x00] = some (.initCard 0) ∧ decodedInstr .hostop [0b00000001, 0xA5] = some (.status 0xA5) ∧
    decodedInstr .hostop [0b00000110, 0x00] = some (.pollStatus 0) := by decide

/-- P2, P6, P4, P3: the operands of the programs' lines. -/
theorem test_decode_block_operations :
    decodedInstr .hostop [0x02, 0, 0x00, 0x20, 0, 0, 5, 0, 0, 0, 1, 0, 0, 0] = some (.read 0 0x2000 5 1) ∧
    decodedInstr .hostop [0x03, 0, 0x00, 0x30, 0, 0, 3, 0, 0, 0, 2, 0, 0, 0] = some (.write 0 0x3000 3 2) ∧
    decodedInstr .hostop [0x04, 0, 0x00, 0x40, 0, 0, 7, 0, 0, 0, 1, 0, 0, 0] = some (.startReadDma 0 0x4000 7 1) ∧
    decodedInstr .hostop [0x05, 0, 0x00, 0x30, 0, 0, 8, 0, 0, 0, 2, 0, 0, 0] = some (.startWriteDma 0 0x3000 8 2) := by decide

/-- R91: `0x0107`, `0x0207`, `0x0307`; V46.9: `0x0007`, `0x0907`; the first and the last selector of each malformed row. -/
theorem test_decode_ioctl :
    decodedInstr .hostop [0x07, 0x01] = some .ioctlGetSectorCount ∧ decodedInstr .hostop [0x07, 0x02] = some .ioctlGetSectorSize ∧
    decodedInstr .hostop [0x07, 0x03] = some .ioctlGetEraseBlockSize ∧ decodedInstr .hostop [0x07, 0x00] = some .ioctlMalformed0 ∧
    decodedInstr .hostop [0x07, 0b00000100] = some (.ioctlMalformed4to7 0x04) ∧
    decodedInstr .hostop [0x07, 0b00000111] = some (.ioctlMalformed4to7 0x07) ∧
    decodedInstr .hostop [0x07, 0b00001001] = some (.ioctlMalformedBit3 0x09) ∧
    decodedInstr .hostop [0x07, 0b00010000] = some (.ioctlMalformedBit4 0x10) ∧
    decodedInstr .hostop [0x07, 0b00111111] = some (.ioctlMalformedBit5 0x3F) ∧
    decodedInstr .hostop [0x07, 0b01000000] = some (.ioctlMalformedBit6 0x40) ∧
    decodedInstr .hostop [0x07, 0b11111111] = some (.ioctlMalformedBit7 0xFF) := by decide

/-- R104 (a): `0x08` to `0xFF`. -/
theorem test_decode_reserved :
    decodedInstr .hostop [0b00001000, 0x01] = some (.reservedOpBit3 0x01 0x08) ∧
    decodedInstr .hostop [0b00011111, 0x01] = some (.reservedOpBit4 0x01 0x1F) ∧
    decodedInstr .hostop [0b00100000, 0x01] = some (.reservedOpBit5 0x01 0x20) ∧
    decodedInstr .hostop [0b01111111, 0x01] = some (.reservedOpBit6 0x01 0x7F) ∧
    decodedInstr .hostop [0b10000000, 0x01] = some (.reservedOpBit7 0x01 0x80) := by decide

/-- R105: `0b01`, and `0b10` with its bit `ok`; both strobes and none are rejected. -/
theorem test_decode_event :
    decodedInstr .event [0b01] = some .tick ∧ decodedInstr .event [0b010] = some (.dmaDone false) ∧
    decodedInstr .event [0b110] = some (.dmaDone true) ∧ decodedInstr .event [0b00] = none ∧ decodedInstr .event [0b11] = none := by
  decide

/-- V42.1: the fourteen frames. -/
theorem test_decode_frames :
    decodedInstr .cmdframe [0x40, 0, 0, 0, 0, 0x95] = some .cmd0 ∧ decodedInstr .cmdframe [0x41, 0, 0, 0, 0, 0x01] = some .cmd1 ∧
    decodedInstr .cmdframe [0x48, 0, 0, 0x01, 0xAA, 0x87] = some .cmd8 ∧ decodedInstr .cmdframe [0x49, 0, 0, 0, 0, 0x01] = some .cmd9 ∧
    decodedInstr .cmdframe [0x4C, 0, 0, 0, 0, 0x01] = some .cmd12 ∧ decodedInstr .cmdframe [0x50, 0, 0, 0x02, 0, 0x01] = some .cmd16 ∧
    decodedInstr .cmdframe [0x51, 0, 0, 0x0A, 0, 0x01] = some (.cmd17 0xA00) ∧
    decodedInstr .cmdframe [0x52, 0, 0x01, 0x23, 0x45, 0x01] = some (.cmd18 0x12345) ∧
    decodedInstr .cmdframe [0x57, 0, 0, 0, 0x02, 0x01] = some (.acmd23 2) ∧
    decodedInstr .cmdframe [0x58, 0, 0, 0x0A, 0, 0x01] = some (.cmd24 0xA00) ∧
    decodedInstr .cmdframe [0x59, 0, 0, 0, 0x08, 0x01] = some (.cmd25 8) ∧
    decodedInstr .cmdframe [0x69, 0x40, 0, 0, 0, 0x01] = some (.acmd41 true) ∧
    decodedInstr .cmdframe [0x69, 0, 0, 0, 0, 0x01] = some (.acmd41 false) ∧
    decodedInstr .cmdframe [0x77, 0, 0, 0, 0, 0x01] = some .cmd55 ∧ decodedInstr .cmdframe [0x7A, 0, 0, 0, 0, 0x01] = some .cmd58 := by
  decide

/-- R95, R96: a wrong sixth byte, an argument never sent, a command the engine does not use. -/
theorem test_decode_bad_frames :
    decodedInstr .cmdframe [0x40, 0, 0, 0, 0, 0x01] = none ∧ decodedInstr .cmdframe [0x50, 0, 0, 0x04, 0, 0x01] = none ∧
    decodedInstr .cmdframe [0x4A, 0, 0, 0, 0, 0x01] = none := by decide

/-- R103, R98, R102, R97; V44.7: `0xEB` is no accepted data response; R104 (b): code 5 is never produced. -/
theorem test_decode_wire_bytes :
    decodedInstr .token [0xFE] = some .tokStart ∧ decodedInstr .token [0xFC] = some .tokMulti ∧ decodedInstr .token [0xFD] = some .tokStop ∧
    decodedInstr .token [0xFF] = some .filler ∧ decodedInstr .token [0x05] = none ∧ decodedInstr .r1 [0x7F] = some (.r1Response 0x7F) ∧
    decodedInstr .r1 [0xC1] = some (.r1NotResponse 0xC1) ∧ decodedInstr .dataresp [0xE5] = some (.dataAccepted 0xE5) ∧
    decodedInstr .dataresp [0xEB] = none ∧ decodedInstr .result [0] = some .resultOk ∧ decodedInstr .result [1] = some .resultError ∧
    decodedInstr .result [2] = some .resultWriteProtected ∧ decodedInstr .result [3] = some .resultNotReady ∧
    decodedInstr .result [4] = some .resultInvalidParameter ∧ decodedInstr .result [5] = none := by decide

/-- The table's own numbers: `0x0107`, `0x1`, `0x4`, `0xFE`, `0x48000001AA87`. -/
theorem test_decode_table_words :
    decodeTableWord 16 0x0107 = some .ioctlGetSectorCount ∧ decodeTableWord 2 0x1 = some .tick ∧
    decodeTableWord 3 0x4 = some .resultInvalidParameter ∧ decodeTableWord 8 0xFE = some .tokStart ∧
    decodeTableWord 48 0x48000001AA87 = some .cmd8 := by decide

/-! ### States -/

/-- An initialised engine with a card of this type, between operations. -/
def ready (c : CardType) (card : List Byte) : State :=
  { State.reset with
    dstat := { noInit := false, noDisk := false, protect := false }, ctype := c, speed := .high,
    env := { Outside.default with card := card } }

/-- The same, with this to do next. -/
def doing (ms : List Micro) (card : List Byte) : State := { ready .sd2Block card with todo := ms }

/-- A transfer in this state, of one block or several. -/
def transferring (d : DmaStatus) (dir : DmaDir) (multi : Bool) (card : List Byte) : State :=
  { ready .sd2Block card with
    dmast := d, atc := { live := true, dir := dir, multi := multi }, cs := false, job := some { dir := dir, buf := 0x4000, n := 1, fetched := [] } }

/-- A card's answer with this response: ready at once, one filler byte, the response ("seq" of 95_test_vectors.md). -/
def seq (r : Byte) : Reply := { dummy := 0xFF, busy := [], junk := List.replicate 6 0, wait := [0xFF], r1 := r }

/-- No response: nine filler bytes, and a tenth that is returned (V42.4). -/
def silent : Reply := { seq 0xFF with wait := List.replicate 9 0xFF }

/-- A card that stays busy through a readiness wait. -/
def busyCard : BusyReply := { dummy := 0xFF, busy := [0x00], last := 0xFF }

/-- CMD55 accepted, then this response. -/
def appSeq (r : Byte) : AppReply := { app := .answered (seq 0x01), cmd := .answered (seq r) }

/-- An application command that does not come through: CMD55 is not let out, or rejected, as V43.5's probe; the command behind it is not let
out, or not answered. -/
def lostApps : List AppReply :=
  [{ app := .unselected busyCard, cmd := .answered silent }, { app := .answered (seq 0x05), cmd := .answered silent },
   { app := .answered (seq 0x01), cmd := .unselected busyCard }, { app := .answered (seq 0x01), cmd := .answered silent }]

/-- The answers to CMD12: V42.5's stuff byte `7F`, a filler, the response; and none. -/
def stopSeq : StopReply := { junk := List.replicate 6 0, stuff := 0x7F, wait := [0xFF], r1 := 0 }
def stopSeqs : List StopReply := [stopSeq, { stopSeq with wait := List.replicate 9 0xFF, r1 := 0xFF }]

/-- A whole block of this byte. -/
def block (b : Byte) : Packet := { fill := 1, data := List.replicate 512 b, crc0 := 0xAA, crc1 := 0x55 }

/-- A written block with this data response. -/
def receipt (r : Byte) : Receipt := { busy := [0x00], token := 0xFF, junk := List.replicate 512 0xFF, crc0 := 0xFF, crc1 := 0xFF, response := r }

/-- The busy byte, the ready byte and the byte under the stop token. -/
def stopToken : StopToken := { busy := [0x00], under := 0xFF }

/-- The token waits that fail: V44.2's `FF 05`, and filler for 200 TICK events. -/
def badTokens : List BadToken := [.wrong 1 0x05, .silent 0]

/-- A command that fails: this response, none, or a card that stays busy through the readiness wait. -/
def rejections (r : Byte) : List Attempt := [.answered (seq r), .answered silent, .unselected busyCard]

/-- A block that is not accepted: this data response, or a card that stays busy. -/
def badBlocks (r : Byte) : List BadBlock := [.rejected (receipt r), .busy [0x00]]

/-- A stop token that goes out, and one that cannot (V44.9). -/
def stopAttempts : List StopAttempt := [.sent stopToken, .busy [0x00]]

/-- A field of the next state, if there is one. -/
def seen {α : Type} (o : Answer) (f : State → α) : Option α := (nextOf o).map f

/-- Why an answer is no next state. -/
def stopOf : Answer → Option (Fault ⊕ Refusal)
  | .next _ => none
  | .fault r => some (.inl r)
  | .refused r => some (.inr r)

/-! ### One step -/

/-- V41.2: all three counters in one step, the zero stays. -/
theorem test_tick : seen (exec .tick { State.reset with tmr := { neg := 1000, tok := 0, rdy := 3 } }) (·.tmr) =
    some { neg := 999, tok := 0, rdy := 2 } := by decide

/-- V41.8: TICK at the floor. -/
theorem test_tick_floor : seen (exec .tick State.reset) id = some State.reset := by decide

/-- V40.7: DMA_DONE ok puts nothing on the wire and leaves CS. -/
theorem test_dmaDone : seen (exec (.dmaDone true) (transferring .busy .read false [])) (fun t => (t.dmast, t.cs, t.trace)) =
    some (.success, false, [.dmaStop, .flush]) := by decide

/-- V43.11: STATUS after reset. -/
theorem test_status : seen (exec (.status 0) (State.reset.withSched (engineTurns 1))) (·.out.sval.bits) = some 0b001 := by decide

/-- V43.1: no medium: `011`, no exchange, SPEED untouched. -/
theorem test_initCard_no_medium :
    seen (exec (.initCard 0) { ready .sd2Block [] with
      env := { Outside.default with senseNoMedium := true }, sched := engineTurns 6 })
      (fun t => (t.out.sval.bits, t.ctype, t.speed, t.trace)) = some (0b011, .noCard, .high, []) := by decide

/-- V44.1 rows 1, 3, 4: the order of the gate's tests. -/
theorem test_gate_count_first : seen (exec (.read 0 0x2000 5 0) (State.reset.withSched (engineTurns 3))) (·.out.res) =
    some .invalidParameter := by decide
theorem test_gate_before_protect :
    seen (exec (.write 0 0x2000 5 1) { State.reset with
      dstat := { noInit := true, noDisk := false, protect := true }, sched := engineTurns 3 }) (·.out.res) = some .notReady := by decide
theorem test_gate_protect :
    seen (exec (.write 0 0x2000 5 1) { State.reset with
      dstat := { noInit := false, noDisk := false, protect := true }, sched := engineTurns 3 }) (·.out.res) =
      some .writeProtected := by decide

/-- V45.7 (c): the guard answers while a finished transfer awaits its cleanup. -/
theorem test_guard : seen (exec (.startReadDma 0 0x5000 9 1) ((transferring .success .read false []).withSched (engineTurns 4)))
    (fun t => (t.out.res, t.dmast, t.trace)) = some (.notReady, .success, []) := by decide

/-- V45.9 and V45.1. -/
theorem test_poll_busy : seen (exec (.pollStatus 0) ((transferring .busy .read false []).withSched (engineTurns 2)))
    (fun t => (t.out.res, t.dmast)) = some (.notReady, .busy) := by decide
theorem test_poll_idle : seen (exec (.pollStatus 0) ((ready .sd2 []).withSched (engineTurns 2))) (·.out.res) = some .ok := by decide

/-- V45.2: after Error on a multi-block read CMD12 and a deselect, Error, the card released. -/
theorem test_poll_error :
    seen (exec (.pollStatus 0) ((transferring .error .read true ([0, 0, 0, 0, 0, 0, 0x55, 0xFF, 0x00] ++ [0xFF])).withSched (engineTurns 20)))
      (fun t => (t.out.res, t.dmast, t.atc.live, t.cs, t.trace.drop 6)) =
      some (.error, .idle, false, true, [.xchg 0xFF 0x55, .xchg 0xFF 0xFF, .xchg 0xFF 0x00, .cs true, .xchg 0xFF 0xFF]) := by decide

/-- V46.4, V46.9, V46.10. -/
theorem test_ioctl_size : seen (exec .ioctlGetSectorSize ((ready .sd2 []).withSched (engineTurns 2))) (fun t => (t.out.res, t.out.val)) =
    some (.ok, 512) := by decide
theorem test_ioctl_malformed : seen (exec (.ioctlMalformedBit3 0x09) ((ready .sd2 []).withSched (engineTurns 2))) (·.out.res) =
    some .invalidParameter := by decide
theorem test_ioctl_not_ready : seen (exec (.ioctlMalformedBit3 0x09) (State.reset.withSched (engineTurns 2))) (·.out.res) =
    some .notReady := by decide

/-- V46.11: no step. -/
theorem test_ioctl_erase : stopOf (exec .ioctlGetEraseBlockSize (ready .sd2 [])) = some (.inr .eraseBlockSizeUnspecified) := by decide

/-- D34: a reserved code. -/
theorem test_reserved : seen (exec (.reservedOpBit7 0 0xFF) (State.reset.withSched (engineTurns 1))) (·.out.res) =
    some .invalidParameter := by decide

/-- V42.2: deselect, select, the frame of CMD17, the response in the first poll. -/
theorem test_cmd17 :
    seen (exec (.cmd17 0xA00) ((doing [.command 0x11 0xA00] [0xFF, 0xFF, 1, 2, 3, 4, 5, 6, 0x00]).withSched (engineTurns 30)))
      (fun t => (t.wk.r1, t.cs, t.trace)) =
      some (0x00, false, [.cs true, .xchg 0xFF 0xFF, .cs false, .xchg 0xFF 0xFF, .xchg 0x51 1, .xchg 0x00 2, .xchg 0x00 3, .xchg 0x0A 4,
        .xchg 0x00 5, .xchg 0x01 6, .xchg 0xFF 0x00]) := by decide

/-- V42.4: the tenth byte of the poll is the response, bit 7 set or not; the eleventh is never fetched. -/
theorem test_poll_runs_out :
    seen (exec (.cmd17 0xA00) ((doing [.command 0x11 0xA00] ([0xFF, 0xFF, 0, 0, 0, 0, 0, 0] ++ List.replicate 9 0xFF ++ [0xC1, 0x00])).withSched
      (engineTurns 30))) (fun t => (t.wk.r1, t.env.card)) = some (0xC1, [0x00]) := by decide

/-- V42.5: the stuff byte behind CMD12 is discarded though its bit 7 is clear; no deselect, no select. -/
theorem test_cmd12 :
    seen (exec .cmd12 ((doing [.command 0x0C 0] [0, 0, 0, 0, 0, 0, 0x7F, 0xFF, 0x00]).withSched (engineTurns 30)))
      (fun t => (t.wk.r1, t.tmr.rdy, t.trace.drop 6)) = some (0x00, 0, [.xchg 0xFF 0x7F, .xchg 0xFF 0xFF, .xchg 0xFF 0x00]) := by decide

/-- V42.6: CMD55 rejected, ACMD41 is not sent. -/
theorem test_acmd41_rejected :
    seen (exec (.acmd41 true) ((doing [.command 0xA9 0x40000000] [0xFF, 0xFF, 0, 0, 0, 0, 0, 0, 0xFF, 0x05]).withSched (engineTurns 30)))
      (fun t => (t.wk.r1, t.trace.drop 4)) =
      some (0x05, [.xchg 0x77 0, .xchg 0 0, .xchg 0 0, .xchg 0 0, .xchg 0 0, .xchg 1 0, .xchg 0xFF 0xFF, .xchg 0xFF 0x05]) := by decide

/-- V40.5: the ready byte counts though the counter has run out. -/
theorem test_ready_before_expiry : seen (exec .filler (doing [.exchange .ready] [])) (·.wk.flag) = some true := by decide

/-- V44.2: another byte than filler ends the token wait at once. -/
theorem test_bad_token : seen (engineStep (doing [.exchange .token] [0x05])) (fun t => (t.wk.flag, t.todo)) = some (false, []) := by decide

/-- R104 (d), on a port: `05` where a token is awaited; R102: a data response that is not accepted. -/
theorem test_other_token : seen (step ((doing [.exchange .token] []).withSched [.port .token [0x05]])) (fun t => (t.wk.flag, t.todo)) =
    some (false, []) := by decide
theorem test_rejected_data : seen (step ((doing [.exchange .response] []).withSched [.port .dataresp [0xEB]])) (fun t => (t.wk.flag, t.todo)) =
    some (false, []) := by decide

/-- R105: both strobes at once are both events. -/
theorem test_both_strobes :
    seen (step ({ transferring .busy .read false [] with tmr := { neg := 2, tok := 0, rdy := 0 }, sched := [.port .event [0b111]] }))
      (fun t => (t.tmr.neg, t.dmast)) = some (1, .success) := by decide

/-- R72 (a): a byte that HOST stored before the transfer is the byte DMAENG sends. -/
theorem test_dma_sends_buffer :
    seen (runSteps 2 { transferring .busy .write false [0xFF] with mem := [(0x4001, 0x5A)], sched := [.dma (.load 1), .dma .send] }) (·.trace) =
      some [.dmaXchg 0x5A 0xFF] := by decide

/-- V44.5, V44.11, R68, V44.10: the sector address. -/
theorem test_scaled_address : scaledAddr .sd1 5 = 0xA00 ∧ scaledAddr .sd2Block 0x12345 = 0x12345 ∧ scaledAddr .sd2 0x00800001 = 0x200 := by
  decide

/-- V46.1 and V46.2: the capacity of a CSD of version 1 and of version 0. -/
theorem test_csd :
    decodeCsd #v[0x40, 0x0E, 0x00, 0x32, 0x5B, 0x59, 0x00, 0x00, 0x3B, 0x37, 0x7F, 0x80, 0x0A, 0x40, 0x40, 0xAF] = some 0x00ECE000 ∧
    decodeCsd #v[0x00, 0x26, 0x00, 0x32, 0x5F, 0x59, 0x83, 0xD3, 0xED, 0xB7, 0xFF, 0x9F, 0x16, 0x40, 0x00, 0x01] = some 0x001EA000 := by
  decide

/-- V46.3, V46.5, V46.6, V46.7. -/
theorem test_csd_corners :
    decodeCsd #v[0x80, 0x0E, 0x00, 0x32, 0x5B, 0x59, 0x00, 0x00, 0x3B, 0x37, 0x7F, 0x80, 0x0A, 0x40, 0x40, 0xAF] = none ∧
    decodeCsd #v[0, 0, 0, 0, 0, 0x02, 0, 0, 0, 0, 0, 0, 0, 0, 0, 0] = none ∧
    decodeCsd #v[0x40, 0, 0, 0, 0, 0, 0, 0x3F, 0xFF, 0xFF, 0, 0, 0, 0, 0, 0] = some 0 ∧
    decodeCsd #v[0x7F, 0, 0, 0, 0, 0, 0, 0xC0, 0, 0, 0, 0, 0, 0, 0, 0] = some 1024 := by decide

/-- R63 (b): a buffer that runs over the top of the address space goes on at 0; the canonical form holds one list for each contents. -/
theorem test_memory :
    bufferAddr 0xFFFFFFFF 1 = 0 ∧ memWrite [(3, 7)] 0 9 = [(0, 9), (3, 7)] ∧ memWrite [(0, 9), (3, 7)] 3 0 = [(0, 9)] := by decide

/-- R25: a result register the operation did not write holds no value. -/
theorem test_take : stopOf (step (State.reset.withSched [.host .takeRes])) = some (.inl .noValue) := by decide

/-- V70.2: the first operation after reset is a READ: NotReady. -/
theorem test_step_read :
    seen (step (State.reset.withSched (.port .hostop [0x02, 0, 0, 0x20, 0, 0, 5, 0, 0, 0, 1, 0, 0, 0] :: engineTurns 4)))
      (fun t => (t.out.res, t.isIdle)) = some (.notReady, true) := by decide

/-- A word of each format placed where the next step fetches it is run, right after reset. -/
theorem test_fetch_words : ∀ p ∈ [(16, 0x0002), (16, 0x0307), (2, 0x2), (48, 0x400000000095), (8, 0xFE), (8, 0x7F), (3, 0x4)],
    (nextOf (step (State.reset.withFetchWord p.1 p.2))).isSome = true := by decide

/-- A byte whose exchange is not answered stays where it is (40_bus_transport.md R136; log entry 14). -/
theorem test_dma_unanswered :
    let j : DmaJob := { dir := .write, buf := 0x4000, n := 1, fetched := [0x12] }
    let s := { transferring .busy .write false [] with env := { Outside.default with responsive := false }, job := some j }
    seen (step (s.withSched [.dma .send])) (fun t => (t.job, t.trace)) = some (some j, []) := by decide

/-! ### Witnesses

For each statement of Certificates/Slice0/Obligations.lean that has hypotheses, a state and operands that meet all of them together; for a
statement with several clauses, one for each. A statement without hypotheses has none here. -/

theorem seq_ok {r : Byte} (h : isResponse r = true) : (seq r).ok :=
  ⟨fun _ hb => (by cases hb), rfl, (by decide : 1 < 10), fun b hb => (by rw [List.mem_singleton.1 hb]; decide), .inl h⟩

theorem silent_ok : silent.ok := ⟨fun _ hb => (by cases hb), rfl, by decide, by decide, .inr rfl⟩

theorem staysBusy_zero : staysBusy [0x00] := ⟨by decide, by decide⟩

theorem appSeq_ok {r : Byte} (h : isResponse r = true) : (appSeq r).ok := ⟨seq_ok (by decide), seq_ok h⟩

theorem lostApp_ok : ∀ p ∈ lostApps, p.ok := by
  intro p hp
  simp only [lostApps, List.mem_cons, List.not_mem_nil, or_false] at hp
  rcases hp with rfl | rfl | rfl | rfl
  · exact ⟨staysBusy_zero, silent_ok⟩
  · exact ⟨seq_ok (by decide), silent_ok⟩
  · exact ⟨seq_ok (by decide), staysBusy_zero⟩
  · exact ⟨seq_ok (by decide), silent_ok⟩

/-- The hints the witnesses use: one that is accepted, and those that are lost. -/
def hints : List AppReply := appSeq 0x00 :: lostApps

theorem hint_ok : ∀ p ∈ hints, p.ok := List.forall_mem_cons.2 ⟨appSeq_ok (by decide), lostApp_ok⟩

theorem stopSeq_ok : ∀ p ∈ stopSeqs, p.ok := by
  intro p hp
  simp only [stopSeqs, List.mem_cons, List.not_mem_nil, or_false] at hp
  rcases hp with rfl | rfl
  · exact ⟨rfl, by decide, by decide, .inl (by decide)⟩
  · exact ⟨rfl, by decide, by decide, .inr rfl⟩

theorem receipt_ok (r : Byte) : (receipt r).ok := 
  ⟨fun b hb => (by rw [List.mem_singleton.1 hb]; decide), List.length_replicate⟩

theorem stopToken_ok : stopToken.ok := fun b hb => (by rw [List.mem_singleton.1 hb]; decide)

theorem badToken_ok : ∀ b ∈ badTokens, b.ok := by
  intro b hb
  simp only [badTokens, List.mem_cons, List.not_mem_nil, or_false] at hb
  rcases hb with rfl | rfl
  · exact ⟨by decide, by decide⟩
  · trivial

theorem rejection_ok {r : Byte} (h : isResponse r = true) (h0 : r ≠ 0x00) : ∀ p ∈ rejections r, p.ok ∧ p.r1 ≠ 0x00 := by
  intro p hp
  simp only [rejections, List.mem_cons, List.not_mem_nil, or_false] at hp
  rcases hp with rfl | rfl | rfl
  · exact ⟨seq_ok h, h0⟩
  · exact ⟨silent_ok, by decide⟩
  · exact ⟨staysBusy_zero, by decide⟩

theorem badBlock_ok : ∀ q ∈ badBlocks 0xEB, q.ok := by
  intro q hq
  simp only [badBlocks, List.mem_cons, List.not_mem_nil, or_false] at hq
  rcases hq with rfl | rfl
  · exact ⟨receipt_ok _, by decide⟩
  · exact staysBusy_zero

theorem stopAttempt_ok : ∀ p ∈ stopAttempts, p.ok := by
  intro p hp
  simp only [stopAttempts, List.mem_cons, List.not_mem_nil, or_false] at hp
  rcases hp with rfl | rfl
  · exact stopToken_ok
  · exact staysBusy_zero

theorem block_whole (n : Nat) (b : Byte) : wholeBlocks (List.replicate n (block b)) := by
  intro p hp; rw [(List.mem_replicate.1 hp).2]; exact List.length_replicate

theorem reset_inv : State.reset.Inv :=
  ⟨rfl, by decide, rfl, ⟨by decide, by decide⟩, by decide, by decide⟩

/-- DecodeOfEncode, at the ends of a row's range. -/
theorem test_witness_DecodeOfEncode : (Instr.ioctlMalformedBit3 0x08).wellFormed = true ∧ (Instr.ioctlMalformedBit3 0x0F).wellFormed = true ∧
    (Instr.reservedOpBit7 0xFF 0x80).wellFormed = true ∧ (Instr.dataAccepted 0xE5).wellFormed = true := by decide

/-- EncodeOfDecode. -/
theorem test_witness_EncodeOfDecode : decode .cmdframe [0x69, 0x40, 0, 0, 0, 0x01, 0xFF] = .ok (.acmd41 true, [0xFF]) := rfl

/-- EveryHostWordDecodes: the codes and selectors where its clauses meet. -/
theorem test_witness_EveryHostWordDecodes : (List.replicate 12 (0 : Byte)).length = 12 ∧ (0x08 : Byte) ≤ 0x08 ∧ (0x08 : Byte) ≤ 0xFF ∧
    ((0x00 : Byte) = 0x00 ∨ (0x04 : Byte) ≤ 0x00) ∧ ((0x04 : Byte) = 0x00 ∨ (0x04 : Byte) ≤ 0x04) ∧ (0x01 : Byte) ≠ 0x00 ∧
    (0x01 : Byte) < 0x04 ∧ (0x03 : Byte) < 0x04 ∧
    decodedInstr .hostop [0x05, 9, 1, 2, 3, 4, 5, 6, 7, 8, 9, 10, 11, 12] = some (.startWriteDma 9 0x04030201 0x08070605 0x0C0B0A09) := by
  decide

/-- StepKeepsInvariant: a STATUS from reset. -/
theorem test_witness_StepKeepsInvariant :
    State.Inv (State.reset.withSched [.port .hostop [0x01, 0]]) ∧ ∃ t, step (State.reset.withSched [.port .hostop [0x01, 0]]) = .next t :=
  ⟨⟨reset_inv.memory, reset_inv.owned, reset_inv.phase⟩, _, rfl⟩

/-- BetweenOperations: after one TICK. -/
theorem test_witness_BetweenOperations : ∃ s, runSteps 1 ((State.resetWith Outside.default).withSched [.tick]) = .next s ∧ s.isIdle = true :=
  ⟨_, rfl, by decide⟩

/-- DmaStatusTransitions, one clause each: ENGINE at reset, DMA_DONE, TICK, DMAENG. -/
theorem test_witness_DmaStatusTransitions :
    (State.reset.Inv ∧ ∃ t, engineStep State.reset = .next t) ∧
    (∃ t, exec (.dmaDone false) (transferring .busy .read false []) = .next t) ∧ (∃ t, exec .tick State.reset = .next t) ∧
    (∃ t, dmaStep (.store 511 0xAB) (transferring .busy .read false []) = .next t) :=
  ⟨⟨reset_inv, _, rfl⟩, ⟨_, rfl⟩, ⟨_, rfl⟩, ⟨_, rfl⟩⟩

/-- StepRunsDecoded, one clause each. -/
theorem test_witness_StepRunsDecoded :
    (State.reset.withSched [.port .hostop [0x01, 0]]).sched = [.port .hostop [0x01, 0]] ∧ State.reset.isIdle = true ∧
    decode .hostop [0x01, 0] = .ok (.status 0, []) ∧ encode (.status 0) = [0x01, 0] ∧ (Instr.status 0).wellFormed = true ∧
    (doing [.exchange .ready] []).isIdle = false ∧ (State.reset.withSched [.tick]).sched = [.tick] ∧
    (State.reset.withSched [.dmaDone true]).sched = [.dmaDone true] ∧ (State.reset.withSched [.engine]).sched = [.engine] ∧
    State.reset.sched = [] ∧ (State.reset.withSched [.host .takeRes]).sched = [.host .takeRes] ∧
    ((doing [.exchange .ready] []).withSched [.host .takeRes]).isIdle = false ∧
    (State.reset.withSched [.dma .send]).sched = [.dma .send] ∧
    (State.reset.withSched [.port .event [0b111]]).sched = [.port .event [if true then 0b111 else 0b011]] :=
  ⟨rfl, by decide, rfl, rfl, rfl, by decide, rfl, rfl, rfl, rfl, rfl, by decide, rfl, rfl⟩

/-- IssueRefused, its clauses; the second inside the follow-up of POLL_STATUS. -/
theorem test_witness_IssueRefused :
    ((Instr.initCard 0).format = .hostop ∧ (doing [.exchange .ready] []).isIdle = false ∧ (doing [.exchange .ready] []).dmast = .idle) ∧
    (let s := (transferring .success .read false []).call deselect .pollClosed
     s.isIdle = false ∧ s.dmast ≠ .idle ∧
      Instr.reservedOpBit7 0 0xFF ∈ [Instr.status 0, .pollStatus 0, .startReadDma 0 0 0 0, .startWriteDma 0 0 0 0] ++ reservedRows 0 0xFF) ∧
    ((transferring .success .read false []).dmast ≠ .idle ∧
      Instr.ioctlMalformed0 ∈ [Instr.initCard 0, .read 0 0 0 0, .write 0 0 0 0] ++ queryRows.map (·.1) ++ malformedRows 0) := by
  decide

/-- UnansweredExchange. -/
theorem test_witness_UnansweredExchange :
    let s : State := { doing [.exchange .ready] [] with env := { Outside.default with responsive := false } }
    s.todo = [.exchange .ready] ∧ s.env.card = [] ∧ s.env.responsive = false ∧ ∀ t ∈ [Turn.engine, .tick], t = .engine ∨ t = .tick :=
  ⟨rfl, rfl, rfl, by decide⟩

/-- ArmThenTicks: another counter. -/
theorem test_witness_ArmThenTicks : Timer.neg ≠ Timer.rdy := by decide

/-- DmaDone, its three clauses. -/
theorem test_witness_DmaDone : (transferring .busy .write true []).dmast = .busy ∧ State.reset.dmast ≠ .busy ∧
    ∃ t, exec (.dmaDone true) (transferring .busy .write true []) = .next t := ⟨rfl, by decide, _, rfl⟩

/-- StatusCopies: two STATUS one behind the other while a transfer runs. -/
theorem test_witness_StatusCopies : (transferring .busy .read false []).isIdle = true ∧
    ∃ t u, exec (.status 1) ((transferring .busy .read false []).withSched (engineTurns 1 ++ (engineTurns 1 ++ []))) = .next t ∧
      exec (.status 2) t = .next u := ⟨by decide, _, _, rfl, rfl⟩

/-- GateOrder, its four clauses, with the other tests of the gate true as well. -/
theorem test_witness_GateOrder :
    let s : State := { State.reset with dstat := { noInit := true, noDisk := false, protect := true } }
    let p : State := { ready .sd2 [] with dstat := { noInit := false, noDisk := false, protect := true } }
    s.isIdle = true ∧ (BlockOp.write.isDma = false → s.dmast = .idle) ∧ (1 : Word) ≠ 0 ∧ s.dstat.noInit = true ∧ p.isIdle = true ∧
      p.dstat.noInit = false ∧ BlockOp.write.isWrite = true ∧ p.dstat.protect = true ∧ (BlockOp.read.isWrite = true → p.dstat.protect = false) := by
  decide

/-- StartGuard: a transfer that runs, one that has ended. -/
theorem test_witness_StartGuard : ∀ d ∈ [DmaStatus.busy, .success, .error],
    BlockOp.startWrite.isDma = true ∧ (transferring d .read false []).isIdle = true ∧ (1 : Word) ≠ 0 ∧
    (transferring d .read false []).dstat.noInit = false ∧
    (BlockOp.startWrite.isWrite = true → (transferring d .read false []).dstat.protect = false) ∧
    ((transferring d .read false []).dmast ≠ .idle ∨ (transferring d .read false []).atc.live = true) := by decide

/-- IoctlGate, both clauses: a legal selector and the malformed ones at the ends of their rows. -/
theorem test_witness_IoctlGate : State.reset.isIdle = true ∧ State.reset.dmast = .idle ∧ State.reset.dstat.noInit = true ∧
    (Instr.ioctlGetEraseBlockSize, (0x03 : Byte)) ∈ queryRows ∧ Instr.ioctlMalformed0 ∈ malformedRows 0 ∧
    (ready .sd2 []).dstat.noInit = false ∧ Instr.ioctlMalformed4to7 0x04 ∈ malformedRows 0x04 ∧
    (Instr.ioctlMalformed4to7 0x04).wellFormed = true ∧ Instr.ioctlMalformedBit7 0xFF ∈ malformedRows 0xFF ∧
    (Instr.ioctlMalformedBit7 0xFF).wellFormed = true := by decide

/-- SectorSize, EraseBlockSize (both clauses), ReservedOperation. -/
theorem test_witness_SectorSize : (ready .sd2 []).isIdle = true ∧ (ready .sd2 []).dmast = .idle ∧ (ready .sd2 []).dstat.noInit = false := by
  decide
theorem test_witness_EraseBlockSize : (ready .sd2 []).isIdle = true ∧ (ready .sd2 []).dmast = .idle ∧ (ready .sd2 []).dstat.noInit = false ∧
    State.reset.isIdle = true ∧ State.reset.dmast = .idle ∧ State.reset.dstat.noInit = true := by decide
theorem test_witness_ReservedOperation : (transferring .busy .read false []).isIdle = true ∧
    Instr.reservedOpBit3 0 0x08 ∈ reservedRows 0 0x08 ∧ Instr.reservedOpBit7 0 0xFF ∈ reservedRows 0 0xFF := by decide

/-- The CSD of V46.1 as its packet. -/
def csdPacket : Packet :=
  { fill := 1, crc0 := 0x12, crc1 := 0x34,
    data := [0x40, 0x0E, 0x00, 0x32, 0x5B, 0x59, 0x00, 0x00, 0x3B, 0x37, 0x7F, 0x80, 0x0A, 0x40, 0x40, 0xAF] }

/-- SectorCount: V46.1; a start token that does not come; V46.8, a poll that runs out and a failed `select()`. -/
theorem test_witness_SectorCount :
    let s := ready .sd2Block ((seq 0x00).bytes ++ (csdPacket.bytes ++ 0xFF :: []))
    s.isIdle = true ∧ s.dmast = .idle ∧ s.dstat.noInit = false ∧ (seq 0x00).ok ∧ (seq 0x00).r1 = 0x00 ∧
      (∃ csd : Vector Byte 16, csdPacket.data = csd.toList) ∧ s.env.card = (seq 0x00).bytes ++ (csdPacket.bytes ++ 0xFF :: []) :=
  ⟨rfl, rfl, rfl, seq_ok (by decide), rfl, ⟨#v[0x40, 0x0E, 0x00, 0x32, 0x5B, 0x59, 0x00, 0x00, 0x3B, 0x37, 0x7F, 0x80, 0x0A, 0x40,
    0x40, 0xAF], rfl⟩, rfl⟩
theorem test_witness_SectorCount_token : ∀ b ∈ badTokens,
    let s := ready .sd2Block ((seq 0x00).bytes ++ (b.bytes ++ 0xFF :: []))
    s.isIdle = true ∧ s.dmast = .idle ∧ s.dstat.noInit = false ∧ (seq 0x00).ok ∧ (seq 0x00).r1 = 0x00 ∧ b.ok ∧
      s.env.card = (seq 0x00).bytes ++ (b.bytes ++ 0xFF :: []) :=
  fun b hb => ⟨rfl, rfl, rfl, seq_ok (by decide), rfl, badToken_ok b hb, rfl⟩
theorem test_witness_SectorCount_rejected : ∀ p ∈ rejections 0x05,
    let s := ready .sd2Block (p.bytes ++ 0xFF :: [])
    s.isIdle = true ∧ s.dmast = .idle ∧ s.dstat.noInit = false ∧ p.ok ∧ p.r1 ≠ 0x00 ∧ s.env.card = p.bytes ++ 0xFF :: [] :=
  fun p hp => ⟨rfl, rfl, rfl, (rejection_ok (by decide) (by decide) p hp).1, (rejection_ok (by decide) (by decide) p hp).2, rfl⟩

/-- CsdArithmetic, its four clauses, the second and the third at the boundary of `n`: 8 and 9. -/
theorem test_witness_CsdArithmetic :
    let v (b0 b5 : Byte) : Vector Byte 16 := #v[b0, 0, 0, 0, 0, b5, 0, 0, 0, 0, 0, 0, 0, 0, 0, 0]
    (v 0x7F 0)[0].toNat / 64 = 1 ∧
    ((v 0x3F 6)[0].toNat / 64 = 0 ∧ (v 0x3F 6)[5].toNat % 16 + (v 0x3F 6)[10].toNat / 128 + (v 0x3F 6)[9].toNat % 4 * 2 + 2 < 9) ∧
    ((v 0 7)[0].toNat / 64 = 0 ∧ 9 ≤ (v 0 7)[5].toNat % 16 + (v 0 7)[10].toNat / 128 + (v 0 7)[9].toNat % 4 * 2 + 2) ∧
    2 ≤ (v 0x80 0)[0].toNat / 64 ∧ 2 ≤ (v 0xFF 0)[0].toNat / 64 := by decide

/-- PollIdleOrBusy, PollSingle, PollManyRead, PollManyWrite. -/
theorem test_witness_PollIdleOrBusy : State.reset.isIdle = true ∧ State.reset.dmast = .idle ∧
    (transferring .busy .read true []).isIdle = true ∧ (transferring .busy .read true []).dmast = .busy := by decide
theorem test_witness_PollSingle : ∀ d ∈ [DmaStatus.success, .error],
    let s := transferring d .write false [0xFF]
    s.isIdle = true ∧ (s.dmast = .success ∨ s.dmast = .error) ∧ s.atc.live = true ∧ s.atc.multi = false ∧ s.env.card = 0xFF :: [] := by
  decide
theorem test_witness_PollManyRead : ∀ p ∈ stopSeqs,
    let s := transferring .success .read true (p.bytes ++ 0xFF :: [])
    s.isIdle = true ∧ (s.dmast = .success ∨ s.dmast = .error) ∧ s.atc.live = true ∧ s.atc.multi = true ∧ s.atc.dir = .read ∧ p.ok ∧
      s.env.card = p.bytes ++ 0xFF :: [] :=
  fun p hp => ⟨rfl, .inl rfl, rfl, rfl, rfl, stopSeq_ok p hp, rfl⟩
theorem test_witness_PollManyWrite : ∀ p ∈ stopAttempts,
    let s := transferring .success .write true (p.bytes ++ 0xFF :: [])
    s.isIdle = true ∧ (s.dmast = .success ∨ s.dmast = .error) ∧ s.atc.live = true ∧ s.atc.multi = true ∧ s.atc.dir = .write ∧ p.ok ∧
      s.env.card = p.bytes ++ 0xFF :: [] :=
  fun p hp => ⟨rfl, .inl rfl, rfl, rfl, rfl, stopAttempt_ok p hp, rfl⟩

/-- StartReadDma and StartReadBadToken, for one block and for several. -/
theorem test_witness_StartReadDma : ∀ count ∈ [(1 : Word), 4],
    let s := ready .sd2Block ((seq 0x00).bytes ++ (List.replicate 1 0xFF ++ 0xFE :: []))
    s.isIdle = true ∧ s.dmast = .idle ∧ s.atc.live = false ∧ s.dstat.noInit = false ∧ count ≠ 0 ∧ (seq 0x00).ok ∧ (seq 0x00).r1 = 0x00 ∧
      s.env.card = (seq 0x00).bytes ++ (List.replicate 1 0xFF ++ 0xFE :: []) := by
  intro count hc
  refine ⟨rfl, rfl, rfl, rfl, ?_, seq_ok (by decide), rfl, rfl⟩
  rintro rfl; exact absurd hc (by decide)
theorem test_witness_StartReadBadToken : ∀ count ∈ [(1 : Word), 4], ∀ b ∈ badTokens, ∀ st ∈ stopSeqs,
    let s := ready .sd2Block ((seq 0x00).bytes ++ (b.bytes ++ ((if count = 1 then [] else st.bytes) ++ 0xFF :: [])))
    s.isIdle = true ∧ s.dmast = .idle ∧ s.atc.live = false ∧ s.dstat.noInit = false ∧ count ≠ 0 ∧ (seq 0x00).ok ∧ (seq 0x00).r1 = 0x00 ∧
      b.ok ∧ st.ok ∧ s.env.card = (seq 0x00).bytes ++ (b.bytes ++ ((if count = 1 then [] else st.bytes) ++ 0xFF :: [])) := by
  intro count hc b hb st hst
  refine ⟨rfl, rfl, rfl, rfl, ?_, seq_ok (by decide), rfl, badToken_ok b hb, stopSeq_ok st hst, rfl⟩
  rintro rfl; exact absurd hc (by decide)

/-- StartWriteDma: one block, and several with the hint (program P3), be it lost. -/
theorem test_witness_StartWriteDma : ∀ count ∈ [(1 : Word), 2], ∀ h ∈ hints,
    let s := ready .sd2Block (hintBytes .sd2Block count h ++ ((seq 0x00).bytes ++ ([0x00] ++ 0xFF :: 0xFF :: [])))
    s.isIdle = true ∧ s.dmast = .idle ∧ s.atc.live = false ∧ s.dstat.noInit = false ∧ s.dstat.protect = false ∧ count ≠ 0 ∧
      h.ok ∧ (seq 0x00).ok ∧ (seq 0x00).r1 = 0x00 ∧ (∀ b ∈ [(0x00 : Byte)], cardIsReady b = false) ∧
      s.env.card = hintBytes s.ctype count h ++ ((seq 0x00).bytes ++ ([0x00] ++ 0xFF :: 0xFF :: [])) := by
  intro count hc h hh
  refine ⟨rfl, rfl, rfl, rfl, rfl, ?_, hint_ok h hh, seq_ok (by decide), rfl, by decide, rfl⟩
  rintro rfl; exact absurd hc (by decide)

/-- StartWriteDma with a card that stays busy: one block, and several with the stop token sent or not. -/
theorem test_witness_StartWriteDma_one :
    let s := ready .sd2Block ((seq 0x00).bytes ++ ([0x00] ++ 0xFF :: []))
    s.isIdle = true ∧ s.dmast = .idle ∧ s.atc.live = false ∧ s.dstat.noInit = false ∧ s.dstat.protect = false ∧ (seq 0x00).ok ∧
      (seq 0x00).r1 = 0x00 ∧ staysBusy [0x00] ∧ s.env.card = (seq 0x00).bytes ++ ([0x00] ++ 0xFF :: []) :=
  ⟨rfl, rfl, rfl, rfl, rfl, seq_ok (by decide), rfl, staysBusy_zero, rfl⟩
theorem test_witness_StartWriteDma_many : ∀ st ∈ stopAttempts, ∀ h ∈ hints,
    let s := ready .sd2Block (hintBytes .sd2Block 2 h ++ ((seq 0x00).bytes ++ ([0x00] ++ (st.bytes ++ 0xFF :: []))))
    s.isIdle = true ∧ s.dmast = .idle ∧ s.atc.live = false ∧ s.dstat.noInit = false ∧ s.dstat.protect = false ∧ (2 : Word) ≠ 0 ∧
      (2 : Word) ≠ 1 ∧ h.ok ∧ (seq 0x00).ok ∧ (seq 0x00).r1 = 0x00 ∧ staysBusy [0x00] ∧ st.ok ∧
      s.env.card = hintBytes s.ctype 2 h ++ ((seq 0x00).bytes ++ ([0x00] ++ (st.bytes ++ 0xFF :: []))) :=
  fun st hst h hh => ⟨rfl, rfl, rfl, rfl, rfl, by decide, by decide, hint_ok h hh, seq_ok (by decide), rfl, staysBusy_zero,
    stopAttempt_ok st hst, rfl⟩

/-- StartRejected, for both start operations, every hint and every rejection. -/
theorem test_witness_StartRejected : ∀ o ∈ [BlockOp.startRead, .startWrite], ∀ p ∈ rejections 0x04, ∀ h ∈ hints,
    let s := ready .sd2Block ((if o.isWrite then hintBytes .sd2Block 2 h else []) ++ (p.bytes ++ 0xFF :: []))
    o.isDma = true ∧ s.isIdle = true ∧ s.dmast = .idle ∧ s.atc.live = false ∧ s.dstat.noInit = false ∧
      (o.isWrite = true → s.dstat.protect = false) ∧ (2 : Word) ≠ 0 ∧ h.ok ∧ (p.ok ∧ p.r1 ≠ 0x00) ∧
      s.env.card = (if o.isWrite then hintBytes s.ctype 2 h else []) ++ (p.bytes ++ 0xFF :: []) := by
  intro o ho p hp h hh
  refine ⟨?_, rfl, rfl, rfl, rfl, fun _ => rfl, by decide, hint_ok h hh, rejection_ok (by decide) (by decide) p hp, rfl⟩
  revert o; decide

/-- ReadOne (program P2's shape), ReadMany (the least number of blocks), ReadBroken (V44.5's shape for two blocks, V44.2 for
one). -/
theorem test_witness_ReadOne :
    let s := ready .sd1 ((seq 0x00).bytes ++ ((block 0x50).bytes ++ 0xFF :: []))
    s.isIdle = true ∧ s.dmast = .idle ∧ s.dstat.noInit = false ∧ (seq 0x00).ok ∧ (seq 0x00).r1 = 0x00 ∧ (block 0x50).data.length = 512 ∧
      s.env.card = (seq 0x00).bytes ++ ((block 0x50).bytes ++ 0xFF :: []) :=
  ⟨rfl, rfl, rfl, seq_ok (by decide), rfl, List.length_replicate, rfl⟩
theorem test_witness_ReadMany : ∀ st ∈ stopSeqs,
    let qs := List.replicate 2 (block 0x60)
    let s := ready .sd2Block ((seq 0x00).bytes ++ (packetBytes qs ++ (st.bytes ++ 0xFF :: [])))
    s.isIdle = true ∧ s.dmast = .idle ∧ s.dstat.noInit = false ∧ (seq 0x00).ok ∧ (seq 0x00).r1 = 0x00 ∧ wholeBlocks qs ∧ st.ok ∧
      2 ≤ qs.length ∧ qs.length < 2 ^ 32 ∧ s.env.card = (seq 0x00).bytes ++ (packetBytes qs ++ (st.bytes ++ 0xFF :: [])) :=
  fun st h => ⟨rfl, rfl, rfl, seq_ok (by decide), rfl, block_whole 2 _, stopSeq_ok st h, by decide, by decide, rfl⟩
theorem test_witness_ReadBroken : ∀ b ∈ badTokens, ∀ st ∈ stopSeqs,
    let qs := List.replicate 1 (block 0x60)
    let s := ready .sd2Block ((seq 0x00).bytes ++ (packetBytes qs ++ (b.bytes ++ (st.bytes ++ 0xFF :: []))))
    s.isIdle = true ∧ s.dmast = .idle ∧ s.dstat.noInit = false ∧ (seq 0x00).ok ∧ (seq 0x00).r1 = 0x00 ∧ wholeBlocks qs ∧ b.ok ∧
      st.ok ∧ qs.length < (2 : Word).toNat ∧
      s.env.card = (seq 0x00).bytes ++ (packetBytes qs ++ (b.bytes ++ ((if (2 : Word) = 1 then [] else st.bytes) ++ 0xFF :: []))) :=
  fun b hb st h => ⟨rfl, rfl, rfl, seq_ok (by decide), rfl, block_whole 1 _, badToken_ok b hb, stopSeq_ok st h, by decide, rfl⟩
theorem test_witness_ReadBroken_one : ∀ b ∈ badTokens, ∀ st ∈ stopSeqs,
    let s := ready .sd1 ((seq 0x00).bytes ++ (b.bytes ++ 0xFF :: []))
    s.isIdle = true ∧ s.dmast = .idle ∧ s.dstat.noInit = false ∧ (seq 0x00).ok ∧ (seq 0x00).r1 = 0x00 ∧ wholeBlocks [] ∧ b.ok ∧
      st.ok ∧ ([] : List Packet).length < (1 : Word).toNat ∧
      s.env.card = (seq 0x00).bytes ++ (packetBytes [] ++ (b.bytes ++ ((if (1 : Word) = 1 then [] else st.bytes) ++ 0xFF :: []))) :=
  fun b hb st h => ⟨rfl, rfl, rfl, seq_ok (by decide), rfl, block_whole 0 (0x00 : Byte), badToken_ok b hb, stopSeq_ok st h, by decide, rfl⟩

/-- BlockRejected, for READ and WRITE, every hint and every rejection. -/
theorem test_witness_BlockRejected : ∀ o ∈ [BlockOp.read, .write], ∀ p ∈ rejections 0x20, ∀ h ∈ hints,
    let s := ready .sd2Block ((if o.isWrite then hintBytes .sd2Block 2 h else []) ++ (p.bytes ++ 0xFF :: []))
    o.isDma = false ∧ s.isIdle = true ∧ s.dmast = .idle ∧ s.dstat.noInit = false ∧ (o.isWrite = true → s.dstat.protect = false) ∧
      (2 : Word) ≠ 0 ∧ h.ok ∧ (p.ok ∧ p.r1 ≠ 0x00) ∧
      s.env.card = (if o.isWrite then hintBytes s.ctype 2 h else []) ++ (p.bytes ++ 0xFF :: []) := by
  intro o ho p hp h hh
  refine ⟨?_, rfl, rfl, rfl, fun _ => rfl, by decide, hint_ok h hh, rejection_ok (by decide) (by decide) p hp, rfl⟩
  revert o; decide

/-- WriteOne (V44.6 and V44.7), WriteMany, WriteBroken (program P6). -/
theorem test_witness_WriteOne :
    let s := ready .sd1 ((seq 0x00).bytes ++ ((receipt 0xE5).bytes ++ 0xFF :: []))
    s.isIdle = true ∧ s.dmast = .idle ∧ s.dstat.noInit = false ∧ s.dstat.protect = false ∧ (seq 0x00).ok ∧ (seq 0x00).r1 = 0x00 ∧
      (receipt 0xE5).ok ∧ (receipt 0xE5).response &&& 0x1F = 0x05 ∧
      s.env.card = (seq 0x00).bytes ++ ((receipt 0xE5).bytes ++ 0xFF :: []) :=
  ⟨rfl, rfl, rfl, rfl, seq_ok (by decide), rfl, receipt_ok _, by decide, rfl⟩
theorem test_witness_WriteOne_bad : ∀ q ∈ badBlocks 0xEB,
    let s := ready .sd1 ((seq 0x00).bytes ++ (q.bytes ++ 0xFF :: []))
    s.isIdle = true ∧ s.dmast = .idle ∧ s.dstat.noInit = false ∧ s.dstat.protect = false ∧ (seq 0x00).ok ∧ (seq 0x00).r1 = 0x00 ∧ q.ok ∧
      s.env.card = (seq 0x00).bytes ++ (q.bytes ++ 0xFF :: []) :=
  fun q hq => ⟨rfl, rfl, rfl, rfl, seq_ok (by decide), rfl, badBlock_ok q hq, rfl⟩
theorem receipts_accepted {rs : List Byte} (h : ∀ r ∈ rs, r &&& 0x1F = 0x05) :
    ∀ q ∈ rs.map receipt, q.ok ∧ q.response &&& 0x1F = 0x05 := by
  intro q hq
  obtain ⟨r, hr, rfl⟩ := List.mem_map.1 hq
  exact ⟨receipt_ok r, h r hr⟩
theorem test_witness_WriteMany : ∀ st ∈ stopAttempts, ∀ h ∈ hints,
    let qs := [0xE5, 0x05].map receipt
    let s := ready .sd2 (hintBytes .sd2 2 h ++ ((seq 0x00).bytes ++ (receiptBytes qs ++ (st.bytes ++ 0xFF :: []))))
    s.isIdle = true ∧ s.dmast = .idle ∧ s.dstat.noInit = false ∧ s.dstat.protect = false ∧ h.ok ∧ (seq 0x00).ok ∧
      (seq 0x00).r1 = 0x00 ∧ (∀ q ∈ qs, q.ok ∧ q.response &&& 0x1F = 0x05) ∧ st.ok ∧ 2 ≤ qs.length ∧ qs.length < 2 ^ 32 ∧
      s.env.card = hintBytes s.ctype (BitVec.ofNat 32 qs.length) h ++ ((seq 0x00).bytes ++ (receiptBytes qs ++ (st.bytes ++ 0xFF :: []))) :=
  fun st hst h hh => ⟨rfl, rfl, rfl, rfl, hint_ok h hh, seq_ok (by decide), rfl, receipts_accepted (by decide), stopAttempt_ok st hst,
    by decide, by decide, rfl⟩
theorem test_witness_WriteBroken : ∀ q ∈ badBlocks 0xEB, ∀ st ∈ stopAttempts, ∀ h ∈ hints,
    let qs := [0xE5].map receipt
    let s := ready .sd2 (hintBytes .sd2 2 h ++ ((seq 0x00).bytes ++ (receiptBytes qs ++ (q.bytes ++ (st.bytes ++ 0xFF :: [])))))
    s.isIdle = true ∧ s.dmast = .idle ∧ s.dstat.noInit = false ∧ s.dstat.protect = false ∧ h.ok ∧ (seq 0x00).ok ∧
      (seq 0x00).r1 = 0x00 ∧ (∀ r ∈ qs, r.ok ∧ r.response &&& 0x1F = 0x05) ∧ q.ok ∧ st.ok ∧ (1 : Word) < 2 ∧
      qs.length < (2 : Word).toNat ∧
      s.env.card = hintBytes s.ctype 2 h ++ ((seq 0x00).bytes ++ (receiptBytes qs ++ (q.bytes ++ (st.bytes ++ 0xFF :: [])))) :=
  fun q hq st hst h hh => ⟨rfl, rfl, rfl, rfl, hint_ok h hh, seq_ok (by decide), rfl, receipts_accepted (by decide), badBlock_ok q hq,
    stopAttempt_ok st hst, by decide, by decide, rfl⟩

/-- SectorAddress: a read, a write of one block and one of several. -/
theorem test_witness_SectorAddress : ∀ o ∈ [BlockOp.read, .write, .startRead, .startWrite],
    let s : State := { ready .sd2 [] with pos := .act (.scale o), lat := { Latches.reset with count := 2 } }
    s.todo = [] ∧ s.pos = .act (.scale o) ∧ (BlockOp.read.isWrite = false) ∧ (BlockOp.write.isWrite = true ∧ s.lat.count ≠ 1) := by decide

/-- ReceivedBlocksInBuffer: two blocks over the top of the address space, the last byte of the second. -/
theorem test_witness_ReceivedBlocksInBuffer : Memory.wf [] = true ∧ wholeBlocks (List.replicate 2 (block 0x60)) ∧
    512 * (List.replicate 2 (block 0x60)).length ≤ 2 ^ 32 ∧ (List.replicate 2 (block 0x60))[1]? = some (block 0x60) ∧
    (block 0x60).data[511]? = some 0x60 ∧ ∀ k, k < 512 * (List.replicate 2 (block 0x60)).length → 0x400 ≠ (0xFFFFFF00 + k) % 2 ^ 32 := by
  refine ⟨rfl, block_whole 2 _, by decide, rfl, List.getElem?_replicate_of_lt (by decide), fun k hk => ?_⟩
  rw [List.length_replicate] at hk
  omega

/-- The bytes of power_up_clocks. -/
def clocks : List Byte := List.replicate 74 0xFF

/-- InitializeNoMedium. -/
theorem test_witness_InitializeNoMedium :
    let s : State := { ready .sd2Block [] with env := { Outside.default with senseNoMedium := true } }
    s.isIdle = true ∧ s.dmast = .idle ∧ s.env.senseNoMedium = true := by decide

theorem v2Path : onV2Path (seq 0x01) (seq 0x01) := ⟨seq_ok (by decide), rfl, seq_ok (by decide), rfl⟩

/-- CMD8 off the v2 path: rejected, not answered (V43.9), not let out. -/
def legacyReplies : List Attempt := rejections 0x05

theorem legacyPath {probe : AppReply} (h : probe.ok) : ∀ p8 ∈ legacyReplies, onLegacyPath (seq 0x01) p8 probe := by
  intro p8 h8
  refine ⟨seq_ok (by decide), rfl, (rejection_ok (r := 0x05) (by decide) (by decide) p8 h8).1, ?_, h⟩
  revert p8; decide

/-- A ready loop that goes on: answered "idle", and lost in each way. -/
def loopRounds : List AppReply := appSeq 0x01 :: lostApps

theorem notYet_rounds : notYet loopRounds :=
  List.forall_mem_cons.2 ⟨⟨appSeq_ok (by decide), by decide⟩, fun p hp => ⟨lostApp_ok p hp, by revert p; decide⟩⟩

/-- The last rounds of them, which take 500 TICK events. -/
theorem notYet_few : notYet (loopRounds.drop 2) := fun p hp => notYet_rounds p (List.mem_of_mem_drop hp)

/-- InitializeV2: program P1's shape, with rounds that are lost, and without a round. -/
theorem test_witness_InitializeV2 : ∀ rounds ∈ [[], loopRounds.drop 2, List.replicate 2 (appSeq 0x01)],
    let card := clocks ++ ((seq 0x01).bytes ++ ((seq 0x01).bytes ++ (0x00 :: 0x00 :: 0x01 :: 0xAA :: (appBytes rounds ++ ((appSeq 0x00).bytes ++
      ((seq 0x00).bytes ++ (0xC0 :: 0xFF :: 0x80 :: 0x00 :: 0xFF :: [])))))))
    let s := ready .noCard card
    s.isIdle = true ∧ s.dmast = .idle ∧ s.env.senseNoMedium = false ∧ clocks.length = 74 + s.env.extraDummies ∧
      onV2Path (seq 0x01) (seq 0x01) ∧ v2Ready rounds (appSeq 0x00) ∧ (seq 0x00).ok ∧ (seq 0x00).r1 = 0x00 ∧ s.env.card = card := by
  intro rounds h
  refine ⟨rfl, rfl, rfl, rfl, v2Path, ⟨?_, ?_, appSeq_ok (by decide), rfl⟩, seq_ok (by decide), rfl, rfl⟩
  · simp only [List.mem_cons, List.not_mem_nil, or_false] at h
    rcases h with rfl | rfl | rfl
    · exact fun _ h => nomatch h
    · exact notYet_few
    · exact fun p hp => by rw [(List.mem_replicate.1 hp).2]; exact ⟨appSeq_ok (by decide), by decide⟩
  · revert rounds; unfold windowOpen; decide

/-- InitializeSd1: program P2's shape, CMD8 answered in each way, with lost rounds where the window lets them. -/
theorem test_witness_InitializeSd1 : ∀ p8 ∈ legacyReplies,
    let rounds := if p8.ticks = 0 then loopRounds.drop 2 else [appSeq 0x01]
    let card := clocks ++ ((seq 0x01).bytes ++ (p8.bytes ++ ((appSeq 0x01).bytes ++ (appBytes rounds ++ ((appSeq 0x00).bytes ++
      ((seq 0x00).bytes ++ 0xFF :: []))))))
    let s := ready .noCard card
    s.isIdle = true ∧ s.dmast = .idle ∧ s.env.senseNoMedium = false ∧ clocks.length = 74 + s.env.extraDummies ∧
      onLegacyPath (seq 0x01) p8 (appSeq 0x01) ∧ (appSeq 0x01).r1 ≤ 1 ∧ sd1Ready p8 (appSeq 0x01) rounds (appSeq 0x00) ∧ (seq 0x00).ok ∧
      (seq 0x00).r1 = 0x00 ∧ s.env.card = card := by
  intro p8 h8
  refine ⟨rfl, rfl, rfl, rfl, legacyPath (appSeq_ok (by decide)) p8 h8, by decide, ⟨?_, ?_, appSeq_ok (by decide), rfl⟩, seq_ok (by decide),
    rfl, rfl⟩
  · split
    · exact notYet_few
    · exact fun p hp => by rw [List.mem_singleton.1 hp]; exact ⟨appSeq_ok (by decide), by decide⟩
  · revert p8; unfold windowOpen; decide

theorem notYetPlain_rejected : notYetPlain (rejections 0x01) := rejection_ok (by decide) (by decide)

theorem lostApp_rejected : ∀ p ∈ lostApps, 1 < p.r1 := by decide

/-- InitializeMmc: V43.5's shape, the probe lost in each way; and CMD8 not let out. -/
theorem test_witness_InitializeMmc : ∀ probe ∈ lostApps, ∀ p8 ∈ legacyReplies,
    let rounds := if p8.ticks + probe.ticks = 0 then rejections 0x01 else []
    let card := clocks ++ ((seq 0x01).bytes ++ (p8.bytes ++ (probe.bytes ++ (attemptBytes rounds ++ ((seq 0x00).bytes ++
      ((seq 0x00).bytes ++ 0xFF :: []))))))
    let s := ready .noCard card
    s.isIdle = true ∧ s.dmast = .idle ∧ s.env.senseNoMedium = false ∧ clocks.length = 74 + s.env.extraDummies ∧
      onLegacyPath (seq 0x01) p8 probe ∧ 1 < probe.r1 ∧ mmcReady p8 probe rounds (.answered (seq 0x00)) ∧ (seq 0x00).ok ∧
      (seq 0x00).r1 = 0x00 ∧ s.env.card = card := by
  intro probe hp p8 h8
  refine ⟨rfl, rfl, rfl, rfl, legacyPath (lostApp_ok probe hp) p8 h8, lostApp_rejected probe hp, ⟨?_, ?_, seq_ok (by decide), rfl⟩,
    seq_ok (by decide), rfl, rfl⟩
  · split
    · exact notYetPlain_rejected
    · exact fun _ h => nomatch h
  · revert probe p8; unfold windowOpen; decide

/-- InitializeNoCard: a negotiation that fails at each place, behind rounds of each kind; CMD0 as in V43.2. -/
def failedInits : List FailedInit :=
  [.cmd0 (.answered (seq 0x00)), .cmd0 (.unselected busyCard), .trailer (seq 0x01) (seq 0x01) 0 0 0x01 0xAB,
   .v2Window (seq 0x01) (seq 0x01) 0 0 (loopRounds.drop 2) (appSeq 0x01),
   .ocr (seq 0x01) (seq 0x01) 0 0 [] (appSeq 0x00) (.answered silent),
   .sd1Window (seq 0x01) (.unselected busyCard) (appSeq 0x01) [] { app := .unselected busyCard, cmd := .answered silent },
   .mmcWindow (seq 0x01) (.answered silent) { app := .answered (seq 0x05), cmd := .answered silent } (rejections 0x01) (.answered silent),
   .sd1Length (seq 0x01) (.answered (seq 0x05)) (appSeq 0x01) [] (appSeq 0x00) (.unselected busyCard),
   .mmcLength (seq 0x01) (.answered (seq 0x05)) { app := .answered (seq 0x05), cmd := .answered silent } [] (.answered (seq 0x00))
     (.answered (seq 0x05))]

theorem failedInit_ok : ∀ f ∈ failedInits, f.ok := by
  have ready : (appSeq 0x00).ok := appSeq_ok (by decide)
  have idle : (appSeq 0x01).ok := appSeq_ok (by decide)
  have rejected : AppReply.ok { app := .answered (seq 0x05), cmd := .answered silent } := ⟨seq_ok (by decide), silent_ok⟩
  have none : notYet [] := fun _ h => nomatch h
  have nonePlain : notYetPlain [] := fun _ h => nomatch h
  intro f hf
  simp only [failedInits, List.mem_cons, List.not_mem_nil, or_false] at hf
  rcases hf with rfl | rfl | rfl | rfl | rfl | rfl | rfl | rfl | rfl
  · exact ⟨seq_ok (by decide), by decide⟩
  · exact ⟨staysBusy_zero, by decide⟩
  · exact ⟨v2Path, by decide⟩
  · exact ⟨v2Path, notYet_few, by unfold windowOpen; decide, idle, by decide⟩
  · exact ⟨v2Path, ⟨none, by unfold windowOpen; decide, ready, rfl⟩, silent_ok, by decide⟩
  · exact ⟨legacyPath idle _ (by decide), by decide, none, by unfold windowOpen; decide, ⟨staysBusy_zero, silent_ok⟩, by decide⟩
  · exact ⟨legacyPath rejected _ (by decide), by decide, notYetPlain_rejected, by unfold windowOpen; decide, silent_ok, by decide⟩
  · exact ⟨legacyPath idle _ (by decide), by decide, ⟨none, by unfold windowOpen; decide, ready, rfl⟩, staysBusy_zero, by decide⟩
  · exact ⟨legacyPath rejected _ (by decide), by decide, ⟨nonePlain, by unfold windowOpen; decide, seq_ok (by decide), rfl⟩,
      seq_ok (by decide), by decide⟩

theorem test_witness_InitializeNoCard : ∀ f ∈ failedInits,
    let s := ready .noCard (clocks ++ (f.bytes ++ 0xFF :: []))
    s.isIdle = true ∧ s.dmast = .idle ∧ s.env.senseNoMedium = false ∧ clocks.length = 74 + s.env.extraDummies ∧ f.ok ∧
      s.env.card = clocks ++ (f.bytes ++ 0xFF :: []) :=
  fun f hf => ⟨rfl, rfl, rfl, rfl, failedInit_ok f hf, rfl⟩

/-- PlainCommands (answered, not answered, not let out), ApplicationCommands (CMD55 accepted, rejected, not let out; the command behind it not
answered, not let out), StopCommand. -/
theorem test_witness_PlainCommands : ∀ row ∈ plainRows ++ blockRows 0xA00,
    let s (p : Reply) := doing [.command row.2.1 row.2.2] (p.bytes ++ [])
    let b := doing [.command row.2.1 row.2.2] (busyCard.bytes ++ [])
    row ∈ plainRows ++ blockRows 0xA00 ∧ ((∀ p, (s p).todo = .command row.2.1 row.2.2 :: [] ∧ (s p).env.card = p.bytes ++ []) ∧
      (seq 0x00).ok ∧ silent.ok) ∧ b.todo = .command row.2.1 row.2.2 :: [] ∧ busyCard.ok ∧ b.env.card = busyCard.bytes ++ [] :=
  fun _ h => ⟨h, ⟨fun _ => ⟨rfl, rfl⟩, seq_ok (by decide), silent_ok⟩, rfl, staysBusy_zero, rfl⟩
theorem test_witness_ApplicationCommands : ∀ row ∈ appRows 2,
    ∀ p ∈ [appSeq 0x00, { app := .answered (seq 0x05), cmd := .answered silent }, { app := .answered (seq 0x01), cmd := .answered silent }],
    let s := doing [.command (0x80 ||| row.2.1) row.2.2] (p.bytes ++ [])
    row ∈ appRows 2 ∧ s.todo = [.command (0x80 ||| row.2.1) row.2.2] ∧ p.ok ∧ (∃ q, p.last = .answered q) ∧ s.env.card = p.bytes ++ [] := by
  intro row h p hp
  simp only [List.mem_cons, List.not_mem_nil, or_false] at hp
  rcases hp with rfl | rfl | rfl
  · exact ⟨h, rfl, appSeq_ok (by decide), ⟨_, rfl⟩, rfl⟩
  · exact ⟨h, rfl, ⟨seq_ok (by decide), silent_ok⟩, ⟨_, rfl⟩, rfl⟩
  · exact ⟨h, rfl, ⟨seq_ok (by decide), silent_ok⟩, ⟨_, rfl⟩, rfl⟩
theorem test_witness_ApplicationCommands_busy : ∀ row ∈ appRows 2,
    let s := doing [.command (0x80 ||| row.2.1) row.2.2] (busyCard.bytes ++ [])
    let t := doing [.command (0x80 ||| row.2.1) row.2.2] ((seq 0x01).bytes ++ (busyCard.bytes ++ []))
    row ∈ appRows 2 ∧ s.todo = [.command (0x80 ||| row.2.1) row.2.2] ∧ busyCard.ok ∧ s.env.card = busyCard.bytes ++ [] ∧
      t.todo = [.command (0x80 ||| row.2.1) row.2.2] ∧ (seq 0x01).ok ∧ (seq 0x01).r1 ≤ 1 ∧
      t.env.card = (seq 0x01).bytes ++ (busyCard.bytes ++ []) :=
  fun _ h => ⟨h, rfl, staysBusy_zero, rfl, rfl, seq_ok (by decide), by decide, rfl⟩
theorem test_witness_StopCommand : ∀ p ∈ stopSeqs,
    let s := doing [.command 0x0C 0] (p.bytes ++ [])
    s.todo = .command 0x0C 0 :: [] ∧ p.ok ∧ s.env.card = p.bytes ++ [] := fun p h => ⟨rfl, stopSeq_ok p h, rfl⟩

/-- PollBudget, ReadyWaitEnds. -/
theorem test_witness_PollBudget :
    let s := (doing [.exchange .poll] (List.replicate 9 0xFF ++ 0xC1 :: [])).withWk { Work.reset with ntry := 10 }
    s.todo = .exchange .poll :: [] ∧ s.wk.ntry = 10 ∧ (List.replicate 9 (0xFF : Byte)).length = 9 ∧
      (∀ b ∈ List.replicate 9 (0xFF : Byte), b.getLsbD 7 = true) ∧ (0xC1 : Byte).getLsbD 7 = true ∧
      s.env.card = List.replicate 9 0xFF ++ 0xC1 :: [] := by decide
theorem test_witness_ReadyWaitEnds :
    let s := (doing [.exchange .ready] []).armTimer .rdy 2
    s.todo = .exchange .ready :: [] ∧ s.env.responsive = true ∧ (∀ t ∈ [Turn.tick, .engine, .tick], t = .engine ∨ t = .tick) ∧
      s.tmr.rdy.toNat ≤ [Turn.tick, .engine, .tick].count .tick := by decide

/-- TokenRows, ResponseRows, ResultRows: each clause's place. -/
theorem test_witness_TokenRows :
    (doing [.exchange .token] []).todo = .exchange .token :: [] ∧ (doing [.exchange .ready] []).todo = .exchange .ready :: [] ∧
    (((doing [.exchange .token] []).withSched [.port .token [0x05]]).sched = [.port .token [0x05]] ∧ (0x05 : Byte) ≠ 0xFE ∧
      (0x05 : Byte) ≠ 0xFF) ∧
    (doing [.exchange .poll] []).todo = .exchange .poll :: [] ∧ (doing [.exchange .poll] []).wk.ntry ≠ 1 ∧
    ((doing [.exchange .poll] []).withWk { Work.reset with ntry := 1 }).wk.ntry = 1 ∧
    (Instr.tokStop, (0xFD : Byte)) ∈ [(Instr.tokStart, (0xFE : Byte)), (.tokMulti, 0xFC), (.tokStop, 0xFD)] ∧
    (∀ x ∈ [Exchange.sendToken 0xFD, .send 0xFF, .trail 3, .data .buffer, .response], ∃ rx u,
      (doing [.exchange x] [0xFF]).todo = .exchange x :: [] ∧ (doing [.exchange x] [0xFF]).nextCard = some (rx, u)) :=
  ⟨rfl, rfl, ⟨rfl, by decide, by decide⟩, rfl, by decide, rfl, by decide, fun _ _ => ⟨_, _, rfl, rfl⟩⟩
theorem test_witness_ResponseRows :
    (doing [.exchange .poll] []).todo = .exchange .poll :: [] ∧ (0x7F : Byte).getLsbD 7 = false ∧ (0x80 : Byte).getLsbD 7 = true ∧
    (doing [.exchange .poll] []).wk.ntry ≠ 1 ∧ ((doing [.exchange .poll] []).withWk { Work.reset with ntry := 1 }).wk.ntry = 1 ∧
    (doing [.exchange .response] []).todo = .exchange .response :: [] ∧ (0xE5 : Byte) &&& 0x1F = 0x05 ∧
    ((doing [.exchange .response] []).withSched [.port .dataresp [0xEB]]).sched = [.port .dataresp [0xEB]] ∧
    (0xEB : Byte) &&& 0x1F ≠ 0x05 := by decide
theorem test_witness_ResultRows : ∀ row ∈ resultRows,
    let s := (ready .sd2 []).goAct (.ret row.2)
    s.todo = [] ∧ s.pos = .act (.ret row.2) ∧ (ready .sd2 []).pos ≠ .act (.ret row.2) := by decide

/-- OnlyInitializeWritesStatus, OnlyReadStores, ReadStoresInRange. -/
theorem test_witness_OnlyInitializeWritesStatus : (Instr.status 0).format = .hostop ∧ (∀ sel, Instr.status 0 ≠ .initCard sel) ∧
    ∃ t, exec (.status 0) (State.reset.withSched (engineTurns 1)) = .next t := ⟨rfl, by simp, _, rfl⟩
theorem test_witness_OnlyReadStores : Instr.tick.format = .event ∧ (∀ sel buf sector count, Instr.tick ≠ .read sel buf sector count) ∧
    (∀ a, Turn.dma a ∉ State.reset.sched) ∧ ∃ t, exec .tick State.reset = .next t :=
  ⟨rfl, by simp, fun a h => (by cases h), _, rfl⟩
theorem test_witness_ReadStoresInRange : Memory.wf (ready .sd1 []).mem = true ∧
    (∃ t, exec (.read 0 0xFFFFFF00 5 1) (ready .sd1 []) = .next t) ∧
    ∀ k, k < 512 * (1 : Word).toNat → 0x100 ≠ ((0xFFFFFF00 : Word).toNat + k) % 2 ^ 32 := by
  refine ⟨rfl, ⟨_, rfl⟩, fun k hk => ?_⟩
  have h1 : (1 : Word).toNat = 1 := rfl
  have h2 : (0xFFFFFF00 : Word).toNat = 0xFFFFFF00 := rfl
  rw [h1] at hk; rw [h2]; omega

/-- FairExecutions: an engine that waits, ENGINE's turn and TICK's, TICK's by its port; and a transfer that DMA_DONE ends at once, by its
port. -/
theorem test_witness_FairExecutions :
    (let turn (n : Nat) : Turn := if n % 2 = 0 then .engine else .port .event [0b01]
     let state (_ : Nat) : State := State.reset
     IsExecution turn state ∧ BusResponsive state ∧ EngineFair turn state ∧ TickFair turn state ∧ HostPortsOnly turn) ∧
    (let turn (n : Nat) : Turn := if n = 0 then .port .event [0b110] else .tick
     let state (n : Nat) : State :=
       if n = 0 then transferring .busy .read false []
       else { transferring .success .read false [] with trace := [.dmaStop, .flush] }
     IsExecution turn state ∧ DmaCompletes turn state ∧ (state 0).dmast = .busy) := by
  refine ⟨⟨fun n => ?_, fun _ => rfl, fun n => ⟨2 * n, by omega, by simp [Turn.steps]⟩, fun _ n => ⟨2 * n + 1, by omega, ?_⟩,
    fun n f bytes h => ?_⟩, fun n => ?_, fun n h => ?_, rfl⟩
  · by_cases h : n % 2 = 0
    · simp only [h, if_true]; rfl
    · simp only [h, if_false]; rfl
  · have h : (2 * n + 1) % 2 ≠ 0 := by omega
    simp only [h, if_false]; rfl
  · by_cases h' : n % 2 = 0
    · simp [h'] at h
    · simp only [h', if_false, Turn.port.injEq] at h
      exact .inr h.1.symm
  · cases n <;> rfl
  · cases n with
    | zero => exact ⟨0, Nat.le_refl _, rfl⟩
    | succ n => exact absurd h (by simp [transferring, ready])

/-- BufferOwnership: DMAENG stores and loads the last byte of its range, sends a byte, exchanges one, and does so on a bus that does not
answer; HOST's accesses at the range's ends and just outside. -/
theorem test_witness_BufferOwnership :
    let j (d : DmaDir) : DmaJob := { dir := d, buf := 0x4000, n := 1, fetched := [] }
    (∃ t, step ((transferring .busy .read false []).withSched [.dma (.store 511 0xAB)]) = .next t) ∧
    (∃ t, step ((transferring .busy .write false []).withSched [.dma (.load 511)]) = .next t) ∧
    (∃ rx u, ((transferring .busy .write false [0xFF]).withJob (some { j .write with fetched := [0x12] })).nextCard = some (rx, u)) ∧
    (∃ rx u, (transferring .busy .read false [0x5A]).nextCard = some (rx, u)) ∧
    (let s := { transferring .busy .write false [] with env := { Outside.default with responsive := false } }
     s.nextCard = none ∧ s.dmast = .busy ∧ s.job = some (j .write) ∧ ({ j .write with fetched := [0x12] } : DmaJob).fetched ≠ []) ∧
    (∀ d : DmaDir, (transferring .busy d false []).isIdle = true ∧ (transferring .busy d false []).job = some (j d) ∧
      (transferring .busy d false []).dmast ≠ .idle ∧ Memory.wf (transferring .busy d false []).mem = true) ∧
    (0x4000 : Word).toNat = ((0x4000 : Word).toNat + 0) % 2 ^ 32 ∧ (0x41FF : Word).toNat = ((0x4000 : Word).toNat + 511) % 2 ^ 32 ∧
    511 < 512 * (1 : Word).toNat ∧
    (∀ k, k < 512 * (1 : Word).toNat → (0x4200 : Word).toNat ≠ ((0x4000 : Word).toNat + k) % 2 ^ 32) := by
  refine ⟨⟨_, rfl⟩, ⟨_, rfl⟩, ⟨_, _, rfl⟩, ⟨_, _, rfl⟩, ⟨rfl, rfl, rfl, by decide⟩, fun d => ⟨rfl, rfl, by simp [transferring], rfl⟩, by decide, by decide, by decide, fun k hk => ?_⟩
  have h1 : (1 : Word).toNat = 1 := rfl
  have h2 : (0x4000 : Word).toNat = 0x4000 := rfl
  have h3 : (0x4200 : Word).toNat = 0x4200 := rfl
  rw [h1] at hk; rw [h2, h3]; omega

/-- HostTakes: each register written and not written; a byte stored and loaded; STATUS and the taking of its value. -/
theorem test_witness_HostTakes :
    State.reset.isIdle = true ∧ State.reset.out.resValid = false ∧ State.reset.out.svalValid = false ∧ State.reset.out.valValid = false ∧
    (Results.reset.okWithVal 512).resValid = true ∧ (Results.reset.okWithVal 512).valValid = true ∧
    (Results.reset.onlySval State.reset.dstat).svalValid = true ∧ State.reset.job = none ∧ Memory.wf State.reset.mem = true ∧
    ∀ take, ∃ t, exec (.status 0) (State.reset.withSched (engineTurns 1 ++ .host take :: [])) = .next t :=
  ⟨by decide, rfl, rfl, rfl, rfl, rfl, rfl, rfl, rfl, fun _ => ⟨_, rfl⟩⟩

end Sys2Proof.Tests
end

section
/-! The result rows: each row of `resultRows` is `returnAt` of its code, so what a row does is said once, of `returnAt`. -/

namespace Sys2Proof.Machine

/-- The meaning of a result row is the `return` of its code (30_encoding.md R97). -/
theorem exec_of_mem_resultRows {i : Instr} {r : TransferResult} (s : State) (h : (i, r) ∈ resultRows) :
    exec i s = returnAt r s := by
  simp only [resultRows, List.mem_cons, Prod.mk.injEq, List.not_mem_nil, or_false] at h
  rcases h with ⟨rfl, rfl⟩ | ⟨rfl, rfl⟩ | ⟨rfl, rfl⟩ | ⟨rfl, rfl⟩ | ⟨rfl, rfl⟩ <;> rfl

theorem returnAt_at_return {r : TransferResult} {s : State} (ht : s.todo = []) (hp : s.pos = .act (.ret r)) :
    returnAt r s = .next (s.returnWith r) :=
  if_pos ⟨ht, hp⟩

theorem returnAt_elsewhere {r : TransferResult} {s : State} (h : s.todo ≠ [] ∨ s.pos ≠ .act (.ret r)) :
    returnAt r s = .refused .wrongPhase :=
  if_neg fun ⟨ht, hp⟩ => h.elim (· ht) (· hp)

end Sys2Proof.Machine

namespace Sys2Proof.Proofs

open Sys2Proof.Machine

/-- Settles O54: the row is `returnAt` of its code, which returns where ENGINE stands at that `return` and refuses elsewhere. -/
theorem resultRows : Obligations.ResultRows := by
  intro i r s hrow
  rw [exec_of_mem_resultRows s hrow]
  exact ⟨returnAt_at_return, returnAt_elsewhere⟩

end Sys2Proof.Proofs
end

section
/-! Every step keeps the invariant (10_state.md R28, R30, R31, R33; 45_dma_completion.md R260): what an instruction of each format does,
and what a turn of each agent does, in terms of the steps that Laws/InvariantStep.lean shows to keep it. -/

namespace Sys2Proof.Machine

/-- A composed step that answers a next state: both parts answered one. -/
theorem andThen_next_iff {o : Answer} {f : State → Answer} {t : State} :
    andThen o f = .next t ↔ ∃ u, o = .next u ∧ f u = .next t := by
  cases o <;> simp [andThen]

/-! ### The meanings of the rows, inverted -/

/-- A received byte is the answer to the exchange PHASE stands at. -/
theorem answeredAt_cases {x : Exchange} {rx : Byte} {s t : State} (h : answeredAt x rx s = .next t) :
    ∃ k, s.todo = .exchange x :: k ∧ t = exchanged x k rx s := by
  unfold answeredAt at h
  split at h
  · next y k hs =>
    split at h
    · next e => cases h; subst e; exact ⟨k, hs, rfl⟩
    · cases h
  all_goals cases h

/-- A sent byte is the exchange PHASE stands at. -/
theorem sentAt_cases {x : Exchange} {s t : State} (h : sentAt x s = .next t) :
    ∃ k, s.todo = .exchange x :: k ∧ t = doExchange x k s := by
  unfold sentAt at h
  split at h
  · next y k hs =>
    split at h
    · next e => cases h; subst e; exact ⟨k, hs, rfl⟩
    · cases h
  all_goals cases h

/-- So is filler sent only to receive. -/
theorem fillerSent_cases {s t : State} (h : fillerSent s = .next t) :
    ∃ x k, s.todo = .exchange x :: k ∧ t = doExchange x k s := by
  unfold fillerSent at h
  split at h
  · next x k hs =>
    split at h
    · cases h; exact ⟨x, k, hs, rfl⟩
    · cases h
  all_goals cases h

/-- A command row is ENGINE's step at the call, and the run behind it. -/
theorem execCommand_cases {cmd : Byte} {arg : Word} {s t : State} (h : execCommand cmd arg s = .next t) :
    ∃ u, engineStep s = .next u ∧ resume u = .next t := by
  unfold execCommand at h
  split at h
  · split at h
    · exact andThen_next_iff.1 h
    · cases h
  all_goals cases h

/-- A result row is the `return` PHASE stands at. -/
theorem returnAt_cases {r : TransferResult} {s t : State} (h : returnAt r s = .next t) :
    s.todo = [] ∧ s.pos = .act (.ret r) ∧ t = s.returnWith r := by
  unfold returnAt at h
  split at h
  · next e => cases h; exact ⟨e.1, e.2, rfl⟩
  · cases h

/-! ### The steps keep the invariant -/

/-- What the invariant says where ENGINE's next step is an action of a host operation. -/
theorem actInv_of_inv {s : State} {a : Act} (h : s.Inv) (hp : s.pos = .act a) : actInv a s := by
  have hph := h.phase
  unfold State.phaseInv at hph
  rw [hp] at hph
  exact hph.2

theorem exchanged_inv {x : Exchange} {k : List Micro} (rx : Byte) {s : State} (h : s.Inv) (hs : s.todo = .exchange x :: k) :
    (exchanged x k rx s).Inv := by
  refine inv_of_shared ⟨shared_same ?_ (settle_same _), exchanged_phaseInv x k rx s hs h.phase⟩
  exact shared_of (shared_of_inv h).1 (by simp [State.log]) (by simp [State.log]) (by simp [State.log])

theorem doExchange_inv {x : Exchange} {k : List Micro} {s : State} (h : s.Inv) (hs : s.todo = .exchange x :: k) :
    (doExchange x k s).Inv :=
  inv_of_shared ⟨doExchange_shared x k s (shared_of_inv h).1, doExchange_phaseInv x k s hs h.phase⟩

theorem answeredAt_inv {x : Exchange} {rx : Byte} {s t : State} (h : s.Inv) (ht : answeredAt x rx s = .next t) : t.Inv := by
  obtain ⟨k, hs, rfl⟩ := answeredAt_cases ht
  exact exchanged_inv rx h hs

theorem sentAt_inv {x : Exchange} {s t : State} (h : s.Inv) (ht : sentAt x s = .next t) : t.Inv := by
  obtain ⟨k, hs, rfl⟩ := sentAt_cases ht
  exact doExchange_inv h hs

theorem fillerSent_inv {s t : State} (h : s.Inv) (ht : fillerSent s = .next t) : t.Inv := by
  obtain ⟨x, k, hs, rfl⟩ := fillerSent_cases ht
  exact doExchange_inv h hs

theorem heard_inv {b : Byte} {s t : State} (h : s.Inv) (ht : heard b s = .next t) : t.Inv := by
  unfold heard at ht
  split at ht <;> exact answeredAt_inv h ht

/-- A token row: heard where ENGINE waits, sent elsewhere. -/
theorem tokenRow_inv {b : Byte} {x : Exchange} {s t : State} (h : s.Inv)
    (ht : (if s.waits then heard b s else sentAt x s) = .next t) : t.Inv := by
  split at ht
  · exact heard_inv h ht
  · exact sentAt_inv h ht

theorem execFiller_inv {s t : State} (h : s.Inv) (ht : execFiller s = .next t) : t.Inv := by
  unfold execFiller at ht
  split at ht
  · exact heard_inv h ht
  · split at ht
    · exact answeredAt_inv h ht
    · exact fillerSent_inv h ht

theorem execCommand_inv {cmd : Byte} {arg : Word} {s t : State} (h : s.Inv) (ht : execCommand cmd arg s = .next t) : t.Inv := by
  obtain ⟨u, hu, hr⟩ := execCommand_cases ht
  exact runTurns_inv _ u t (engineStep_inv s u h hu) hr

theorem returnAt_inv {r : TransferResult} {s t : State} (h : s.Inv) (ht : returnAt r s = .next t) : t.Inv := by
  obtain ⟨hs, hp, rfl⟩ := returnAt_cases ht
  exact ⟨h.memory, h.owned, hs, actInv_of_inv h hp⟩

theorem issueIoctl_inv {sel : Byte} {s t : State} (h : s.Inv) (ht : issueIoctl sel s = .next t) : t.Inv :=
  issueOnBus_inv _ _ _ s t h (fun u hu hp hq hd => goAct_inv u .ioctlGate hu hp ⟨hq, hd⟩) ht

theorem issueReserved_inv {op sel : Byte} {s t : State} (h : s.Inv) (ht : issueReserved op sel s = .next t) : t.Inv :=
  issue_inv _ _ _ s t h (fun u hu hp hq _ => goAct_inv u (.ret .invalidParameter) hu hp hq) ht

theorem tickDown_inv {s : State} (h : s.Inv) : s.tickDown.Inv :=
  inv_aside s s.lat s.out _ s.mem s.trace s.taken s.env s.sched h h.memory

theorem withSched_inv {s : State} (h : s.Inv) (l : List Turn) : (s.withSched l).Inv :=
  inv_aside s s.lat s.out s.tmr s.mem s.trace s.taken s.env l h h.memory

/-- Every instruction keeps the invariant, whatever format it has. -/
theorem exec_inv {i : Instr} {s t : State} (h : s.Inv) (ht : exec i s = .next t) : t.Inv := by
  cases i
  case initCard sel => exact issueOnBus_inv _ _ _ s t h (fun u hu hp hq hd => goAct_inv u .senseMedium hu hp ⟨hq, hd⟩) ht
  case status sel => exact issue_inv _ _ _ s t h (fun u hu hp hq _ => goAct_inv u .retStatus hu hp hq) ht
  case pollStatus sel => exact issue_inv _ _ _ s t h (fun u hu hp hq _ => goAct_inv u .readStatus hu hp hq) ht
  case read | write =>
    exact issueOnBus_inv _ _ _ s t h (fun u hu hp hq hd => blockStart_inv _ _ _ _ u hu hp hq fun _ => hd) ht
  case startReadDma | startWriteDma =>
    exact issue_inv _ _ _ s t h (fun u hu hp hq _ => blockStart_inv _ _ _ _ u hu hp hq (absurd · (by decide))) ht
  case ioctlGetEraseBlockSize =>
    simp only [exec, execIoctlGetEraseBlockSize] at ht
    split at ht
    · cases ht
    · exact issueIoctl_inv h ht
  case ioctlGetSectorCount | ioctlGetSectorSize | ioctlMalformed0 | ioctlMalformed4to7 | ioctlMalformedBit3 | ioctlMalformedBit4
    | ioctlMalformedBit5 | ioctlMalformedBit6 | ioctlMalformedBit7 => exact issueIoctl_inv h ht
  case reservedOpBit3 | reservedOpBit4 | reservedOpBit5 | reservedOpBit6 | reservedOpBit7 => exact issueReserved_inv h ht
  case tick => cases ht; exact tickDown_inv h
  case dmaDone ok => exact dmaComplete_inv ok s t h ht
  case tokStart | tokMulti | tokStop => exact tokenRow_inv h ht
  case filler => exact execFiller_inv h ht
  case r1Response | r1NotResponse | dataAccepted => exact answeredAt_inv h ht
  case resultOk | resultError | resultWriteProtected | resultNotReady | resultInvalidParameter => exact returnAt_inv h ht
  case cmd0 | cmd1 | cmd8 | cmd9 | cmd12 | cmd16 | cmd17 | cmd18 | acmd23 | cmd24 | cmd25 | acmd41 | cmd55 | cmd58 =>
    exact execCommand_inv h ht

theorem bothEvents_inv {ok : Bool} {s t : State} (h : s.Inv) (ht : bothEvents ok s = .next t) : t.Inv :=
  dmaComplete_inv ok _ t (tickDown_inv h) ht

theorem runOther_inv {f : Format} {bytes : List Byte} {e : DecodeError} {s t : State} (h : s.Inv)
    (ht : runOther f bytes e s = .next t) : t.Inv := by
  unfold runOther at ht
  split at ht
  · split at ht
    · exact bothEvents_inv h ht
    · split at ht
      · exact bothEvents_inv h ht
      · cases ht
  · exact heard_inv h ht
  · exact answeredAt_inv h ht
  · cases ht

theorem runPort_inv {f : Format} {bytes : List Byte} {s t : State} (h : s.Inv) (ht : runPort f bytes s = .next t) : t.Inv := by
  unfold runPort at ht
  split at ht
  · exact exec_inv h ht
  · cases ht
  · exact runOther_inv h ht

/-- What HOST takes is recorded beside the registers of the invariant. -/
theorem take_inv {s : State} (h : s.Inv) (x : Taken) : (s.take x).Inv :=
  inv_aside s s.lat s.out s.tmr s.mem s.trace _ s.env s.sched h h.memory

theorem hostStep_inv {a : HostAct} {s t : State} (h : s.Inv) (ht : hostStep a s = .next t) : t.Inv := by
  cases a <;> simp only [hostStep] at ht <;> split at ht <;> cases ht
  case store a b _ =>
    exact inv_aside s s.lat s.out s.tmr _ s.trace s.taken s.env s.sched h (writeByte_wf s _ _ a.isLt h.memory)
  all_goals exact take_inv h _

theorem takeTurn_inv {u : Turn} {rest : List Turn} {s t : State} (h : s.Inv) (ht : takeTurn u rest s = .next t) : t.Inv := by
  have hr := withSched_inv h rest
  cases u <;> simp only [takeTurn] at ht
  case engine => exact engineStep_inv _ t hr ht
  case tick => exact exec_inv (i := .tick) hr ht
  case dmaDone ok => exact dmaComplete_inv ok _ t hr ht
  case dma a => exact dmaStep_inv a _ t hr ht
  case host a =>
    split at ht
    · exact hostStep_inv hr ht
    · exact engineStep_inv s t h ht
  case port f bytes =>
    split at ht
    · exact engineStep_inv s t h ht
    · exact runPort_inv hr ht

theorem step_inv {s t : State} (h : s.Inv) (ht : step s = .next t) : t.Inv := by
  unfold step stepSchedule at ht
  split at ht
  · exact engineStep_inv s t h ht
  · exact takeTurn_inv h ht

end Sys2Proof.Machine

namespace Sys2Proof.Proofs

open Sys2Proof.Machine

/-- Settles O7: ENGINE's step, the instruction on a port, the events, DMAENG and HOST each keep the invariant. -/
theorem stepKeepsInvariant : Obligations.StepKeepsInvariant :=
  fun _ _ h ht => step_inv h ht

end Sys2Proof.Proofs
end

section
/-! The invariant over runs from reset (10_state.md R38; 45_dma_completion.md R260), and the values of reset. -/

namespace Sys2Proof.Machine

theorem resetWith_inv (env : Outside) : (State.resetWith env).Inv where
  memory := rfl
  owned := by simp [State.resetWith]
  phase := ⟨rfl, ⟨fun _ => rfl, fun h => nomatch (h : true = false)⟩, by simp [State.resetWith], by simp [State.resetWith]⟩

theorem runSteps_inv (n : Nat) : ∀ {s t : State}, s.Inv → runSteps n s = .next t → t.Inv := by
  induction n with
  | zero => intro s t h ht; cases ht; exact h
  | succ n ih =>
    intro s t h ht
    obtain ⟨u, hu, hr⟩ := andThen_next_iff.1 ht
    exact ih (step_inv h hu) hr

/-- At PHASE == IDLE the invariant says what holds between operations. -/
theorem quiet_of_inv {s : State} (h : s.Inv) (hi : s.isIdle = true) : s.quiet := by
  have hp := h.phase
  unfold State.phaseInv at hp
  rw [((isIdle_iff s).1 hi).1] at hp
  exact hp.2

end Sys2Proof.Machine

namespace Sys2Proof.Proofs

open Sys2Proof.Machine

/-- Settles O6: the reset values are those the place IDLE wants. -/
theorem resetMeetsInvariant : Obligations.ResetMeetsInvariant := resetWith_inv

/-- Settles O8: reset meets the invariant, every step keeps it, and at IDLE it says this. -/
theorem betweenOperations : Obligations.BetweenOperations := by
  intro env sched n s hrun hi
  have hs : s.Inv := runSteps_inv n (withSched_inv (resetWith_inv env) sched) hrun
  obtain ⟨⟨hdisk, hready⟩, hlive, hcs⟩ := quiet_of_inv hs hi
  exact ⟨hdisk, hcs, hlive, hready⟩

/-- Settles O5: each register of `State.resetWith`, and the default outside. -/
theorem resetValues : Obligations.ResetValues :=
  fun _ => ⟨rfl, rfl, rfl, rfl, rfl, rfl, rfl, rfl, rfl, by decide⟩

end Sys2Proof.Proofs
end

section
/-! What whole operations leave alone under any schedule: the status registers outside INITIALIZE (10_state.md R28, R29, R33), and the
bytes outside the buffer range of a READ (10_state.md R35; 44_polling_block_io.md R234). -/

namespace Sys2Proof.Machine

/-- The registers that INITIALIZE alone writes. -/
def Held.status (h : Held) : DriveStatus × CardType × Speed := (h.dstat, h.ctype, h.speed)

theorem doLocal_keeps_status {l : Local} (s : State) (h : afterInit.micro (.act l) = true) :
    (doLocal l s).held.status = s.held.status := by
  simp [Held.status, State.held, doLocal_speed l s h]

theorem doAct_keeps_status {a : Act} {s t : State} (h : afterInit.pos (.act a) = true) (hd : doAct a s = .next t) :
    t.held.status = s.held.status := by
  rw [doAct_held (by simpa [afterInit] using h) hd]

theorem dmaStep_keeps_status {a : DmaAct} {s t : State} (h : dmaStep a s = .next t) : t.held.status = s.held.status := by
  rw [(dmaStep_same h).2]; rfl

/-- A run that begins outside INITIALIZE keeps the status registers. -/
theorem runTurns_keeps_status {l : List Turn} {s t : State} (hs : s.inside afterInit) (h : runTurns l s = .next t) :
    t.held.status = s.held.status :=
  runTurns_keeps afterInit_closed Held.status (fun _ s hl => doLocal_keeps_status s hl) (fun _ _ _ ha hd => doAct_keeps_status ha hd) l s t
    (fun _ _ _ _ _ _ hd => dmaStep_keeps_status hd) hs h

/-- Every host operation but INITIALIZE, and every event, keeps them. -/
theorem exec_keeps_status {i : Instr} {s t : State} (hf : i.format = .hostop ∨ i.format = .event)
    (hn : ∀ sel, i ≠ .initCard sel) (h : exec i s = .next t) : t.held.status = s.held.status := by
  rcases hf with hf | hf
  · obtain ⟨u, a, hrun, htodo, hpos, hheld, hnego, -⟩ := exec_hostop_run hf h
    have hin : u.inside afterInit := ⟨by rw [hpos]; simp [afterInit, hnego hn], by rw [htodo]; rfl⟩
    rw [runTurns_keeps_status hin hrun, hheld]
  · rw [exec_event_held hf h]

/-- The issue of a READ leads to a place of READ: the gate with all blocks to come, or the end where none was asked for. -/
theorem blockStart_read {buf sector count : Word} {s : State} (hi : s.isIdle = true) (hd : s.dmast = .idle) :
    ReadInv buf count (blockStart .read buf sector count s) := by
  obtain ⟨-, ht⟩ := (isIdle_iff s).1 hi
  have hb : (s.latchBlock buf sector count).lat.buf.toNat = (buf.toNat + 512 * 0) % 2 ^ 32 := (Nat.mod_eq_of_lt buf.isLt).symm
  unfold blockStart gateCount
  split
  · exact goAct_read hd ht hb (absurd · (by decide)) rfl
  · next hc =>
    refine goAct_read hd ht hb (fun _ => ⟨?_, Nat.zero_add _⟩) rfl
    exact Nat.pos_of_ne_zero fun e => hc (BitVec.eq_of_toNat_eq e)

theorem execRead_stores {sel : Byte} {buf sector count : Word} {s t : State} (h : exec (.read sel buf sector count) s = .next t) :
    StoresWithin buf count s t := by
  simp only [exec, execRead, issueOnBus] at h
  split at h
  · next hd =>
    unfold issue at h
    split at h
    · next hi =>
      have hstart : StoresWithin buf count s (blockStart .read buf sector count (s.clearResults.latchWord 0x02 sel)) :=
        .of_mem (by unfold blockStart gateCount; split <;> rfl)
      exact hstart.trans (runTurns_read _ _ t (blockStart_read hi hd) h)
    · cases h
  · cases h

end Sys2Proof.Machine

namespace Sys2Proof.Proofs

open Sys2Proof.Machine

/-- Settles O55: the operation runs in the region outside INITIALIZE, in which no turn of any agent writes these registers. -/
theorem onlyInitializeWritesStatus : Obligations.OnlyInitializeWritesStatus := by
  intro i s t hf hn h
  simpa [Held.status, State.held] using exec_keeps_status hf hn h

/-- Settles O57: every step of a READ keeps `ReadInv`, under which a stored byte lies in the block that is being received. -/
theorem readStoresInRange : Obligations.ReadStoresInRange :=
  fun _ _ _ _ _ _ hwf h => (execRead_stores h hwf).2

end Sys2Proof.Proofs
end

section
/-! The transitions of DMAST, by the agent that takes them (10_state.md R30; 45_dma_completion.md R260, R264, R266). -/

namespace Sys2Proof.Machine

theorem doExchange_dmast (x : Exchange) (k : List Micro) (s : State) : (doExchange x k s).dmast = s.dmast := by
  unfold doExchange
  split
  · next rx t hn =>
    obtain ⟨e, rfl⟩ := nextCard_withEnv hn
    simp [exchanged, State.log]
  · rfl

theorem doAction_dmast (l : Local) (k : List Micro) (s : State) : (doAction l k s).dmast = s.dmast := by
  simp [doAction]

theorem doCommand_dmast (cmd : Byte) (arg : Word) (k : List Micro) (s : State) : (doCommand cmd arg k s).dmast = s.dmast := by
  simp only [doCommand]
  split <;> simp [doExchange_dmast, doAction_dmast]

/-- Of the actions of the host operations two write DMAST: the handing over of a transfer, and the cleanup. -/
theorem doAct_dmast {a : Act} {s t : State} (hd : doAct a s = .next t) :
    t.dmast = s.dmast ∨ (∃ d, a = .dmaGo d ∧ t.dmast = .busy) ∨ (a = .statusIdle ∧ t.dmast = .idle) := by
  cases a
  case dmaGo d => cases hd; exact .inr (.inl ⟨d, rfl, rfl⟩)
  case statusIdle => cases hd; exact .inr (.inr ⟨rfl, rfl⟩)
  all_goals left
  case scale o =>
    cases o with
    | read => cases hd; simp only [readBegin]; split <;> rfl
    | write => cases hd; simp only [writeBegin]; split <;> rfl
    | startRead => cases hd; rfl
    | startWrite => cases hd; simp only [dmaWriteBegin]; split <;> rfl
  case testSdc d => cases d <;> cases hd <;> simp only [writeTestSdc, dmaWriteTestSdc] <;> split <;> rfl
  case testMulti d => cases hd; cases d <;> simp only [dmaTestMulti] <;> split <;> rfl
  case readStatus => cases hd; simp only [pollRead]; split <;> rfl
  case readMulti =>
    simp only [doAct, pollMulti] at hd
    split at hd
    · cases hd; split <;> rfl
    · cases hd
  case readDir =>
    simp only [doAct, pollDir] at hd
    split at hd
    · cases hd; split <;> rfl
    · cases hd
  case ioctlGate =>
    simp only [doAct, ioctlGate] at hd
    (repeat' split at hd) <;> cases hd <;> rfl
  case testMedium | windowExpired | gateInit | gateProtect | guardDma | guardContext =>
    cases hd
    simp only [negoTestMedium, negoWindow, gateInit, gateProtect, gatePassed, guardDma, guardContext]
    (repeat' split) <;> rfl
  all_goals cases hd; rfl

/-- A step of ENGINE that changes DMAST is one of those two actions. -/
theorem engineStep_dmast {s t : State} (h : engineStep s = .next t) :
    t.dmast = s.dmast ∨ (∃ d, s.pos = .act (.dmaGo d) ∧ t.dmast = .busy) ∨ (s.pos = .act .statusIdle ∧ t.dmast = .idle) := by
  unfold engineStep at h
  split at h
  · cases h; exact .inl (doExchange_dmast ..)
  · cases h; exact .inl (doAction_dmast ..)
  · cases h; exact .inl (doCommand_dmast ..)
  · cases h; exact .inl (settle_dmast s)
  · split at h
    · cases h; exact .inl rfl
    · next a hp =>
      obtain ⟨u, hd, hu⟩ := andThen_next_iff.1 h
      cases hu
      rw [settle_dmast, hp]
      simpa using doAct_dmast hd
    · cases h; exact .inl (settle_dmast s)

theorem idle_of_dmaGo {s : State} {d : DmaDir} (h : s.Inv) (hp : s.pos = .act (.dmaGo d)) : s.dmast = .idle := by
  obtain ⟨⟨-, hd, -⟩, -⟩ := actInv_of_inv h hp
  exact hd

theorem terminal_of_statusIdle {s : State} (h : s.Inv) (hp : s.pos = .act .statusIdle) : s.terminal := by
  obtain ⟨-, ht, -⟩ := actInv_of_inv h hp
  exact ht

theorem dmaComplete_dmast {ok : Bool} {s t : State} (h : dmaComplete ok s = .next t) :
    s.dmast = .busy ∧ t.dmast = if ok then .success else .error := by
  unfold dmaComplete at h
  split at h
  · next hb => cases h; exact ⟨hb, rfl⟩
  · cases h

theorem dmaStep_dmast {a : DmaAct} {s t : State} (h : dmaStep a s = .next t) : t.dmast = s.dmast := by
  rw [(dmaStep_same h).2]

end Sys2Proof.Machine

namespace Sys2Proof.Proofs

open Sys2Proof.Machine

/-- Settles O9: ENGINE writes DMAST at two places, where the invariant says what it held. -/
theorem dmaStatusTransitions : Obligations.DmaStatusTransitions := by
  refine ⟨fun s t hs h => ?_, fun _ _ _ h => dmaComplete_dmast h, fun _ _ h => by cases h; rfl, fun _ _ _ h => dmaStep_dmast h⟩
  rcases engineStep_dmast h with hkept | ⟨d, hp, hbusy⟩ | ⟨hp, hidle⟩
  · exact .inl hkept
  · exact .inr (.inl ⟨idle_of_dmaGo hs hp, hbusy⟩)
  · exact .inr (.inr ⟨terminal_of_statusIdle hs hp, hidle⟩)

end Sys2Proof.Proofs
end

section
/-! The decoder reads an instruction back from its port image (30_encoding.md R91 to R105), so a step runs the instruction that was put on
the port (10_state.md R21, R38). -/

namespace Sys2Proof

open Sys2Proof.Machine

/-- The reserved operation rows, from 0x08 on (30_encoding.md R104). -/
theorem decodeReserved_row (sel op : Byte) :
    (matchesPattern op 0xF8 0x08 = true → 0x08 ≤ op ∧ decodeReserved sel op = .reservedOpBit3 sel op) ∧
    (matchesPattern op 0xF0 0x10 = true → 0x08 ≤ op ∧ decodeReserved sel op = .reservedOpBit4 sel op) ∧
    (matchesPattern op 0xE0 0x20 = true → 0x08 ≤ op ∧ decodeReserved sel op = .reservedOpBit5 sel op) ∧
    (matchesPattern op 0xC0 0x40 = true → 0x08 ≤ op ∧ decodeReserved sel op = .reservedOpBit6 sel op) ∧
    (matchesPattern op 0x80 0x80 = true → 0x08 ≤ op ∧ decodeReserved sel op = .reservedOpBit7 sel op) := by
  obtain ⟨h4, h5, h6, h7⟩ := reserved_disjoint op
  unfold decodeReserved
  refine ⟨fun h => ⟨reserved_ge op ?_, ?_⟩, fun h => ⟨reserved_ge op ?_, ?_⟩, fun h => ⟨reserved_ge op ?_, ?_⟩,
    fun h => ⟨reserved_ge op ?_, ?_⟩, fun h => ⟨reserved_ge op ?_, ?_⟩⟩
  · exact .inl h
  · rw [if_pos h]
  · exact .inr (.inl h)
  · simp only [h4 h, h, ↓reduceIte, Bool.false_eq_true]
  · exact .inr (.inr (.inl h))
  · simp only [h5 h, h, ↓reduceIte, Bool.false_eq_true]
  · exact .inr (.inr (.inr (.inl h)))
  · simp only [h6 h, h, ↓reduceIte, Bool.false_eq_true]
  · exact .inr (.inr (.inr (.inr h)))
  · simp only [h7 h, ↓reduceIte, Bool.false_eq_true]

theorem decode_frame {cmd : Byte} {arg : Word} {i : Instr} (rest : List Byte)
    (h : decodeCommand (0x40 ||| (cmd &&& 0x3F)) arg = .ok i) : decode .cmdframe (frameBytes cmd arg ++ rest) = .ok (i, rest) :=
  frame_roundtrip cmd arg rest i h

/-- An operation code of a reserved row is read as that row. -/
theorem decode_reserved {sel op : Byte} {i : Instr} (rest : List Byte) (h : 0x08 ≤ op ∧ decodeReserved sel op = i) :
    decode .hostop (hostWord op sel ++ rest) = .ok (i, rest) := by
  rw [← h.2]; exact decodeHostop_reserved rest sel op h.1

theorem decode_selector {sel : Byte} {i : Instr} (rest : List Byte) (hi : decodeSelector sel = i) :
    decode .hostop (hostWord 0x07 sel ++ rest) = .ok (i, rest) := by
  rw [← hi]; rfl

theorem decode_blockWord {op sel : Byte} {mk : Word → Word → Word → Instr} (buf sector count : Word) (rest : List Byte)
    (h : ∀ bytes, decodeHostop (op :: sel :: bytes) = decodeLatches mk bytes) :
    decode .hostop (blockWord op sel buf sector count ++ rest) = .ok (mk buf sector count, rest) := by
  simp only [blockWord, hostWord, List.append_assoc, List.cons_append, List.nil_append]
  exact (h _).trans (latches_roundtrip mk buf sector count rest)

/-- Bit 7 separates the two R1 rows. -/
theorem notResponse_pattern : ∀ x : Byte, matchesPattern x 0x80 0x80 = true → matchesPattern x 0x80 0x00 = false := by decide

/-- A well-formed instruction is read back from its port image, whatever follows it there. -/
theorem decode_encode (i : Instr) (rest : List Byte) (h : i.wellFormed = true) : decode i.format (encode i ++ rest) = .ok (i, rest) := by
  cases i
  case read | write | startReadDma | startWriteDma => exact decode_blockWord _ _ _ rest fun _ => rfl
  case ioctlMalformed4to7 sel => obtain ⟨hrow, -⟩ := decodeSelector_row sel; exact decode_selector rest (hrow h)
  case ioctlMalformedBit3 sel => obtain ⟨-, hrow, -⟩ := decodeSelector_row sel; exact decode_selector rest (hrow h)
  case ioctlMalformedBit4 sel => obtain ⟨-, -, hrow, -⟩ := decodeSelector_row sel; exact decode_selector rest (hrow h)
  case ioctlMalformedBit5 sel => obtain ⟨-, -, -, hrow, -⟩ := decodeSelector_row sel; exact decode_selector rest (hrow h)
  case ioctlMalformedBit6 sel => obtain ⟨-, -, -, -, hrow, -⟩ := decodeSelector_row sel; exact decode_selector rest (hrow h)
  case ioctlMalformedBit7 sel => obtain ⟨-, -, -, -, -, hrow⟩ := decodeSelector_row sel; exact decode_selector rest (hrow h)
  case reservedOpBit3 sel op => obtain ⟨hrow, -⟩ := decodeReserved_row sel op; exact decode_reserved rest (hrow h)
  case reservedOpBit4 sel op => obtain ⟨-, hrow, -⟩ := decodeReserved_row sel op; exact decode_reserved rest (hrow h)
  case reservedOpBit5 sel op => obtain ⟨-, -, hrow, -⟩ := decodeReserved_row sel op; exact decode_reserved rest (hrow h)
  case reservedOpBit6 sel op => obtain ⟨-, -, -, hrow, -⟩ := decodeReserved_row sel op; exact decode_reserved rest (hrow h)
  case reservedOpBit7 sel op => obtain ⟨-, -, -, -, hrow⟩ := decodeReserved_row sel op; exact decode_reserved rest (hrow h)
  case dmaDone ok => cases ok <;> rfl
  case acmd41 hcs => cases hcs <;> exact decode_frame rest (by rfl)
  case cmd0 | cmd1 | cmd8 | cmd9 | cmd12 | cmd16 | cmd17 | cmd18 | acmd23 | cmd24 | cmd25 | cmd55 | cmd58 =>
    exact decode_frame rest (by rfl)
  case r1Response r => exact if_pos h
  case r1NotResponse x => exact if_neg (by rw [notResponse_pattern x h]; decide)
  case dataAccepted d => exact if_pos h
  all_goals rfl

end Sys2Proof

namespace Sys2Proof.Machine

theorem step_of_sched {s : State} {u : Turn} {rest : List Turn} (h : s.sched = u :: rest) : step s = takeTurn u rest s := by
  unfold step stepSchedule; rw [h]

theorem step_unscheduled {s : State} (h : s.sched = []) : step s = engineStep s := by
  unfold step stepSchedule; rw [h]

/-- At PHASE == IDLE ENGINE takes no step. -/
theorem engineStep_idle {s : State} (h : s.isIdle = true) : engineStep s = .next s := by
  obtain ⟨hp, ht⟩ := (isIdle_iff s).1 h
  unfold engineStep; rw [ht, hp]

theorem step_port {s : State} {f : Format} {bytes : List Byte} {rest : List Turn} (h : s.sched = .port f bytes :: rest)
    (hi : f = .hostop → s.isIdle = true) : step s = runPort f bytes (s.withSched rest) := by
  rw [step_of_sched h]
  exact if_neg fun ⟨hf, hn⟩ => by simp [hi hf] at hn

theorem runPort_decoded {f : Format} {bytes : List Byte} {i : Instr} (h : decode f bytes = .ok (i, [])) (s : State) :
    runPort f bytes s = exec i s := by
  unfold runPort; rw [h]

theorem step_host {s : State} {a : HostAct} {rest : List Turn} (h : s.sched = .host a :: rest) (hi : s.isIdle = true) :
    step s = hostStep a (s.withSched rest) := by
  rw [step_of_sched h]; exact if_pos hi

/-- A step of HOST, and a host operation on its port, wait for PHASE == IDLE (10_state.md R21). -/
theorem step_host_waits {s : State} {a : HostAct} {rest : List Turn} (h : s.sched = .host a :: rest) (hi : s.isIdle = false) :
    step s = engineStep s := by
  rw [step_of_sched h]; exact if_neg (by simp [hi])

theorem step_hostop_waits {s : State} {bytes : List Byte} {rest : List Turn} (h : s.sched = .port .hostop bytes :: rest)
    (hi : s.isIdle = false) : step s = engineStep s := by
  rw [step_of_sched h]; exact if_pos ⟨rfl, hi⟩

theorem runPort_bothStrobes (ok : Bool) (s : State) :
    runPort .event [if ok then 0b111 else 0b011] s = andThen (exec .tick s) (exec (.dmaDone ok)) := by
  cases ok <;> rfl

end Sys2Proof.Machine

namespace Sys2Proof.Proofs

open Sys2Proof.Machine

/-- Settles O10: each kind of entry by its own lemma, the encoded instruction through `decode_encode`. -/
theorem stepRunsDecoded : Obligations.StepRunsDecoded := by
  intro s rest
  have decoded : ∀ f bytes i, s.sched = .port f bytes :: rest → (f = .hostop → s.isIdle = true) → decode f bytes = .ok (i, []) →
      step s = exec i (s.withSched rest) := fun _ _ _ h hi hd => (step_port h hi).trans (runPort_decoded hd _)
  refine ⟨decoded, fun i h hi hw => decoded _ _ i h hi ?_, fun _ h hi => step_hostop_waits h hi, fun _ h hi => step_host h hi,
    fun _ h hi => step_host_waits h hi, step_of_sched, fun _ => step_of_sched, fun _ => step_of_sched, fun ok h => ?_, step_of_sched,
    step_unscheduled, fun h hi => (step_unscheduled h).trans (engineStep_idle hi)⟩
  · simpa using decode_encode i [] hw
  · exact (step_port h fun e => nomatch e).trans (runPort_bothStrobes ok _)

end Sys2Proof.Proofs
end

section
/-! When an issue is refused (10_state.md R21; 70_reset_and_hazards.md R355), and what HOST takes between operations (10_state.md R24,
R25, R35). -/

namespace Sys2Proof.Machine

/-! ### Refused issues -/

theorem issue_running {s : State} (hi : s.isIdle = false) (op sel : Byte) (start : State → State) :
    issue op sel start s = .refused .operationRunning :=
  if_neg (by simp [hi])

theorem exec_status_running {s : State} (hi : s.isIdle = false) (sel : Byte) : exec (.status sel) s = .refused .operationRunning :=
  issue_running hi 0x01 sel fun t => t.goAct .retStatus

theorem exec_pollStatus_running {s : State} (hi : s.isIdle = false) (sel : Byte) :
    exec (.pollStatus sel) s = .refused .operationRunning :=
  issue_running hi 0x06 sel fun t => t.goAct .readStatus

theorem issueReserved_running {s : State} (hi : s.isIdle = false) (op sel : Byte) :
    issueReserved op sel s = .refused .operationRunning :=
  issue_running hi op sel fun t => t.endWith .invalidParameter

theorem issueOnBus_running {s : State} (hi : s.isIdle = false) (hd : s.dmast = .idle) (op sel : Byte) (start : State → State) :
    issueOnBus op sel start s = .refused .operationRunning :=
  (if_pos hd).trans (issue_running hi op sel start)

theorem issueOnBus_owned {s : State} (hd : s.dmast ≠ .idle) (op sel : Byte) (start : State → State) :
    issueOnBus op sel start s = .refused .busOwnedByDma :=
  if_neg hd

/-- Where an operation runs or a transfer owns the bus, the erase-block query is an issue as the other selectors are. -/
theorem exec_ioctlGetEraseBlockSize {s : State} (h : s.isIdle = false ∨ s.dmast ≠ .idle) :
    exec .ioctlGetEraseBlockSize s = issueIoctl 0x03 s :=
  if_neg (by rcases h with h | h <;> simp [h])

theorem exec_reservedRows {i : Instr} {sel op : Byte} (s : State) (h : i ∈ reservedRows sel op) : exec i s = issueReserved op sel s := by
  simp only [reservedRows, List.mem_cons, List.not_mem_nil, or_false] at h
  rcases h with rfl | rfl | rfl | rfl | rfl <;> rfl

/-- A malformed selector is issued as it stands. -/
theorem exec_malformedRows {i : Instr} {sel : Byte} (s : State) (h : i ∈ malformedRows sel) : exec i s = issueIoctl sel s := by
  rcases List.mem_append.1 h with h | h
  · simp only [List.mem_cons, List.not_mem_nil, or_false] at h
    rcases h with rfl | rfl | rfl | rfl | rfl | rfl <;> rfl
  · split at h
    · next hz => rw [List.mem_singleton.1 h, hz]; rfl
    · cases h

theorem exec_running {i : Instr} {s : State} (hf : i.format = .hostop) (hi : s.isIdle = false) (hd : s.dmast = .idle) :
    exec i s = .refused .operationRunning := by
  cases i
  case status sel => exact exec_status_running hi sel
  case pollStatus sel => exact exec_pollStatus_running hi sel
  case startReadDma | startWriteDma => exact issue_running hi _ _ _
  case reservedOpBit3 | reservedOpBit4 | reservedOpBit5 | reservedOpBit6 | reservedOpBit7 => exact issueReserved_running hi _ _
  case ioctlGetEraseBlockSize => exact (exec_ioctlGetEraseBlockSize (.inl hi)).trans (issueOnBus_running hi hd _ _ _)
  case initCard | read | write | ioctlGetSectorCount | ioctlGetSectorSize | ioctlMalformed0 | ioctlMalformed4to7 | ioctlMalformedBit3
    | ioctlMalformedBit4 | ioctlMalformedBit5 | ioctlMalformedBit6 | ioctlMalformedBit7 => exact issueOnBus_running hi hd _ _ _
  all_goals cases hf

/-! ### What HOST takes -/

theorem ownedByDma_none {s : State} (h : s.job = none) (a : Word) : s.ownedByDma a = false := by
  unfold State.ownedByDma; rw [h]

theorem host_store {s : State} {a : Word} {b : Byte} {rest : List Turn} (hi : s.isIdle = true)
    (hs : s.sched = .host (.store a b) :: rest) (hj : s.job = none) : step s = .next ((s.withSched rest).writeByte a.toNat b) := by
  rw [step_host hs hi]
  exact if_neg (by simp [ownedByDma_none (s := s.withSched rest) hj])

theorem host_load {s : State} {a : Word} {rest : List Turn} (hi : s.isIdle = true) (hs : s.sched = .host (.load a) :: rest)
    (hj : s.job = none) : step s = .next ((s.withSched rest).take (.byte (s.readByte a.toNat))) := by
  rw [step_host hs hi]
  exact if_neg (by simp [ownedByDma_none (s := s.withSched rest) hj])

/-- A byte HOST stores where no transfer is in flight is the byte it loads there (10_state.md R35). -/
theorem host_store_load {s : State} {a : Word} {b : Byte} {rest : List Turn} (hi : s.isIdle = true)
    (hs : s.sched = .host (.store a b) :: .host (.load a) :: rest) (hj : s.job = none) (hw : Memory.wf s.mem = true) :
    ∃ t, step s = .next t ∧ step t = .next { t with taken := s.taken ++ [.byte b], sched := rest } := by
  refine ⟨_, host_store hi hs hj, (host_load (s := (s.withSched (.host (.load a) :: rest)).writeByte a.toNat b) hi rfl hj).trans ?_⟩
  rw [readByte_writeByte (s.withSched (.host (.load a) :: rest)) _ _ _ hw, if_pos rfl]
  rfl

/-- A result register the last operation wrote gives its value; one it did not write is a fault (10_state.md R25). -/
theorem host_takes {s : State} {a : HostAct} {rest : List Turn} {valid : Bool} {x : Taken} (hi : s.isIdle = true)
    (hs : s.sched = .host a :: rest)
    (ha : hostStep a (s.withSched rest) = if valid then .next ((s.withSched rest).take x) else .fault .noValue) :
    (valid = true → step s = .next { s with taken := s.taken ++ [x], sched := rest }) ∧ (valid = false → step s = .fault .noValue) := by
  rw [step_host hs hi, ha]
  exact ⟨fun h => if_pos h, fun h => if_neg (by simp [h])⟩

theorem host_takeRes {s : State} {rest : List Turn} (hi : s.isIdle = true) (hs : s.sched = .host .takeRes :: rest) :
    (s.out.resValid = true → step s = .next { s with taken := s.taken ++ [.res s.out.res], sched := rest }) ∧
      (s.out.resValid = false → step s = .fault .noValue) := host_takes hi hs rfl

theorem host_takeSval {s : State} {rest : List Turn} (hi : s.isIdle = true) (hs : s.sched = .host .takeSval :: rest) :
    (s.out.svalValid = true → step s = .next { s with taken := s.taken ++ [.sval s.out.sval], sched := rest }) ∧
      (s.out.svalValid = false → step s = .fault .noValue) := host_takes hi hs rfl

theorem host_takeVal {s : State} {rest : List Turn} (hi : s.isIdle = true) (hs : s.sched = .host .takeVal :: rest) :
    (s.out.valValid = true → step s = .next { s with taken := s.taken ++ [.val s.out.val], sched := rest }) ∧
      (s.out.valValid = false → step s = .fault .noValue) := host_takes hi hs rfl

/-- STATUS given one turn of ENGINE ends at IDLE, with SVAL written and nothing else of the results (10_state.md R24, R25). -/
theorem exec_status_one {s t : State} {sel : Byte} {rest : List Turn} (hi : s.isIdle = true)
    (h : exec (.status sel) (s.withSched (engineTurns 1 ++ rest)) = .next t) :
    t.isIdle = true ∧ t.sched = rest ∧ t.out = s.out.onlySval s.dstat ∧ t.taken = s.taken := by
  have ht : ((s.clearResults.latchWord 0x01 sel).goAct .retStatus).todo = [] := ((isIdle_iff s).1 hi).2
  rw [exec_status hi (reaches_retStatus ht rfl).gets (returnStatus_idle ht) rest] at h
  cases h
  exact ⟨returnStatus_idle ht, rfl, rfl, rfl⟩

end Sys2Proof.Machine

namespace Sys2Proof.Proofs

open Sys2Proof.Machine

/-- Settles O11: each row is an issue, on the bus or off it, and both refuse by name. -/
theorem issueRefused : Obligations.IssueRefused := by
  refine ⟨fun i s hf hi hd => exec_running hf hi hd, fun i s sel op buf sector count hi hmem => ?_,
    fun i s sel buf sector count hd hmem => ?_⟩
  · rcases List.mem_append.1 hmem with h | h
    · simp only [List.mem_cons, List.not_mem_nil, or_false] at h
      rcases h with rfl | rfl | rfl | rfl
      · exact exec_status_running hi sel
      · exact exec_pollStatus_running hi sel
      · exact issue_running hi _ _ _
      · exact issue_running hi _ _ _
    · exact (exec_reservedRows s h).trans (issueReserved_running hi op sel)
  · rcases List.mem_append.1 hmem with h | h
    · simp only [queryRows, List.map_cons, List.map_nil, List.mem_append, List.mem_cons, List.not_mem_nil, or_false] at h
      rcases h with (rfl | rfl | rfl) | (rfl | rfl | rfl)
      case inr.inr.inr => exact (exec_ioctlGetEraseBlockSize (.inr hd)).trans (issueOnBus_owned hd _ _ _)
      all_goals exact issueOnBus_owned hd _ _ _
    · exact (exec_malformedRows s h).trans (issueOnBus_owned hd _ _ _)

/-- Settles O60: HOST's step on each result register, after any operation and after a STATUS, and on a byte it stored. -/
theorem hostTakes : Obligations.HostTakes := by
  refine ⟨fun s rest hi => ⟨host_takeRes hi, host_takeSval hi, host_takeVal hi, fun a b hs hj hw => host_store_load hi hs hj hw⟩,
    fun s t sel take rest hi h => ?_⟩
  obtain ⟨hidle, hsched, hout, htaken⟩ := exec_status_one hi h
  refine ⟨?_, ?_⟩
  · rintro rfl
    have hsval : t.out.sval = s.dstat := by rw [hout]; rfl
    rw [← hsval, ← htaken]
    exact (host_takeSval hidle hsched).1 (by rw [hout]; rfl)
  · rintro (rfl | rfl)
    · exact (host_takeRes hidle hsched).2 (by rw [hout]; rfl)
    · exact (host_takeVal hidle hsched).2 (by rw [hout]; rfl)

end Sys2Proof.Proofs
end

section
/-! The sector address and the block command it becomes the argument of (20_memory.md R68; 30_encoding.md R93). -/

namespace Sys2Proof.Machine

/-- Only the block-addressed card type has CTYPE[3] set. -/
theorem isBlock_iff (c : CardType) : c.isBlock = true ↔ c = .sd2Block := by cases c <;> decide

/-- The address in numbers. -/
theorem scaledAddr_eq (c : CardType) (sector : Word) :
    scaledAddr c sector = if c = .sd2Block then sector else BitVec.ofNat 32 (sector.toNat * 512) := by
  have hbyte : sector * 512 = BitVec.ofNat 32 (sector.toNat * 512) := BitVec.eq_of_toNat_eq (by simp [BitVec.toNat_mul])
  simp only [scaledAddr, isBlock_iff, hbyte]

theorem engineStep_act {s t : State} {a : Act} (ht : s.todo = []) (hp : s.pos = .act a) (hd : doAct a s = .next t) (hr : t.atRest) :
    engineStep s = .next t := by
  unfold engineStep
  rw [ht, hp]
  simp only [hd, andThen, settle_atRest hr]

/-- CMD17 and CMD18 read one block and several, CMD24 and CMD25 write them. -/
theorem blockCommand_dir (o : BlockOp) (n : Word) :
    blockCommand o.dir n = if o.isWrite = true then (if n = 1 then 0x18 else 0x19) else (if n = 1 then 0x11 else 0x12) := by
  cases o <;> rfl

/-- A read, and a write of one block, call the block command with the address. -/
theorem doAct_scale_command {o : BlockOp} {s : State} (h : o.isWrite = false ∨ s.lat.count = 1) :
    ∃ u, doAct (.scale o) s = .next (s.noteAddr.call [.command (blockCommand o.dir s.lat.count) s.noteAddr.wk.addr] u) := by
  cases o with
  | read =>
    by_cases h1 : s.lat.count = 1
    · exact ⟨.readOne, congrArg _ (if_pos h1)⟩
    · exact ⟨.readMany, congrArg _ (if_neg h1)⟩
  | write => exact ⟨.writeOne, congrArg _ (if_pos (h.resolve_left (by decide)))⟩
  | startRead => exact ⟨.dmaReadCmd, rfl⟩
  | startWrite => exact ⟨.dmaWriteCmd, congrArg _ (if_pos (h.resolve_left (by decide)))⟩

/-- A write of several blocks asks for the card type first. -/
theorem doAct_scale_hint {o : BlockOp} {s : State} (hw : o.isWrite = true) (h1 : s.lat.count ≠ 1) :
    doAct (.scale o) s = .next (s.noteAddr.goAct (.testSdc o.isDma)) := by
  cases o with
  | read | startRead => cases hw
  | write | startWrite => exact congrArg _ (if_neg h1)

end Sys2Proof.Machine

namespace Sys2Proof.Proofs

open Sys2Proof.Machine

/-- Settles O40: the address action calls the block command, or goes to the test for the hint; either way the address is `scaledAddr`. -/
theorem sectorAddress : Obligations.SectorAddress := by
  intro o s ht hp
  have haddr := scaledAddr_eq s.ctype s.lat.sector
  by_cases h : o.isWrite = false ∨ s.lat.count = 1
  · obtain ⟨u, hd⟩ := doAct_scale_command h
    refine ⟨_, engineStep_act ht hp hd trivial, haddr, fun _ => ?_, fun hw h1 => ?_, rfl⟩
    · show Micro.command (blockCommand o.dir s.lat.count) s.noteAddr.wk.addr :: s.todo = _
      rw [ht, blockCommand_dir]
      cases o.isWrite <;> by_cases h1 : s.lat.count = 1 <;> simp only [h1, ↓reduceIte, decide_true, decide_false] <;> rfl
    · exact absurd h (not_or.2 ⟨by simp [hw], h1⟩)
  · obtain ⟨hr, h1⟩ := not_or.1 h
    have hw : o.isWrite = true := Bool.eq_true_of_not_eq_false hr
    have hrest : (s.noteAddr.goAct (.testSdc o.isDma)).atRest := by simp [State.atRest, State.goAct, State.noteAddr, ht]
    exact ⟨_, engineStep_act ht hp (doAct_scale_hint hw h1) hrest, haddr, fun hc => absurd hc h, fun _ _ => ⟨ht, rfl⟩, rfl⟩

end Sys2Proof.Proofs
end

section
/-! Where the bytes of received blocks lie (20_memory.md R62, R63): blocks stored one behind the other are their bytes stored in one run,
so what `storeBytes` does with a run of bytes says it of the blocks. -/

namespace Sys2Proof.Machine

/-- The data bytes of received packets, in the order in which they come. -/
def blockBytes (qs : List Packet) : List Byte := qs.flatMap Packet.data

theorem blockBytes_cons (q : Packet) (qs : List Packet) : blockBytes (q :: qs) = q.data ++ blockBytes qs := List.flatMap_cons

theorem wholeBlocks_cons {q : Packet} {qs : List Packet} : wholeBlocks (q :: qs) ↔ q.data.length = 512 ∧ wholeBlocks qs :=
  List.forall_mem_cons

theorem blockBytes_length {qs : List Packet} (h : wholeBlocks qs) : (blockBytes qs).length = 512 * qs.length := by
  induction qs with
  | nil => rfl
  | cons q qs ih =>
    obtain ⟨hq, hqs⟩ := wholeBlocks_cons.1 h
    rw [blockBytes_cons, List.length_append, hq, ih hqs, List.length_cons]
    omega

/-- Byte `k` of block `j` is byte `512 * j + k` of them all. -/
theorem blockBytes_getElem? {qs : List Packet} (h : wholeBlocks qs) {j k : Nat} {q : Packet} {b : Byte} (hq : qs[j]? = some q)
    (hb : q.data[k]? = some b) : (blockBytes qs)[512 * j + k]? = some b := by
  induction qs generalizing j with
  | nil => simp at hq
  | cons p qs ih =>
    obtain ⟨hp, hqs⟩ := wholeBlocks_cons.1 h
    rw [blockBytes_cons]
    cases j with
    | zero =>
      obtain rfl : p = q := by simpa using hq
      obtain ⟨hk, -⟩ := List.getElem?_eq_some_iff.1 hb
      rw [Nat.mul_zero, Nat.zero_add, List.getElem?_append_left hk, hb]
    | succ j =>
      rw [List.getElem?_append_right (by omega), show 512 * (j + 1) + k - p.data.length = 512 * j + k by omega]
      exact ih hqs (by simpa using hq)

theorem bufferAddr_next (base : Word) (n i : Nat) : bufferAddr (base + BitVec.ofNat 32 n) i = bufferAddr base (n + i) := by
  rw [bufferAddr_eq, bufferAddr_eq, BitVec.toNat_add, BitVec.toNat_ofNat]
  omega

/-- An offset may be counted from a later address. -/
theorem storeBytes_shift (base : Word) (n : Nat) (l : List Byte) (i : Nat) (m : Memory) :
    storeBytes (base + BitVec.ofNat 32 n) i l m = storeBytes base (n + i) l m := by
  induction l generalizing i m with
  | nil => rfl
  | cons b l ih => rw [storeBytes, storeBytes, ih, bufferAddr_next, Nat.add_assoc]

theorem storeBytes_append (base : Word) (l r : List Byte) (i : Nat) (m : Memory) :
    storeBytes base i (l ++ r) m = storeBytes base (i + l.length) r (storeBytes base i l m) := by
  induction l generalizing i m with
  | nil => rfl
  | cons b l ih => rw [List.cons_append, storeBytes, storeBytes, ih, List.length_cons, Nat.add_right_comm, Nat.add_assoc]

/-- Whole blocks are stored as one run of bytes. -/
theorem storePackets_eq_storeBytes {qs : List Packet} (h : wholeBlocks qs) (m : Memory) (base : Word) :
    storePackets m base qs = storeBytes base 0 (blockBytes qs) m := by
  induction qs generalizing m base with
  | nil => rfl
  | cons q qs ih =>
    obtain ⟨hq, hqs⟩ := wholeBlocks_cons.1 h
    calc storePackets m base (q :: qs)
        = storeBytes (base + BitVec.ofNat 32 512) 0 (blockBytes qs) (storeBytes base 0 q.data m) := ih hqs _ _
      _ = storeBytes base 512 (blockBytes qs) (storeBytes base 0 q.data m) := storeBytes_shift base 512 _ 0 _
      _ = storeBytes base 0 (blockBytes (q :: qs)) m := by rw [blockBytes_cons, storeBytes_append, hq]

end Sys2Proof.Machine

namespace Sys2Proof.Proofs

open Sys2Proof.Machine

/-- Settles O41: the blocks are one run of `512 * qs.length` bytes, and the laws of `storeBytes` say where a run lies. -/
theorem receivedBlocksInBuffer : Obligations.ReceivedBlocksInBuffer := by
  intro m base qs hm hqs hfit
  have hlen := blockBytes_length hqs
  rw [storePackets_eq_storeBytes hqs]
  refine ⟨storeBytes_wf base _ 0 m hm, fun j k q b hq hb => ?_, fun a ha => ?_⟩
  · have hread := storeBytes_inside base _ 0 m _ b hm (by omega) (blockBytes_getElem? hqs hq hb)
    rwa [Nat.zero_add, ← Nat.add_assoc] at hread
  · exact storeBytes_outside base _ 0 m a hm fun k _ hk => ha k (by omega)

end Sys2Proof.Proofs
end

section
/-! What READ alone does: a store to a byte of the buffer by ENGINE (20_memory.md R62; 60_exceptions.md R314). -/

namespace Sys2Proof.Machine

/-- A run that begins outside READ, and in which DMAENG takes no step, keeps memory. -/
theorem runTurns_keeps_mem {l : List Turn} {s t : State} (hl : ∀ a, Turn.dma a ∉ l) (hs : s.inside outsideRead)
    (h : runTurns l s = .next t) : t.mem = s.mem :=
  runTurns_keeps outsideRead_closed Held.mem (fun _ s hl => doLocal_mem s hl) (fun _ _ _ _ hd => doAct_mem hd) l s t
    (fun _ hmem d hd => absurd (hd ▸ hmem) (hl d)) hs h

/-- Every host operation but READ, and every event, keeps it. -/
theorem exec_keeps_mem {i : Instr} {s t : State} (hf : i.format = .hostop ∨ i.format = .event)
    (hn : ∀ sel buf sector count, i ≠ .read sel buf sector count) (hd : ∀ a, Turn.dma a ∉ s.sched) (h : exec i s = .next t) :
    t.mem = s.mem := by
  rcases hf with hf | hf
  · obtain ⟨u, a, hrun, htodo, hpos, hheld, -, hread⟩ := exec_hostop_run hf h
    have hin : u.inside outsideRead := ⟨by rw [hpos]; simp [outsideRead, hread hn], by rw [htodo]; rfl⟩
    exact (runTurns_keeps_mem hd hin hrun).trans (congrArg Held.mem hheld)
  · exact congrArg Held.mem (exec_event_held hf h)

end Sys2Proof.Machine

namespace Sys2Proof.Proofs

open Sys2Proof.Machine

/-- Settles O56: the operation runs in the region outside READ, in which no turn but DMAENG's writes memory. -/
theorem onlyReadStores : Obligations.OnlyReadStores :=
  fun _ _ _ hf hn hd h a => congrArg (memRead · a) (exec_keeps_mem hf hn hd h)

end Sys2Proof.Proofs
end

section
/-! Bytes and instructions name each other (30_encoding.md R91 to R105): what decodes in a format is an encoding of that format, and each of
the 65536 HOSTOP words decodes. -/

open Sys2Proof.Machine

namespace Sys2Proof

/-- A byte in front of what is left, decoded to a well-formed instruction of the format that has this byte as its port image. -/
theorem encodes_of_byte {f : Format} {b c : Byte} {r rest : List Byte} {i j : Instr}
    (h : (.ok (j, r) : Except DecodeError (Instr × List Byte)) = .ok (i, rest)) (hb : b = c) (hf : j.format = f)
    (hw : j.wellFormed = true) (he : encode j = [c]) : i.format = f ∧ i.wellFormed = true ∧ b :: r = encode i ++ rest := by
  obtain ⟨rfl, rfl⟩ := decoded_inj h
  exact ⟨hf, hw, by rw [he, hb]; rfl⟩

/-- Bit 7 is clear in a response and set in what is not one (30_encoding.md R98). -/
theorem notResponse_of_not_response : ∀ b : Byte, ¬ matchesPattern b 0x80 0x00 = true → matchesPattern b 0x80 0x80 = true := by decide

theorem decodeEvent_inv {bs rest : List Byte} {i : Instr} (h : decodeEvent bs = .ok (i, rest)) :
    i.format = .event ∧ i.wellFormed = true ∧ bs = encode i ++ rest := by
  cases bs with
  | nil => cases h
  | cons b bs =>
    simp only [decodeEvent] at h
    split_ifs at h with h1 h2 h3
    · exact encodes_of_byte h h1 rfl rfl rfl
    · exact encodes_of_byte h h2 rfl rfl rfl
    · exact encodes_of_byte h h3 rfl rfl rfl

theorem decodeToken_inv {bs rest : List Byte} {i : Instr} (h : decodeToken bs = .ok (i, rest)) :
    i.format = .token ∧ i.wellFormed = true ∧ bs = encode i ++ rest := by
  cases bs with
  | nil => cases h
  | cons b bs =>
    simp only [decodeToken] at h
    split_ifs at h with h1 h2 h3 h4
    · exact encodes_of_byte h h1 rfl rfl rfl
    · exact encodes_of_byte h h2 rfl rfl rfl
    · exact encodes_of_byte h h3 rfl rfl rfl
    · exact encodes_of_byte h h4 rfl rfl rfl

theorem decodeR1_inv {bs rest : List Byte} {i : Instr} (h : decodeR1 bs = .ok (i, rest)) :
    i.format = .r1 ∧ i.wellFormed = true ∧ bs = encode i ++ rest := by
  cases bs with
  | nil => cases h
  | cons b bs =>
    simp only [decodeR1] at h
    split_ifs at h with hb
    · exact encodes_of_byte h rfl rfl hb rfl
    · exact encodes_of_byte h rfl rfl (notResponse_of_not_response b hb) rfl

theorem decodeDataResponse_inv {bs rest : List Byte} {i : Instr} (h : decodeDataResponse bs = .ok (i, rest)) :
    i.format = .dataresp ∧ i.wellFormed = true ∧ bs = encode i ++ rest := by
  cases bs with
  | nil => cases h
  | cons b bs =>
    simp only [decodeDataResponse] at h
    split_ifs at h with hb
    exact encodes_of_byte h rfl rfl hb rfl

theorem decodeResult_inv {bs rest : List Byte} {i : Instr} (h : decodeResult bs = .ok (i, rest)) :
    i.format = .result ∧ i.wellFormed = true ∧ bs = encode i ++ rest := by
  cases bs with
  | nil => cases h
  | cons b bs =>
    simp only [decodeResult] at h
    split_ifs at h with h0 h1 h2 h3 h4
    · exact encodes_of_byte h h0 rfl rfl rfl
    · exact encodes_of_byte h h1 rfl rfl rfl
    · exact encodes_of_byte h h2 rfl rfl rfl
    · exact encodes_of_byte h h3 rfl rfl rfl
    · exact encodes_of_byte h h4 rfl rfl rfl

theorem decode_inv {f : Format} {bs rest : List Byte} {i : Instr} (h : decode f bs = .ok (i, rest)) :
    i.format = f ∧ i.wellFormed = true ∧ bs = encode i ++ rest := by
  cases f with
  | hostop => exact decodeHostop_inv bs rest i h
  | event => exact decodeEvent_inv h
  | cmdframe => exact decodeFrame_inv bs rest i h
  | token => exact decodeToken_inv h
  | r1 => exact decodeR1_inv h
  | dataresp => exact decodeDataResponse_inv h
  | result => exact decodeResult_inv h

theorem decodeLatches_of_twelve (mk : Word → Word → Word → Instr) (b0 b1 b2 b3 s0 s1 s2 s3 c0 c1 c2 c3 : Byte) :
    decodeLatches mk [b0, b1, b2, b3, s0, s1, s2, s3, c0, c1, c2, c3] =
      .ok (mk (b3 ++ b2 ++ b1 ++ b0) (s3 ++ s2 ++ s1 ++ s0) (c3 ++ c2 ++ c1 ++ c0), []) := rfl

/-- No HOSTOP word is left over: with bytes enough for three latches behind it, each decodes (30_encoding.md R91). -/
theorem decodeHostop_total (op sel : Byte) {bytes : List Byte} (h : ∀ mk, ∃ i rest, decodeLatches mk bytes = .ok (i, rest)) :
    ∃ i rest, decodeHostop (op :: sel :: bytes) = .ok (i, rest) := by
  simp only [decodeHostop]
  split_ifs
  iterate 2 exact ⟨_, _, rfl⟩
  iterate 4 exact h _
  iterate 3 exact ⟨_, _, rfl⟩

end Sys2Proof

namespace Sys2Proof.Proofs

open Sys2Proof.Machine

/-- Settles O1: the round trip of each row, `decode_encode`. -/
theorem decodeOfEncode : Obligations.DecodeOfEncode := decode_encode

/-- Settles O2: each format's decoder inverted, `decode_inv`. -/
theorem encodeOfDecode : Obligations.EncodeOfDecode := fun _ _ _ _ => decode_inv

/-- Settles O3: every word decodes, so `decodeHostop_inv` gives its format, and its code which row it is. -/
theorem everyHostWordDecodes : Obligations.EveryHostWordDecodes := by
  intro op sel b0 b1 b2 b3 s0 s1 s2 s3 c0 c1 c2 c3
  obtain ⟨i, rest, h⟩ := decodeHostop_total op sel (bytes := [b0, b1, b2, b3, s0, s1, s2, s3, c0, c1, c2, c3])
    fun mk => ⟨_, _, decodeLatches_of_twelve mk b0 b1 b2 b3 s0 s1 s2 s3 c0 c1 c2 c3⟩
  obtain ⟨hf, hw, -⟩ := decodeHostop_inv _ _ _ h
  obtain ⟨-, -, -, hmalformed, hquery⟩ := decodeSelector_inv sel
  refine ⟨i, rest, h, hw, hf, fun hop => ?_, ?_, ?_, ?_, ?_, ?_, ?_, ?_, ?_, ?_⟩
  · obtain ⟨-, -, -, hrow⟩ := decodeReserved_inv sel op hop
    obtain ⟨rfl, -⟩ := decoded_inj ((decodeHostop_reserved _ sel op hop).symm.trans h)
    exact hrow
  · rintro rfl hsel; obtain ⟨rfl, -⟩ := decoded_inj h; exact hmalformed hsel
  · rintro rfl h0 h4; obtain ⟨rfl, -⟩ := decoded_inj h; exact hquery h0 h4
  iterate 3 rintro rfl; exact (decoded_inj h).1.symm
  iterate 4 rintro rfl; exact (decoded_inj h).imp Eq.symm Eq.symm

/-- Settles O4: the decoder on each word. -/
theorem writtenWords : Obligations.WrittenWords :=
  ⟨rfl, rfl, rfl, rfl, rfl, rfl, rfl, rfl, rfl, rfl, rfl, rfl, rfl, rfl, rfl, rfl⟩

end Sys2Proof.Proofs
end

section
/-! Tokens, responses and data responses at their exchanges (30_encoding.md R98, R102 to R104): such a row is the exchange PHASE stands at,
with the row's byte received or sent; what a received byte does is said once for each kind of exchange. And the reserved operation codes
(R104 (a)). -/

namespace Sys2Proof.Machine

/-! ### The rows at an exchange -/

section
variable {s : State} {x : Exchange} {k : List Micro}

theorem answeredAt_next (h : s.todo = .exchange x :: k) (rx : Byte) : answeredAt x rx s = .next (exchanged x k rx s) := by
  unfold answeredAt; rw [h]; exact if_pos rfl

theorem heard_at_token (h : s.todo = .exchange .token :: k) (rx : Byte) : heard rx s = .next (exchanged .token k rx s) := by
  unfold heard; rw [atExchange_iff h]; exact answeredAt_next h rx

theorem heard_at_ready (h : s.todo = .exchange .ready :: k) (rx : Byte) : heard rx s = .next (exchanged .ready k rx s) := by
  unfold heard; rw [atExchange_iff h]; exact answeredAt_next h rx

theorem waits_iff (h : s.todo = .exchange x :: k) : s.waits = true ↔ x = .token ∨ x = .ready := by
  unfold State.waits; rw [atExchange_iff h, atExchange_iff h]; simp

theorem exec_tokStart_at_token (h : s.todo = .exchange .token :: k) :
    exec .tokStart s = .next (exchanged .token k 0xFE s) :=
  (if_pos ((waits_iff h).2 (.inl rfl))).trans (heard_at_token h 0xFE)

theorem exec_filler_at_token (h : s.todo = .exchange .token :: k) : exec .filler s = .next (exchanged .token k 0xFF s) :=
  (if_pos ((waits_iff h).2 (.inl rfl))).trans (heard_at_token h 0xFF)

theorem exec_filler_at_ready (h : s.todo = .exchange .ready :: k) : exec .filler s = .next (exchanged .ready k 0xFF s) :=
  (if_pos ((waits_iff h).2 (.inr rfl))).trans (heard_at_ready h 0xFF)

theorem exec_filler_at_poll (h : s.todo = .exchange .poll :: k) : exec .filler s = .next (exchanged .poll k 0xFF s) := by
  refine (if_neg fun hw => ?_).trans ((if_pos ?_).trans (answeredAt_next h 0xFF))
  · simpa using (waits_iff h).1 hw
  · rw [atExchange_iff h]; rfl

/-- Filler sent only to receive, or to clock the card, is ENGINE's step (00_scope.md R7). -/
theorem exec_filler_sent (h : s.todo = .exchange x :: k) (hx : x.onlyReceives = true) :
    exec .filler s = .next (doExchange x k s) := by
  refine (if_neg fun hw => ?_).trans ((if_neg fun hp => ?_).trans ?_)
  · rcases (waits_iff h).1 hw with rfl | rfl <;> cases hx
  · rw [atExchange_iff h, decide_eq_true_iff] at hp; subst hp; cases hx
  · unfold fillerSent; rw [h]; exact if_pos hx

theorem engineStep_exchange (h : s.todo = .exchange x :: k) : engineStep s = .next (doExchange x k s) := by
  unfold engineStep; rw [h]

theorem doExchange_answered {u : State} {rx : Byte} (k : List Micro) (hn : s.nextCard = some (rx, u)) :
    doExchange x k s = exchanged x k rx u := by
  unfold doExchange; rw [hn]

end

/-- A block token or the stop token is sent where PHASE stands at its exchange. -/
theorem exec_token_sent {i : Instr} {tok : Byte} {s : State} {k : List Micro}
    (hi : (i, tok) ∈ [(Instr.tokStart, (0xFE : Byte)), (.tokMulti, 0xFC), (.tokStop, 0xFD)])
    (h : s.todo = .exchange (.sendToken tok) :: k) : exec i s = sentAt (.sendToken tok) s := by
  have hw : ¬ s.waits = true := by rw [waits_iff h]; simp
  simp only [List.mem_cons, Prod.mk.injEq, List.not_mem_nil, or_false] at hi
  rcases hi with ⟨rfl, rfl⟩ | ⟨rfl, rfl⟩ | ⟨rfl, rfl⟩ <;> exact if_neg hw

/-! ### What a received byte does -/

/-- The start token ends the token wait with success (44_polling_block_io.md R238). -/
theorem exchanged_token_start (k : List Micro) (s : State) :
    exchanged .token k 0xFE s = settle { s with
      todo := k, wk := { s.wk with tok := 0xFE, flag := true }, trace := s.trace ++ [.xchg 0xFF 0xFE] } := rfl

/-- After filler the counter of the token wait is asked. -/
theorem exchanged_token_filler (k : List Micro) (s : State) :
    exchanged .token k 0xFF s = { s with
      todo := .act .tokenExpired :: k, wk := { s.wk with tok := 0xFF }, trace := s.trace ++ [.xchg 0xFF 0xFF] } :=
  settle_act rfl

/-- Any other byte ends the token wait with failure (30_encoding.md R104 (d)). -/
theorem exchanged_token_other {b : Byte} (h1 : b ≠ 0xFE) (h2 : b ≠ 0xFF) (k : List Micro) (s : State) :
    exchanged .token k b s = settle { s with
      todo := k, wk := { s.wk with tok := b, flag := false }, trace := s.trace ++ [.xchg 0xFF b] } := by
  have hflag : (b == Config.tokStart) = false := beq_false_of_ne h1
  simp only [exchanged, received, tokenByte, if_neg (show ¬ b = Config.filler from h2), hflag]
  rfl

/-- Filler ends the readiness wait with success (40_bus_transport.md R139). -/
theorem exchanged_ready_filler (k : List Micro) (s : State) :
    exchanged .ready k 0xFF s = settle { s with
      todo := k, wk := { s.wk with rdy := 0xFF, flag := true }, trace := s.trace ++ [.xchg 0xFF 0xFF] } := rfl

/-- After any other byte the counter of the readiness wait is asked. -/
theorem exchanged_ready_other {b : Byte} (h : b ≠ 0xFF) (k : List Micro) (s : State) :
    exchanged .ready k b s = { s with
      todo := .act .readyExpired :: k, wk := { s.wk with rdy := b }, trace := s.trace ++ [.xchg 0xFF b] } := by
  have hbusy : cardIsReady b = false := beq_false_of_ne h
  simp only [exchanged, received, readyByte, hbusy]
  exact settle_act rfl

theorem isResponse_eq : ∀ b : Byte, isResponse b = !b.getLsbD 7 := by decide

/-- A response ends the R1 poll, and so does the last byte of its budget (42_command_framing.md R175). -/
theorem exchanged_poll_ends {b : Byte} {s : State} (h : b.getLsbD 7 = false ∨ s.wk.ntry = 1) (k : List Micro) :
    exchanged .poll k b s = settle { s with
      todo := k, wk := { s.wk with r1 := b, ntry := s.wk.ntry - 1 }, trace := s.trace ++ [.xchg 0xFF b] } := by
  have hends : (isResponse b || s.wk.ntry - 1 == 0) = true := by
    rcases h with h | h
    · rw [isResponse_eq, h]; rfl
    · rw [h]; exact Bool.or_true _
  exact congrArg settle (if_pos hends)

/-- While the budget lasts, any other byte is discarded. -/
theorem exchanged_poll_continues {b : Byte} {s : State} (hb : b.getLsbD 7 = true) (hn : s.wk.ntry ≠ 1) (k : List Micro) :
    exchanged .poll k b s = { s with
      todo := .exchange .poll :: k, wk := { s.wk with r1 := b, ntry := s.wk.ntry - 1 }, trace := s.trace ++ [.xchg 0xFF b] } := by
  have hleft : ¬ (isResponse b || s.wk.ntry - 1 == 0) = true := by
    rw [isResponse_eq, hb]
    simp only [Bool.not_true, Bool.false_or, beq_iff_eq]
    bv_omega
  exact (congrArg settle (if_neg hleft)).trans (settle_exchange rfl)

/-- The data response is accepted or not by its low five bits (30_encoding.md R102). -/
theorem exchanged_response (k : List Micro) (b : Byte) (s : State) :
    exchanged .response k b s = settle { s with
      todo := k, wk := { s.wk with dresp := b, flag := b &&& 0x1F == 0x05 }, trace := s.trace ++ [.xchg 0xFF b] } := rfl

/-- The byte received for a token that is sent is discarded. -/
theorem exchanged_sendToken (tok : Byte) (k : List Micro) (rx : Byte) (s : State) :
    exchanged (.sendToken tok) k rx s = settle { s with todo := k, trace := s.trace ++ [.xchg tok rx] } := rfl

/-- So is the byte received where a byte is sent to clock the card. -/
theorem exchanged_send (tx : Byte) (k : List Micro) (rx : Byte) (s : State) :
    exchanged (.send tx) k rx s = settle { s with todo := k, trace := s.trace ++ [.xchg tx rx] } := rfl

theorem exchanged_trace (x : Exchange) (k : List Micro) (rx : Byte) (s : State) :
    (exchanged x k rx s).trace = s.trace ++ [.xchg (x.tx s) rx] := by
  unfold exchanged; rw [settle_trace, received_trace]; rfl

theorem tx_of_onlyReceives {x : Exchange} (h : x.onlyReceives = true) (s : State) : x.tx s = 0xFF := by
  cases x with
  | send tx => exact eq_of_beq h
  | trail | data | response => rfl
  | ready | token | poll | sendToken | sendData => cases h

/-! ### Bytes on the ports -/

theorem runPort_undecoded {f : Format} {bytes : List Byte} {e : DecodeError} (h : decode f bytes = .error e) (s : State) :
    runPort f bytes s = runOther f bytes e s := by
  unfold runPort; rw [h]

theorem decode_otherToken {b : Byte} (h1 : b ≠ 0xFE) (h2 : b ≠ 0xFC) (h3 : b ≠ 0xFD) (h4 : b ≠ 0xFF) :
    decode .token [b] = .error .notToken :=
  (if_neg h1).trans ((if_neg h2).trans ((if_neg h3).trans (if_neg h4)))

/-- Where ENGINE waits, a byte on the token port is heard, whether it names a token or not. -/
theorem runPort_token_waits {s : State} (hw : s.waits = true) (b : Byte) : runPort .token [b] s = heard b s := by
  by_cases h1 : b = 0xFE
  · subst h1; exact if_pos hw
  by_cases h2 : b = 0xFC
  · subst h2; exact if_pos hw
  by_cases h3 : b = 0xFD
  · subst h3; exact if_pos hw
  by_cases h4 : b = 0xFF
  · subst h4; exact if_pos hw
  exact runPort_undecoded (decode_otherToken h1 h2 h3 h4) s

section
variable {s : State} {k : List Micro} {b : Byte} {rest : List Turn}

theorem step_token_at_token (h : s.todo = .exchange .token :: k) (hs : s.sched = .port .token [b] :: rest) :
    step s = .next (exchanged .token k b (s.withSched rest)) := by
  have h' : (s.withSched rest).todo = .exchange .token :: k := h
  rw [step_port hs (fun e => nomatch e), runPort_token_waits ((waits_iff h').2 (.inl rfl)), heard_at_token h']

theorem step_token_at_ready (h : s.todo = .exchange .ready :: k) (hs : s.sched = .port .token [b] :: rest) :
    step s = .next (exchanged .ready k b (s.withSched rest)) := by
  have h' : (s.withSched rest).todo = .exchange .ready :: k := h
  rw [step_port hs (fun e => nomatch e), runPort_token_waits ((waits_iff h').2 (.inr rfl)), heard_at_ready h']

/-- A data response without a row is received where ENGINE reads one (30_encoding.md R102). -/
theorem step_rejected_response (h : s.todo = .exchange .response :: k) (hs : s.sched = .port .dataresp [b] :: rest)
    (hb : b &&& 0x1F ≠ 0x05) : step s = .next (exchanged .response k b (s.withSched rest)) := by
  have hd : decode .dataresp [b] = .error .dataRejected := if_neg fun h => hb (eq_of_beq h)
  have h' : (s.withSched rest).todo = .exchange .response :: k := h
  rw [step_port hs (fun e => nomatch e), runPort_undecoded hd]
  exact answeredAt_next h' b

end

/-! ### Reserved operation codes -/

/-- A reserved operation code goes from its issue to its `return` (30_encoding.md R104 (a)). -/
theorem issueReserved_result {s : State} (hi : s.isIdle = true) (op sel : Byte) (rest : List Turn) :
    issueReserved op sel (s.withSched (engineTurns 1 ++ rest)) = .next { s with
      lat := { s.lat with op := op, sel := sel },
      out := s.out.onlyRes .invalidParameter, sched := rest } := by
  obtain ⟨hp, ht⟩ := (isIdle_iff s).1 hi
  have run : Reaches 1 ((s.clearResults.latchWord op sel).endWith .invalidParameter)
      (((s.clearResults.latchWord op sel).endWith .invalidParameter).returnWith .invalidParameter) := reaches_ret ht rfl
  refine (issueReserved_completes hi run.gets (returnWith_idle ht) rest).trans (congrArg _ ?_)
  exact State.eq_of rfl rfl rfl hp.symm rfl rfl rfl rfl rfl rfl rfl rfl rfl rfl rfl rfl rfl rfl

end Sys2Proof.Machine

namespace Sys2Proof.Proofs

open Sys2Proof.Machine

/-- Settles O22: each row is the issue of its code, and one turn of ENGINE takes that to the `return`. -/
theorem reservedOperation : Obligations.ReservedOperation := by
  intro s sel op i rest hi hrow
  rw [exec_reservedRows _ hrow]
  exact issueReserved_result hi op sel rest

/-- Settles O52: each token row is the exchange ENGINE stands at, and what the byte does there is one lemma for each kind. -/
theorem tokenRows : Obligations.TokenRows := by
  intro s k
  refine ⟨fun h => ?_, fun h => ?_, fun b rest h hs h1 h2 => ?_, fun h => ?_, fun b rest h hs hb => ?_, fun h hn => ?_, fun h hn => ?_,
    fun i tok rx u hi h hn => ?_, fun rx u h hn => ?_, fun x rx u hx h hn => ?_⟩
  · rw [exec_tokStart_at_token h, exchanged_token_start]
  · rw [exec_filler_at_token h, exchanged_token_filler]
  · rw [step_token_at_token h hs, exchanged_token_other h1 h2]; rfl
  · rw [exec_filler_at_ready h, exchanged_ready_filler]
  · rw [step_token_at_ready h hs, exchanged_ready_other hb]; rfl
  · rw [exec_filler_at_poll h, exchanged_poll_continues rfl hn]
  · rw [exec_filler_at_poll h, exchanged_poll_ends (.inr hn), hn]; rfl
  · rw [exec_token_sent hi h, sentAt_next h hn, exchanged_sendToken, nextCard_trace hn]
  · rw [exec_filler_sent h rfl, doExchange_answered k hn, exchanged_send, nextCard_trace hn]
  · have hx' : x.onlyReceives = true := by rcases hx with ⟨j, rfl⟩ | ⟨d, rfl⟩ | rfl <;> rfl
    refine ⟨(exec_filler_sent h hx').trans (engineStep_exchange h).symm, _, engineStep_exchange h, ?_⟩
    rw [doExchange_answered k hn, exchanged_trace, tx_of_onlyReceives hx', nextCard_trace hn]

/-- Settles O53: each row is the answer to the exchange ENGINE stands at. -/
theorem responseRows : Obligations.ResponseRows := by
  intro s k b
  refine ⟨fun h hb => ?_, fun h hb hn => ?_, fun h hb hn => ?_, fun h hb => ?_, fun rest h hs hb => ?_⟩
  · exact (answeredAt_next h b).trans (congrArg _ (exchanged_poll_ends (.inl hb) k))
  · exact (answeredAt_next h b).trans (congrArg _ (exchanged_poll_continues hb hn k))
  · refine (answeredAt_next h b).trans (congrArg _ ((exchanged_poll_ends (.inr hn) k).trans ?_))
    rw [hn]; rfl
  · refine (answeredAt_next h b).trans (congrArg _ ((exchanged_response k b s).trans ?_))
    rw [beq_iff_eq.2 hb]
  · rw [step_rejected_response h hs hb, exchanged_response, beq_false_of_ne hb]; rfl

end Sys2Proof.Proofs
end

section
/-! The transport's two waits for the card: an exchange that is never answered holds ENGINE whatever TICK does (40_bus_transport.md R136),
and on a responsive bus the readiness wait ends when its counter has run out (R139). -/

namespace Sys2Proof.Machine

/-! ### The exchange that is never answered -/

theorem nextCard_unanswered {s : State} (hcard : s.env.card = []) (hbus : s.env.responsive = false) : s.nextCard = none := by
  unfold State.nextCard; rw [hcard, hbus]; rfl

/-- ENGINE stays in an exchange that is never answered. -/
theorem engineStep_unanswered {s : State} {x : Exchange} {k : List Micro} (h : s.todo = .exchange x :: k) (hn : s.nextCard = none) :
    engineStep s = .next s := by
  rw [engineStep_exchange h]; unfold doExchange; rw [hn]

theorem runSteps_unanswered {x : Exchange} {k : List Micro} (rest : List Turn) :
    ∀ (turns : List Turn) (s : State), s.todo = .exchange x :: k → s.env.card = [] → s.env.responsive = false →
      (∀ t ∈ turns, t = .engine ∨ t = .tick) →
      ∃ tmr, runSteps turns.length (s.withSched (turns ++ rest)) = .next ((s.withTmr tmr).withSched rest) := by
  intro turns
  induction turns with
  | nil => intro s _ _ _ _; exact ⟨s.tmr, rfl⟩
  | cons t turns ih =>
    intro s h hcard hbus hturns
    obtain ⟨ht, hrest⟩ := List.forall_mem_cons.1 hturns
    have hstep : step (s.withSched (t :: turns ++ rest)) = takeTurn t (turns ++ rest) (s.withSched (t :: turns ++ rest)) :=
      step_of_sched rfl
    rw [List.length_cons, runSteps, hstep]
    rcases ht with rfl | rfl
    · have hstay : engineStep (s.withSched (turns ++ rest)) = .next (s.withSched (turns ++ rest)) :=
        engineStep_unanswered h (nextCard_unanswered hcard hbus)
      obtain ⟨tmr, hrun⟩ := ih s h hcard hbus hrest
      exact ⟨tmr, (congrArg (andThen · (runSteps turns.length)) hstay).trans hrun⟩
    · obtain ⟨tmr, hrun⟩ := ih s.tickDown h hcard hbus hrest
      exact ⟨tmr, hrun⟩

/-! ### The readiness wait, from its first exchange to its outcome -/

/-- The readiness wait that began in `s` has received `rx`: what is left to do, RDY, and what TICK and the card's answers change. -/
def State.readyWait (s : State) (todo : List Micro) (b : Byte) (rx : List Byte) (tmr : Timers) (env : Outside) : State :=
  { s with todo := todo, wk := { s.wk with rdy := b }, tmr := tmr, trace := s.trace ++ fillers rx, env := env }

/-- The readiness wait that began in `s` has ended with `b` as its last byte, behind the bytes `rx`. -/
def State.readyWaited (s : State) (k : List Micro) (rx : List Byte) (b : Byte) (tmr : Timers) (env : Outside) : State :=
  { s with
    todo := k, wk := { s.wk with rdy := b, flag := b == 0xFF }, tmr := tmr, trace := s.trace ++ fillers (rx ++ [b]), env := env }

/-- The two places of the loop: its exchange, and its counter after a byte that was not 0xFF. -/
inductive InReadyWait (s : State) (k : List Micro) : State → Prop where
  | exchange (b : Byte) (rx : List Byte) (tmr : Timers) (env : Outside) (hbus : env.responsive = true) :
    InReadyWait s k (s.readyWait (.exchange .ready :: k) b rx tmr env)
  | counter (b : Byte) (rx : List Byte) (tmr : Timers) (env : Outside) (hbus : env.responsive = true) (hb : b ≠ 0xFF) :
    InReadyWait s k (s.readyWait (.act .readyExpired :: k) b (rx ++ [b]) tmr env)

/-- Under a beginning of the schedule the machine comes from `u` to an end of the readiness wait that began in `s`. -/
def EndsReadyWait (s : State) (k : List Micro) (turns : List Turn) (u : State) : Prop :=
  ∃ m rx b tmr env, runTurns (turns.take m) u = .next ((settle (s.readyWaited k rx b tmr env)).withSched [])

section
variable {s u v : State} {k : List Micro}

theorem fillers_concat (rx : List Byte) (b : Byte) : fillers (rx ++ [b]) = fillers rx ++ [.xchg 0xFF b] := List.map_append

theorem InReadyWait.notIdle (h : InReadyWait s k u) : u.isIdle = false := by
  cases h <;> exact not_idle_of_todo rfl

theorem InReadyWait.after_tick (h : InReadyWait s k u) : InReadyWait s k u.tickDown := by
  cases h with
  | exchange b rx tmr env hbus => exact .exchange b rx _ env hbus
  | counter b rx tmr env hbus hb => exact .counter b rx _ env hbus hb

/-- The exchange of the loop ends the wait with true, or its counter is next. -/
theorem engineStep_readyWait_exchange {b : Byte} {rx : List Byte} {tmr : Timers} {env : Outside} (hbus : env.responsive = true) :
    (∃ e, engineStep (s.readyWait (.exchange .ready :: k) b rx tmr env) = .next (settle (s.readyWaited k rx 0xFF tmr e))) ∨
    (∃ c e, e.responsive = true ∧ c ≠ 0xFF ∧ engineStep (s.readyWait (.exchange .ready :: k) b rx tmr env) =
      .next (s.readyWait (.act .readyExpired :: k) c (rx ++ [c]) tmr e)) := by
  rcases engineStep_ready (s := s.readyWait (.exchange .ready :: k) b rx tmr env) rfl hbus with ⟨e, h⟩ | ⟨c, e, hc, he, h⟩
  · refine .inl ⟨e, h.trans ?_⟩
    simp only [State.readyWaited, fillers_concat, ← List.append_assoc]; rfl
  · refine .inr ⟨c, e, he, hc, h.trans ?_⟩
    simp only [State.readyWait, fillers_concat, ← List.append_assoc]

/-- The counter at zero ends the wait with false. -/
theorem engineStep_readyWait_expired {b : Byte} {rx : List Byte} {tmr : Timers} {env : Outside} (hb : b ≠ 0xFF) (hz : tmr.rdy = 0) :
    engineStep (s.readyWait (.act .readyExpired :: k) b (rx ++ [b]) tmr env) = .next (settle (s.readyWaited k rx b tmr env)) := by
  have hexp : ((s.readyWait (.act .readyExpired :: k) b (rx ++ [b]) tmr env).withTodo k).expired .rdy = true := beq_iff_eq.2 hz
  have hflag : (b == 0xFF) = false := beq_false_of_ne hb
  simp only [State.readyWaited, hflag]
  exact congrArg (Host.Outcome.next ∘ settle) (if_pos hexp)

/-- A counter that has not run out: the loop's next exchange. -/
theorem engineStep_readyWait_goes_on {b : Byte} {rx : List Byte} {tmr : Timers} {env : Outside} (hz : tmr.rdy ≠ 0) :
    engineStep (s.readyWait (.act .readyExpired :: k) b rx tmr env) = .next (s.readyWait (.exchange .ready :: k) b rx tmr env) := by
  have hexp : ¬ ((s.readyWait (.act .readyExpired :: k) b rx tmr env).withTodo k).expired .rdy = true := fun h => hz (beq_iff_eq.1 h)
  exact congrArg Host.Outcome.next ((congrArg settle (if_neg hexp)).trans (settle_exchange rfl))

/-- A step of ENGINE ends the wait or stays in its loop; it leaves the counters alone. -/
theorem InReadyWait.ends_or_stays (h : InReadyWait s k u) :
    (∃ rx b tmr env, engineStep u = .next (settle (s.readyWaited k rx b tmr env))) ∨
    (∃ v, InReadyWait s k v ∧ v.tmr = u.tmr ∧ engineStep u = .next v) := by
  cases h with
  | exchange b rx tmr env hbus =>
    rcases engineStep_readyWait_exchange hbus with ⟨e, h⟩ | ⟨c, e, he, hc, h⟩
    · exact .inl ⟨rx, 0xFF, tmr, e, h⟩
    · exact .inr ⟨_, .counter c rx tmr e he hc, rfl, h⟩
  | counter b rx tmr env hbus hb =>
    by_cases hz : tmr.rdy = 0
    · exact .inl ⟨rx, b, tmr, env, engineStep_readyWait_expired hb hz⟩
    · exact .inr ⟨_, .exchange b _ tmr env hbus, rfl, engineStep_readyWait_goes_on hz⟩

theorem EndsReadyWait.of_last_step {rx : List Byte} {b : Byte} {tmr : Timers} {env : Outside} (turns : List Turn)
    (hi : u.isIdle = false) (h : engineStep u = .next (settle (s.readyWaited k rx b tmr env))) :
    EndsReadyWait s k (.engine :: turns) u := by
  refine ⟨1, rx, b, tmr, env, ?_⟩
  rw [List.take_succ_cons, List.take_zero, runTurns, hi, h]; rfl

theorem EndsReadyWait.of_engine_turn {turns : List Turn} (hi : u.isIdle = false) (h : engineStep u = .next v)
    (hv : EndsReadyWait s k turns v) : EndsReadyWait s k (.engine :: turns) u := by
  obtain ⟨m, rx, b, tmr, env, hrun⟩ := hv
  refine ⟨m + 1, rx, b, tmr, env, ?_⟩
  rw [List.take_succ_cons, runTurns, hi, h]; exact hrun

theorem EndsReadyWait.of_tick_turn {turns : List Turn} (hi : u.isIdle = false) (hv : EndsReadyWait s k turns u.tickDown) :
    EndsReadyWait s k (.tick :: turns) u := by
  obtain ⟨m, rx, b, tmr, env, hrun⟩ := hv
  refine ⟨m + 1, rx, b, tmr, env, ?_⟩
  rw [List.take_succ_cons, runTurns, hi]; exact hrun

/-- With its counter at zero the wait ends within two steps of ENGINE: an exchange and the asking of the counter. -/
theorem InReadyWait.ends_expired (h : InReadyWait s k u) (hz : u.tmr.rdy = 0) : EndsReadyWait s k (engineTurns 2) u := by
  have hi := h.notIdle
  cases h with
  | counter b rx tmr env hbus hb => exact .of_last_step _ hi (engineStep_readyWait_expired hb hz)
  | exchange b rx tmr env hbus =>
    rcases engineStep_readyWait_exchange hbus with ⟨e, h⟩ | ⟨c, e, he, hc, h⟩
    · exact .of_last_step _ hi h
    · exact .of_engine_turn hi h (.of_last_step _ (not_idle_of_todo rfl) (engineStep_readyWait_expired hc hz))

/-- Wherever in its loop, the wait ends when TICK has taken its counter down to zero and ENGINE two steps more. -/
theorem InReadyWait.ends : ∀ {turns : List Turn} {u : State}, InReadyWait s k u → (∀ t ∈ turns, t = .engine ∨ t = .tick) →
    u.tmr.rdy.toNat ≤ turns.count .tick → EndsReadyWait s k (turns ++ engineTurns 2) u := by
  intro turns
  induction turns with
  | nil => intro u h _ hcount; exact h.ends_expired (BitVec.eq_of_toNat_eq (Nat.le_zero.1 hcount))
  | cons t turns ih =>
    intro u h hturns hcount
    obtain ⟨ht, hrest⟩ := List.forall_mem_cons.1 hturns
    rcases ht with rfl | rfl
    · rw [List.count_cons_of_ne (by decide)] at hcount
      rcases h.ends_or_stays with ⟨rx, b, tmr, env, hstep⟩ | ⟨v, hv, htmr, hstep⟩
      · exact .of_last_step _ h.notIdle hstep
      · exact .of_engine_turn h.notIdle hstep (ih hv hrest (by rw [htmr]; exact hcount))
    · rw [List.count_cons_self] at hcount
      have hdown : u.tickDown.tmr.rdy.toNat = u.tmr.rdy.toNat - 1 := countDown_toNat _
      exact .of_tick_turn h.notIdle (ih h.after_tick hrest (by omega))

/-- The wait at its first exchange, with no byte received. -/
theorem inReadyWait_start (h : s.todo = .exchange .ready :: k) (hbus : s.env.responsive = true) : InReadyWait s k s := by
  have hs : s.readyWait (.exchange .ready :: k) s.wk.rdy [] s.tmr s.env = s := by
    simp only [State.readyWait, ← h, fillers, List.map_nil, List.append_nil]
  have hstart : InReadyWait s k (s.readyWait (.exchange .ready :: k) s.wk.rdy [] s.tmr s.env) := .exchange _ _ _ _ hbus
  rwa [hs] at hstart

end

end Sys2Proof.Machine

namespace Sys2Proof.Proofs

open Sys2Proof.Machine

/-- Settles O12: ENGINE's step in the unanswered exchange is no change and TICK's is the counters', by induction on the turns. -/
theorem unansweredExchange : Obligations.UnansweredExchange := by
  intro s x k turns rest h hcard hbus hturns
  exact runSteps_unanswered rest turns s h hcard hbus hturns

/-- Settles O51: every turn stays in the loop or ends it, and with the counter at zero two steps of ENGINE end it. -/
theorem readyWaitEnds : Obligations.ReadyWaitEnds := by
  intro s k turns h hbus hturns hcount
  obtain ⟨m, rx, b, tmr, env, hrun⟩ := (inReadyWait_start h hbus).ends hturns hcount
  refine ⟨m, (s.readyWaited k rx b tmr env).withSched [], rx ++ [b], ?_, by simp, ?_, beq_iff_eq, rfl⟩
  · rw [hrun, settle_withSched]
  · rw [List.getLastD_concat]; rfl

end Sys2Proof.Proofs
end

section
/-! The Timeout Service: what ARM, EXPIRED and a run of TICK events do to the counter of an index and to the others
(41_timeout_service.md R152 to R155). -/

namespace Sys2Proof.Machine

/-! ### ARM and EXPIRED -/

@[simp] theorem Timers.get_set_self (t : Timers) (i : Timer) (v : BitVec 16) : (t.set i v).get i = v := by cases i <;> rfl

theorem Timers.get_set_of_ne (t : Timers) {i j : Timer} (v : BitVec 16) (h : j ≠ i) : (t.set i v).get j = t.get j := by
  cases i <;> cases j
  case neg.neg | tok.tok | rdy.rdy => exact absurd rfl h
  all_goals rfl

/-- A counter has expired exactly when no millisecond is left of it (R154). -/
theorem State.expired_iff_toNat (s : State) (i : Timer) : s.expired i = true ↔ (s.tmr.get i).toNat = 0 :=
  beq_iff_eq.trans BitVec.toNat_eq

/-! ### TICK -/

theorem exec_tick (s : State) : exec .tick s = .next s.tickDown := rfl

/-- R153's test and decrement. -/
theorem countDown_eq_ite (v : BitVec 16) : countDown v = if v ≠ 0 then v - 1 else v := by
  by_cases hv : v = 0
  · subst hv; rfl
  · rw [countDown, if_neg hv, if_pos hv]

/-- `k` TICK events take each counter down by `k`, to a floor of zero. -/
theorem Timers.toNat_get_after (t : Timers) (k : Nat) (i : Timer) : ((t.after k).get i).toNat = (t.get i).toNat - k := by
  have hfits (v : BitVec 16) : (BitVec.ofNat 16 (v.toNat - k)).toNat = v.toNat - k :=
    Nat.mod_eq_of_lt (Nat.lt_of_le_of_lt (Nat.sub_le _ _) v.isLt)
  cases i <;> exact hfits _

/-- A run of TICK events answers a next state, and writes the counters only. -/
theorem execTicks_eq (k : Nat) (s : State) : execTicks k s = .next (s.withTmr (s.tmr.after k)) := by
  induction k generalizing s with
  | zero => rw [after_zero]; rfl
  | succ k ih =>
    calc execTicks (k + 1) s = execTicks k s.tickDown := rfl
      _ = .next (s.tickDown.withTmr (s.tickDown.tmr.after k)) := ih s.tickDown
      _ = .next (s.withTmr (s.tmr.after (k + 1))) := by rw [tickDown_after]

end Sys2Proof.Machine

namespace Sys2Proof.Proofs

open Sys2Proof.Machine

/-- Settles O14: the run of TICK events is `Timers.after`, taken of the counters that ARM left. -/
theorem armThenTicks : Obligations.ArmThenTicks := by
  intro s i n k
  let t := (s.armTimer i n).withTmr ((s.armTimer i n).tmr.after k)
  have hcounter (j : Timer) : (t.tmr.get j).toNat = ((s.tmr.set i n).get j).toNat - k := Timers.toNat_get_after _ k j
  have hself : (t.tmr.get i).toNat = n.toNat - k := by rw [hcounter, Timers.get_set_self]
  refine ⟨t, execTicks_eq k _, hself, ?_, ?_, rfl⟩
  · rw [State.expired_iff_toNat, hself, Nat.sub_eq_zero_iff_le]
  · intro j hj
    rw [hcounter, Timers.get_set_of_ne _ _ hj]

/-- Settles O13: TICK is `State.tickDown`, and `countDown` is R153's test and decrement of one counter. -/
theorem tickDecrements : Obligations.TickDecrements := by
  intro s
  simp only [exec_tick, State.tickDown, State.withTmr, countDown_eq_ite]

end Sys2Proof.Proofs
end

section
/-! The SD commands where ENGINE calls them (42_command_framing.md R170 to R175): a command row is the run of its call, so what the laws say
of the run, read as one whole next state, is what the row does. The poll's budget is counted down exchange by exchange. -/

namespace Sys2Proof.Machine

/-! ### From a run to the next state of a row -/

/-- The state a run of the command engine ends in, written out in full: each run says for itself what the working registers, CS and the
counters hold, and keeps every other register. The tests behind the run are still to be made on either side. -/
theorem Runs.settled_eq {s t : State} {items : List WireItem} {k : List Micro} {more : List Byte} {w : Work} {c : Bool} {tmr : Timers}
    (h : Runs s t items k more) (hwk : t.wk = w) (hcs : t.cs = c) (htmr : t.tmr = tmr) (hmem : t.mem = s.mem) (n : Nat) :
    (settleWithin n t).withSched [] = settleWithin n { s with
      todo := k, wk := w, cs := c, tmr := tmr, trace := s.trace ++ items, env := { s.env with card := more }, sched := [] } := by
  rw [← settleWithin_withSched, ← h.todo, ← hwk, ← hcs, ← htmr, ← h.trace, ← h.env, ← h.lat, ← h.out, ← h.pos, ← h.dstat, ← h.ctype,
    ← h.dmast, ← h.atc, ← h.speed, ← h.job, ← hmem, ← h.taken]
  rfl

/-- A command row whose run takes TICK events: ENGINE's first steps, and then the turns of the rest. -/
theorem exec_command_passes {cmd : Byte} {arg : Word} {k : List Micro} {s u t : State} {m n : Nat} (h : s.todo = .command cmd arg :: k)
    (r : Reaches (m + 1) s u) (g : Passes n u t) :
    ∃ turns, Timed n turns ∧ execCommand cmd arg (s.withSched turns) = .next (t.withSched []) := by
  obtain ⟨turns, htimed, hgets⟩ := g
  exact ⟨engineTurns m ++ turns, htimed.engine m, exec_command_gets h r hgets⟩

/-- Behind a micro-operation with nothing after it only the caller's test is left, which one pass of settling makes. -/
theorem settleWithin_of_todo_nil {s : State} (h : s.todo = []) (n : Nat) : settleWithin (n + 1) s = settle s := by
  cases hp : s.pos with
  | test u => rw [settleWithin_test h hp, settle_test h hp]
  | idle | act a =>
    have hrest : s.atRest := by unfold State.atRest; rw [h, hp]; trivial
    rw [settleWithin_atRest hrest, settle_atRest hrest]

/-! ### Application commands -/

/-- An application command whose last part the card answers (42_command_framing.md R171): the command itself behind an accepted CMD55, else
CMD55 alone. -/
theorem runs_app_answered {s : State} {cmd : Byte} {arg : Word} {more : List Byte} {p : AppReply} {q : Reply}
    (happ : isApp cmd = true) (hsub : cmd &&& 0x7F ≠ cmdStop) (hplain : isApp (cmd &&& 0x7F) = false)
    (h : s.todo = [.command cmd arg]) (hc : s.env.card = p.bytes ++ more) (hp : p.ok) (hlast : p.last = .answered q) :
    ∃ m t n, Reaches (m + 1) s (settle t) ∧ Runs s t (p.trace (cmd &&& 0x7F) arg) [] more ∧ t.cs = false ∧ t.mem = s.mem ∧
      t.tmr = { s.tmr with rdy := 500 } ∧
      t.wk = { s.wk with
        cmd := if p.app.r1 ≤ 1 then cmd &&& 0x7F else 0x37, arg := if p.app.r1 ≤ 1 then arg else 0, rdy := 0xFF, flag := true,
        r1 := q.r1, ntry := n } := by
  obtain ⟨app, own⟩ := p
  obtain ⟨hpapp, hpown⟩ := hp
  by_cases hacc : app.r1 ≤ 1
  · have hacc' : r1Accepted app.r1 = true := decide_eq_true hacc
    simp only [AppReply.bytes, AppReply.last, AppReply.trace, hacc', hacc, ↓reduceIte] at hc hlast ⊢
    subst hlast
    cases app with
    | unselected b => exact absurd (show (0xFF : Byte) ≤ 1 from hacc) (by decide)
    | answered p =>
      obtain ⟨m, t, hrun, hruns, hcs, hmem, htmr, n, hwk⟩ :=
        runs_app happ hsub hplain h (hc.trans (List.append_assoc ..)) hpapp hpown hacc'
      exact ⟨m, t, n, hrun, hruns, hcs, hmem, htmr, hwk⟩
  · have hrej : r1Accepted app.r1 = false := decide_eq_false hacc
    simp only [AppReply.bytes, AppReply.last, AppReply.trace, hrej, hacc, Bool.false_eq_true, ↓reduceIte, List.append_nil] at hc hlast ⊢
    subst hlast
    obtain ⟨m, t, hrun, hruns, hcs, hmem, htmr, n, hwk⟩ := runs_app_rejected happ h hc hpapp hrej
    rw [settleWithin_of_todo_nil hruns.todo] at hrun
    exact ⟨m, t, n, hrun, hruns, hcs, hmem, htmr, hwk⟩

/-! ### The poll's budget -/

/-- The poll that stood in `s` has received and discarded this byte, and stands at its next exchange. -/
def State.pollDiscarded (s : State) (k : List Micro) (b : Byte) (bs : List Byte) : State :=
  { s with
    todo := .exchange .poll :: k, wk := { s.wk with r1 := b, ntry := s.wk.ntry - 1 }, trace := s.trace ++ [.xchg 0xFF b],
    env := { s.env with card := bs } }

section
variable {s : State} {k : List Micro} {b : Byte} {bs : List Byte}

/-- While the budget lasts, a byte that is no response costs one exchange and the poll goes on. -/
theorem reaches_poll_discarded (h : s.todo = .exchange .poll :: k) (hc : s.env.card = b :: bs) (hb : b.getLsbD 7 = true)
    (hn : s.wk.ntry ≠ 1) : Reaches 1 s (s.pollDiscarded k b bs) := by
  have hnext : exchanged .poll k b (s.nextScript bs) = s.pollDiscarded k b bs := exchanged_poll_continues (s := s.nextScript bs) hb hn k
  exact hnext ▸ reaches_exchange h hc

/-- The last exchange of the budget ends the poll, whatever byte it receives. -/
theorem reaches_poll_last (h : s.todo = .exchange .poll :: k) (hc : s.env.card = b :: bs) (hn : s.wk.ntry = 1) :
    Reaches 1 s (settle { s with
      todo := k, wk := { s.wk with r1 := b, ntry := 0 }, trace := s.trace ++ [.xchg 0xFF b], env := { s.env with card := bs } }) := by
  have hends := exchanged_poll_ends (b := b) (s := s.nextScript bs) (.inr hn) k
  rw [show (s.nextScript bs).wk.ntry = 1 from hn] at hends
  exact hends ▸ reaches_exchange h hc

end

/-- Bytes that are no response use up the budget but for one exchange, and the byte of that ends the poll (42_command_framing.md R175). -/
theorem reaches_poll_spent {k : List Micro} {x : Byte} {more : List Byte} : ∀ (xs : List Byte) (s : State),
    s.todo = .exchange .poll :: k → s.wk.ntry.toNat = xs.length + 1 → (∀ b ∈ xs, b.getLsbD 7 = true) → s.env.card = xs ++ x :: more →
    Reaches (xs.length + 1) s (settle { s with
      todo := k, wk := { s.wk with r1 := x, ntry := 0 }, trace := s.trace ++ fillers (xs ++ [x]),
      env := { s.env with card := more } }) := by
  intro xs
  induction xs with
  | nil => intro s h hn _ hc; exact reaches_poll_last h hc (BitVec.eq_of_toNat_eq hn)
  | cons b xs ih =>
    intro s h hn hb hc
    obtain ⟨hbit, hbits⟩ := List.forall_mem_cons.1 hb
    rw [List.length_cons] at hn
    have hfirst : Reaches 1 s (s.pollDiscarded k b (xs ++ x :: more)) := reaches_poll_discarded h hc hbit (by bv_omega)
    have hleft : (s.pollDiscarded k b (xs ++ x :: more)).wk.ntry.toNat = xs.length + 1 := by
      show (s.wk.ntry - 1).toNat = _
      bv_omega
    have hall := hfirst.trans (ih _ rfl hleft hbits rfl)
    rw [State.pollDiscarded, List.append_assoc, Nat.add_comm] at hall
    exact hall

end Sys2Proof.Machine

namespace Sys2Proof.Proofs

open Sys2Proof.Machine

/-- Settles O47: the row is the call of its command, which is answered, or whose `select()` fails after 500 TICK events. -/
theorem plainCommands : Obligations.PlainCommands := by
  intro addr i cmd arg s k more hrow htodo
  obtain ⟨-, hcmd, happ⟩ := plain_exec hrow s
  have hexec (l : List Turn) : exec i (s.withSched l) = execCommand cmd arg (s.withSched l) := (plain_exec hrow _).1
  refine ⟨fun p hp hcard => ?_, fun p hp hcard => ?_⟩
  · obtain ⟨m, t, hrun, hruns, hcs, hmem, htmr, b, hwk⟩ := runs_plain hcmd happ htodo hcard hp
    exact ⟨m, b, (hexec _).trans ((exec_command_run htodo hrun).trans (congrArg _ (hruns.settled_eq hwk hcs htmr hmem 8)))⟩
  · obtain ⟨t, b, u, hhead, hwait, hruns, hcs, hmem, htmr, hwk⟩ := runs_unselected hcmd happ htodo hcard hp
    obtain ⟨turns, htimed, hans⟩ := exec_command_passes htodo hhead hwait
    exact ⟨turns, b, htimed, (hexec _).trans (hans.trans (congrArg _ (hruns.settled_eq hwk hcs htmr hmem 7)))⟩

/-- Settles O48: the row is the call of its index with bit 7 set, by what becomes of CMD55 and of the command behind it. -/
theorem applicationCommands : Obligations.ApplicationCommands := by
  intro count i idx arg s more hrow htodo
  obtain ⟨-, happ, hidx, hsub, hplain⟩ := app_exec hrow s
  have hexec (l : List Turn) : exec i (s.withSched l) = execCommand (0x80 ||| idx) arg (s.withSched l) := (app_exec hrow _).1
  have hsub' : (0x80 ||| idx) &&& 0x7F ≠ cmdStop := by rwa [hidx]
  have hplain' : isApp ((0x80 ||| idx) &&& 0x7F) = false := by rwa [hidx]
  refine ⟨fun p q hp hlast hcard => ?_, fun p hp hcard => ?_, fun p q hp hacc hq hcard => ?_⟩
  · obtain ⟨m, t, b, hrun, hruns, hcs, hmem, htmr, hwk⟩ := runs_app_answered happ hsub' hplain' htodo hcard hp hlast
    rw [hidx] at hruns hwk
    exact ⟨m, b, (hexec _).trans ((exec_command_run htodo hrun).trans (congrArg _ (hruns.settled_eq hwk hcs htmr hmem 8)))⟩
  · obtain ⟨t, b, u, hhead, hwait, hruns, hcs, hmem, htmr, hwk⟩ := runs_app_unselected happ htodo hcard hp
    rw [settleWithin_of_todo_nil hruns.todo] at hwait
    obtain ⟨turns, htimed, hans⟩ := exec_command_passes htodo hhead hwait
    exact ⟨turns, b, htimed, (hexec _).trans (hans.trans (congrArg _ (hruns.settled_eq hwk hcs htmr hmem 8)))⟩
  · obtain ⟨m, t, b, n, u, hhead, hwait, hruns, hcs, hmem, htmr, hwk⟩ :=
      runs_app_cut happ hsub' hplain' htodo hcard hp (r1Accepted_of_le hacc) hq
    rw [settleWithin_of_todo_nil hruns.todo] at hwait
    rw [hidx] at hwk
    obtain ⟨turns, htimed, hans⟩ := exec_command_passes htodo hhead hwait
    refine ⟨turns, b, n, htimed, ?_⟩
    rw [List.append_assoc]
    exact (hexec _).trans (hans.trans (congrArg _ (hruns.settled_eq hwk hcs htmr hmem 8)))

/-- Settles O49: the row is the call of CMD12, whose run keeps CS and the counters. -/
theorem stopCommand : Obligations.StopCommand := by
  intro s k p more htodo hp hcard
  obtain ⟨m, t, hrun, hruns, ⟨hcs, htmr, hmem⟩, b, hwk⟩ := runs_stop htodo hcard hp
  exact ⟨m, b, (exec_command_run htodo hrun).trans (congrArg _ (hruns.settled_eq hwk hcs htmr hmem 8))⟩

/-- Settles O50: nine bytes leave one exchange of the budget, and the tenth byte ends the poll. -/
theorem pollBudget : Obligations.PollBudget := by
  intro s k xs x more htodo hntry hlen hxs _ hcard
  have hrun := reaches_poll_spent xs s htodo (by rw [hntry, hlen]; rfl) hxs hcard
  rw [hlen] at hrun
  have hturns := hrun.run []
  rw [List.append_nil] at hturns
  rw [hturns, runTurns, ← settle_withSched]
  rfl

end Sys2Proof.Proofs
end

section
/-! The operations of the negotiation that stay off the bus: STATUS (43_negotiation.md R211), and INITIALIZE where no medium is sensed
(R201). -/

namespace Sys2Proof.Machine

/-- STATUS under a schedule that gives ENGINE one step (43_negotiation.md R211). -/
theorem exec_status_next {s : State} (sel : Byte) (rest : List Turn) (hi : s.isIdle = true) :
    exec (.status sel) (s.withSched (engineTurns 1 ++ rest)) = .next { s with
      lat := { s.lat with op := 0x01, sel := sel }, out := s.out.onlySval s.dstat, sched := rest } := by
  obtain ⟨hpos, htodo⟩ := (isIdle_iff s).1 hi
  let v := (s.clearResults.latchWord 0x01 sel).goAct .retStatus
  have hrun : Reaches 1 v v.returnStatus := reaches_retStatus htodo rfl
  rw [exec_status hi hrun.gets (returnStatus_idle htodo), hpos]
  rfl

/-- The registers INITIALIZE writes where no medium is sensed (43_negotiation.md R201), at its `return`. -/
def State.sensedAbsent (s : State) : State :=
  { s with dstat := { noInit := true, noDisk := true, protect := s.env.senseWrProt }, ctype := .noCard, pos := .act .retStatus }

/-- Without a medium the two sense inputs are read, and step 1 ends the operation (43_negotiation.md R201). -/
theorem reaches_sensedAbsent {s : State} (htodo : s.todo = []) (hm : s.env.senseNoMedium = true) :
    Reaches 5 (s.goAct .senseMedium) s.sensedAbsent := by
  let medium : DriveStatus := { s.dstat with noDisk := true }
  let sensed : DriveStatus := { medium with protect := s.env.senseWrProt }
  let absent : DriveStatus := { sensed with noInit := true }
  have r1 : Reaches 1 (s.goAct .senseMedium) ((s.withDstat medium).goAct .senseProtect) :=
    reaches_act_act htodo rfl (by rw [doAct, negoSenseMedium, show (s.goAct .senseMedium).env.senseNoMedium = true from hm]; rfl) htodo rfl
  have r2 : Reaches 1 ((s.withDstat medium).goAct .senseProtect) ((s.withDstat sensed).goAct .testMedium) :=
    reaches_act_act htodo rfl rfl htodo rfl
  have r3 : Reaches 1 ((s.withDstat sensed).goAct .testMedium) ((s.withDstat sensed).goAct .absentInit) :=
    reaches_act_act htodo rfl rfl htodo rfl
  have r4 : Reaches 1 ((s.withDstat sensed).goAct .absentInit) ((s.withDstat absent).goAct .absentType) :=
    reaches_act_act htodo rfl rfl htodo rfl
  have r5 : Reaches 1 ((s.withDstat absent).goAct .absentType) s.sensedAbsent := reaches_act_act htodo rfl rfl htodo rfl
  exact r1.trans (r2.trans (r3.trans (r4.trans r5)))

end Sys2Proof.Machine

namespace Sys2Proof.Proofs

open Sys2Proof.Machine

/-- Settles O16: one step copies DSTAT, which the copying leaves as it is. -/
theorem statusCopies : Obligations.StatusCopies := by
  refine ⟨fun s sel rest hi => exec_status_next sel rest hi, fun s t u sel sel' rest hi ht hu => ?_, fun env sel => ?_⟩
  · rw [exec_status_next sel _ hi] at ht
    cases ht
    let v : State := { s with lat := { s.lat with op := 0x01, sel := sel }, out := s.out.onlySval s.dstat }
    cases (exec_status_next (s := v) sel' rest hi).symm.trans hu
    exact ⟨rfl, rfl, rfl⟩
  · exact ⟨_, exec_status_next sel [] rfl, rfl, rfl⟩

/-- Settles O42: step 1 of INITIALIZE is all of it, and it stays off the bus. -/
theorem initializeNoMedium : Obligations.InitializeNoMedium := by
  intro s sel rest hi hd hm
  obtain ⟨hpos, htodo⟩ := (isIdle_iff s).1 hi
  let v := s.clearResults.latchWord 0x00 sel
  have hrun : Reaches 6 (v.goAct .senseMedium) v.sensedAbsent.returnStatus :=
    (reaches_sensedAbsent (s := v) htodo hm).trans (reaches_retStatus htodo rfl)
  rw [exec_initCard hi hd hrun.gets (returnStatus_idle htodo), hpos]
  rfl

end Sys2Proof.Proofs
end

section
/-! INITIALIZE with a medium (43_negotiation.md R202 to R209): Laws/Completions.lean has the runs of the negotiation up to an answer of its
ready loops; here is what comes behind that answer, and what a negotiation that fails on the way leaves. -/

namespace Sys2Proof.Machine

/-- The script a stretch of the negotiation leaves. -/
theorem Negotiates.card {s t : State} {items : List WireItem} {more : List Byte} (h : Negotiates s t items more) : t.env.card = more := by
  rw [h.env]

/-- The counters behind a command that comes right behind a round that said "ready". -/
theorem Timers.negotiated_next (t : Timers) (j : Nat) (q : Attempt) : q.timers (t.negotiated j 0) = t.negotiated j q.ticks :=
  Timers.negotiated_attempt q (Timers.ranDown_negotiated t j 0)

/-! ### The OCR (R205) -/

/-- A card that said "ready" on the v2 path is sent CMD58. -/
theorem passes_readOcr {t : State} {q : Attempt} {more : List Byte} (htodo : t.todo = []) (hready : t.wk.r1 = 0x00) (hq : q.ok)
    (hc : t.env.card = q.bytes ++ more) :
    ∃ u, Passes q.ticks (doTest .v2Loop t) (doTest .ocrCmd u) ∧ u.todo = [] ∧ Negotiates t u (q.trace 0x3A 0) more ∧
      u.tmr = q.timers t.tmr ∧ u.wk.r1 = q.r1 ∧ u.wk.ty = t.wk.ty := by
  have hcall : doTest .v2Loop t = t.call [.command cmdReadOcr 0] .ocrCmd := if_pos (by rw [hready]; rfl)
  obtain ⟨u, hrun, hu, hneg, htmr, hr1, hty, -⟩ := nego_attempt (s := t) (arg := 0) (u := .ocrCmd) (cmd := cmdReadOcr) (by decide)
    (by decide) htodo hq hc
  exact ⟨u, hcall ▸ hrun, hu, hneg, htmr, hr1, hty⟩

/-- CMD58 answered 0x00: the CCS bit of the OCR behind it classifies the card. -/
theorem reaches_ocr {u : State} {o0 o1 o2 o3 : Byte} {more : List Byte} (htodo : u.todo = []) (hready : u.wk.r1 = 0x00)
    (hc : u.env.card = o0 :: o1 :: o2 :: o3 :: more) :
    ∃ v, Reaches 4 (doTest .ocrCmd u) (negoFinish v) ∧ v.todo = [] ∧ Negotiates u v (fillers [o0, o1, o2, o3]) more ∧ v.tmr = u.tmr ∧
      v.wk.ty = if o0.getLsbD 6 then .sd2Block else .sd2 := by
  have hcall : doTest .ocrCmd u = u.call readTrailer .ocr := if_pos (by rw [hready]; rfl)
  obtain ⟨w, hrun, hw, hneg, htmr, htrail, -⟩ := nego_trailer (s := u) (u := .ocr) htodo hc
  refine ⟨w.setTy (if ocrBlock w.wk.trail then .sd2Block else .sd2), hcall ▸ hrun, hw, hneg.aside _ _ _ _ _, htmr, ?_⟩
  show (if ocrBlock w.wk.trail then CardType.sd2Block else .sd2) = _
  rw [htrail]
  rfl

/-! ### A negotiation that fails (R209) -/

/-- What INITIALIZE leaves behind this failed negotiation. -/
def FailedInit.EndsInit (f : FailedInit) (s : State) (sel : Byte) (clocks : List Byte) (d : Byte) (more : List Byte) : Prop :=
  ∃ turns w, Timed f.ticks turns ∧ ∀ rest, exec (.initCard sel) (s.withSched (turns ++ rest)) = .next { s with
    lat := { s.lat with op := 0x00, sel := sel }, wk := w,
    out := s.out.onlySval { noInit := true, noDisk := false, protect := s.env.senseWrProt },
    dstat := { noInit := true, noDisk := false, protect := s.env.senseWrProt }, ctype := .noCard,
    tmr := f.timers s.tmr, cs := true, speed := .low,
    trace := s.trace ++ [.speed .low, .cs true] ++ fillers clocks ++ f.trace ++ [.cs true, .xchg 0xFF d],
    env := { s.env with card := more }, sched := rest }

/-- CMD0 not answered 0x01: step 5 is next, and T_NEG is not armed (R203). -/
theorem passes_cmd0Rejected {s : State} {sel : Byte} {clocks more : List Byte} {q : Attempt} (hi : s.isIdle = true)
    (hm : s.env.senseNoMedium = false) (hl : clocks.length = 74 + s.env.extraDummies) (hq : q.ok) (hrej : q.r1 ≠ 0x01)
    (hc : s.env.card = clocks ++ (q.bytes ++ more)) :
    ∃ m t, Passes q.ticks ((s.clearResults.latchWord 0x00 sel).goAct .senseMedium) (negoFinish t) ∧ t.todo = [] ∧
      Negotiates (s.poweredUp sel clocks m) t (q.trace 0x00 0) more ∧ t.tmr = q.timers s.tmr ∧ t.wk.ty = .noCard := by
  obtain ⟨n, hhead⟩ := reaches_poweredUp (sel := sel) hi hm hl hc
  obtain ⟨t, hrun, htodo, hneg, htmr, hr1, hty, -⟩ := nego_attempt (s := s.poweredUp sel clocks (q.bytes ++ more)) (cmd := cmdGoIdle)
    (arg := 0) (u := .cmd0) (more := more) (by decide) (by decide) rfl hq rfl
  have hend : doTest .cmd0 t = negoFinish t := if_neg (not_idle_of_ne (by rw [hr1]; exact hrej))
  exact ⟨_, t, hend ▸ hhead.into hrun, htodo, hneg, htmr, hty⟩

theorem not_trailerMatches {t0 t1 t2 t3 : Byte} (h : (t2, t3) ≠ (0x01, 0xAA)) : ¬ trailerMatches #v[t0, t1, t2, t3] = true := by
  intro hmatch
  obtain ⟨h2, h3⟩ := Bool.and_eq_true_iff.1 hmatch
  exact h (Prod.ext (eq_of_beq h2) (eq_of_beq h3))

section
variable {s v t : State} {sel d : Byte} {clocks m0 more : List Byte} {items : List WireItem}

/-- A negotiation that comes to step 5 with the card not classified is a failed one. -/
theorem FailedInit.endsInit_of_finish {f : FailedInit} (hi : s.isIdle = true) (hd : s.dmast = .idle)
    (hrun : Passes f.ticks ((s.clearResults.latchWord 0x00 sel).goAct .senseMedium) (negoFinish v)) (htodo : v.todo = [])
    (hneg : Negotiates (s.poweredUp sel clocks m0) v f.trace (d :: more)) (htmr : v.tmr = f.timers s.tmr) (hty : v.wk.ty = .noCard) :
    f.EndsInit s sel clocks d more := by
  unfold FailedInit.EndsInit
  rw [← htmr]
  exact initCard_fails hi hd htodo hneg hty hrun

/-- A ready loop that is late: what is left of the window passes behind its last answer. -/
theorem FailedInit.endsInit_of_window {f : FailedInit} {v2 : Bool} {late : Nat} (hi : s.isIdle = true) (hd : s.dmast = .idle)
    (hrun : Passes (f.before + late) ((s.clearResults.latchWord 0x00 sel).goAct .senseMedium) (doTest (loopTest v2) t))
    (htodo : t.todo = []) (hneg : Negotiates (s.poweredUp sel clocks m0) t f.trace (d :: more))
    (htmr : t.tmr = s.tmr.negotiated f.before late) (hlate : t.wk.r1 ≠ 0x00) (hsince : f.since = late + (1000 - (f.before + late)))
    (hf : f.timers s.tmr = s.tmr.negotiated f.before f.since) : f.EndsInit s sel clocks d more := by
  unfold FailedInit.EndsInit FailedInit.ticks
  rw [hf, hsince, ← Nat.add_assoc]
  exact initCard_windowClosed hi hd htodo hneg htmr hlate hrun

/-- CMD16 not answered 0x00 behind the legacy loop. -/
theorem FailedInit.endsInit_of_length {f : FailedInit} {q : Attempt} (hi : s.isIdle = true) (hd : s.dmast = .idle)
    (hrun : Passes f.before ((s.clearResults.latchWord 0x00 sel).goAct .senseMedium) (doTest .legacyLoop t))
    (htodo : t.todo = []) (hneg : Negotiates (s.poweredUp sel clocks m0) t items (q.bytes ++ d :: more))
    (htmr : t.tmr = s.tmr.negotiated f.before 0) (hready : t.wk.r1 = 0x00) (hq : q.ok) (hrej : q.r1 ≠ 0x00)
    (hsince : f.since = q.ticks) (hf : f.timers s.tmr = s.tmr.negotiated f.before f.since) (htrace : f.trace = items ++ q.trace 0x10 512) :
    f.EndsInit s sel clocks d more := by
  obtain ⟨v, hlast, hv, hty, hneg', htmr'⟩ := passes_lengthRejected htodo hready hq hrej hneg.card
  refine FailedInit.endsInit_of_finish hi hd (by rw [FailedInit.ticks, hsince]; exact hrun.trans hlast) hv (htrace ▸ hneg.trans hneg') ?_ hty
  rw [hf, hsince, htmr', htmr, Timers.negotiated_next]

end

end Sys2Proof.Machine

namespace Sys2Proof.Proofs

open Sys2Proof.Machine

/-- Settles O43: the v2 loop ends ready, CMD58 is answered, and the OCR classifies the card. -/
theorem initializeV2 : Obligations.InitializeV2 := by
  intro s sel clocks p0 p8 t0 t1 rounds ready p58 o0 o1 o2 o3 d more hi hd hm hl hpath hloop h58 hr58 hc
  obtain ⟨hrounds, hwindow, hready, hr1⟩ := hloop
  obtain ⟨m, t, hrun, htodo, hneg, htmr, htr1, -⟩ := passes_v2Loop (sel := sel) hi hm hl hpath hrounds hwindow hready hc
  rw [AppReply.ticks_ready hr1] at hrun htmr
  obtain ⟨u, hcmd, hu, hnegu, htmru, hur1, -⟩ := passes_readOcr (q := .answered p58) htodo (htr1.trans hr1) h58 hneg.card
  obtain ⟨v, hocr, hv, hnegv, htmrv, hty⟩ := reaches_ocr hu (hur1.trans hr58) hnegu.card
  have htimers : v.tmr = s.tmr.negotiated (appTicks rounds) 0 := by rw [htmrv, htmru, htmr, Timers.negotiated_next]; rfl
  have hclass : v.wk.ty ≠ .noCard := by rw [hty]; split <;> decide
  obtain ⟨turns, w, htimed, hexec⟩ := initCard_completes hi hd hv ((hneg.trans hnegu).trans hnegv) hclass ((hrun.trans hcmd).on hocr)
  rw [hty, htimers] at hexec
  exact ⟨turns, w, htimed, fun rest => (hexec rest).trans (by simp only [Attempt.trace, List.append_assoc])⟩

/-- Settles O44: the legacy loop of a card whose probe was accepted ends ready, and CMD16 is answered. -/
theorem initializeSd1 : Obligations.InitializeSd1 := by
  intro s sel clocks p0 p8 probe rounds ready p16 d more hi hd hm hl hpath hprobe hloop h16 hr16 hc
  obtain ⟨hrounds, hwindow, hready, hr1⟩ := hloop
  obtain ⟨m, t, hrun, htodo, hneg, htmr, htr1, hty⟩ := passes_sd1Loop (sel := sel) hi hm hl hpath hprobe hrounds hwindow hready hc
  rw [AppReply.ticks_ready hr1] at hrun htmr
  obtain ⟨turns, w, htimed, hexec⟩ := initCard_legacy_completes hi hd htodo hneg htmr (by rw [hty]; decide) (htr1.trans hr1) h16 hr16 hrun
  rw [hty] at hexec
  exact ⟨turns, w, htimed, fun rest => (hexec rest).trans (by simp only [List.append_assoc])⟩

/-- Settles O45: the legacy loop of a card whose probe was not accepted ends ready, and CMD16 is answered. -/
theorem initializeMmc : Obligations.InitializeMmc := by
  intro s sel clocks p0 p8 probe rounds ready p16 d more hi hd hm hl hpath hprobe hloop h16 hr16 hc
  obtain ⟨hrounds, hwindow, hready, hr1⟩ := hloop
  obtain ⟨m, t, hrun, htodo, hneg, htmr, htr1, hty⟩ := passes_mmcLoop (sel := sel) hi hm hl hpath hprobe hrounds hwindow hready hc
  rw [Attempt.ticks_ready hr1] at hrun htmr
  obtain ⟨turns, w, htimed, hexec⟩ := initCard_legacy_completes hi hd htodo hneg htmr (by rw [hty]; decide) (htr1.trans hr1) h16 hr16 hrun
  rw [hty] at hexec
  exact ⟨turns, w, htimed, fun rest => (hexec rest).trans (by simp only [List.append_assoc])⟩

/-- Settles O46: each place of failure by the run up to it, and step 5 behind it. -/
theorem initializeNoCard : Obligations.InitializeNoCard := by
  intro s sel clocks f d more hi hd hm hl hf hc
  show f.EndsInit s sel clocks d more
  cases f <;> simp only [FailedInit.bytes, List.append_assoc, List.cons_append, List.nil_append] at hc
  case cmd0 q =>
    obtain ⟨hq, hrej⟩ := hf
    obtain ⟨m, v, hrun, htodo, hneg, htmr, hty⟩ := passes_cmd0Rejected (sel := sel) hi hm hl hq hrej hc
    exact FailedInit.endsInit_of_finish hi hd (by rwa [show (FailedInit.cmd0 q).ticks = q.ticks from Nat.zero_add _]) htodo hneg htmr hty
  case trailer p0 p8 t0 t1 t2 t3 =>
    obtain ⟨hpath, hdiff⟩ := hf
    obtain ⟨m, v, hrun, htodo, hneg, htmr, hty, htrail⟩ := passes_trailer (sel := sel) hi hm hl hpath hc
    have hend : doTest .trailer v = negoFinish v := if_neg (by rw [htrail]; exact not_trailerMatches hdiff)
    exact FailedInit.endsInit_of_finish hi hd (hend ▸ hrun) htodo hneg htmr hty
  case v2Window p0 p8 t0 t1 rounds late =>
    obtain ⟨hpath, hrounds, hwindow, hok, hlate⟩ := hf
    obtain ⟨m, t, hrun, htodo, hneg, htmr, hr1, -⟩ := passes_v2Loop (sel := sel) hi hm hl hpath hrounds hwindow hok hc
    exact FailedInit.endsInit_of_window (v2 := true) hi hd hrun htodo hneg htmr (hr1 ▸ hlate) rfl rfl
  case ocr p0 p8 t0 t1 rounds ready q =>
    obtain ⟨hpath, ⟨hrounds, hwindow, hok, hready⟩, hq, hrej⟩ := hf
    obtain ⟨m, t, hrun, htodo, hneg, htmr, hr1, hty⟩ := passes_v2Loop (sel := sel) hi hm hl hpath hrounds hwindow hok hc
    rw [AppReply.ticks_ready hready] at hrun htmr
    obtain ⟨v, hcmd, hv, hnegv, htmrv, hvr1, hvty⟩ := passes_readOcr htodo (hr1.trans hready) hq hneg.card
    have hend : doTest .ocrCmd v = negoFinish v := if_neg (not_ready_of_ne (by rw [hvr1]; exact hrej))
    exact FailedInit.endsInit_of_finish hi hd (hend ▸ hrun.trans hcmd) hv (hneg.trans hnegv)
      (by rw [htmrv, htmr, Timers.negotiated_next]; rfl) (hvty.trans hty)
  case sd1Window p0 p8 probe rounds late =>
    obtain ⟨hpath, hprobe, hrounds, hwindow, hok, hlate⟩ := hf
    obtain ⟨m, t, hrun, htodo, hneg, htmr, hr1, -⟩ := passes_sd1Loop (sel := sel) hi hm hl hpath hprobe hrounds hwindow hok hc
    exact FailedInit.endsInit_of_window (v2 := false) hi hd hrun htodo hneg htmr (hr1 ▸ hlate) rfl rfl
  case mmcWindow p0 p8 probe rounds late =>
    obtain ⟨hpath, hprobe, hrounds, hwindow, hok, hlate⟩ := hf
    obtain ⟨m, t, hrun, htodo, hneg, htmr, hr1, -⟩ := passes_mmcLoop (sel := sel) hi hm hl hpath hprobe hrounds hwindow hok hc
    exact FailedInit.endsInit_of_window (v2 := false) hi hd hrun htodo hneg htmr (hr1 ▸ hlate) rfl rfl
  case sd1Length p0 p8 probe rounds ready q =>
    obtain ⟨hpath, hprobe, ⟨hrounds, hwindow, hok, hready⟩, hq, hrej⟩ := hf
    obtain ⟨m, t, hrun, htodo, hneg, htmr, hr1, -⟩ := passes_sd1Loop (sel := sel) hi hm hl hpath hprobe hrounds hwindow hok hc
    rw [AppReply.ticks_ready hready] at hrun htmr
    exact FailedInit.endsInit_of_length hi hd hrun htodo hneg htmr (hr1.trans hready) hq hrej rfl rfl rfl
  case mmcLength p0 p8 probe rounds ready q =>
    obtain ⟨hpath, hprobe, ⟨hrounds, hwindow, hok, hready⟩, hq, hrej⟩ := hf
    obtain ⟨m, t, hrun, htodo, hneg, htmr, hr1, -⟩ := passes_mmcLoop (sel := sel) hi hm hl hpath hprobe hrounds hwindow hok hc
    rw [Attempt.ticks_ready hready] at hrun htmr
    exact FailedInit.endsInit_of_length hi hd hrun htodo hneg htmr (hr1.trans hready) hq hrej rfl rfl rfl

end Sys2Proof.Proofs
end

section
/-! READ and WRITE (44_polling_block_io.md R230 to R236): the gate they share with the start operations, and the runs from their block
command to their `return`. Laws/Calls.lean says what each micro-operation does, Laws/Operations.lean has the loops over accepted blocks;
here is what each caller's test makes of the outcome, and how the stretches follow each other. -/

namespace Sys2Proof.Machine

/-! ### The gate (R230) -/

theorem gateInit_fires {o : BlockOp} {v : State} (h : v.dstat.noInit = true) : gateInit o v = v.endWith .notReady := if_pos h

/-- A write goes on to the test of PROTECT. -/
theorem gateInit_write {o : BlockOp} {v : State} (h : v.dstat.noInit = false) (hw : o.isWrite = true) :
    gateInit o v = v.goAct (.gateProtect o) := by
  simp [gateInit, h, hw]

theorem gateInit_read {o : BlockOp} {v : State} (h : v.dstat.noInit = false) (hw : o.isWrite = false) :
    gateInit o v = v.goAct (behindGate o) := by
  simp [gateInit, h, hw, gatePassed_eq]

theorem gateProtect_fires {o : BlockOp} {v : State} (h : v.dstat.protect = true) : gateProtect o v = v.endWith .writeProtected :=
  if_pos h

theorem gateProtect_passes {o : BlockOp} {v : State} (h : v.dstat.protect = false) : gateProtect o v = v.goAct (behindGate o) := by
  simp [gateProtect, h, gatePassed_eq]

section
variable {o : BlockOp} {s v : State} {sel : Byte} {buf sector count : Word}

theorem reaches_gateInit_fires (ht : v.todo = []) (h : v.dstat.noInit = true) :
    Reaches 1 (v.goAct (.gateInit o)) (v.endWith .notReady) :=
  reaches_act_act (b := .ret .notReady) ht rfl (congrArg _ (gateInit_fires h)) ht rfl

theorem reaches_gateInit_write (ht : v.todo = []) (h : v.dstat.noInit = false) (hw : o.isWrite = true) :
    Reaches 1 (v.goAct (.gateInit o)) (v.goAct (.gateProtect o)) :=
  reaches_act_act (b := .gateProtect o) ht rfl (congrArg _ (gateInit_write h hw)) ht rfl

theorem reaches_gateInit_read (ht : v.todo = []) (h : v.dstat.noInit = false) (hw : o.isWrite = false) :
    Reaches 1 (v.goAct (.gateInit o)) (v.goAct (behindGate o)) :=
  reaches_act_act (b := behindGate o) ht rfl (congrArg _ (gateInit_read h hw)) ht rfl

theorem reaches_gateProtect_fires (ht : v.todo = []) (h : v.dstat.protect = true) :
    Reaches 1 (v.goAct (.gateProtect o)) (v.endWith .writeProtected) :=
  reaches_act_act (b := .ret .writeProtected) ht rfl (congrArg _ (gateProtect_fires h)) ht rfl

theorem reaches_gateProtect_passes (ht : v.todo = []) (h : v.dstat.protect = false) :
    Reaches 1 (v.goAct (.gateProtect o)) (v.goAct (behindGate o)) :=
  reaches_act_act (b := behindGate o) ht rfl (congrArg _ (gateProtect_passes h)) ht rfl

/-- A gate that fires nowhere, counted: NOINIT is asked for every operation, PROTECT for a write. -/
theorem reaches_behindGate (ht : s.todo = []) (hc : count ≠ 0) (hn : s.dstat.noInit = false)
    (hp : o.isWrite = true → s.dstat.protect = false) :
    Reaches (if o.isWrite then 2 else 1) (blockStart o buf sector count (s.clearResults.latchWord o.code sel))
      ((s.latched o sel buf sector count).goAct (behindGate o)) := by
  rw [blockStart_nonzero hc]
  cases hw : o.isWrite with
  | false => exact reaches_gateInit_read (v := s.latched o sel buf sector count) ht hn hw
  | true =>
    exact (reaches_gateInit_write (v := s.latched o sel buf sector count) ht hn hw).trans (reaches_gateProtect_passes ht (hp hw))

/-- HOST issues a block operation, and the schedule goes on with ENGINE at its first action. -/
theorem exec_block_issued (hi : s.isIdle = true) (hd : o.isDma = false → s.dmast = .idle) (l : List Turn) :
    exec (o.instr sel buf sector count) (s.withSched l) =
      runTurns l ((blockStart o buf sector count (s.clearResults.latchWord o.code sel)).withSched l) := by
  have issued : issue o.code sel (blockStart o buf sector count) (s.withSched l) =
      runTurns l ((blockStart o buf sector count (s.clearResults.latchWord o.code sel)).withSched l) := by
    rw [issue, if_pos (show (s.withSched l).isIdle = true from hi), ← blockStart_withSched]
    show resume (blockStart o buf sector count ((s.clearResults.latchWord o.code sel).withSched l)) = _
    rw [blockStart_withSched]; rfl
  cases o with
  | read => exact (if_pos (hd rfl)).trans issued
  | write => exact (if_pos (hd rfl)).trans issued
  | startRead => exact issued
  | startWrite => exact issued

/-- A block operation whose schedule ends inside it stops where ENGINE's last turn led. -/
theorem exec_block_stops {t : State} {n : Nat} (hi : s.isIdle = true) (hd : o.isDma = false → s.dmast = .idle)
    (h : Reaches n (blockStart o buf sector count (s.clearResults.latchWord o.code sel)) t) :
    exec (o.instr sel buf sector count) (s.withSched (engineTurns n)) = .next (t.withSched []) := by
  have run := h.gets (engineTurns n) []
  rw [List.append_nil] at run
  rw [exec_block_issued hi hd, run]
  rfl

/-- A gate that fires: the operation returns, and only RES is written besides the latches. -/
theorem exec_block_fires {n : Nat} {r : TransferResult} (hi : s.isIdle = true) (hd : o.isDma = false → s.dmast = .idle)
    (h : Reaches n (blockStart o buf sector count (s.clearResults.latchWord o.code sel)) ((s.latched o sel buf sector count).endWith r))
    (rest : List Turn) :
    exec (o.instr sel buf sector count) (s.withSched (engineTurns (n + 1) ++ rest)) = .next { s with
      lat := { op := o.code, sel := sel, sector := sector, count := count, buf := buf }, out := s.out.onlyRes r, sched := rest } := by
  obtain ⟨hpos, htodo⟩ := (isIdle_iff s).1 hi
  have ret : Reaches 1 ((s.latched o sel buf sector count).endWith r) ((s.latched o sel buf sector count).returnWith r) :=
    reaches_ret (s := (s.latched o sel buf sector count).endWith r) htodo rfl
  rw [exec_block hi hd (h.trans ret).gets (returnWith_idle htodo), hpos]
  rfl

end

/-! ### Schedules without TICK -/

/-- A stretch of the schedule without TICK is ENGINE's alone. -/
theorem Timed.exists_engineTurns {turns : List Turn} (h : Timed 0 turns) : ∃ n, turns = engineTurns n := by
  obtain ⟨hkind, hcount⟩ := h
  refine ⟨turns.length, List.eq_replicate_iff.2 ⟨rfl, fun t ht => (hkind t ht).resolve_right ?_⟩⟩
  rintro rfl
  exact List.count_eq_zero.1 hcount ht

/-! ### BUF and COUNT (R236) -/

theorem advance_advance (l : Latches) (m n : Nat) : (l.advance m).advance n = l.advance (m + n) := by
  simp only [Latches.advance, BitVec.sub_sub, BitVec.add_assoc, BitVec.ofNat_add, Nat.mul_add]

/-- BUF and COUNT move on by one block more. -/
theorem advance_blockDone (l : Latches) (n : Nat) :
    ({ l.advance n with buf := (l.advance n).buf + 512, count := (l.advance n).count - 1 } : Latches) = l.advance (n + 1) := by
  rw [← advance_advance, ← advance_succ (l.advance n) 0, advance_zero]

/-- COUNT is not zero before the last block. -/
theorem advance_count_ne_zero {l : Latches} {n : Nat} (h : n < l.count.toNat) : (l.advance n).count ≠ 0 := by
  show l.count - BitVec.ofNat 32 n ≠ 0
  bv_omega

/-- With the last block COUNT is zero. -/
theorem advance_count_zero {l : Latches} {n : Nat} (h : l.count = BitVec.ofNat 32 n) : (l.advance n).count = 0 := by
  show l.count - BitVec.ofNat 32 n = 0
  rw [h, BitVec.sub_self]; rfl

/-- BUF and COUNT behind the last block. -/
theorem advance_of_count {l : Latches} {n : Nat} (h : l.count = BitVec.ofNat 32 n) :
    l.advance n = { l with count := 0, buf := l.buf + BitVec.ofNat 32 (512 * n) } := by
  rw [← advance_count_zero h]
  rfl

/-- The blocks of a transfer of several: those before the last one leave COUNT above zero. -/
theorem exists_last_block {α : Type} {qs : List α} (h2 : 2 ≤ qs.length) (hlt : qs.length < 2 ^ 32) :
    ∃ l q, qs = l ++ [q] ∧ BitVec.ofNat 32 qs.length = BitVec.ofNat 32 (l.length + 1) ∧
      l.length < (BitVec.ofNat 32 qs.length).toNat ∧ BitVec.ofNat 32 qs.length ≠ 0 ∧ BitVec.ofNat 32 qs.length ≠ 1 := by
  obtain rfl | ⟨l, q, rfl⟩ := List.eq_nil_or_concat' qs
  · exact absurd h2 (Nat.not_succ_le_zero 1)
  · have hlen : (l ++ [q]).length = l.length + 1 := List.length_append
    generalize (l ++ [q]).length = n at *
    refine ⟨l, q, rfl, congrArg _ hlen, ?_, ?_, ?_⟩ <;> bv_omega

/-! ### Between two micro-operations -/

/-- ENGINE stands between two micro-operations of a READ or WRITE: what the ones so far have put on the wire, and what they have made of the
latches and of buffer memory. -/
structure Between (s t : State) (items : List WireItem) (more : List Byte) (lat : Latches) (mem : Memory) : Prop where
  todo : t.todo = []
  along : Along s t items more
  lat : t.lat = lat
  mem : t.mem = mem

section
variable {s t u : State} {i j : List WireItem} {m n : List Byte} {l l' : Latches} {z z' : Memory}

theorem Between.trans (h : Between s t i m l z) (g : Between t u j n l' z') : Between s u (i ++ j) n l' z' :=
  ⟨g.todo, h.along.trans g.along, g.lat, g.mem⟩

/-- A micro-operation that leaves the latches and memory alone. -/
theorem Between.keeps (h : Between s t i m l z) (htodo : u.todo = []) (g : Along t u j n) (hlat : u.lat = t.lat) (hmem : u.mem = t.mem) :
    Between s u (i ++ j) n l z :=
  ⟨htodo, h.along.trans g, hlat.trans h.lat, hmem.trans h.mem⟩

/-- The caller's test writes COUNT. -/
theorem Between.setCount (h : Between s t i m l z) (c : Word) : Between s (t.setCount c) i m { l with count := c } z :=
  ⟨h.todo, h.along.aside { t.lat with count := c } t.pos t.todo t.cs t.mem, h.lat ▸ rfl, h.mem⟩

/-- BUF and COUNT are advanced behind a block. -/
theorem Between.blockDone {b : Nat} (h : Between s t i m (l.advance b) z) : Between s t.blockDone i m (l.advance (b + 1)) z := by
  rw [← advance_blockDone, ← h.lat]
  exact ⟨h.todo, h.along.aside t.blockDone.lat t.pos t.todo t.cs t.mem, rfl, h.mem⟩

end

/-! ### The block command (R234, R235) -/

/-- An answered command takes no TICK. -/
theorem Attempt.timers_answered (p : Reply) (t : Timers) : (Attempt.answered p).timers t = { t with rdy := 500 } := after_zero _

section
variable {s t : State} {sel : Byte} {buf sector count : Word} {more : List Byte}

/-- READ up to the outcome of its block command. -/
theorem passes_readCommand {p : Attempt} (ht : s.todo = []) (hp : p.ok) (hc : s.env.card = p.bytes ++ more) :
    ∃ t, Passes p.ticks ((s.latched .read sel buf sector count).goAct (.scale .read))
        (doTest (if count = 1 then .readOne else .readMany) t) ∧
      Between (s.latched .read sel buf sector count).noteAddr t (p.trace (blockCommand .read count) (scaledAddr s.ctype sector)) more
        (s.latched .read sel buf sector count).lat s.mem ∧
      t.tmr = p.timers s.tmr ∧ t.wk.r1 = p.r1 := by
  let v := s.latched .read sel buf sector count
  obtain ⟨hcmd, happ⟩ := blockCommand_plain .read count
  obtain ⟨t, run, htodo, halong, hlat, hmem, htmr, hr1⟩ := call_attempt (s := v.noteAddr) (arg := scaledAddr s.ctype sector)
    (u := if count = 1 then .readOne else .readMany) hcmd happ ht hp hc
  exact ⟨t, (reaches_read (v := v) ht).into run, ⟨htodo, halong, hlat, hmem⟩, htmr, hr1⟩

/-- WRITE up to the call of its block command: behind the hint for several blocks, at once for one. -/
theorem passes_writeHint {h : AppReply} (ht : s.todo = []) (hh : h.ok) (hc : s.env.card = hintBytes s.ctype count h ++ more) :
    ∃ t, Passes (hintTicks s.ctype count h) ((s.latched .write sel buf sector count).goAct (.scale .write))
        (t.call [.command (blockCommand .write count) (scaledAddr s.ctype sector)] (if count = 1 then .writeOne else .writeMany)) ∧
      Between (s.latched .write sel buf sector count).noteAddr t (hintTrace s.ctype count h) more
        (s.latched .write sel buf sector count).lat s.mem ∧
      s.tmr.ranDown t.tmr (hintTicks s.ctype count h) := by
  let v := s.latched .write sel buf sector count
  by_cases h1 : count = 1
  · subst h1
    have noHint : sendsHint s.ctype 1 = false := rfl
    simp only [hintBytes, hintTicks, hintTrace, noHint] at hc ⊢
    exact ⟨v.noteAddr, (reaches_writeSingle (v := v) ht rfl).passes, ⟨ht, Along.refl hc, rfl, rfl⟩, Timers.ranDown_refl _⟩
  · obtain ⟨t, run, htodo, halong, hlat, hmem, htmr⟩ := passes_hint (dma := false) (s := v.noteAddr) ht hh h1 hc
    rw [if_neg h1, show blockCommand .write count = 0x19 from if_neg h1]
    exact ⟨t, (reaches_writeSeveral (v := v) ht h1).into run, ⟨htodo, halong, hlat, hmem⟩, htmr⟩

/-- WRITE up to the outcome of its block command. -/
theorem passes_writeCommand {h : AppReply} {p : Attempt} (ht : s.todo = []) (hh : h.ok) (hp : p.ok)
    (hc : s.env.card = hintBytes s.ctype count h ++ (p.bytes ++ more)) :
    ∃ t, Passes (hintTicks s.ctype count h + p.ticks) ((s.latched .write sel buf sector count).goAct (.scale .write))
        (doTest (if count = 1 then .writeOne else .writeMany) t) ∧
      Between (s.latched .write sel buf sector count).noteAddr t
        (hintTrace s.ctype count h ++ p.trace (blockCommand .write count) (scaledAddr s.ctype sector)) more
        (s.latched .write sel buf sector count).lat s.mem ∧
      t.tmr = p.timers (s.tmr.after (hintTicks s.ctype count h)) ∧ t.wk.r1 = p.r1 := by
  obtain ⟨t, hint, ht, htmr⟩ := passes_writeHint (sel := sel) (buf := buf) (sector := sector) ht hh hc
  obtain ⟨hcmd, happ⟩ := blockCommand_plain .write count
  obtain ⟨u, run, hutodo, halong, hlat, hmem, hutmr, hr1⟩ := call_attempt (arg := scaledAddr s.ctype sector)
    (u := if count = 1 then .writeOne else .writeMany) hcmd happ ht.todo hp ht.along.card
  refine ⟨u, hint.trans run, ht.keeps hutodo halong hlat hmem, ?_, hr1⟩
  rw [hutmr, Attempt.timers, htmr]; rfl

/-- A block command that is not answered 0x00 ends READ. -/
theorem doTest_readRejected (h : t.wk.r1 ≠ 0x00) : doTest (if count = 1 then .readOne else .readMany) t = blockClose t := by
  split <;> exact if_neg (not_ready_of_ne h)

theorem doTest_writeRejected (h : t.wk.r1 ≠ 0x00) : doTest (if count = 1 then .writeOne else .writeMany) t = blockClose t := by
  split <;> exact if_neg (not_ready_of_ne h)

/-- A block command answered 0x00 leads to the first data packet. -/
theorem doTest_readAccepted (h : t.wk.r1 = 0x00) : doTest (if count = 1 then .readOne else .readMany) t =
    t.call (receiveBlock .buffer) (if count = 1 then .readOneData else .readManyData) := by
  have ready : r1Ready t.wk.r1 = true := beq_iff_eq.2 h
  split <;> exact if_pos ready

theorem doTest_writeAccepted (h : t.wk.r1 = 0x00) : doTest (if count = 1 then .writeOne else .writeMany) t =
    t.call (transmitBlock (blockToken count)) (if count = 1 then .writeOneData else .writeManyData) := by
  have ready : r1Ready t.wk.r1 = true := beq_iff_eq.2 h
  unfold blockToken
  split <;> exact if_pos ready

/-! ### The blocks (R232 to R236) -/

/-- With COUNT 1 there is no block before the last one. -/
theorem no_block_of_one {α : Type} {qs : List α} (h1 : count = 1) (h : qs.length < count.toNat) : qs = [] := by
  rw [h1] at h
  exact List.length_eq_zero_iff.1 (Nat.lt_one_iff.1 h)

/-- READ whose command is accepted, up to the packet behind these: another one is due. -/
theorem passes_readBlocks {p : Reply} {qs : List Packet} (ht : s.todo = []) (hp : p.ok) (hr : p.r1 = 0x00) (hqs : wholeBlocks qs)
    (hl : qs.length < count.toNat) (hc : s.env.card = p.bytes ++ (packetBytes qs ++ more)) :
    ∃ t, Passes 0 ((s.latched .read sel buf sector count).goAct (.scale .read))
        (t.call (receiveBlock .buffer) (if count = 1 then .readOneData else .readManyData)) ∧
      Between (s.latched .read sel buf sector count).noteAddr t
        (p.trace (blockCommand .read count) (scaledAddr s.ctype sector) ++ fillers (packetBytes qs)) more
        ((s.latched .read sel buf sector count).lat.advance qs.length) (storePackets s.mem buf qs) ∧
      ∀ x, ({ t.tmr with tok := x } : Timers) = { s.tmr with tok := x, rdy := 500 } := by
  obtain ⟨t, run, ht, htmr, hr1⟩ := passes_readCommand (sel := sel) (buf := buf) (sector := sector) (count := count) (p := .answered p)
    ht hp hc
  rw [doTest_readAccepted (hr1.trans hr)] at run
  rw [Attempt.timers_answered] at htmr
  by_cases h1 : count = 1
  · obtain rfl := no_block_of_one h1 hl
    refine ⟨t, run, ?_, fun x => by rw [htmr]⟩
    rw [List.length_nil, advance_zero]
    exact ht.keeps ht.todo (Along.refl ht.along.card) rfl rfl
  · rw [if_neg h1] at run ⊢
    obtain ⟨n, u, blocks, hutodo, halong, hlat, -, hmem, hutmr⟩ := reaches_packets qs t ht.todo hqs (by rw [ht.lat]; exact hl)
      ht.along.card
    refine ⟨u, run.on blocks, ht.trans ⟨hutodo, halong, by rw [hlat, ht.lat], by rw [hmem, ht.mem, ht.lat]; rfl⟩, fun x => ?_⟩
    rw [hutmr, htmr]

/-- WRITE of one block whose command is accepted, up to its packet. -/
theorem reaches_writeBlock {p : Reply} (ht : s.todo = []) (hp : p.ok) (hr : p.r1 = 0x00) (hc : s.env.card = p.bytes ++ more) :
    ∃ n t, Reaches n ((s.latched .write sel buf sector 1).goAct (.scale .write)) (t.call (transmitBlock Config.tokStart) .writeOneData) ∧
      Between (s.latched .write sel buf sector 1).noteAddr t (p.trace 0x18 (scaledAddr s.ctype sector)) more
        (s.latched .write sel buf sector 1).lat s.mem ∧
      t.tmr = { s.tmr with rdy := 500 } := by
  let v := s.latched .write sel buf sector 1
  obtain ⟨n, t, run, htodo, halong, hlat, -, hmem, htmr, hr1⟩ := call_plain (s := v.noteAddr) (cmd := 0x18)
    (arg := scaledAddr s.ctype sector) (u := .writeOne) (by decide) (by decide) ht hp hc
  rw [show doTest .writeOne t = _ from doTest_writeAccepted (count := 1) (hr1.trans hr)] at run
  exact ⟨1 + n, t, (reaches_writeSingle (v := v) ht rfl).trans run, ⟨htodo, halong, hlat, hmem⟩, htmr⟩

/-- WRITE of several blocks whose command is accepted, up to the packet behind these: another one is due. -/
theorem passes_writeBlocks {h : AppReply} {p : Reply} {qs : List Receipt} (ht : s.todo = []) (hh : h.ok) (hp : p.ok) (hr : p.r1 = 0x00)
    (h1 : count ≠ 1) (hqs : ∀ q ∈ qs, q.ok ∧ q.response &&& 0x1F = 0x05) (hl : qs.length < count.toNat)
    (hc : s.env.card = hintBytes s.ctype count h ++ (p.bytes ++ (receiptBytes qs ++ more))) :
    ∃ t, Passes (hintTicks s.ctype count h) ((s.latched .write sel buf sector count).goAct (.scale .write))
        (t.call (transmitBlock Config.tokMulti) .writeManyData) ∧
      Between (s.latched .write sel buf sector count).noteAddr t
        (hintTrace s.ctype count h ++ p.trace 0x19 (scaledAddr s.ctype sector) ++ receiptTrace s Config.tokMulti buf qs) more
        ((s.latched .write sel buf sector count).lat.advance qs.length) s.mem ∧
      s.tmr.ranDown t.tmr (hintTicks s.ctype count h) := by
  obtain ⟨t, run, ht, htmr, hr1⟩ := passes_writeCommand (sel := sel) (buf := buf) (sector := sector) (p := .answered p) ht hh hp hc
  rw [doTest_writeAccepted (hr1.trans hr), blockToken, if_neg h1, if_neg h1] at run
  rw [show blockCommand .write count = 0x19 from if_neg h1] at ht
  obtain ⟨n, u, blocks, hutodo, halong, hlat, -, hmem, hutmr⟩ := reaches_receipts qs t ht.todo hqs (by rw [ht.lat]; exact hl)
    ht.along.card
  rw [receiptTrace_mem ht.mem, ht.lat] at halong
  refine ⟨u, run.on blocks, ht.trans ⟨hutodo, halong, by rw [hlat, ht.lat], hmem.trans ht.mem⟩, fun x => ?_⟩
  rw [hutmr, htmr, Attempt.timers_answered]

/-! ### Behind the last block (R234, R235) -/

theorem doTest_readOneData_received (h : t.wk.flag = true) : doTest .readOneData t = blockClose (t.setCount 0) :=
  congrArg blockClose (if_pos h)

theorem doTest_writeOneData_accepted (h : t.wk.flag = true) : doTest .writeOneData t = blockClose (t.setCount 0) :=
  congrArg blockClose (if_pos h)

theorem doTest_writeOneData_refused (h : t.wk.flag = false) : doTest .writeOneData t = blockClose t :=
  congrArg blockClose (if_neg (Bool.not_eq_true _ ▸ h))

theorem doTest_readManyData_last (h : t.wk.flag = true) (h0 : t.blockDone.lat.count = 0) :
    doTest .readManyData t = readStopNow t.blockDone :=
  (if_pos h).trans (if_pos h0)

theorem doTest_writeManyData_last (h : t.wk.flag = true) (h0 : t.blockDone.lat.count = 0) :
    doTest .writeManyData t = writeStopNow t.blockDone :=
  (if_pos h).trans (if_pos h0)

/-- A block that was not accepted leaves the loop, and the stop token is due. -/
theorem doTest_writeManyData_refused (h : t.wk.flag = false) : doTest .writeManyData t = writeStopNow t :=
  if_neg (Bool.not_eq_true _ ▸ h)

/-- A block that was not received: `deselect()` is next for one block, CMD12 for several. -/
theorem doTest_readBroken (h : t.wk.flag = false) : doTest (if count = 1 then .readOneData else .readManyData) t =
    if count = 1 then blockClose t else readStopNow t := by
  have h' : ¬ t.wk.flag = true := Bool.not_eq_true _ ▸ h
  split
  · exact congrArg blockClose (if_neg h')
  · exact if_neg h'

/-- The end of a READ that breaks off: CMD12 is sent for several blocks and not for one. -/
theorem reaches_readBroken {p : StopReply} {d : Byte} (ht : t.todo = []) (hflag : t.wk.flag = false) (hp : p.ok)
    (hc : t.env.card = (if count = 1 then [] else p.bytes) ++ d :: more) :
    ∃ n u, Reaches n (doTest (if count = 1 then .readOneData else .readManyData) t)
        (u.returnWith (if t.lat.count = 0 then .ok else .error)) ∧
      Between t u ((if count = 1 then [] else p.trace) ++ [.cs true, .xchg Config.filler d]) more t.lat t.mem ∧
      u.cs = true ∧ u.tmr = t.tmr := by
  rw [doTest_readBroken hflag]
  by_cases h1 : count = 1
  · rw [if_pos h1] at hc
    obtain ⟨u, run, hutodo, halong, hlat, hcs, hmem, htmr, -⟩ := reaches_blockClose ht hc
    rw [if_pos h1, if_pos h1]
    exact ⟨3, u, run, ⟨hutodo, halong, hlat, hmem⟩, hcs, htmr⟩
  · rw [if_neg h1] at hc
    obtain ⟨n, u, run, hutodo, halong, hlat, hcs, hmem, htmr⟩ := reaches_readStop ht hp hc
    rw [if_neg h1, if_neg h1]
    exact ⟨n, u, run, ⟨hutodo, halong, hlat, hmem⟩, hcs, htmr⟩

end

section
variable {o : BlockOp} {s t : State} {sel : Byte} {buf sector count : Word} {k : Nat} {i : List WireItem} {l : Latches} {z : Memory}
  {x : Timers} {r : TransferResult} {more : List Byte}

/-- A READ or WRITE that comes to its `return` with the card deselected. -/
theorem polling_returns (ho : o.isDma = false) (hi : s.isIdle = true) (hd : s.dmast = .idle) (hc : count ≠ 0)
    (hn : s.dstat.noInit = false) (hp : o.isWrite = true → s.dstat.protect = false)
    (run : Passes k ((s.latched o sel buf sector count).goAct (.scale o)) (t.returnWith r))
    (ht : Between (s.latched o sel buf sector count).noteAddr t i more l z) (hcs : t.cs = true) (htmr : t.tmr = x) :
    ∃ turns w, Timed k turns ∧ ∀ rest, exec (o.instr sel buf sector count) (s.withSched (turns ++ rest)) = .next { s with
      lat := l, wk := w, out := s.out.onlyRes r, cs := true, tmr := x, mem := z, trace := s.trace ++ i,
      env := { s.env with card := more }, sched := rest } :=
  polling_passes ho hi hd hc hn hp ⟨t, run, ht.todo, ht.along, ht.lat, hcs, ht.mem, htmr⟩

/-- A READ or WRITE that comes to its `deselect()`. -/
theorem polling_closes {d : Byte} (ho : o.isDma = false) (hi : s.isIdle = true) (hd : s.dmast = .idle) (hc : count ≠ 0)
    (hn : s.dstat.noInit = false) (hp : o.isWrite = true → s.dstat.protect = false)
    (run : Passes k ((s.latched o sel buf sector count).goAct (.scale o)) (blockClose t))
    (ht : Between (s.latched o sel buf sector count).noteAddr t i (d :: more) l z) (htmr : t.tmr = x)
    (hr : (if l.count = 0 then .ok else .error) = r) :
    ∃ turns w, Timed k turns ∧ ∀ rest, exec (o.instr sel buf sector count) (s.withSched (turns ++ rest)) = .next { s with
      lat := l, wk := w, out := s.out.onlyRes r, cs := true, tmr := x, mem := z,
      trace := s.trace ++ (i ++ [.cs true, .xchg 0xFF d]), env := { s.env with card := more }, sched := rest } := by
  obtain ⟨u, close, hutodo, halong, hlat, hcs, hmem, hutmr, -⟩ := reaches_blockClose ht.todo ht.along.card
  rw [ht.lat, hr] at close
  exact polling_returns ho hi hd hc hn hp (run.on close) (ht.keeps hutodo halong hlat hmem) hcs
    (hutmr.trans htmr)

end

end Sys2Proof.Machine

namespace Sys2Proof.Proofs

open Sys2Proof.Machine

/-- Settles O17: the count is tested at the issue, NOINIT and PROTECT in one step each. -/
theorem gateOrder : Obligations.GateOrder := by
  intro o s sel buf sector count rest hi hd
  have htodo : (s.latched o sel buf sector count).todo = [] := ((isIdle_iff s).1 hi).2
  refine ⟨fun hc => exec_block_fires (n := 0) hi hd ?_ rest, fun hc hn => exec_block_fires (n := 1) hi hd ?_ rest,
    fun hc hn hw hp => exec_block_fires (n := 2) hi hd ?_ rest, fun hc hn hp => ?_⟩
  · rw [blockStart_zero hc]
    exact .refl _
  · rw [blockStart_nonzero hc]
    exact reaches_gateInit_fires htodo hn
  · rw [blockStart_nonzero hc]
    exact (reaches_gateInit_write htodo hn hw).trans (reaches_gateProtect_fires htodo hp)
  · exact exec_block_stops hi hd (reaches_behindGate htodo hc hn hp)

/-- Settles O33: no block comes before the one packet, and COUNT 0 is what its reception leaves. -/
theorem readOne : Obligations.ReadOne := by
  intro s sel buf sector p q d more hi hd hn hp hr hq hc
  obtain ⟨t, run, ht, htmr⟩ := passes_readBlocks (sel := sel) (buf := buf) (sector := sector) (count := 1) (qs := [])
    ((isIdle_iff s).1 hi).2 hp hr (List.forall_mem_nil _) (by decide) hc
  obtain ⟨n, u, block, hutodo, halong, hlat, -, hmem, hutmr, hflag, -⟩ := call_receive (d := .buffer) (u := .readOneData) ht.todo hq
    ht.along.card
  rw [doTest_readOneData_received hflag] at block
  rw [ht.lat, ht.mem] at hmem
  have hu := (ht.trans ⟨hutodo, halong, hlat.trans ht.lat, hmem⟩).setCount 0
  obtain ⟨turns, w, htimed, hexec⟩ := polling_closes (o := .read) rfl hi hd (by decide) hn nofun (run.on block) hu
    (hutmr.trans (htmr 200)) rfl
  obtain ⟨n, rfl⟩ := htimed.exists_engineTurns
  refine ⟨n, w, fun rest => (hexec rest).trans ?_⟩
  rw [show fillers (packetBytes []) = [] from rfl, List.append_nil, List.length_nil, advance_zero]
  simp only [List.append_assoc]
  rfl

/-- Settles O36: the test behind the block command goes on to `deselect()`, and the latches are as HOST issued them. -/
theorem blockRejected : Obligations.BlockRejected := by
  intro o s sel buf sector count h p d more ho hi hd hn hprot h0 hh hp hr hc
  have htodo := ((isIdle_iff s).1 hi).2
  cases o with
  | read =>
    obtain ⟨t, run, ht, htmr, hr1⟩ := passes_readCommand (sel := sel) (buf := buf) (sector := sector) (count := count) htodo hp hc
    rw [doTest_readRejected (hr1 ▸ hr)] at run
    obtain ⟨turns, w, htimed, hexec⟩ := polling_closes (o := .read) rfl hi hd h0 hn nofun run ht htmr (if_neg h0)
    refine ⟨turns, w, (Nat.zero_add _).symm ▸ htimed, fun rest => (hexec rest).trans ?_⟩
    rw [show (if BlockOp.read.isWrite then hintTicks s.ctype count h else 0) = 0 from rfl, after_zero]
    simp only [List.append_assoc]
    rfl
  | write =>
    obtain ⟨t, run, ht, htmr, hr1⟩ := passes_writeCommand (sel := sel) (buf := buf) (sector := sector) (count := count) htodo hh hp hc
    rw [doTest_writeRejected (hr1 ▸ hr)] at run
    obtain ⟨turns, w, htimed, hexec⟩ := polling_closes (o := .write) rfl hi hd h0 hn hprot run ht htmr (if_neg h0)
    refine ⟨turns, w, htimed, fun rest => (hexec rest).trans ?_⟩
    simp only [List.append_assoc]
    rfl
  | startRead => exact absurd ho (by decide)
  | startWrite => exact absurd ho (by decide)

/-- Settles O34: the loop receives every packet but the last, with which COUNT comes to zero and CMD12 is due. -/
theorem readMany : Obligations.ReadMany := by
  intro s sel buf sector p qs st d more hi hd hn hp hr hqs hst h2 hlt hc
  obtain ⟨l, q, rfl, hcount, hl, h0, h1⟩ := exists_last_block h2 hlt
  rw [packetBytes_append, List.append_assoc] at hc
  obtain ⟨hfirst, hlast⟩ := List.forall_mem_append.1 hqs
  obtain ⟨t, run, ht, htmr⟩ := passes_readBlocks (sel := sel) (buf := buf) (sector := sector) ((isIdle_iff s).1 hi).2 hp hr hfirst hl hc
  rw [if_neg h1] at run
  obtain ⟨n, u, block, hutodo, halong, hlat, -, hmem, hutmr, hflag, -⟩ := call_receive (d := .buffer) (u := .readManyData) ht.todo
    (hlast q (List.mem_singleton_self q)) ht.along.card
  rw [ht.lat, ht.mem] at hmem
  have hdone := (ht.trans ⟨hutodo, halong, hlat.trans ht.lat, hmem⟩).blockDone
  have hzero : u.blockDone.lat.count = 0 := hdone.lat ▸ advance_count_zero hcount
  rw [doTest_readManyData_last hflag hzero] at block
  obtain ⟨m, v, stop, hvtodo, hvalong, hvlat, hcs, hvmem, hvtmr⟩ := reaches_readStop hdone.todo hst hdone.along.card
  rw [if_pos hzero] at stop
  have hv := hdone.keeps hvtodo hvalong hvlat hvmem
  obtain ⟨turns, w, htimed, hexec⟩ := polling_returns (o := .read) rfl hi hd h0 hn nofun ((run.on block).on stop) hv hcs
    (hvtmr.trans (hutmr.trans (htmr 200)))
  obtain ⟨n, rfl⟩ := htimed.exists_engineTurns
  refine ⟨n, w, fun rest => (hexec rest).trans ?_⟩
  rw [advance_of_count hcount, blockCommand, if_neg h1, storePackets_append, packetBytes_append, List.length_append]
  simp only [fillers, List.map_append, List.append_assoc]
  rfl

/-- Settles O35: the token wait fails behind the blocks that came; what is left to send is CMD12, for several blocks. -/
theorem readBroken : Obligations.ReadBroken := by
  intro s sel buf sector count p qs b st d more hi hd hn hp hr hqs hb hst hl hc
  have h0 : count ≠ 0 := by
    rintro rfl
    exact Nat.not_lt_zero _ hl
  obtain ⟨t, run, ht, htmr⟩ := passes_readBlocks (sel := sel) (buf := buf) (sector := sector) ((isIdle_iff s).1 hi).2 hp hr hqs hl hc
  obtain ⟨u, wait, hutodo, halong, hlat, -, hmem, hutmr, hflag⟩ := call_badToken (d := .buffer)
    (u := if count = 1 then .readOneData else .readManyData) ht.todo hb ht.along.card
  have broken := run.trans wait
  rw [Nat.zero_add] at broken
  have hu := ht.keeps hutodo halong hlat hmem
  obtain ⟨n, v, close, hv, hcs, hvtmr⟩ := reaches_readBroken hu.todo hflag hst hu.along.card
  rw [hu.lat, if_neg (advance_count_ne_zero hl)] at close
  rw [hu.lat, hu.mem] at hv
  obtain ⟨turns, w, htimed, hexec⟩ := polling_returns (o := .read) rfl hi hd h0 hn nofun (broken.on close) (hu.trans hv) hcs
    (hvtmr.trans (hutmr.trans (congrArg (Timers.after · b.ticks) (htmr 200))))
  refine ⟨turns, w, htimed, fun rest => (hexec rest).trans ?_⟩
  simp only [blockCommand, fillers, List.map_append, List.append_assoc]
  rfl

/-- Settles O37: the one packet is accepted, and COUNT 0 is what that leaves, or it is not, and COUNT is still 1. -/
theorem writeOne : Obligations.WriteOne := by
  intro s sel buf sector p d more hi hd hn hprot hp hr
  have htodo := ((isIdle_iff s).1 hi).2
  refine ⟨fun q hq hacc hc => ?_, fun q hq hc => ?_⟩
  · obtain ⟨n, t, run, ht, htmr⟩ := reaches_writeBlock (sel := sel) (buf := buf) (sector := sector) htodo hp hr hc
    obtain ⟨m, u, block, hutodo, halong, hlat, -, hmem, hutmr, hflag⟩ := call_transmit (tok := Config.tokStart) (u := .writeOneData)
      (by decide) ht.todo hq ht.along.card
    rw [doTest_writeOneData_accepted (hflag.trans (beq_iff_eq.2 hacc))] at block
    rw [bufferBytes_mem ht.mem, ht.lat] at halong
    have hu := (ht.keeps hutodo halong hlat hmem).setCount 0
    obtain ⟨turns, w, htimed, hexec⟩ := polling_closes (o := .write) rfl hi hd (by decide) hn (fun _ => hprot) (run.trans block).passes
      hu (hutmr.trans (by rw [htmr])) rfl
    obtain ⟨n, rfl⟩ := htimed.exists_engineTurns
    refine ⟨n, w, fun rest => (hexec rest).trans ?_⟩
    simp only [List.append_assoc]
    rfl
  · obtain ⟨n, t, run, ht, htmr⟩ := reaches_writeBlock (sel := sel) (buf := buf) (sector := sector) htodo hp hr hc
    obtain ⟨u, block, hutodo, halong, hlat, -, hmem, hutmr, hflag⟩ := call_badBlock (tok := Config.tokStart) (u := .writeOneData)
      (by decide) ht.todo hq ht.along.card
    rw [doTest_writeOneData_refused hflag] at block
    rw [bufferBytes_mem ht.mem, ht.lat] at halong
    have hu := ht.keeps hutodo halong hlat hmem
    obtain ⟨turns, w, htimed, hexec⟩ := polling_closes (o := .write) rfl hi hd (by decide) hn (fun _ => hprot) (run.into block) hu
      (hutmr.trans (by rw [htmr])) rfl
    refine ⟨turns, w, htimed, fun rest => (hexec rest).trans ?_⟩
    simp only [List.append_assoc]
    rfl

/-- Settles O38: the loop has every packet accepted but the last, with which COUNT comes to zero and the stop token is due. -/
theorem writeMany : Obligations.WriteMany := by
  intro s sel buf sector h p qs st d more hi hd hn hprot hh hp hr hqs hst h2 hlt hc
  obtain ⟨l, q, rfl, hcount, hl, h0, h1⟩ := exists_last_block h2 hlt
  rw [receiptBytes_append, List.append_assoc] at hc
  obtain ⟨hfirst, hlast⟩ := List.forall_mem_append.1 hqs
  obtain ⟨hq, hacc⟩ := hlast q (List.mem_singleton_self q)
  obtain ⟨t, run, ht, htmr⟩ := passes_writeBlocks (sel := sel) (buf := buf) (sector := sector) ((isIdle_iff s).1 hi).2 hh hp hr h1 hfirst
    hl hc
  obtain ⟨n, u, block, hutodo, halong, hlat, -, hmem, hutmr, hflag⟩ := call_transmit (tok := Config.tokMulti) (u := .writeManyData)
    (by decide) ht.todo hq ht.along.card
  rw [bufferBytes_mem ht.mem, ht.lat] at halong
  have hdone := (ht.keeps hutodo halong hlat hmem).blockDone
  have hzero : u.blockDone.lat.count = 0 := hdone.lat ▸ advance_count_zero hcount
  rw [doTest_writeManyData_last (hflag.trans (beq_iff_eq.2 hacc)) hzero] at block
  obtain ⟨v, stop, hvtodo, hvalong, hvlat, hcs, hvmem, hvtmr⟩ := passes_writeStop hdone.todo hst hdone.along.card
  rw [hzero, hdone.lat] at hvlat
  have hv := hdone.trans ⟨hvtodo, hvalong, hvlat, hvmem.trans hdone.mem⟩
  obtain ⟨turns, w, htimed, hexec⟩ := polling_returns (o := .write) rfl hi hd h0 hn (fun _ => hprot) ((run.on block).trans stop) hv hcs
    (hvtmr.trans (congrArg st.timers (hutmr.trans (htmr 500))))
  refine ⟨turns, w, htimed, fun rest => (hexec rest).trans ?_⟩
  rw [advance_of_count hcount, receiptTrace_append, List.length_append]
  simp only [List.append_assoc, hzero, true_and]
  rfl

/-- Settles O39: the block that is not accepted leaves BUF and COUNT where they are, and the stop token is due. -/
theorem writeBroken : Obligations.WriteBroken := by
  intro s sel buf sector count h p qs q st d more hi hd hn hprot hh hp hr hqs hq hst hgt hl hc
  have h0 : count ≠ 0 := by
    rintro rfl
    exact Nat.not_lt_zero _ hl
  have h1 : count ≠ 1 := by
    rintro rfl
    exact absurd hgt (by decide)
  obtain ⟨t, run, ht, htmr⟩ := passes_writeBlocks (sel := sel) (buf := buf) (sector := sector) ((isIdle_iff s).1 hi).2 hh hp hr h1 hqs
    hl hc
  obtain ⟨u, block, hutodo, halong, hlat, -, hmem, hutmr, hflag⟩ := call_badBlock (tok := Config.tokMulti) (u := .writeManyData)
    (by decide) ht.todo hq ht.along.card
  rw [doTest_writeManyData_refused hflag] at block
  rw [bufferBytes_mem ht.mem, ht.lat] at halong
  have hu := ht.keeps hutodo halong hlat hmem
  obtain ⟨v, stop, hvtodo, hvalong, hvlat, hcs, hvmem, hvtmr⟩ := passes_writeStop hu.todo hst hu.along.card
  rw [if_neg (fun hend => advance_count_ne_zero hl (hu.lat ▸ hend.1))] at stop
  rw [hu.lat] at hvlat
  have hv := hu.trans ⟨hvtodo, hvalong, hvlat, hvmem.trans hu.mem⟩
  have htimers : u.tmr = _ := hutmr.trans (congrArg (Timers.after · q.ticks) (htmr 500))
  obtain ⟨turns, w, htimed, hexec⟩ := polling_returns (o := .write) rfl hi hd h0 hn (fun _ => hprot) ((run.trans block).trans stop) hv hcs
    (hvtmr.trans (congrArg st.timers htimers))
  refine ⟨turns, w, htimed, fun rest => (hexec rest).trans ?_⟩
  simp only [List.append_assoc]
  rfl

end Sys2Proof.Proofs
end

section
/-! The steps of the DMA engine and its completion (45_dma_completion.md R264, R266), and what HOST may do meanwhile with the buffer of a
transfer (70_reset_and_hazards.md R358). -/

namespace Sys2Proof.Machine

/-! ### DMA_DONE (R264) -/

theorem exec_dmaDone_busy {s : State} (h : s.dmast = .busy) (ok : Bool) :
    exec (.dmaDone ok) s = .next (s.dmaStop.flush.withDmast (if ok then .success else .error)) := if_pos h

theorem exec_dmaDone_refused {s : State} (h : s.dmast ≠ .busy) (ok : Bool) : exec (.dmaDone ok) s = .refused .dmaDoneDisabled :=
  if_neg h

/-- With DMA_DONE the transfer is no longer in flight. -/
theorem not_busy_of_dmaDone {s t : State} {ok : Bool} (h : exec (.dmaDone ok) s = .next t) : t.dmast ≠ .busy := by
  obtain ⟨-, hd⟩ := dmaComplete_dmast h
  rw [hd]
  cases ok <;> decide

/-- DMA_DONE neither reads nor writes a counter, and TICK neither DMAST nor the wire (60_exceptions.md R316). -/
theorem tick_dmaDone_comm (s : State) (ok : Bool) :
    andThen (exec .tick s) (exec (.dmaDone ok)) = andThen (exec (.dmaDone ok) s) (exec .tick) := by
  by_cases h : s.dmast = .busy
  · rw [exec_dmaDone_busy h]
    exact exec_dmaDone_busy (s := s.tickDown) h ok
  · rw [exec_dmaDone_refused h]
    exact exec_dmaDone_refused (s := s.tickDown) h ok

/-! ### A step of DMAENG (R266) -/

theorem nextCard_withSched (s : State) (l : List Turn) : (s.withSched l).nextCard = s.nextCard.map fun p => (p.1, p.2.withSched l) := by
  unfold State.nextCard
  rw [State.withSched_env]
  cases s.env.card with
  | cons b bs => rfl
  | nil => cases s.env.responsive <;> rfl

theorem nextCard_withSched_some {s u : State} {rx : Byte} (h : s.nextCard = some (rx, u)) (l : List Turn) :
    (s.withSched l).nextCard = some (rx, u.withSched l) := by
  rw [nextCard_withSched, h]; rfl

theorem nextCard_withSched_none {s : State} (h : s.nextCard = none) (l : List Turn) : (s.withSched l).nextCard = none := by
  rw [nextCard_withSched, h]; rfl

theorem dmaStep_busy {s : State} {j : DmaJob} (hd : s.dmast = .busy) (hj : s.job = some j) (a : DmaAct) :
    dmaStep a s = dmaAction a j s := by
  unfold dmaStep; rw [hd, hj]

/-- A step that is taken is taken in a transfer in flight. -/
theorem dmaAction_of_dmaStep {a : DmaAct} {s t : State} (h : dmaStep a s = .next t) :
    s.dmast = .busy ∧ ∃ j, s.job = some j ∧ dmaAction a j s = .next t := by
  unfold dmaStep at h
  split at h
  · next j hd hj => exact ⟨hd, j, hj, h⟩
  · cases h

/-- A byte stored in the range of a read. -/
def DmaJob.stored (j : DmaJob) (m m' : Memory) : Prop :=
  j.dir = .read ∧ ∃ off b, off < j.size ∧ m' = memWrite m (bufferAddr j.buf off) b

/-- What a step of DMAENG can write: the bytes it holds, the record of the wire, the card's script, and for a read a byte of the range. -/
def DmaJob.writes (j : DmaJob) (s t : State) : Prop :=
  (∃ f, t = { s with mem := t.mem, job := some { j with fetched := f }, trace := t.trace, env := t.env }) ∧
    (t.mem = s.mem ∨ j.stored s.mem t.mem)

section
variable {s t u : State} {j : DmaJob} {b tx rx : Byte} {bs : List Byte} {off : Nat} {rest : List Turn}

theorem dmaExchange_answered (hn : s.nextCard = some (rx, u)) :
    dmaExchange tx j s = { u with job := some j, trace := s.trace ++ [.dmaXchg tx rx] } := by
  unfold dmaExchange
  rw [hn, ← nextCard_trace hn]
  rfl

theorem dmaExchange_unanswered (hn : s.nextCard = none) : dmaExchange tx j s = s := by
  unfold dmaExchange; rw [hn]

theorem dmaAction_xchg : dmaAction (.xchg tx) j s = .next (dmaExchange tx j s) := rfl

theorem dmaAction_send (hf : j.fetched = b :: bs) : dmaAction .send j s = .next (dmaExchange b { j with fetched := bs } s) := by
  simp only [dmaAction, hf]

theorem dmaAction_store (hr : j.dir = .read) (ho : off < j.size) :
    dmaAction (.store off b) j s = .next (s.writeByte (bufferAddr j.buf off) b) := if_pos ⟨hr, ho⟩

theorem dmaAction_load (hw : j.dir = .write) (ho : off < j.size) : dmaAction (.load off) j s =
    .next (s.withJob (some { j with fetched := j.fetched ++ [s.readByte (bufferAddr j.buf off)] })) := if_pos ⟨hw, ho⟩

theorem dmaExchange_writes (hj : s.job = some j) (tx : Byte) (f : List Byte) :
    j.writes s (dmaExchange tx { j with fetched := f } s) := by
  cases hn : s.nextCard with
  | none =>
    rw [dmaExchange_unanswered hn]
    exact ⟨⟨j.fetched, by rw [← hj]⟩, .inl rfl⟩
  | some p =>
    obtain ⟨e, he⟩ := nextCard_withEnv (rx := p.1) (t := p.2) hn
    rw [dmaExchange_answered (rx := p.1) (u := p.2) hn, he]
    exact ⟨⟨f, rfl⟩, .inl rfl⟩

theorem dmaAction_writes {a : DmaAct} (hj : s.job = some j) (h : dmaAction a j s = .next t) : j.writes s t := by
  cases a with
  | xchg tx =>
    cases h
    exact dmaExchange_writes hj tx j.fetched
  | send =>
    simp only [dmaAction] at h
    split at h
    · cases h
      exact dmaExchange_writes hj _ _
    · cases h
  | store off b =>
    simp only [dmaAction] at h
    split at h
    · next hin =>
      cases h
      exact ⟨⟨j.fetched, by rw [← hj]; rfl⟩, .inr ⟨hin.1, off, b, hin.2, rfl⟩⟩
    · cases h
  | load off =>
    simp only [dmaAction] at h
    split at h
    · cases h
      exact ⟨⟨_, rfl⟩, .inl rfl⟩
    · cases h

/-- A byte outside the range reads as before. -/
theorem DmaJob.writes.readByte (h : j.writes s t) (hm : Memory.wf s.mem = true) {x : Nat}
    (hx : ∀ k, k < j.size → x ≠ (j.buf.toNat + k) % 2 ^ 32) : t.readByte x = s.readByte x := by
  unfold State.readByte
  rcases h.2 with hmem | ⟨-, off, b, ho, hmem⟩
  · rw [hmem]
  · rw [hmem, memRead_memWrite hm, if_neg (bufferAddr_eq j.buf off ▸ hx off ho)]

/-- Only a read stores. -/
theorem DmaJob.writes.mem (h : j.writes s t) (hw : j.dir = .write) : t.mem = s.mem := by
  rcases h.2 with hmem | ⟨hr, -⟩
  · exact hmem
  · rw [hw] at hr
    cases hr

/-- A turn of DMAENG in a transfer in flight. -/
theorem step_dma {a : DmaAct} (hs : s.sched = .dma a :: rest) (hd : s.dmast = .busy) (hj : s.job = some j) :
    step s = dmaAction a j (s.withSched rest) :=
  (step_of_sched hs).trans (dmaStep_busy (s := s.withSched rest) hd hj a)

/-! ### HOST and the buffer range (70_reset_and_hazards.md R358) -/

/-- The bytes a transfer owns are those of its range, by their addresses. -/
theorem ownedByDma_iff (hj : s.job = some j) (hd : s.dmast ≠ .idle) (a : Word) :
    s.ownedByDma a = true ↔ ∃ k, k < j.size ∧ a.toNat = (j.buf.toNat + k) % 2 ^ 32 := by
  have hlt := a.isLt
  have hsub : (a - j.buf).toNat = (2 ^ 32 - j.buf.toNat + a.toNat) % 2 ^ 32 := BitVec.toNat_sub a j.buf
  have hbuf := j.buf.isLt
  simp only [State.ownedByDma, hj, Bool.and_eq_true, bne_iff_ne, decide_eq_true_eq, ne_eq, hd, not_false_eq_true, true_and]
  constructor
  · intro h
    exact ⟨_, h, by omega⟩
  · rintro ⟨k, hk, ha⟩
    omega

theorem ownedByDma_outside (hj : s.job = some j) (hd : s.dmast ≠ .idle) {a : Word}
    (h : ∀ k, k < j.size → a.toNat ≠ (j.buf.toNat + k) % 2 ^ 32) : s.ownedByDma a = false := by
  rw [← Bool.not_eq_true, ownedByDma_iff hj hd]
  rintro ⟨k, hk, ha⟩
  exact h k hk ha

theorem dmaReads_eq (hj : s.job = some j) : s.dmaReads = (j.dir == .read) := by
  unfold State.dmaReads; rw [hj]

theorem hostStep_store_owned {a : Word} (h : s.ownedByDma a = true) (b : Byte) : hostStep (.store a b) s = .refused .bufferRace :=
  if_pos h

theorem hostStep_store_free {a : Word} (h : s.ownedByDma a = false) (b : Byte) :
    hostStep (.store a b) s = .next (s.writeByte a.toNat b) := if_neg (Bool.not_eq_true _ ▸ h)

theorem hostStep_load_owned {a : Word} (h : s.ownedByDma a = true) (hr : s.dmaReads = true) :
    hostStep (.load a) s = .refused .bufferRace := if_pos (by rw [h, hr]; rfl)

theorem hostStep_load_free {a : Word} (h : s.ownedByDma a = false ∨ s.dmaReads = false) :
    hostStep (.load a) s = .next (s.take (.byte (s.readByte a.toNat))) := if_neg (by rcases h with h | h <;> simp [h])

/-- A step that stores a byte and writes nothing else. -/
theorem stores_byte {x : Nat} (hm : Memory.wf s.mem = true) (h : step s = .next ((s.withSched rest).writeByte x b)) :
    ∃ t, step s = .next t ∧ (∀ y, t.readByte y = if y = x then b else s.readByte y) ∧ t = { s with mem := t.mem, sched := rest } :=
  ⟨_, h, fun y => readByte_writeByte (s.withSched rest) x y b hm, rfl⟩

end

end Sys2Proof.Machine

namespace Sys2Proof.Proofs

open Sys2Proof.Machine

/-- Settles O15: each clause is a lemma on DMA_DONE; a second one finds DMAST not Busy. -/
theorem dmaDone : Obligations.DmaDone := by
  intro s ok
  refine ⟨fun h => ?_, fun h => exec_dmaDone_refused h ok, fun t again h => exec_dmaDone_refused (not_busy_of_dmaDone h) again,
    tick_dmaDone_comm s ok⟩
  rw [exec_dmaDone_busy h]
  simp only [State.dmaStop, State.flush, State.log, State.withTrace, List.append_assoc]
  rfl

/-- Settles O59: the range of the statement is the one DMAENG's contract and HOST's steps test. -/
theorem bufferOwnership : Obligations.BufferOwnership := by
  refine ⟨fun s t a rest hs h => ?_, fun s off j rest hd hj ho => ⟨fun hs hw => ?_, fun b hs hr hm => ?_⟩,
    fun s u j b rx bs rest hs hd hj hf hn => ?_, fun s u j tx rx rest hs hd hj hn => ?_, fun s j a rest hs hd hj ha hn => ?_,
    fun s a b j rest hs hi hj hd => ⟨fun k hk ha => ?_, fun hout hm => ?_⟩,
    fun s a j rest hs hi hj hd => ⟨fun k hk ha hr => ?_, fun hfree => ?_⟩⟩
  · obtain ⟨hd, j, hj, hact⟩ := dmaAction_of_dmaStep ((step_of_sched hs).symm.trans h)
    have hw : j.writes (s.withSched rest) t := dmaAction_writes hj hact
    obtain ⟨f, ht⟩ := hw.1
    exact ⟨hd, j, f, hj, ht, hw.mem, fun hm x hx => hw.readByte hm hx⟩
  · rw [step_dma hs hd hj, dmaAction_load hw ho, bufferAddr_eq]
    rfl
  · refine stores_byte hm ?_
    rw [step_dma hs hd hj, dmaAction_store hr ho, bufferAddr_eq]
  · rw [step_dma hs hd hj, dmaAction_send hf, dmaExchange_answered (nextCard_withSched_some hn rest)]
    rfl
  · have hju : some j = u.job := by
      obtain ⟨e, rfl⟩ := nextCard_withEnv hn
      exact hj.symm
    rw [step_dma hs hd hj, dmaAction_xchg, dmaExchange_answered (nextCard_withSched_some hn rest), hju]
    rfl
  · have hn' := nextCard_withSched_none hn rest
    rw [step_dma hs hd hj]
    rcases ha with ⟨tx, rfl⟩ | ⟨rfl, hf⟩
    · rw [dmaAction_xchg, dmaExchange_unanswered hn']
      rfl
    · obtain ⟨b, bs, hf⟩ := List.exists_cons_of_ne_nil hf
      rw [dmaAction_send hf, dmaExchange_unanswered hn']
      rfl
  · exact (step_host hs hi).trans (hostStep_store_owned ((ownedByDma_iff (s := s.withSched rest) hj hd a).2 ⟨k, hk, ha⟩) b)
  · exact stores_byte hm ((step_host hs hi).trans (hostStep_store_free (ownedByDma_outside (s := s.withSched rest) hj hd hout) b))
  · exact (step_host hs hi).trans (hostStep_load_owned ((ownedByDma_iff (s := s.withSched rest) hj hd a).2 ⟨k, hk, ha⟩)
      ((dmaReads_eq (s := s.withSched rest) hj).trans (beq_iff_eq.2 hr)))
  · exact (step_host hs hi).trans (hostStep_load_free (hfree.imp (ownedByDma_outside (s := s.withSched rest) hj hd)
      fun hw => (dmaReads_eq (s := s.withSched rest) hj).trans (by rw [hw]; rfl)))

end Sys2Proof.Proofs
end

section
/-! POLL_STATUS (45_dma_completion.md R265): with DMAST Idle or Busy it ends at its first read; after a transfer Laws/Completions.lean has
its follow-up and its cleanup, and here is what comes between them. -/

namespace Sys2Proof.Machine

/-! ### Schedules with turns of ENGINE behind them -/

theorem Timed.append_engineTurns {k : Nat} {turns : List Turn} (h : Timed k turns) (n : Nat) : Timed k (turns ++ engineTurns n) := by
  obtain ⟨hkind, hcount⟩ := h
  refine ⟨fun t ht => (List.mem_append.1 ht).elim (hkind t) fun h => .inl (List.eq_of_mem_replicate h), ?_⟩
  rw [List.count_append, hcount]
  simp [engineTurns, List.count_replicate]

/-! ### DMAST Idle or Busy -/

theorem pollRead_idle {s : State} (h : s.dmast = .idle) : pollRead s = (s.withWk { s.wk with pst := s.dmast }).endWith .ok := by
  simp [pollRead, h]

theorem pollRead_busy {s : State} (h : s.dmast = .busy) : pollRead s = (s.withWk { s.wk with pst := s.dmast }).endWith .notReady := by
  simp [pollRead, h]

section
variable {s t : State} {sel d : Byte} {more : List Byte}

/-- Where no transfer has ended, the read of DMAST ends the operation. -/
theorem reaches_pollRead {r : TransferResult} (ht : s.todo = [])
    (h : pollRead (s.goAct .readStatus) = (s.withWk { s.wk with pst := s.dmast }).endWith r) :
    Reaches 2 (s.goAct .readStatus) ((s.withWk { s.wk with pst := s.dmast }).returnWith r) :=
  have read : Reaches 1 (s.goAct .readStatus) ((s.withWk { s.wk with pst := s.dmast }).endWith r) :=
    reaches_act_act (b := .ret r) ht rfl (congrArg _ h) ht rfl
  read.trans (reaches_ret (s := (s.withWk { s.wk with pst := s.dmast }).endWith r) ht rfl)

/-- POLL_STATUS that its read of DMAST ends. -/
theorem exec_poll_read {r : TransferResult} (hi : s.isIdle = true)
    (h : pollRead ((s.clearResults.latchWord 0x06 sel).goAct .readStatus) =
      ((s.clearResults.latchWord 0x06 sel).withWk { s.wk with pst := s.dmast }).endWith r) (rest : List Turn) :
    exec (.pollStatus sel) (s.withSched (engineTurns 2 ++ rest)) = .next { s with
      lat := { s.lat with op := 0x06, sel := sel }, wk := { s.wk with pst := s.dmast }, out := s.out.onlyRes r, sched := rest } := by
  obtain ⟨hpos, htodo⟩ := (isIdle_iff s).1 hi
  have run := reaches_pollRead (s := s.clearResults.latchWord 0x06 sel) htodo h
  rw [exec_poll hi run.gets (returnWith_idle htodo), hpos]
  rfl

/-! ### A transfer that has ended -/

theorem pollResult_true (x : DmaStatus) : pollResult x true = if x = .success then .ok else .error := by
  simp [pollResult]

theorem pollResult_eq (x : DmaStatus) (ok : Bool) : pollResult x ok = if x = .success ∧ ok = true then .ok else .error := by
  simp [pollResult]

/-- The cleanup behind a run with TICK events. -/
theorem pollStatus_passes {ok : Bool} {i : List WireItem} {k : Nat} (hi : s.isIdle = true) (ht : t.todo = [])
    (al : Along (s.polled sel ok) t i (d :: more)) (hlat : t.lat = (s.polled sel ok).lat) (hmem : t.mem = s.mem)
    (run : Passes k ((s.clearResults.latchWord 0x06 sel).goAct .readStatus) (pollClose t)) :
    ∃ turns w a, Timed k turns ∧ a.live = false ∧ ∀ rest, exec (.pollStatus sel) (s.withSched (turns ++ rest)) = .next { s with
      lat := { s.lat with op := 0x06, sel := sel }, wk := w, out := s.out.onlyRes (pollResult s.dmast ok),
      dmast := .idle, atc := a, job := none, cs := true, tmr := t.tmr, trace := s.trace ++ i ++ [.cs true, .xchg 0xFF d],
      env := { s.env with card := more }, sched := rest } := by
  obtain ⟨turns, htimed, hgets⟩ := run
  obtain ⟨w, a, ha, hexec⟩ := pollStatus_ends hi ht al hlat hmem hgets
  exact ⟨_, w, a, htimed.append_engineTurns 5, ha, hexec⟩

/-- POLL_STATUS up to the cleanup of a single-block transfer. -/
theorem reaches_pollSingle (hi : s.isIdle = true) (hd : s.dmast = .success ∨ s.dmast = .error) (ha : s.atc.live = true)
    (hm : s.atc.multi = false) :
    ∃ n, Reaches n ((s.clearResults.latchWord 0x06 sel).goAct .readStatus) (pollClose (s.polled sel true)) :=
  reaches_pollFollowUp hi hd ha _ trivial (by simp [hm])

/-- POLL_STATUS up to the CMD12 of a multi-block read. -/
theorem reaches_pollStopCmd (hi : s.isIdle = true) (hd : s.dmast = .success ∨ s.dmast = .error) (ha : s.atc.live = true)
    (hm : s.atc.multi = true) (hr : s.atc.dir = .read) :
    ∃ n, Reaches n ((s.clearResults.latchWord 0x06 sel).goAct .readStatus) ((s.polled sel true).call [.command cmdStop 0] .pollStopCmd) :=
  reaches_pollFollowUp hi hd ha _ trivial (by simp [hm, hr])

/-- POLL_STATUS up to the stop token of a multi-block write. -/
theorem reaches_pollStopToken (hi : s.isIdle = true) (hd : s.dmast = .success ∨ s.dmast = .error) (ha : s.atc.live = true)
    (hm : s.atc.multi = true) (hw : s.atc.dir = .write) :
    ∃ n, Reaches n ((s.clearResults.latchWord 0x06 sel).goAct .readStatus)
      ((s.polled sel true).call (transmitBlock Config.tokStop) .pollStopToken) :=
  reaches_pollFollowUp hi hd ha _ trivial (by simp [hm, hw])

/-- Behind the stop token OKF says whether it went out. -/
theorem doTest_pollStopToken (hokf : t.wk.okf = true) :
    doTest .pollStopToken t = pollClose (t.withWk { t.wk with okf := t.wk.flag }) := by
  refine congrArg pollClose ?_
  cases hflag : t.wk.flag with
  | true => rw [if_pos rfl, ← hokf]; rfl
  | false => rfl

/-- What POLL_STATUS knows behind the stop token. -/
theorem Along.polled {ok ok' : Bool} {i : List WireItem} (h : Along (s.polled sel ok) t i more) :
    Along (s.polled sel ok') (t.withWk { t.wk with okf := ok' }) i more :=
  ⟨h.out, h.dstat, h.ctype, h.dmast, h.atc, h.speed, h.job, h.taken, h.sched, h.trace, h.env, h.ty, h.icmd, rfl, h.pst, h.addr⟩

end

end Sys2Proof.Machine

namespace Sys2Proof.Proofs

open Sys2Proof.Machine

/-- Settles O25: the one read of DMAST decides. -/
theorem pollIdleOrBusy : Obligations.PollIdleOrBusy := by
  intro s sel hi hd
  refine ⟨_, fun rest => exec_poll_read hi ?_ rest⟩
  rcases hd with hidle | hbusy
  · rw [if_pos hidle]
    exact pollRead_idle (s := (s.clearResults.latchWord 0x06 sel).goAct .readStatus) hidle
  · rw [if_neg (by rw [hbusy]; decide)]
    exact pollRead_busy (s := (s.clearResults.latchWord 0x06 sel).goAct .readStatus) hbusy

/-- Settles O26: nothing comes before the cleanup. -/
theorem pollSingle : Obligations.PollSingle := by
  intro s sel d more hi hd ha hm hc
  obtain ⟨n, run⟩ := reaches_pollSingle (sel := sel) hi hd ha hm
  obtain ⟨turns, w, a, htimed, hlive, hexec⟩ := pollStatus_passes (t := s.polled sel true) (ok := true) hi
    ((isIdle_iff s).1 hi).2 (Along.refl hc) rfl rfl run.passes
  obtain ⟨n, rfl⟩ := htimed.exists_engineTurns
  refine ⟨n, w, a, hlive, fun rest => (hexec rest).trans ?_⟩
  rw [pollResult_true, List.append_nil]
  rfl

/-- Settles O27: CMD12 comes before the cleanup, whatever its answer. -/
theorem pollManyRead : Obligations.PollManyRead := by
  intro s sel d more p hi hd ha hm hr hp hc
  obtain ⟨n, run⟩ := reaches_pollStopCmd (sel := sel) hi hd ha hm hr
  obtain ⟨m, t, stop, ht, halong, hlat, -, hmem, htmr⟩ := call_stop (s := s.polled sel true) (u := .pollStopCmd)
    ((isIdle_iff s).1 hi).2 hp hc
  obtain ⟨turns, w, a, htimed, hlive, hexec⟩ := pollStatus_passes hi ht halong hlat hmem (run.trans stop).passes
  obtain ⟨n, rfl⟩ := htimed.exists_engineTurns
  refine ⟨n, w, a, hlive, fun rest => (hexec rest).trans ?_⟩
  rw [pollResult_true, htmr]
  rfl

/-- Settles O28: the stop token comes before the cleanup, and OKF is whether it went out. -/
theorem pollManyWrite : Obligations.PollManyWrite := by
  intro s sel d more p hi hd ha hm hw hp hc
  obtain ⟨n, run⟩ := reaches_pollStopToken (sel := sel) hi hd ha hm hw
  obtain ⟨t, stop, ht, halong, hlat, -, hmem, htmr, hflag⟩ := call_stopAttempt (s := s.polled sel true) (u := .pollStopToken)
    ((isIdle_iff s).1 hi).2 hp hc
  rw [doTest_pollStopToken halong.okf, hflag] at stop
  obtain ⟨turns, w, a, htimed, hlive, hexec⟩ := pollStatus_passes (t := t.withWk { t.wk with okf := p.goesOut }) hi ht
    halong.polled hlat hmem (run.into stop)
  refine ⟨turns, w, a, htimed, hlive, fun rest => (hexec rest).trans ?_⟩
  rw [pollResult_eq, State.withWk_tmr, htmr]
  rfl

end Sys2Proof.Proofs
end

section
/-! START_READ_DMA and START_WRITE_DMA (45_dma_completion.md R261 to R263): the guard behind the gate, the handshake in task context, and the
two ends, at the handing over of the transfer or with the context cleared. Laws/Completions.lean has the runs up to the block command and
the handing over itself. -/

namespace Sys2Proof.Machine

/-! ### The guard (R263) -/

theorem behindGate_start {o : BlockOp} (ho : o.isDma = true) : behindGate o = .guardDma o := if_pos ho

theorem guardDma_fires {o : BlockOp} {v : State} (h : v.dmast ≠ .idle) : guardDma o v = v.endWith .notReady := if_neg h

theorem guardDma_passes {o : BlockOp} {v : State} (h : v.dmast = .idle) : guardDma o v = v.goAct (.guardContext o) := if_pos h

theorem guardContext_fires {o : BlockOp} {v : State} (h : v.atc.live = true) : guardContext o v = v.endWith .notReady := if_pos h

/-- A guard that fires ends the operation, in its first step or in its second. -/
theorem reaches_guard_fires {o : BlockOp} {v : State} (ht : v.todo = []) (h : v.dmast ≠ .idle ∨ v.atc.live = true) :
    ∃ n, Reaches n (v.goAct (.guardDma o)) (v.endWith .notReady) := by
  by_cases hd : v.dmast = .idle
  · have first : Reaches 1 (v.goAct (.guardDma o)) (v.goAct (.guardContext o)) :=
      reaches_act_act (b := .guardContext o) ht rfl (congrArg _ (guardDma_passes hd)) ht rfl
    have second : Reaches 1 (v.goAct (.guardContext o)) (v.endWith .notReady) :=
      reaches_act_act (b := .ret .notReady) ht rfl (congrArg _ (guardContext_fires (h.resolve_left (not_not_intro hd)))) ht rfl
    exact ⟨_, first.trans second⟩
  · exact ⟨1, reaches_act_act (b := .ret .notReady) ht rfl (congrArg _ (guardDma_fires hd)) ht rfl⟩

/-! ### The block command (R261, R262) -/

section
variable {s t : State} {sel : Byte} {buf sector count : Word} {more : List Byte}

/-- A block command answered 0x00 leads to the token wait, or to the readiness wait. -/
theorem doTest_dmaReadAccepted (h : t.wk.r1 = 0x00) : doTest .dmaReadCmd t = t.call waitToken .dmaReadToken :=
  if_pos (show r1Ready t.wk.r1 = true from beq_iff_eq.2 h)

theorem doTest_dmaWriteAccepted (h : t.wk.r1 = 0x00) : doTest .dmaWriteCmd t =
    (t.withWk { t.wk with tok := blockToken t.lat.count }).call (waitReady Config.tRdyMs) .dmaWriteReady :=
  if_pos (show r1Ready t.wk.r1 = true from beq_iff_eq.2 h)

/-- A block command that is not answered 0x00 leads to the failure path. -/
theorem doTest_dmaReadRejected (h : t.wk.r1 ≠ 0x00) : doTest .dmaReadCmd t = dmaFail t := if_neg (not_ready_of_ne h)

theorem doTest_dmaWriteRejected (h : t.wk.r1 ≠ 0x00) :
    doTest .dmaWriteCmd t = dmaFail (t.withWk { t.wk with tok := blockToken t.lat.count }) := if_neg (not_ready_of_ne h)

/-- `TOK <- …` in the caller's test: what is said of the way so far does not speak of TOK. -/
theorem Between.noteToken {i : List WireItem} {l : Latches} {z : Memory} (h : Between s t i more l z) (x : Byte) :
    Between s (t.withWk { t.wk with tok := x }) i more l z := by
  obtain ⟨htodo, al, hlat, hmem⟩ := h
  exact ⟨htodo, ⟨al.out, al.dstat, al.ctype, al.dmast, al.atc, al.speed, al.job, al.taken, al.sched, al.trace, al.env, al.ty, al.icmd,
    al.okf, al.pst, al.addr⟩, hlat, hmem⟩

/-- START_READ_DMA whose command is accepted, up to its token wait. -/
theorem reaches_startReadToken {p : Reply} (ht : s.todo = []) (hp : p.ok) (hr : p.r1 = 0x00) (hc : s.env.card = p.bytes ++ more) :
    ∃ n t, Reaches n ((s.started .startRead sel buf sector count).goAct (.scale .startRead)) (t.call waitToken .dmaReadToken) ∧
      Between (s.started .startRead sel buf sector count).noteAddr t (p.trace (blockCommand .read count) (scaledAddr s.ctype sector)) more
        (s.latched .startRead sel buf sector count).lat s.mem ∧
      t.cs = false ∧ t.tmr = { s.tmr with rdy := 500 } := by
  let v := s.started .startRead sel buf sector count
  obtain ⟨hcmd, happ⟩ := blockCommand_plain .read count
  obtain ⟨n, t, run, htodo, halong, hlat, hcs, hmem, htmr, hr1⟩ := call_plain (s := v.noteAddr) (arg := scaledAddr s.ctype sector)
    (u := .dmaReadCmd) hcmd happ ht hp hc
  rw [doTest_dmaReadAccepted (hr1.trans hr)] at run
  exact ⟨1 + n, t, (reaches_scaleStartRead (v := v) ht).trans run, ⟨htodo, halong, hlat, hmem⟩, hcs, htmr⟩

/-- START_READ_DMA whose command is rejected, up to its failure path. -/
theorem passes_startReadRejected {p : Attempt} (ht : s.todo = []) (hp : p.ok) (hr : p.r1 ≠ 0x00) (hc : s.env.card = p.bytes ++ more) :
    ∃ t, Passes p.ticks ((s.started .startRead sel buf sector count).goAct (.scale .startRead)) (dmaFail t) ∧
      Between (s.started .startRead sel buf sector count).noteAddr t (p.trace (blockCommand .read count) (scaledAddr s.ctype sector)) more
        (s.latched .startRead sel buf sector count).lat s.mem ∧
      t.tmr = p.timers s.tmr := by
  let v := s.started .startRead sel buf sector count
  obtain ⟨hcmd, happ⟩ := blockCommand_plain .read count
  obtain ⟨t, run, htodo, halong, hlat, hmem, htmr, hr1⟩ := call_attempt (s := v.noteAddr) (arg := scaledAddr s.ctype sector)
    (u := .dmaReadCmd) hcmd happ ht hp hc
  rw [doTest_dmaReadRejected (hr1 ▸ hr)] at run
  exact ⟨t, (reaches_scaleStartRead (v := v) ht).into run, ⟨htodo, halong, hlat, hmem⟩, htmr⟩

/-- START_WRITE_DMA whose command is accepted, up to its readiness wait. -/
theorem passes_startWriteReady {h : AppReply} {p : Reply} (ht : s.todo = []) (hh : h.ok) (hp : p.ok) (hr : p.r1 = 0x00)
    (hc : s.env.card = hintBytes s.ctype count h ++ (p.bytes ++ more)) :
    ∃ t, Passes (hintTicks s.ctype count h) ((s.started .startWrite sel buf sector count).goAct (.scale .startWrite))
        (t.call (waitReady Config.tRdyMs) .dmaWriteReady) ∧
      Between (s.started .startWrite sel buf sector count).noteAddr t
        (hintTrace s.ctype count h ++ p.trace (blockCommand .write count) (scaledAddr s.ctype sector)) more
        (s.latched .startWrite sel buf sector count).lat s.mem ∧
      t.cs = false ∧ t.tmr = { s.tmr.after (hintTicks s.ctype count h) with rdy := 500 } ∧ t.wk.tok = blockToken count := by
  obtain ⟨t, hint, htodo, halong, hlat, hmem, htmr⟩ := passes_startWriteCommand (sel := sel) (buf := buf) (sector := sector) ht hh hc
  have before : Between _ t _ _ (s.latched .startWrite sel buf sector count).lat s.mem := ⟨htodo, halong, hlat, hmem⟩
  obtain ⟨hcmd, happ⟩ := blockCommand_plain .write count
  obtain ⟨n, u, run, hutodo, hualong, hulat, hcs, humem, hutmr, hr1⟩ := call_plain (arg := scaledAddr s.ctype sector) (u := .dmaWriteCmd)
    hcmd happ htodo hp halong.card
  rw [doTest_dmaWriteAccepted (hr1.trans hr), hulat, hlat] at run
  exact ⟨_, hint.on run, (before.keeps hutodo hualong hulat humem).noteToken _, hcs, hutmr.trans (htmr 500), rfl⟩

/-- START_WRITE_DMA whose command is rejected, up to its failure path. -/
theorem passes_startWriteRejected {h : AppReply} {p : Attempt} (ht : s.todo = []) (hh : h.ok) (hp : p.ok) (hr : p.r1 ≠ 0x00)
    (hc : s.env.card = hintBytes s.ctype count h ++ (p.bytes ++ more)) :
    ∃ t, Passes (hintTicks s.ctype count h + p.ticks) ((s.started .startWrite sel buf sector count).goAct (.scale .startWrite))
        (dmaFail t) ∧
      Between (s.started .startWrite sel buf sector count).noteAddr t
        (hintTrace s.ctype count h ++ p.trace (blockCommand .write count) (scaledAddr s.ctype sector)) more
        (s.latched .startWrite sel buf sector count).lat s.mem ∧
      t.tmr = p.timers (s.tmr.after (hintTicks s.ctype count h)) := by
  obtain ⟨t, hint, htodo, halong, hlat, hmem, htmr⟩ := passes_startWriteCommand (sel := sel) (buf := buf) (sector := sector) ht hh hc
  have before : Between _ t _ _ (s.latched .startWrite sel buf sector count).lat s.mem := ⟨htodo, halong, hlat, hmem⟩
  obtain ⟨hcmd, happ⟩ := blockCommand_plain .write count
  obtain ⟨u, run, hutodo, hualong, hulat, humem, hutmr, hr1⟩ := call_attempt (arg := scaledAddr s.ctype sector) (u := .dmaWriteCmd)
    hcmd happ htodo hp halong.card
  rw [doTest_dmaWriteRejected (hr1 ▸ hr)] at run
  refine ⟨_, hint.trans run, (before.keeps hutodo hualong hulat humem).noteToken _, hutmr.trans ?_⟩
  rw [Attempt.timers, htmr]; rfl

/-! ### The handshake (R261, R262) -/

theorem doTest_dmaReadToken_seen (h : t.wk.flag = true) : doTest .dmaReadToken t = t.goAct (.dmaGo .read) := if_pos h

theorem doTest_dmaReadToken_missing (h : t.wk.flag = false) : doTest .dmaReadToken t = t.goAct (.testMulti .read) :=
  if_neg (Bool.not_eq_true _ ▸ h)

theorem doTest_dmaWriteReady_ready (h : t.wk.flag = true) :
    doTest .dmaWriteReady t = t.call [.exchange (.sendToken t.wk.tok)] .dmaWriteToken := if_pos h

theorem doTest_dmaWriteReady_busy (h : t.wk.flag = false) : doTest .dmaWriteReady t = t.goAct (.testMulti .write) :=
  if_neg (Bool.not_eq_true _ ▸ h)

theorem dmaTestMulti_single (d : DmaDir) (h : t.atc.multi = false) : dmaTestMulti d t = dmaFail t := if_neg (Bool.not_eq_true _ ▸ h)

theorem dmaTestMulti_read (h : t.atc.multi = true) : dmaTestMulti .read t = t.call [.command cmdStop 0] .dmaStopped := if_pos h

theorem dmaTestMulti_write (h : t.atc.multi = true) : dmaTestMulti .write t = t.call (transmitBlock Config.tokStop) .dmaStopped :=
  if_pos h

/-- START_WRITE_DMA with a card that becomes ready: the block token goes out, and the handing over is next. -/
theorem passes_startWriteToken {h : AppReply} {p : Reply} {busy : List Byte} {under : Byte} (ht : s.todo = []) (hh : h.ok) (hp : p.ok)
    (hr : p.r1 = 0x00) (hb : ∀ b ∈ busy, cardIsReady b = false)
    (hc : s.env.card = hintBytes s.ctype count h ++ (p.bytes ++ (busy ++ 0xFF :: under :: more))) :
    ∃ t, Passes (hintTicks s.ctype count h) ((s.started .startWrite sel buf sector count).goAct (.scale .startWrite))
        (t.goAct (.dmaGo .write)) ∧
      Between (s.started .startWrite sel buf sector count).noteAddr t
        (hintTrace s.ctype count h ++ p.trace (blockCommand .write count) (scaledAddr s.ctype sector) ++ fillers (busy ++ [0xFF])
          ++ [.xchg (blockToken count) under]) more
        (s.latched .startWrite sel buf sector count).lat s.mem ∧
      t.cs = false ∧ t.tmr = { s.tmr.after (hintTicks s.ctype count h) with rdy := 500 } := by
  obtain ⟨t, run, ht, hcs, htmr, htok⟩ := passes_startWriteReady (sel := sel) (buf := buf) (sector := sector) ht hh hp hr hc
  obtain ⟨n, u, wait, hutodo, halong, hlat, hucs, hmem, hutmr, hwk⟩ := call_waitReady (u := .dmaWriteReady) ht.todo ht.along.card hb
  have hflag : u.wk.flag = true := by rw [hwk]
  have hutok : u.wk.tok = blockToken count := by rw [hwk]; exact htok
  rw [doTest_dmaWriteReady_ready hflag, hutok] at wait
  have hu := ht.keeps hutodo halong hlat hmem
  obtain ⟨v, token, hvtodo, hvalong, hvlat, hvcs, hvmem, hvtmr⟩ := call_sendToken (tok := blockToken count) (u := .dmaWriteToken)
    hu.todo hu.along.card
  exact ⟨v, (run.on wait).on token, hu.keeps hvtodo hvalong hvlat hvmem, hvcs.trans (hucs.trans hcs),
    hvtmr.trans (hutmr.trans (by rw [htmr]; rfl))⟩

/-- START_WRITE_DMA with a card that stays busy: ATC.multi is asked next. -/
theorem passes_startWriteBusy {h : AppReply} {p : Reply} {busy : List Byte} (ht : s.todo = []) (hh : h.ok) (hp : p.ok) (hr : p.r1 = 0x00)
    (hb : staysBusy busy) (hc : s.env.card = hintBytes s.ctype count h ++ (p.bytes ++ (busy ++ more))) :
    ∃ t, Passes (hintTicks s.ctype count h + 500) ((s.started .startWrite sel buf sector count).goAct (.scale .startWrite))
        (t.goAct (.testMulti .write)) ∧
      Between (s.started .startWrite sel buf sector count).noteAddr t
        (hintTrace s.ctype count h ++ p.trace (blockCommand .write count) (scaledAddr s.ctype sector) ++ fillers busy) more
        (s.latched .startWrite sel buf sector count).lat s.mem ∧
      t.tmr = ({ s.tmr.after (hintTicks s.ctype count h) with rdy := 500 } : Timers).after 500 := by
  obtain ⟨t, run, ht, -, htmr, -⟩ := passes_startWriteReady (sel := sel) (buf := buf) (sector := sector) ht hh hp hr hc
  obtain ⟨u, wait, hutodo, halong, hlat, -, hmem, hutmr, hflag⟩ := call_waitBusy (u := .dmaWriteReady) ht.todo ht.along.card hb
  rw [doTest_dmaWriteReady_busy hflag] at wait
  exact ⟨u, run.trans wait, ht.keeps hutodo halong hlat hmem, hutmr.trans (by rw [htmr]; rfl)⟩

/-- A failed handshake of one block: the failure path is next. -/
theorem reaches_testMulti_single (d : DmaDir) (ht : t.todo = []) (h : t.atc.multi = false) :
    Reaches 1 (t.goAct (.testMulti d)) (dmaFail t) :=
  reaches_act_to ht rfl (congrArg _ (dmaTestMulti_single (t := t.goAct (.testMulti d)) d h)) trivial

/-- A failed handshake of several blocks: the command is closed, by CMD12 or by the stop token. -/
theorem reaches_testMulti_read (ht : t.todo = []) (h : t.atc.multi = true) :
    Reaches 1 (t.goAct (.testMulti .read)) (t.call [.command cmdStop 0] .dmaStopped) :=
  reaches_act_to ht rfl (congrArg _ (dmaTestMulti_read (t := t.goAct (.testMulti .read)) h)) trivial

theorem reaches_testMulti_write (ht : t.todo = []) (h : t.atc.multi = true) :
    Reaches 1 (t.goAct (.testMulti .write)) (t.call (transmitBlock Config.tokStop) .dmaStopped) :=
  reaches_act_to ht rfl (congrArg _ (dmaTestMulti_write (t := t.goAct (.testMulti .write)) h)) trivial

/-- COUNT is one or more: whether it is one says which of the two it is. -/
theorem count_gt_one (h0 : count ≠ 0) : decide (count > 1) = !decide (count = 1) := by
  by_cases h1 : count = 1
  · rw [h1]; rfl
  · rw [decide_eq_false h1, decide_eq_true (show count > 1 by bv_omega)]; rfl

/-- START_READ_DMA whose start token did not come, up to its failure path: CMD12 is sent for several blocks and not for one. -/
theorem reaches_startReadClose {st : StopReply} (ht : t.todo = []) (h0 : count ≠ 0) (hm : t.atc.multi = decide (count > 1)) (hst : st.ok)
    (hc : t.env.card = (if count = 1 then [] else st.bytes) ++ more) :
    ∃ n u, Reaches n (t.goAct (.testMulti .read)) (dmaFail u) ∧
      Between t u (if count = 1 then [] else st.trace) more t.lat t.mem ∧ u.tmr = t.tmr := by
  rw [count_gt_one h0] at hm
  by_cases h1 : count = 1
  · rw [if_pos h1] at hc ⊢
    exact ⟨1, t, reaches_testMulti_single .read ht (by rw [hm, h1]; rfl), ⟨ht, Along.refl hc, rfl, rfl⟩, rfl⟩
  · rw [if_neg h1] at hc ⊢
    obtain ⟨n, u, stop, hutodo, halong, hlat, -, hmem, htmr⟩ := call_stop (u := .dmaStopped) ht hst hc
    exact ⟨1 + n, u, (reaches_testMulti_read ht (by rw [hm, decide_eq_false h1]; rfl)).trans stop, ⟨hutodo, halong, hlat, hmem⟩, htmr⟩

end

/-! ### The two ends (R261, R262) -/

section
variable {o : BlockOp} {s t : State} {sel : Byte} {buf sector count : Word} {k : Nat} {i : List WireItem} {x : Timers} {more : List Byte}

/-- A start operation that comes to the handing over of its transfer, with the card selected. -/
theorem starting_handsOver (ho : o.isDma = true) (hi : s.isIdle = true) (hd : s.dmast = .idle) (ha : s.atc.live = false) (hc : count ≠ 0)
    (hn : s.dstat.noInit = false) (hp : o.isWrite = true → s.dstat.protect = false)
    (run : Passes k ((s.started o sel buf sector count).goAct (.scale o)) (t.goAct (.dmaGo o.dir)))
    (ht : Between (s.started o sel buf sector count).noteAddr t i more (s.latched o sel buf sector count).lat s.mem) (hcs : t.cs = false)
    (htmr : t.tmr = x) :
    ∃ turns w, Timed k turns ∧ ∀ rest, exec (o.instr sel buf sector count) (s.withSched (turns ++ rest)) = .next { s with
      lat := { op := o.code, sel := sel, sector := sector, count := count, buf := buf }, wk := w, out := s.out.onlyRes .ok,
      dmast := .busy, atc := { live := true, dir := o.dir, multi := decide (count > 1) },
      job := some { dir := o.dir, buf := buf, n := count, fetched := [] }, cs := false, tmr := x,
      trace := s.trace ++ i ++ [.dmaStart o.dir buf count], env := { s.env with card := more }, sched := rest } := by
  have hbuf : t.lat.buf = buf := congrArg Latches.buf ht.lat
  have hcount : t.lat.count = count := congrArg Latches.count ht.lat
  have go := reaches_dmaGo (d := o.dir) ht.todo
  rw [hbuf, hcount, ht.along.atc] at go
  exact starting_passes ho hi hd ha hc hn hp ⟨t, run.on go, ht.todo, ht.along, ht.lat, hcs, ht.mem, htmr⟩

/-- A start operation that comes to its failure path. -/
theorem starting_fails {d : Byte} (ho : o.isDma = true) (hi : s.isIdle = true) (hd : s.dmast = .idle) (ha : s.atc.live = false)
    (hc : count ≠ 0) (hn : s.dstat.noInit = false) (hp : o.isWrite = true → s.dstat.protect = false)
    (run : Passes k ((s.started o sel buf sector count).goAct (.scale o)) (dmaFail t))
    (ht : Between (s.started o sel buf sector count).noteAddr t i (d :: more) (s.latched o sel buf sector count).lat s.mem)
    (htmr : t.tmr = x) :
    ∃ turns w a, Timed k turns ∧ a.live = false ∧
      ∀ rest, exec (o.instr sel buf sector count) (s.withSched (turns ++ rest)) = .next { s with
      lat := { op := o.code, sel := sel, sector := sector, count := count, buf := buf }, wk := w, out := s.out.onlyRes .error,
      atc := a, cs := true, tmr := x, trace := s.trace ++ i ++ [.cs true, .xchg 0xFF d], env := { s.env with card := more },
      sched := rest } := by
  obtain ⟨n, u, close, hutodo, halong, hlat, hcs, hmem, hutmr⟩ := reaches_dmaFail ht.todo ht.along.card
  rw [ht.along.dmast, ht.along.job] at close
  obtain ⟨turns, w, htimed, hexec⟩ := starting_passes ho hi hd ha hc hn hp ⟨u, run.on close, hutodo, ht.along.trans halong,
    hlat.trans ht.lat, hcs, hmem.trans ht.mem, hutmr.trans htmr⟩
  refine ⟨turns, w, { t.atc with live := false }, htimed, rfl, fun rest => (hexec rest).trans ?_⟩
  rw [List.append_nil, ← List.append_assoc]
  rfl

end

end Sys2Proof.Machine

namespace Sys2Proof.Proofs

open Sys2Proof.Machine

/-- Settles O18: the gate leads to the guard, which fires. -/
theorem startGuard : Obligations.StartGuard := by
  intro o s sel buf sector count ho hi h0 hn hp h
  have htodo := ((isIdle_iff s).1 hi).2
  have gate := reaches_behindGate (sel := sel) (buf := buf) (sector := sector) htodo h0 hn hp
  rw [behindGate_start ho] at gate
  obtain ⟨n, guard⟩ := reaches_guard_fires (o := o) (v := s.latched o sel buf sector count) htodo h
  exact ⟨_, exec_block_fires hi (by simp [ho]) (gate.trans guard)⟩

/-- Settles O29: the start token ends the wait, and the transfer is handed over. -/
theorem startReadDma : Obligations.StartReadDma := by
  intro s sel buf sector count p fill more hi hd ha hn h0 hp hr hc
  obtain ⟨n, t, run, ht, hcs, htmr⟩ := reaches_startReadToken (sel := sel) (buf := buf) (sector := sector) (count := count)
    ((isIdle_iff s).1 hi).2 hp hr hc
  obtain ⟨m, u, wait, hutodo, halong, hlat, hucs, hmem, hutmr, hflag⟩ := call_waitToken (u := .dmaReadToken) ht.todo ht.along.card
    (by decide)
  rw [doTest_dmaReadToken_seen hflag] at wait
  obtain ⟨turns, w, htimed, hexec⟩ := starting_handsOver (o := .startRead) rfl hi hd ha h0 hn nofun (run.trans wait).passes
    (ht.keeps hutodo halong hlat hmem) (hucs.trans hcs) (hutmr.trans (by rw [htmr]))
  obtain ⟨n, rfl⟩ := htimed.exists_engineTurns
  refine ⟨n, w, fun rest => (hexec rest).trans ?_⟩
  simp only [List.append_assoc]
  rfl

/-- Settles O30: the token wait fails; what is left to send is CMD12, for several blocks. -/
theorem startReadBadToken : Obligations.StartReadBadToken := by
  intro s sel buf sector count p q st d more hi hd ha hn h0 hp hr hq hst hc
  obtain ⟨n, t, run, ht, -, htmr⟩ := reaches_startReadToken (sel := sel) (buf := buf) (sector := sector) (count := count)
    ((isIdle_iff s).1 hi).2 hp hr hc
  obtain ⟨u, wait, hutodo, halong, hlat, -, hmem, hutmr, hflag⟩ := call_noToken (u := .dmaReadToken) ht.todo hq ht.along.card
  rw [doTest_dmaReadToken_missing hflag] at wait
  have hu := ht.keeps hutodo halong hlat hmem
  obtain ⟨m, v, close, hv, hvtmr⟩ := reaches_startReadClose hu.todo h0 (congrArg Context.multi hu.along.atc) hst hu.along.card
  rw [hu.lat, hu.mem] at hv
  obtain ⟨turns, w, a, htimed, hlive, hexec⟩ := starting_fails (o := .startRead) rfl hi hd ha h0 hn nofun ((run.into wait).on close)
    (hu.trans hv) (hvtmr.trans (hutmr.trans (congrArg q.timers htmr)))
  refine ⟨turns, w, a, htimed, hlive, fun rest => (hexec rest).trans ?_⟩
  simp only [List.append_assoc]
  rfl

/-- Settles O31: the readiness wait ends with a ready card, or runs out; then one block has nothing to close, and several have. -/
theorem startWriteDma : Obligations.StartWriteDma := by
  intro s sel buf sector count h p busy more hi hd ha hn hprot h0 hh hp hr
  have htodo := ((isIdle_iff s).1 hi).2
  refine ⟨fun under hbusy hc => ?_, fun d h1 hbusy hc => ?_, fun st d h1 hbusy hst hc => ?_⟩
  · obtain ⟨t, run, ht, hcs, htmr⟩ := passes_startWriteToken (sel := sel) (buf := buf) (sector := sector) htodo hh hp hr hbusy hc
    obtain ⟨turns, w, htimed, hexec⟩ := starting_handsOver (o := .startWrite) rfl hi hd ha h0 hn (fun _ => hprot) run ht hcs htmr
    refine ⟨turns, w, htimed, fun rest => (hexec rest).trans ?_⟩
    simp only [List.append_assoc]
    rfl
  · subst h1
    have noHint : sendsHint s.ctype 1 = false := rfl
    obtain ⟨t, run, ht, htmr⟩ := passes_startWriteBusy (sel := sel) (buf := buf) (sector := sector) (count := 1) htodo hh hp hr hbusy hc
    simp only [hintTicks, hintTrace, noHint, Bool.false_eq_true, if_false, Nat.zero_add, after_zero] at run ht htmr
    have close := reaches_testMulti_single .write ht.todo (congrArg Context.multi ht.along.atc)
    obtain ⟨turns, w, a, htimed, hlive, hexec⟩ := starting_fails (o := .startWrite) rfl hi hd ha h0 hn (fun _ => hprot) (run.on close) ht
      htmr
    refine ⟨turns, w, a, htimed, hlive, fun rest => (hexec rest).trans ?_⟩
    simp only [List.append_assoc]
    rfl
  · obtain ⟨t, run, ht, htmr⟩ := passes_startWriteBusy (sel := sel) (buf := buf) (sector := sector) htodo hh hp hr hbusy hc
    have several : t.atc.multi = true := by
      rw [ht.along.atc]
      exact (count_gt_one h0).trans (by rw [decide_eq_false h1]; rfl)
    obtain ⟨u, stop, hutodo, halong, hlat, -, hmem, hutmr, -⟩ := call_stopAttempt (u := .dmaStopped) ht.todo hst ht.along.card
    obtain ⟨turns, w, a, htimed, hlive, hexec⟩ := starting_fails (o := .startWrite) rfl hi hd ha h0 hn (fun _ => hprot)
      (run.trans ((reaches_testMulti_write ht.todo several).into stop)) (ht.keeps hutodo halong hlat hmem)
      (hutmr.trans (congrArg st.timers htmr))
    refine ⟨turns, w, a, htimed, hlive, fun rest => (hexec rest).trans ?_⟩
    rw [blockCommand, if_neg h1]
    simp only [List.append_assoc]
    rfl

/-- Settles O32: the test behind the block command goes on to the failure path. -/
theorem startRejected : Obligations.StartRejected := by
  intro o s sel buf sector count h p d more ho hi hd ha hn hprot h0 hh hp hr hc
  have htodo := ((isIdle_iff s).1 hi).2
  cases o with
  | read => cases ho
  | write => cases ho
  | startRead =>
    obtain ⟨t, run, ht, htmr⟩ := passes_startReadRejected (sel := sel) (buf := buf) (sector := sector) (count := count) htodo hp hr hc
    obtain ⟨turns, w, a, htimed, hlive, hexec⟩ := starting_fails (o := .startRead) rfl hi hd ha h0 hn nofun run ht htmr
    refine ⟨turns, w, a, (Nat.zero_add _).symm ▸ htimed, hlive, fun rest => (hexec rest).trans ?_⟩
    rw [show (if BlockOp.startRead.isWrite then hintTicks s.ctype count h else 0) = 0 from rfl, after_zero]
    simp only [List.append_assoc]
    rfl
  | startWrite =>
    obtain ⟨t, run, ht, htmr⟩ := passes_startWriteRejected (sel := sel) (buf := buf) (sector := sector) htodo hh hp hr hc
    obtain ⟨turns, w, a, htimed, hlive, hexec⟩ := starting_fails (o := .startWrite) rfl hi hd ha h0 hn hprot run ht htmr
    refine ⟨turns, w, a, htimed, hlive, fun rest => (hexec rest).trans ?_⟩
    simp only [List.append_assoc]
    rfl

end Sys2Proof.Proofs
end

section
/-! IOCTL (46_query_ioctl.md R290 to R292, R295): its dispatch, and GET_SECTOR_COUNT from CMD9 to its `return`. -/

namespace Sys2Proof.Machine

/-! ### The dispatch (R290) -/

theorem exec_ioctlGetSectorCount (s : State) : exec .ioctlGetSectorCount s = issueIoctl 0x01 s := rfl

theorem exec_ioctlGetSectorSize (s : State) : exec .ioctlGetSectorSize s = issueIoctl 0x02 s := rfl

/-- With NOINIT set every query is issued as its selector stands. -/
theorem exec_queryRows {i : Instr} {sel : Byte} {s : State} (hn : s.dstat.noInit = true) (h : (i, sel) ∈ queryRows) :
    exec i s = issueIoctl sel s := by
  simp only [queryRows, List.mem_cons, List.not_mem_nil, or_false, Prod.mk.injEq] at h
  rcases h with ⟨rfl, rfl⟩ | ⟨rfl, rfl⟩ | ⟨rfl, rfl⟩
  · exact exec_ioctlGetSectorCount s
  · exact exec_ioctlGetSectorSize s
  · exact if_neg (by simp [hn])

/-- With NOINIT clear the erase-block query is refused at its issue (R295). -/
theorem exec_ioctlGetEraseBlockSize_refused {s : State} (hi : s.isIdle = true) (hd : s.dmast = .idle) (hn : s.dstat.noInit = false) :
    exec .ioctlGetEraseBlockSize s = .refused .eraseBlockSizeUnspecified :=
  if_pos (by simp [hi, hd, hn])

/-- A malformed selector is none of the three legal ones (30_encoding.md R104). -/
theorem malformedRows_illegal : ∀ sel : Byte, ∀ i ∈ malformedRows sel, i.wellFormed = true → sel ≠ 0x01 ∧ sel ≠ 0x02 ∧ sel ≠ 0x03 := by
  decide

section
variable {s : State}

theorem ioctlGate_noInit (h : s.dstat.noInit = true) : ioctlGate s = .next (s.endWith .notReady) := if_pos h

theorem ioctlGate_sectorSize (h : s.dstat.noInit = false) (hs : s.lat.sel = 0x02) : ioctlGate s = .next (getSectorSize s) := by
  simp [ioctlGate, h, hs]

theorem ioctlGate_sectorCount (h : s.dstat.noInit = false) (hs : s.lat.sel = 0x01) : ioctlGate s = .next (getSectorCount s) := by
  simp [ioctlGate, h, hs]

theorem ioctlGate_malformed (h : s.dstat.noInit = false) (hs : s.lat.sel ≠ 0x01 ∧ s.lat.sel ≠ 0x02 ∧ s.lat.sel ≠ 0x03) :
    ioctlGate s = .next (s.endWith .invalidParameter) := by
  obtain ⟨h1, h2, h3⟩ := hs
  exact (if_neg (Bool.not_eq_true _ ▸ h)).trans ((if_neg h2).trans ((if_neg h1).trans (if_neg h3)))

end

/-- HOST has issued an IOCTL with this selector, and its dispatch is next. -/
def State.ioctlIssued (s : State) (sel : Byte) : State := (s.clearResults.latchWord 0x07 sel).goAct .ioctlGate

/-- An IOCTL that its dispatch ends: the second of ENGINE's turns returns. -/
theorem issueIoctl_ends {s u : State} {sel : Byte} {r : TransferResult} (hi : s.isIdle = true) (hd : s.dmast = .idle)
    (h : ioctlGate (s.ioctlIssued sel) = .next (u.endWith r)) (hu : u.todo = []) (rest : List Turn) :
    issueIoctl sel (s.withSched (engineTurns 2 ++ rest)) = .next ((u.returnWith r).withSched rest) := by
  have gate : Reaches 1 (s.ioctlIssued sel) (u.endWith r) :=
    reaches_act_act (b := .ret r) ((isIdle_iff s).1 hi).2 rfl h hu rfl
  exact issueIoctl_completes hi hd (gate.trans (reaches_ret hu rfl)).gets (returnWith_idle hu) rest

/-- An IOCTL that its dispatch rejects writes RES only, besides the latches. -/
theorem issueIoctl_rejects {s : State} {sel : Byte} {r : TransferResult} (hi : s.isIdle = true) (hd : s.dmast = .idle)
    (h : ioctlGate (s.ioctlIssued sel) = .next ((s.ioctlIssued sel).endWith r)) (rest : List Turn) :
    issueIoctl sel (s.withSched (engineTurns 2 ++ rest)) = .next { s with
      lat := { s.lat with op := 0x07, sel := sel }, out := s.out.onlyRes r, sched := rest } := by
  obtain ⟨hpos, htodo⟩ := (isIdle_iff s).1 hi
  rw [issueIoctl_ends hi hd h htodo rest, hpos]
  rfl

/-! ### GET_SECTOR_COUNT (R292) -/

/-- GET_SECTOR_COUNT behind its dispatch: the decode has not succeeded. -/
def State.counting (s : State) : State := (s.ioctlIssued 0x01).setOkf false

/-- What the decode leaves in OKF and VAL; without a packet it is as if it had refused. -/
def State.noteCount (s : State) : Option Word → State
  | some v => (s.setOkf true).writeVal v
  | none => s

/-- The result registers by what the decode gave. -/
def Results.ofCount (o : Results) : Option Word → Results
  | some v => o.okWithVal v
  | none => o.onlyRes .error

section
variable {s t u v : State} {c : Option Word} {k : Nat} {d : Byte} {i : List WireItem} {more : List Byte}

theorem reaches_counting (hi : s.isIdle = true) (hn : s.dstat.noInit = false) :
    Reaches 1 (s.ioctlIssued 0x01) (s.counting.call [.command cmdSendCsd 0] .csdCmd) :=
  reaches_act_to ((isIdle_iff s).1 hi).2 rfl (ioctlGate_sectorCount (s := s.ioctlIssued 0x01) hn rfl) trivial

/-- CMD9 answered 0x00 leads to the CSD packet. -/
theorem doTest_csdAccepted (h : t.wk.r1 = 0x00) : doTest .csdCmd t = t.call (receiveBlock .csd) .csdData :=
  if_pos (show r1Ready t.wk.r1 = true from beq_iff_eq.2 h)

theorem doTest_csdRejected (h : t.wk.r1 ≠ 0x00) : doTest .csdCmd t = csdClose (t.noteCount none) := if_neg (not_ready_of_ne h)

/-- The packet received: it is decoded. -/
theorem doTest_csdReceived (h : t.wk.flag = true) : doTest .csdData t = csdClose (t.noteCount (decodeCsd t.wk.csdr)) := by
  refine (if_pos h).trans ?_
  cases decodeCsd t.wk.csdr <;> rfl

theorem doTest_csdMissing (h : t.wk.flag = false) : doTest .csdData t = csdClose (t.noteCount none) :=
  if_neg (Bool.not_eq_true _ ▸ h)

/-- The result is by OKF. -/
theorem doTest_csdClosed (h : t.wk.okf = c.isSome) : doTest .csdClosed t = t.endWith (if c.isSome then .ok else .error) := by
  rw [← h]; rfl

theorem noteCount_okf (h : t.wk.okf = false) : (t.noteCount c).wk.okf = c.isSome := by
  cases c with
  | some v => rfl
  | none => exact h

/-- Of the registers a micro-operation keeps, the decode writes the results and OKF. -/
theorem Along.noteCount (h : Along v t i more) : Along (v.noteCount c) (t.noteCount c) i more := by
  cases c with
  | none => exact h
  | some x =>
    exact ⟨congrArg (fun o : Results => { o with val := x, valValid := true }) h.out, h.dstat, h.ctype, h.dmast, h.atc, h.speed, h.job,
      h.taken, h.sched, h.trace, h.env, h.ty, h.icmd, rfl, h.pst, h.addr⟩

theorem Between.noteCount {l : Latches} {z : Memory} (h : Between v t i more l z) :
    Between (v.noteCount c) (t.noteCount c) i more l z := by
  obtain ⟨htodo, al, hlat, hmem⟩ := h
  cases c with
  | none => exact ⟨htodo, al, hlat, hmem⟩
  | some x => exact ⟨htodo, al.noteCount, hlat, hmem⟩

theorem noteCount_tmr : (t.noteCount c).tmr = t.tmr := by cases c <;> rfl

/-- The `return` of GET_SECTOR_COUNT, register by register. -/
theorem counted_eq {x : Timers} (hi : s.isIdle = true) (h : Between (s.counting.noteCount c) u i more s.counting.lat s.mem)
    (hcs : u.cs = true) (htmr : u.tmr = x) (rest : List Turn) :
    (u.returnWith (if c.isSome then .ok else .error)).withSched rest = { s with
      lat := { s.lat with op := 0x07, sel := 0x01 }, wk := u.wk, out := s.out.ofCount c, cs := true, tmr := x,
      trace := s.trace ++ i, env := { s.env with card := more }, sched := rest } := by
  obtain ⟨hpos, htodo⟩ := (isIdle_iff s).1 hi
  obtain ⟨hut, al, hlat, hmem⟩ := h
  have hout : ({ u.out with res := if c.isSome then .ok else .error, resValid := true } : Results) = s.out.ofCount c := by
    rw [al.out]
    cases c <;> rfl
  cases c <;>
    exact State.eq_of hlat rfl hout hpos.symm (hut.trans htodo.symm) al.dstat al.ctype al.dmast al.atc htmr hcs al.speed al.job hmem
      al.trace al.taken al.env rfl

/-- GET_SECTOR_COUNT that comes to its `deselect()` completes, by what the decode gave. -/
theorem sectorCount_closes (hi : s.isIdle = true) (hd : s.dmast = .idle) (hn : s.dstat.noInit = false)
    (run : Passes k (s.counting.call [.command cmdSendCsd 0] .csdCmd) (csdClose (t.noteCount c)))
    (ht : Between s.counting t i (d :: more) s.counting.lat s.mem) :
    ∃ turns w, Timed k turns ∧ ∀ rest, exec .ioctlGetSectorCount (s.withSched (turns ++ rest)) = .next { s with
      lat := { s.lat with op := 0x07, sel := 0x01 }, wk := w, out := s.out.ofCount c, cs := true, tmr := t.tmr,
      trace := s.trace ++ (i ++ [.cs true, .xchg 0xFF d]), env := { s.env with card := more }, sched := rest } := by
  have hc := ht.noteCount (c := c)
  obtain ⟨u, close, hutodo, halong, hlat, hcs, hmem, htmr, -⟩ := call_deselect (u := .csdClosed) hc.todo hc.along.card
  have hu := hc.keeps hutodo halong hlat hmem
  rw [doTest_csdClosed (c := c) (halong.okf.trans (noteCount_okf ht.along.okf))] at close
  obtain ⟨turns, htimed, hgets⟩ :=
    (reaches_counting hi hn).into (run.on (close.trans (reaches_ret (s := u.endWith _) hutodo rfl)))
  refine ⟨turns, u.wk, htimed, fun rest => ?_⟩
  rw [exec_ioctlGetSectorCount, issueIoctl_completes hi hd hgets (returnWith_idle hutodo) rest]
  exact congrArg _ (counted_eq hi hu hcs (htmr.trans noteCount_tmr) rest)

/-- CMD9 answered 0x00, up to the CSD packet. -/
theorem reaches_csdPacket {p : Reply} (ht : s.todo = []) (hp : p.ok) (hr : p.r1 = 0x00) (hc : s.env.card = p.bytes ++ more) :
    ∃ n t, Reaches n (s.counting.call [.command cmdSendCsd 0] .csdCmd) (t.call (receiveBlock .csd) .csdData) ∧
      Between s.counting t (p.trace 0x09 0) more s.counting.lat s.mem ∧ t.tmr = { s.tmr with rdy := 500 } := by
  obtain ⟨n, t, run, htodo, halong, hlat, -, hmem, htmr, hr1⟩ := call_plain (s := s.counting) (cmd := cmdSendCsd) (arg := 0)
    (u := .csdCmd) (by decide) (by decide) ht hp hc
  rw [doTest_csdAccepted (hr1.trans hr)] at run
  exact ⟨n, t, run, ⟨htodo, halong, hlat, hmem⟩, htmr⟩

end

end Sys2Proof.Machine

namespace Sys2Proof.Proofs

open Sys2Proof.Machine

/-- Settles O19: NOINIT is the first test of the dispatch, and its last case is what no legal selector takes. -/
theorem ioctlGate : Obligations.IoctlGate := by
  intro s sel i rest hi hd
  refine ⟨fun hn hrow => ?_, fun hn hrow hwf => ?_⟩
  · have issued (l : List Turn) : exec i (s.withSched l) = issueIoctl sel (s.withSched l) :=
      hrow.elim (exec_queryRows (s := s.withSched l) hn) (exec_malformedRows _)
    rw [issued]
    exact issueIoctl_rejects hi hd (ioctlGate_noInit hn) rest
  · rw [exec_malformedRows _ hrow]
    exact issueIoctl_rejects hi hd (ioctlGate_malformed (s := s.ioctlIssued sel) hn (malformedRows_illegal sel i hrow hwf)) rest

/-- Settles O20: the dispatch writes VAL, and the `return` is next. -/
theorem sectorSize : Obligations.SectorSize := by
  intro s rest hi hd hn
  obtain ⟨hpos, htodo⟩ := (isIdle_iff s).1 hi
  have size : Machine.ioctlGate (s.ioctlIssued 0x02) = .next (((s.ioctlIssued 0x02).writeVal 512).endWith .ok) :=
    ioctlGate_sectorSize (s := s.ioctlIssued 0x02) hn rfl
  rw [exec_ioctlGetSectorSize, issueIoctl_ends hi hd size htodo rest, hpos]
  rfl

/-- Settles O21: the issue refuses the query unless NOINIT is set, and then the dispatch answers first. -/
theorem eraseBlockSize : Obligations.EraseBlockSize := by
  intro s rest hi hd
  refine ⟨exec_ioctlGetEraseBlockSize_refused hi hd, fun hn => ?_⟩
  rw [exec_queryRows (i := .ioctlGetEraseBlockSize) (s := s.withSched (engineTurns 2 ++ rest)) (sel := 0x03) hn (by simp [queryRows])]
  exact issueIoctl_rejects hi hd (ioctlGate_noInit hn) rest

/-- Settles O23: each card's answer leads to the closing `deselect()`, with what the decode gave of it. -/
theorem sectorCount : Obligations.SectorCount := by
  intro s d more hi hd hn
  have htodo := ((isIdle_iff s).1 hi).2
  refine ⟨fun p q csd hp hr hq hc => ?_, fun p b hp hr hb hc => ?_, fun p hp hr hc => ?_⟩
  · obtain ⟨n, t, run, ht, htmr⟩ := reaches_csdPacket htodo hp hr hc
    have hlen : q.data.length = Dest.csd.len := by rw [hq, Vector.length_toList]; rfl
    obtain ⟨m, u, packet, hutodo, halong, hlat, -, hmem, hutmr, hflag, hcsdr⟩ := call_receive (d := .csd) (u := .csdData) ht.todo hlen
      ht.along.card
    have hcsd : u.wk.csdr = csd := by rw [hcsdr, hq]; exact fillCsd_toList csd _
    rw [doTest_csdReceived hflag, hcsd] at packet
    obtain ⟨turns, w, htimed, hexec⟩ := sectorCount_closes hi hd hn (run.trans packet).passes (ht.keeps hutodo halong hlat hmem)
    obtain ⟨n, rfl⟩ := htimed.exists_engineTurns
    refine ⟨n, w, fun rest => (hexec rest).trans ?_⟩
    rw [hutmr, htmr]
    simp only [List.append_assoc]
    cases decodeCsd csd <;> rfl
  · obtain ⟨n, t, run, ht, htmr⟩ := reaches_csdPacket htodo hp hr hc
    obtain ⟨u, wait, hutodo, halong, hlat, -, hmem, hutmr, hflag⟩ := call_badToken (d := .csd) (u := .csdData) ht.todo hb ht.along.card
    rw [doTest_csdMissing hflag] at wait
    obtain ⟨turns, w, htimed, hexec⟩ := sectorCount_closes hi hd hn (run.into wait) (ht.keeps hutodo halong hlat hmem)
    refine ⟨turns, w, htimed, fun rest => (hexec rest).trans ?_⟩
    rw [hutmr, htmr]
    simp only [List.append_assoc]
    rfl
  · obtain ⟨t, run, ht, halong, hlat, hmem, htmr, hr1⟩ := call_attempt (s := s.counting) (cmd := cmdSendCsd) (arg := 0) (u := .csdCmd)
      (by decide) (by decide) htodo hp hc
    rw [doTest_csdRejected (hr1 ▸ hr)] at run
    obtain ⟨turns, w, htimed, hexec⟩ := sectorCount_closes hi hd hn run ⟨ht, halong, hlat, hmem⟩
    refine ⟨turns, w, htimed, fun rest => (hexec rest).trans ?_⟩
    rw [htmr]
    simp only [List.append_assoc]
    rfl

end Sys2Proof.Proofs
end

section
/-! The capacity in a CSD (46_query_ioctl.md R293, R294): each field of it as a number, and the decode over the fields. -/

namespace Sys2Proof.Machine

/-! ### Fields of a byte -/

theorem byte_high2 : ∀ b : Byte, (b.setWidth 32 >>> 6).toNat = b.toNat / 64 := by decide

theorem byte_low6 : ∀ b : Byte, (b.setWidth 32 &&& 0x3F).toNat = b.toNat % 64 := by decide

theorem byte_low4 : ∀ b : Byte, (b.setWidth 32 &&& 0x0F).toNat = b.toNat % 16 := by decide

theorem byte_bit7 : ∀ b : Byte, ((b.setWidth 32 &&& 0x80) >>> 7).toNat = b.toNat / 128 := by decide

theorem byte_low2 : ∀ b : Byte, (b.setWidth 32 &&& 0x03).toNat = b.toNat % 4 := by decide

theorem byte_low2_doubled : ∀ b : Byte, ((b.setWidth 32 &&& 0x03) <<< 1).toNat = b.toNat % 4 * 2 := by decide

section
variable (v : Vector Byte 16)

/-! ### The fields of a CSD -/

theorem csdByte_toNat (i : Fin 16) : (csdByte v i).toNat = (v.get i).toNat :=
  BitVec.toNat_setWidth_of_le (by decide)

/-- The structure version decides as a number. -/
theorem csdVersion_iff (n : Nat) (hn : n < 2 ^ 32) : csdByte v 0 >>> 6 = BitVec.ofNat 32 n ↔ v[0].toNat / 64 = n := by
  rw [← BitVec.toNat_inj, show (csdByte v 0 >>> 6).toNat = _ from byte_high2 v[0], BitVec.toNat_ofNat, Nat.mod_eq_of_lt hn]

theorem csdExponent_eq : csdExponent v = v[5].toNat % 16 + v[10].toNat / 128 + v[9].toNat % 4 * 2 + 2 := by
  show (v[5].setWidth 32 &&& 0x0F).toNat + ((v[10].setWidth 32 &&& 0x80) >>> 7).toNat + ((v[9].setWidth 32 &&& 0x03) <<< 1).toNat + 2 = _
  rw [byte_low4, byte_bit7, byte_low2_doubled]

theorem csdSizeV2_toNat : (csdSizeV2 v).toNat = v[7].toNat % 64 * 65536 + v[8].toNat * 256 + v[9].toNat + 1 := by
  have h7 : (csdByte v 7 &&& 0x3F).toNat = v[7].toNat % 64 := byte_low6 v[7]
  have h8 : (csdByte v 8).toNat = v[8].toNat := csdByte_toNat v 8
  have h9 : (csdByte v 9).toNat = v[9].toNat := csdByte_toNat v 9
  have l8 := v[8].isLt
  have l9 := v[9].isLt
  simp only [csdSizeV2, BitVec.toNat_add, BitVec.toNat_shiftLeft, Nat.shiftLeft_eq, h7, h8, h9, show (1 : Word).toNat = 1 from rfl]
  omega

theorem csdSizeV1_toNat : (csdSizeV1 v).toNat = v[6].toNat % 4 * 1024 + v[7].toNat * 4 + v[8].toNat / 64 + 1 := by
  have h6 : (csdByte v 6 &&& 0x03).toNat = v[6].toNat % 4 := byte_low2 v[6]
  have h7 : (csdByte v 7).toNat = v[7].toNat := csdByte_toNat v 7
  have h8 : (csdByte v 8 >>> 6).toNat = v[8].toNat / 64 := byte_high2 v[8]
  have l7 := v[7].isLt
  have l8 := v[8].isLt
  simp only [csdSizeV1, BitVec.toNat_add, BitVec.toNat_shiftLeft, Nat.shiftLeft_eq, h6, h7, h8, show (1 : Word).toNat = 1 from rfl]
  omega

/-! ### The decode -/

variable {v}

/-- Structure version 1: the size times 1024, in 32 bits (R293). -/
theorem decodeCsd_version1 (h : v[0].toNat / 64 = 1) : decodeCsd v = some (csdSizeV2 v <<< 10) :=
  if_pos ((csdVersion_iff v 1 (by decide)).2 h)

/-- Structure version 0 is decoded by its own fields (R294). -/
theorem decodeCsd_version0 (h : v[0].toNat / 64 = 0) : decodeCsd v = decodeCsdV1 v :=
  (if_neg (mt (csdVersion_iff v 1 (by decide)).1 (by omega))).trans (if_pos ((csdVersion_iff v 0 (by decide)).2 h))

/-- Every other version is refused. -/
theorem decodeCsd_otherVersion (h : 2 ≤ v[0].toNat / 64) : decodeCsd v = none :=
  (if_neg (mt (csdVersion_iff v 1 (by decide)).1 (by omega))).trans (if_neg (mt (csdVersion_iff v 0 (by decide)).1 (by omega)))

/-- The capacity of structure version 0 fits in 32 bits: at most 2^12 times 2^15. -/
theorem csdCapacityV1_toNat : (csdSizeV1 v <<< (csdExponent v - 9)).toNat = (csdSizeV1 v).toNat * 2 ^ (csdExponent v - 9) := by
  have size : (csdSizeV1 v).toNat ≤ 2 ^ 12 := by
    rw [csdSizeV1_toNat]
    omega
  have exponent : csdExponent v - 9 ≤ 15 := by
    rw [csdExponent_eq]
    omega
  have fits : (csdSizeV1 v).toNat * 2 ^ (csdExponent v - 9) < 2 ^ 32 := calc
    _ ≤ 2 ^ 12 * 2 ^ 15 := Nat.mul_le_mul size (Nat.pow_le_pow_right (by decide) exponent)
    _ < 2 ^ 32 := by decide
  rw [BitVec.toNat_shiftLeft, Nat.shiftLeft_eq, Nat.mod_eq_of_lt fits]

end

end Sys2Proof.Machine

namespace Sys2Proof.Proofs

open Sys2Proof.Machine

/-- Settles O24: the version picks the branch, and each branch computes with the fields as numbers. -/
theorem csdArithmetic : Obligations.CsdArithmetic := by
  intro v
  refine ⟨fun h => ⟨_, decodeCsd_version1 h, ?_⟩, fun h hn => ?_, fun h hn => ?_, decodeCsd_otherVersion⟩
  · rw [BitVec.toNat_shiftLeft, Nat.shiftLeft_eq, csdSizeV2_toNat]
  · rw [← csdExponent_eq] at hn
    exact (decodeCsd_version0 h).trans (if_pos hn)
  · rw [← csdExponent_eq] at hn ⊢
    refine ⟨_, (decodeCsd_version0 h).trans (if_neg (Nat.not_lt.2 hn)), ?_⟩
    rw [csdCapacityV1_toNat, csdSizeV1_toNat]

end Sys2Proof.Proofs
end

section
/-! Fair executions (70_reset_and_hazards.md R366; 41_timeout_service.md R155). An operation that never ended would settle into smaller and
smaller behaviours: Laws/Termination.lean says what a step of ENGINE does to what is left, and each number that cannot grow settles, each
counter that nothing arms runs down, until ENGINE has no step left that it could take. -/

namespace Sys2Proof.Machine

/-! ### What goes on for ever -/

/-- From a moment on every step is one of ENGINE's, as `r` says, or a quiet one of another agent. -/
def RunsFrom (turn : Nat → Turn) (state : Nat → State) (r : State → State → Prop) (m : Nat) : Prop :=
  ∀ n, m ≤ n → ((turn n).ticks = false ∧ r (state n) (state (n + 1))) ∨
    ((turn n).steps (state n) = false ∧ Quiet (turn n) (state n) (state (n + 1)))

section
variable {turn : Nat → Turn} {state : Nat → State} {r q : State → State → Prop} {m : Nat}

theorem RunsFrom.later (h : RunsFrom turn state r m) {k : Nat} (hk : m ≤ k) : RunsFrom turn state r k :=
  fun n hn => h n (Nat.le_trans hk hn)

theorem RunsFrom.imp (h : RunsFrom turn state r m) (hq : ∀ s t, r s t → q s t) : RunsFrom turn state q m :=
  fun n hn => (h n hn).imp_left fun ⟨hc, hr⟩ => ⟨hc, hq _ _ hr⟩

/-- ENGINE's step comes again. -/
theorem RunsFrom.again (h : RunsFrom turn state r m) (fair : EngineFair turn state) :
    ∃ j, m ≤ j ∧ r (state j) (state (j + 1)) := by
  obtain ⟨j, hj, steps⟩ := fair m
  rcases h j hj with ⟨-, hr⟩ | ⟨idle, -⟩
  · exact ⟨j, hj, hr⟩
  · rw [steps] at idle; cases idle

/-- What holds once, and is kept by ENGINE's steps and the quiet ones, holds from then on. -/
theorem RunsFrom.invariant (h : RunsFrom turn state r m) {P : State → Prop} (start : P (state m))
    (engine : ∀ s t, r s t → P s → P t) (quiet : ∀ a s t, Quiet a s t → P s → P t) : ∀ n, m ≤ n → P (state n) := by
  intro n hn
  induction n, hn using Nat.le_induction with
  | base => exact start
  | succ n hn ih =>
    rcases h n hn with ⟨-, hr⟩ | ⟨-, hq⟩
    · exact engine _ _ hr ih
    · exact quiet _ _ _ hq ih

/-- A number of the state that never grows stops changing. -/
theorem RunsFrom.settles (h : RunsFrom turn state r m) {f : State → Nat} (engine : ∀ s t, r s t → f t ≤ f s)
    (quiet : ∀ a s t, Quiet a s t → f t = f s) : ∃ k, m ≤ k ∧ RunsFrom turn state (fun s t => r s t ∧ f t = f s) k := by
  obtain ⟨k, hk, same⟩ := settles_down (f := fun n => f (state n)) (m := m) fun n hn => by
    rcases h n hn with ⟨-, hr⟩ | ⟨-, hq⟩
    · exact engine _ _ hr
    · exact Nat.le_of_eq (quiet _ _ _ hq)
  refine ⟨k, hk, fun n hn => (h n (Nat.le_trans hk hn)).imp_left fun ⟨hc, hr⟩ => ⟨hc, hr, ?_⟩⟩
  exact (same (n + 1) (Nat.le_succ_of_le hn)).trans (same n hn).symm

/-- A counter that ENGINE does not write any more runs down (41_timeout_service.md R155). -/
theorem RunsFrom.expires (h : RunsFrom turn state r m) (live : TickLive turn) (i : Timer)
    (engine : ∀ s t, r s t → t.tmr.get i = s.tmr.get i) :
    ∃ k, m ≤ k ∧ RunsFrom turn state (fun s t => r s t ∧ s.expired i = true) k := by
  obtain ⟨k, hk, zero⟩ := runs_down (f := fun n => (state n).tmr.get i) live fun n hn => by
    rcases h n hn with ⟨hc, hr⟩ | ⟨-, hq⟩
    · exact .inl ⟨hc, engine _ _ hr⟩
    · exact hq.counts i
  refine ⟨k, hk, fun n hn => (h n (Nat.le_trans hk hn)).imp_left fun ⟨hc, hr⟩ => ⟨hc, hr, ?_⟩⟩
  exact beq_iff_eq.2 (zero n hn)

end

/-! ### Steps that change nothing of what is left -/

/-- One half of the round of a wait: the exchange, or the question to a counter that has not expired. -/
def HalfRound (x : Exchange) (l : Local) (i : Timer) (k : List Micro) (s t : State) : Prop :=
  t.tmr = s.tmr ∧ ((s.todo = .exchange x :: k ∧ t.todo = .act l :: k) ∨
    (s.todo = .act l :: k ∧ s.expired i = false ∧ t.todo = .exchange x :: k))

/-- A half of the round of some wait. -/
def GoesRound (s t : State) : Prop := ∃ x l i k, (x, l, i) ∈ waitLoops ∧ HalfRound x l i k s t

/-- Where the operation gets no further, T_NEG is armed no oftener. -/
theorem Moves.arms_le {s t : State} (h : Moves s t) (hop : t.opRank = s.opRank) : t.arms ≤ s.arms := by
  cases h with
  | down h => exact absurd hop (Nat.ne_of_lt h)
  | on h1 h2 h3 h4 => exact h3
  | asks x l i k hx h1 h2 hp hl ht => exact Nat.le_of_eq (wait_ranks hx (.inl ⟨rfl, rfl⟩) h1 h2 hp).2
  | waits x l i k hx h1 he h2 hp hl ht => exact Nat.le_of_eq (wait_ranks hx (.inr ⟨rfl, rfl⟩) h1 h2 hp).2
  | window h1 he h2 h3 ht => rw [h3]; exact Nat.zero_le _

/-- Where it is not armed, T_NEG stays. -/
theorem Moves.neg_same {s t : State} (h : Moves s t) (hop : t.opRank = s.opRank) (ha : t.arms = s.arms) : t.tmr.neg = s.tmr.neg := by
  cases h with
  | down h => exact absurd hop (Nat.ne_of_lt h)
  | on h1 h2 h3 h4 => exact h4 ha
  | asks x l i k hx h1 h2 hp hl ht => rw [ht]
  | waits x l i k hx h1 he h2 hp hl ht => rw [ht]
  | window h1 he h2 h3 ht => rw [ht]

/-- With the window closed less is left of the micro-operation, or ENGINE goes round a wait. -/
theorem Moves.left_or_round {s t : State} (h : Moves s t) (hop : t.opRank = s.opRank) (hn : s.expired .neg = true) :
    t.leftRank < s.leftRank ∨ (t.leftRank = s.leftRank ∧ GoesRound s t) := by
  cases h with
  | down h => exact absurd hop (Nat.ne_of_lt h)
  | on h1 h2 h3 h4 => exact .inl h2
  | asks x l i k hx h1 h2 hp hl ht =>
    exact .inr ⟨(wait_ranks hx (.inl ⟨rfl, rfl⟩) h1 h2 hp).1, x, l, i, k, hx, ht, .inl ⟨h1, h2⟩⟩
  | waits x l i k hx h1 he h2 hp hl ht =>
    exact .inr ⟨(wait_ranks hx (.inr ⟨rfl, rfl⟩) h1 h2 hp).1, x, l, i, k, hx, ht, .inr ⟨h1, he, h2⟩⟩
  | window h1 he h2 h3 ht => rw [hn] at he; cases he

/-- The exchange of a wait, and the question it asks, each tell which wait it is. -/
theorem waitLoops_unique {x y : Exchange} {l j : Local} {i c : Timer} (h : (x, l, i) ∈ waitLoops) (g : (y, j, c) ∈ waitLoops)
    (e : x = y ∨ l = j) : y = x ∧ j = l ∧ c = i := by
  simp only [waitLoops, List.mem_cons, Prod.mk.injEq, List.not_mem_nil, or_false] at h g
  rcases h with ⟨rfl, rfl, rfl⟩ | ⟨rfl, rfl, rfl⟩ <;> rcases g with ⟨rfl, rfl, rfl⟩ | ⟨rfl, rfl, rfl⟩
  · exact ⟨rfl, rfl, rfl⟩
  · exact e.elim nofun nofun
  · exact e.elim nofun nofun
  · exact ⟨rfl, rfl, rfl⟩

/-- PHASE stands in this wait. -/
def State.inLoop (s : State) (x : Exchange) (l : Local) (k : List Micro) : Prop := s.todo = .exchange x :: k ∨ s.todo = .act l :: k

theorem HalfRound.inLoop {x : Exchange} {l : Local} {i : Timer} {k : List Micro} {s t : State} (h : HalfRound x l i k s t) :
    t.inLoop x l k := by
  rcases h.2 with ⟨-, ht⟩ | ⟨-, -, ht⟩
  · exact .inr ht
  · exact .inl ht

/-- In a wait, a half round is one of that wait. -/
theorem GoesRound.of_inLoop {x : Exchange} {l : Local} {i : Timer} {k : List Micro} {s t : State} (h : GoesRound s t)
    (hx : (x, l, i) ∈ waitLoops) (hs : s.inLoop x l k) : HalfRound x l i k s t := by
  obtain ⟨y, j, c, k', hy, hr⟩ := h
  have same : (x = y ∨ l = j) ∧ k' = k := by
    rcases hr.2 with ⟨h1, -⟩ | ⟨h1, -, -⟩ <;> rcases hs with h2 | h2 <;> rw [h1] at h2
    · cases h2; exact ⟨.inl rfl, rfl⟩
    · cases h2
    · cases h2
    · cases h2; exact ⟨.inr rfl, rfl⟩
  obtain ⟨hl, rfl⟩ := same
  obtain ⟨rfl, rfl, rfl⟩ := waitLoops_unique hx hy hl
  exact hr

/-! ### No operation goes on for ever -/

section
variable {turn : Nat → Turn} {state : Nat → State} {m : Nat}

/-- ENGINE does not go round one wait for ever: its counter runs down, and the next question is answered with its end. -/
theorem not_runs_halfRounds {x : Exchange} {l : Local} {i : Timer} {k : List Micro} (fair : EngineFair turn state)
    (live : TickLive turn) : ¬ RunsFrom turn state (HalfRound x l i k) m := by
  intro h
  obtain ⟨m₁, -, h₁⟩ := h.expires live i fun _ _ hr => by rw [hr.1]
  have h₂ : RunsFrom turn state (fun s t => s.todo = .exchange x :: k ∧ t.todo = .act l :: k) m₁ :=
    h₁.imp fun _ _ ⟨⟨_, hr⟩, he⟩ => hr.resolve_right fun ⟨_, hne, _⟩ => by rw [he] at hne; cases hne
  obtain ⟨j, hj, -, hl⟩ := h₂.again fair
  have h₃ := h₂.later (Nat.le_succ_of_le hj)
  have stays := h₃.invariant (P := fun s => s.todo = .act l :: k) hl (fun _ _ hr _ => hr.2) fun _ _ _ hq hs => hq.todo.trans hs
  obtain ⟨n, hn, hx, -⟩ := h₃.again fair
  have := (stays n hn).symm.trans hx
  cases this

/-- ENGINE does not go round waits for ever: it never leaves the one it is in. -/
theorem not_runs_goesRound (fair : EngineFair turn state) (live : TickLive turn) : ¬ RunsFrom turn state GoesRound m := by
  intro h
  obtain ⟨j, hj, x, l, i, k, hx, hr⟩ := h.again fair
  have h₁ := h.later (Nat.le_succ_of_le hj)
  have stays := h₁.invariant (P := fun s => s.inLoop x l k) hr.inLoop (fun _ _ hg hs => (hg.of_inLoop hx hs).inLoop)
    fun _ _ _ hq hs => by rw [State.inLoop, hq.todo]; exact hs
  exact not_runs_halfRounds fair live fun n hn => (h₁ n hn).imp_left fun ⟨hc, hg⟩ => ⟨hc, hg.of_inLoop hx (stays n hn)⟩

/-- ENGINE does not step inside one operation for ever. -/
theorem not_runs_moves (fair : EngineFair turn state) (live : TickLive turn) : ¬ RunsFrom turn state Moves m := by
  intro h
  obtain ⟨m₁, -, h₁⟩ := h.settles (f := State.opRank) (fun _ _ hr => hr.opRank_le) fun _ _ _ hq => hq.ranks.1
  obtain ⟨m₂, -, h₂⟩ := h₁.settles (f := State.arms) (fun _ _ ⟨hr, hop⟩ => hr.arms_le hop) fun _ _ _ hq => hq.ranks.2.2
  obtain ⟨m₃, -, h₃⟩ := h₂.expires live .neg fun _ _ ⟨⟨hr, hop⟩, ha⟩ => hr.neg_same hop ha
  have h₄ := h₃.imp (q := fun s t => t.leftRank < s.leftRank ∨ (t.leftRank = s.leftRank ∧ GoesRound s t))
    fun _ _ ⟨⟨⟨hr, hop⟩, _⟩, hn⟩ => hr.left_or_round hop hn
  obtain ⟨m₅, -, h₅⟩ := h₄.settles (f := State.leftRank) (fun _ _ hr => hr.elim Nat.le_of_lt fun e => Nat.le_of_eq e.1)
    fun _ _ _ hq => hq.ranks.2.1
  exact not_runs_goesRound fair live
    (h₅.imp fun _ _ ⟨hr, same⟩ => (hr.resolve_left (Nat.not_lt.2 (Nat.le_of_eq same.symm))).2)

end

/-- With the premises of R366 PHASE comes back to IDLE. -/
theorem exists_isIdle {turn : Nat → Turn} {state : Nat → State} (run : IsExecution turn state) (bus : BusResponsive state)
    (fair : EngineFair turn state) (tick : TickFair turn state) (ports : HostPortsOnly turn) (n : Nat) :
    ∃ m, n ≤ m ∧ (state m).isIdle = true := by
  by_contra never
  have busy : ∀ m, n ≤ m → (state m).isIdle = false := fun m hm => Bool.eq_false_iff.2 fun hi => never ⟨m, hm, hi⟩
  have live : EngineLive turn state := fun k => by
    obtain ⟨m, hm, steps⟩ := fair (max k n)
    exact ⟨m, le_of_max_le_left hm, steps, busy m (le_of_max_le_right hm)⟩
  exact not_runs_moves fair (tick live) fun m hm => step_moves (busy m hm) (bus m) (ports m) (run m)

/-! ### The end of a transfer -/

theorem dmaComplete_terminal {ok : Bool} {s t : State} (h : dmaComplete ok s = .next t) : t.terminal := by
  obtain ⟨-, hd⟩ := dmaComplete_dmast h
  cases ok
  · exact .inr hd
  · exact .inl hd

/-- A turn in which DMA_DONE comes ends the transfer in flight (45_dma_completion.md R264). -/
theorem step_completes {a : Turn} {s t : State} (hc : a.completes = true) (h : step (s.withSched [a]) = .next t) : t.terminal := by
  cases a with
  | dmaDone ok => exact dmaComplete_terminal h
  | port f bytes =>
    simp only [Turn.completes, Bool.and_eq_true, beq_iff_eq] at hc
    obtain ⟨rfl, hb⟩ := hc
    rw [step_port (s := s.withSched [.port .event bytes]) rfl nofun] at h
    rcases runPort_event h with ⟨rfl, -⟩ | ⟨ok, -, hd⟩ | ⟨ok, -, hd⟩
    · exact absurd hb (by decide)
    · exact dmaComplete_terminal hd
    · exact dmaComplete_terminal hd
  | engine => cases hc
  | tick => cases hc
  | dma b => cases hc
  | host b => cases hc

end Sys2Proof.Machine

namespace Sys2Proof.Proofs

open Sys2Proof.Machine

/-- Settles O58: an operation that never ended would bring ENGINE to a step it cannot take (`not_runs_moves`), and DMA_DONE is taken only in a
transfer in flight, which it ends. -/
theorem fairExecutions : Obligations.FairExecutions := by
  intro turn state run
  refine ⟨exists_isIdle run, fun completes n hn => ?_⟩
  obtain ⟨m, hm, hc⟩ := completes n hn
  exact ⟨m + 1, Nat.lt_succ_of_le hm, step_completes hc (run m)⟩

end Sys2Proof.Proofs
end
